-- ==== Sys2Proof/Word.lean ====
section
/-! DEFINITION. The two word types of the spec: a byte (R11) and the 32-bit pattern of a header field (R14). -/

namespace Sys2Proof

/-- A byte, an integer 0 to 255 (R11). -/
abbrev Byte := BitVec 8

/-- The 32-bit two's complement pattern of a width or height (R14). -/
abbrev Word32 := BitVec 32

end Sys2Proof
end

