-- ==== Sys2Proof/Config.lean ====
section
/-! DEFINITION. What an implementation fixes: the constants the source fixes (R8), the type of the four capacities the spec
leaves open (R9, U7), and the one free value of the model (the byte the spec calls unspecified: U3, U4). -/

namespace Sys2Proof.Config

/-- The magic tag at offset 0 of a compressed buffer (R8, `MAGIC`). -/
def magic : Byte := 0xBA#8

/-- Bytes of the header (R8, `HEADER_BYTES`); also the byte base of the payload slice (R8 `PAYLOAD_OFF`, R147). -/
def headerBytes : Nat := 9

/-- Pixels of a full chunk (R8, `CHUNK_PIXELS`). -/
def chunkPixels : Nat := 4

/-- The value of a white pixel (R8). -/
def white : Byte := 0xFF#8

/-- The value of a black pixel (R8). -/
def black : Byte := 0x00#8

/-- The four byte stores: the memory spaces PIX, CMP and SCR (R40 to R43) and the data buffer DBUF (R28). -/
inductive Store where
  | pix
  | cmp
  | scr
  | dbuf
  deriving DecidableEq, Repr

/-- The four capacities an implementation chooses (R9, U7). The constraints `CMP_CAP >= 9` and `DBUF_CAP >= 4` are
`Caps.wf`. They are carried in State and no step changes them (log 3). -/
structure Caps where
  pixCap  : Nat
  cmpCap  : Nat
  scrCap  : Nat
  dbufCap : Nat
  deriving DecidableEq, Repr

/-- The capacity of a store. -/
def Caps.cap (c : Caps) : Store → Nat
  | .pix  => c.pixCap
  | .cmp  => c.cmpCap
  | .scr  => c.scrCap
  | .dbuf => c.dbufCap

/-- The constraints R9 puts on the capacities. -/
abbrev Caps.wf (c : Caps) : Prop := headerBytes ≤ c.cmpCap ∧ chunkPixels ≤ c.dbufCap

/-- FREE VALUE. The byte at address `addr` of store `m` in draw number `draw`, wherever the spec says a byte is unspecified:
after reset (U4, R45) and in the destination of a failed command (U3, R252). It has no body: nothing can be proved of it
(log 2, log 6, log 7). -/
opaque freeByte (draw : Nat) (m : Store) (addr : Nat) : Byte

end Sys2Proof.Config
end

