-- ==== Sys2Proof/Machine/Sizes.lean ====
section
/-! DEFINITION. The size functions of R10 and the containment test of R203: exact arithmetic on natural numbers (R9, R148). -/

namespace Sys2Proof.Machine

/-- `ceil(n / 8)`, bits rounded up to bytes (R11). -/
def ceil8 (n : Nat) : Nat := (n + 7) / 8

/-- `CHUNKS(w)` (R10); `CHUNKS(0) = 0` (R217). -/
def chunks (w : Nat) : Nat := (w + 3) / 4

/-- `CHUNK_LEN(w, k)` (R10). -/
def chunkLen (w k : Nat) : Nat := min 4 (w - 4 * k)

/-- `WORST_ROW_BITS(w)` (R10). -/
def worstRowBits (w : Nat) : Nat := 8 * w + 2 * chunks w

/-- `SCRATCH_BYTES(w)` (R10). -/
def scratchBytes (w : Nat) : Nat := ceil8 (worstRowBits w)

/-- `Contained(p)` for a compressed buffer of `l` bytes (R203). -/
abbrev contained (l p : Nat) : Prop := Config.headerBytes + p / 8 < l

end Sys2Proof.Machine
end

