-- ==== Sys2Proof/Syntax.lean ====
section
/-! DEFINITION. The instructions: one constructor for each row of opcode_table.json (R117), the positions at which a code can stand
(R118), and a compressed image as a list of codes (R114). -/

namespace Sys2Proof

/-- One constructor per row of the opcode table. The literal bytes are in pixel order (R102). -/
inductive Instr where
  /-- `HEADER`: magic, width, height (R91). -/
  | header (width height : Word32)
  /-- `P0`: presence bit 0, the row is entirely white (R97). -/
  | p0
  /-- `P1`: presence bit 1, the row is encoded (R97). -/
  | p1
  /-- `W`: a white chunk, code `0` (R99). -/
  | w
  /-- `B`: a black chunk, code `10` (R100). -/
  | b
  /-- `L4`: a literal chunk of four pixels, code `11` and 32 literal bits (R101). -/
  | l4 (x0 x1 x2 x3 : Byte)
  /-- `L3`: a literal chunk of three pixels (R101). -/
  | l3 (x0 x1 x2 : Byte)
  /-- `L2`: a literal chunk of two pixels (R101). -/
  | l2 (x0 x1 : Byte)
  /-- `L1`: a literal chunk of one pixel (R101). -/
  | l1 (x0 : Byte)
  /-- `RDBIT`: command code 1 (R110). -/
  | rdbit
  /-- `RDCHUNK`: command code 2 (R110). -/
  | rdchunk
  /-- `SETBIT`: command code 3 (R110). -/
  | setbit
  /-- `CLRBIT`: command code 4 (R110). -/
  | clrbit
  /-- `WRCHUNK`: command code 5 (R110). -/
  | wrchunk
  /-- `COMPRESS`: command code 6 (R110). -/
  | compress
  /-- `DECOMPRESS`: command code 7 (R110). -/
  | decompress
  deriving DecidableEq, Repr

/-- Where a code stands. The table alone does not say which rows can stand where (R118). -/
inductive Position where
  /-- The 72 bits at CMP addresses 0 to 8 (R91). -/
  | header
  /-- A payload bit `j < height` (R95). -/
  | presence
  /-- The cursor, while a chunk of `n` pixels is decoded (R103). -/
  | chunk (n : Nat)
  /-- The four bits written to `CMD` (R111). -/
  | command
  deriving DecidableEq, Repr

/-- A compressed image as text (R114): `HDR w h`, the presence bits, and for each row with presence 1 its codes. -/
structure Stream where
  width  : Word32
  height : Word32
  pres   : List Bool
  rows   : List (List Instr)
  deriving DecidableEq, Repr

end Sys2Proof
end

