-- ==== Sys2Proof/WellFormed.lean ====
section
/-! DEFINITION. Which codes can stand where (R118) and when a stream written as text is one (R114). -/

namespace Sys2Proof

/-- A chunk has one to four pixels (R10). -/
def Position.wf : Position → Bool
  | .header   => true
  | .presence => true
  | .chunk n  => decide (1 ≤ n ∧ n ≤ 4)
  | .command  => true

/-- The code can stand at the position (R118): of the four literal rows only the one whose length is the chunk's. -/
def Instr.fits (p : Position) : Instr → Bool
  | .header _ _   => decide (p = .header)
  | .p0           => decide (p = .presence)
  | .p1           => decide (p = .presence)
  | .w            => match p with | .chunk n => (Position.chunk n).wf | _ => false
  | .b            => match p with | .chunk n => (Position.chunk n).wf | _ => false
  | .l4 _ _ _ _   => decide (p = .chunk 4)
  | .l3 _ _ _     => decide (p = .chunk 3)
  | .l2 _ _       => decide (p = .chunk 2)
  | .l1 _         => decide (p = .chunk 1)
  | .rdbit        => decide (p = .command)
  | .rdchunk      => decide (p = .command)
  | .setbit       => decide (p = .command)
  | .clrbit       => decide (p = .command)
  | .wrchunk      => decide (p = .command)
  | .compress     => decide (p = .command)
  | .decompress   => decide (p = .command)

/-- The codes of one row, from chunk `k` on, for an image of width `w`: one code for each chunk, each of the chunk's length
(R98, R103). -/
def rowFits (w : Nat) : Nat → List Instr → Bool
  | k, []      => decide (k = Machine.chunks w)
  | k, c :: cs => decide (k < Machine.chunks w) && c.fits (.chunk (Machine.chunkLen w k)) && rowFits w (k + 1) cs

/-- A stream written as text is one (R114): no field is negative, there is one presence bit for each row, one run of codes for
each presence bit that is 1, and each run covers its row. -/
def Stream.wf (s : Stream) : Bool :=
  decide (0 ≤ s.width.toInt) && decide (0 ≤ s.height.toInt) &&
  decide (s.pres.length = s.height.toNat) &&
  decide (s.rows.length = (s.pres.filter (· = true)).length) &&
  s.rows.all (rowFits s.width.toNat 0)

end Sys2Proof
end

