-- ==== Sys2Proof/Decode.lean ====
section
/-! DEFINITION. The decoder, total on any bits and rejecting by name, and after it the encoder (R91 to R104, R111, R114). Bits are in
stream order: the head of a list is the bit at the lowest index, read first (R12). -/

namespace Sys2Proof

/-- Why the decoder gives no instruction. -/
inductive Reject where
  /-- The bits end before the code does. -/
  | truncated
  /-- Byte 0 of a header is not 0xBA (R107). -/
  | badMagic
  /-- A position `chunk n` with `n` not 1 to 4, which no image has (R10). -/
  | noSuchChunkLength
  /-- Command codes 0 and 8 to 15 (R112). -/
  | reservedCommand
  deriving DecidableEq, Repr

/-- The eight bits of a byte, least significant first (R61). -/
def byteBits (x : Byte) : List Bool :=
  [x.getLsbD 0, x.getLsbD 1, x.getLsbD 2, x.getLsbD 3, x.getLsbD 4, x.getLsbD 5, x.getLsbD 6, x.getLsbD 7]

/-- The bits of a run of bytes, byte 0 first (R12). -/
def bytesBits : List Byte → List Bool
  | []      => []
  | x :: xs => byteBits x ++ bytesBits xs

/-- The number whose bit `i` is element `i`. -/
def bitsToNat : List Bool → Nat
  | []      => 0
  | x :: xs => x.toNat + 2 * bitsToNat xs

/-- The byte whose bits stand at the head of a stream, and the rest of it. -/
def takeByte : List Bool → Option (Byte × List Bool)
  | x0 :: x1 :: x2 :: x3 :: x4 :: x5 :: x6 :: x7 :: rest =>
      some (BitVec.ofNat 8 (bitsToNat [x0, x1, x2, x3, x4, x5, x6, x7]), rest)
  | _ => none

/-- `n` bytes from the head of a stream, in order (R102), and the rest of it. -/
def takeBytes : Nat → List Bool → Option (List Byte × List Bool)
  | 0,     bits => some ([], bits)
  | n + 1, bits =>
      match takeByte bits with
      | none           => none
      | some (x, rest) =>
          match takeBytes n rest with
          | none             => none
          | some (xs, rest') => some (x :: xs, rest')

/-- The 32-bit pattern of four bytes, least significant first (R92). -/
def fromLE32 (x0 x1 x2 x3 : Byte) : Word32 :=
  BitVec.ofNat 32 (x0.toNat + 256 * x1.toNat + 65536 * x2.toNat + 16777216 * x3.toNat)

/-- `LE32`: byte `i` is bits `8 i + 7` to `8 i` of the pattern (R92). -/
def toLE32 (v : Word32) : List Byte :=
  [v.extractLsb' 0 8, v.extractLsb' 8 8, v.extractLsb' 16 8, v.extractLsb' 24 8]

/-- The literal row for a run of pixel bytes (R101). -/
def literalOf : List Byte → Except Reject Instr
  | [x0, x1, x2, x3] => .ok (.l4 x0 x1 x2 x3)
  | [x0, x1, x2]     => .ok (.l3 x0 x1 x2)
  | [x0, x1]         => .ok (.l2 x0 x1)
  | [x0]             => .ok (.l1 x0)
  | _                => .error .noSuchChunkLength

/-- A header from the nine bytes at CMP addresses 0 to 8 (R91, R162). -/
def decodeHeader : List Byte → Except Reject Instr
  | [m, w0, w1, w2, w3, h0, h1, h2, h3] =>
      if m = Config.magic then .ok (.header (fromLE32 w0 w1 w2 w3) (fromLE32 h0 h1 h2 h3)) else .error .badMagic
  | _ => .error .truncated

/-- A presence bit (R97). -/
def decodePresence (x : Bool) : Instr := if x then .p1 else .p0

/-- The code at the cursor, for a chunk of `n` pixels, and the bits after it (R104). -/
def decodeChunk (n : Nat) (bits : List Bool) : Except Reject (Instr × List Bool) :=
  if (Position.chunk n).wf then
    match bits with
    | false :: rest         => .ok (.w, rest)
    | true :: false :: rest => .ok (.b, rest)
    | true :: true :: rest  =>
        match takeBytes n rest with
        | none             => .error .truncated
        | some (xs, rest') =>
            match literalOf xs with
            | .ok i    => .ok (i, rest')
            | .error e => .error e
    | _ => .error .truncated
  else .error .noSuchChunkLength

/-- The command of a code written to `CMD` (R110, R112). -/
def decodeCommand (c : BitVec 4) : Except Reject Instr :=
  match c.toNat with
  | 1 => .ok .rdbit
  | 2 => .ok .rdchunk
  | 3 => .ok .setbit
  | 4 => .ok .clrbit
  | 5 => .ok .wrchunk
  | 6 => .ok .compress
  | 7 => .ok .decompress
  | _ => .error .reservedCommand

/-- The instruction at the head of a stream of bits, and the bits after it. For a command the bits are `CMD[0]` to `CMD[3]`. -/
def decode (p : Position) (bits : List Bool) : Except Reject (Instr × List Bool) :=
  match p with
  | .header =>
      match takeBytes Config.headerBytes bits with
      | none            => .error .truncated
      | some (xs, rest) =>
          match decodeHeader xs with
          | .ok i    => .ok (i, rest)
          | .error e => .error e
  | .presence =>
      match bits with
      | x :: rest => .ok (decodePresence x, rest)
      | []        => .error .truncated
  | .chunk n => decodeChunk n bits
  | .command =>
      match bits with
      | x0 :: x1 :: x2 :: x3 :: rest =>
          match decodeCommand (BitVec.ofNat 4 (bitsToNat [x0, x1, x2, x3])) with
          | .ok i    => .ok (i, rest)
          | .error e => .error e
      | _ => .error .truncated

/-- The four bits of a command code, `CMD[0]` first (R111). -/
def commandBits (c : BitVec 4) : List Bool := [c.getLsbD 0, c.getLsbD 1, c.getLsbD 2, c.getLsbD 3]

/-- The code of a command (R110); 0 for what is no command. -/
def commandCode : Instr → BitVec 4
  | .header _ _   => 0
  | .p0           => 0
  | .p1           => 0
  | .w            => 0
  | .b            => 0
  | .l4 _ _ _ _   => 0
  | .l3 _ _ _     => 0
  | .l2 _ _       => 0
  | .l1 _         => 0
  | .rdbit        => 1
  | .rdchunk      => 2
  | .setbit       => 3
  | .clrbit       => 4
  | .wrchunk      => 5
  | .compress     => 6
  | .decompress   => 7

/-- The nine bytes of a header (R91, R160). -/
def headerOf (w h : Word32) : List Byte := Config.magic :: (toLE32 w ++ toLE32 h)

/-- The literal code of a run of pixel bytes: `11` and the bytes' bits (R101, R102). -/
def literalBits (xs : List Byte) : List Bool := true :: true :: bytesBits xs

/-- The bits of an instruction, in stream order (R91, R97 to R102); for a command `CMD[0]` first (R111). -/
def encode : Instr → List Bool
  | .header w h     => bytesBits (headerOf w h)
  | .p0             => [false]
  | .p1             => [true]
  | .w              => [false]
  | .b              => [true, false]
  | .l4 x0 x1 x2 x3 => literalBits [x0, x1, x2, x3]
  | .l3 x0 x1 x2    => literalBits [x0, x1, x2]
  | .l2 x0 x1       => literalBits [x0, x1]
  | .l1 x0          => literalBits [x0]
  | .rdbit          => commandBits (commandCode .rdbit)
  | .rdchunk        => commandBits (commandCode .rdchunk)
  | .setbit         => commandBits (commandCode .setbit)
  | .clrbit         => commandBits (commandCode .clrbit)
  | .wrchunk        => commandBits (commandCode .wrchunk)
  | .compress       => commandBits (commandCode .compress)
  | .decompress     => commandBits (commandCode .decompress)

/-- The codes of a list of instructions one after the other, with no separator (R98). -/
def encodeAll : List Instr → List Bool
  | []      => []
  | c :: cs => encode c ++ encodeAll cs

/-- The payload bits of a stream: the presence bits, then the codes of the encoded rows (R93, R96). -/
def Stream.payload (s : Stream) : List Bool := s.pres ++ encodeAll s.rows.flatten

/-- `n` bytes from a list of bits, least significant first, filled up with zeros (R12, R94: pad bits are 0). -/
def packBytes : Nat → List Bool → List Byte
  | 0,     _    => []
  | n + 1, bits => BitVec.ofNat 8 (bitsToNat (bits.take 8)) :: packBytes n (bits.drop 8)

/-- Assembly of a stream to the bytes of a compressed buffer (R114, R94). -/
def Stream.assemble (s : Stream) : List Byte :=
  headerOf s.width s.height ++ packBytes (Machine.ceil8 s.payload.length) s.payload

/-- The first `k` bits of a number, bit 0 first. -/
def natBits (k w : Nat) : List Bool := (List.range k).map (fun i => w.testBit i)

/-- The position the model reads a table word at. The table's words alone do not tell it (R118): the number of bits does for the
header and the literals; for the rows of at most 8 bits a word whose low four bits are a command's code is read as that command,
any other as a chunk code (log 13). -/
def tablePosition (nbits w : Nat) : Position :=
  if 40 < nbits then .header
  else if 32 < nbits then .chunk 4
  else if 24 < nbits then .chunk 3
  else if 16 < nbits then .chunk 2
  else if 8 < nbits then .chunk 1
  else if 1 ≤ w % 16 ∧ w % 16 ≤ 7 then .command
  else .chunk 4

/-- What the decoder reads from a word of the opcode table: its first `nbits` bits, then zeros up to the longest instruction
(72 bits). -/
def decodeTableWord (nbits w : Nat) : Option Instr :=
  match decode (tablePosition nbits w) (natBits 72 (w % 2 ^ nbits)) with
  | .ok (i, _) => some i
  | .error _   => none

end Sys2Proof
end

