-- ==== Sys2Proof/Machine/State.lean ====
section
/-! DEFINITION. The state of the block as plain data, and the reasons a step stops. -/

namespace Sys2Proof.Machine

/-- Why the machine stops with a fault. Both are SAFE: the model stops where the hardware would go on. -/
inductive Fault where
  /-- Raised by every byte access: address `addr` is not below the capacity of store `m` (R44, U1: "a model treats as a fault").
  SAFE. Only a direct accessor command or the host can cause it in a state a run reaches (R81). -/
  | outOfCapacity (m : Config.Store) (addr : Nat)
  /-- Raised by the host's register access: number `n` is past `DBUF[DBUF_CAP-1]`, so no register has it (R29; log 10). SAFE. -/
  | noSuchRegister (n : Nat)
  deriving DecidableEq, Repr

/-- Why the machine gives no meaning to a step. All are SAFE: the model stops where the hardware would go on. -/
inductive Refusal where
  /-- Raised by `exec` for an instruction without a meaning. No arm of this model raises it. -/
  | notModelled (mnemonic : String)
  /-- Raised by the host's accesses: PIX, CMP or DBUF, or an operand register written, while `STATUS.BUSY = 1` (U2, R75, R278,
  R281: the spec's treatment is `refuse`). SAFE. -/
  | hostAccessWhileBusy
  /-- Raised by the block's own step: `STATUS.BUSY = 1`, both units idle, and `CMD` holds no accessor command. No run reaches
  such a state (log 15). SAFE. -/
  | noCommandRunning
  /-- Raised by the fetch of a chunk code: `N` is not 1 to 4, so no row of the table applies (R10, R118). No run reaches such a
  state (log 15). SAFE. -/
  | noSuchChunkLength
  /-- Raised by DEC when asked to run a command as a stream code. The decoder gives it none (R118; log 15). SAFE. -/
  | notAStreamCode
  deriving DecidableEq, Repr

/-- The states of the decoder (R31). -/
inductive DState where
  | idle
  | validate
  | readPresence
  | allWhiteDone
  | readChunk
  | readPrefix1
  | white
  | readPrefix2
  | black
  | literal
  | readBytes
  | rowDone
  | success
  | failure
  deriving DecidableEq, Repr

/-- The states of the encoder (R32). -/
inductive EState where
  | idle
  | check
  | degenerate
  | header
  | grow
  | rowInit
  | classify
  | emitWhite
  | emitBlack
  | emitLiteral
  | rowWhite
  | rowAppend
  | finish
  | success
  | failure
  deriving DecidableEq, Repr

/-- The flags of `STATUS` (R25). -/
structure Status where
  busy : Bool
  done : Bool
  fail : Bool
  deriving DecidableEq, Repr

/-- A byte store: the bytes that something has written, addresses strictly rising, and the draw of free bytes that every other
address reads from (log 2). -/
structure Mem where
  draw  : Nat
  cells : List Host.Cell
  deriving DecidableEq, Repr

/-- The memories the host can address (R39, R43: not SCR). -/
inductive HostMem where
  | pix
  | cmp
  deriving DecidableEq, Repr

/-- One action of the host (R20, R39). The list of those still to come is the machine's input (log 4). -/
inductive HostOp where
  /-- Write `v` to register number `n` (R29). -/
  | writeReg (n v : Nat)
  /-- Read register number `n` (R29). -/
  | readReg (n : Nat)
  /-- Write bytes to a memory, from address `addr` up (R115). -/
  | writeMem (m : HostMem) (addr : Nat) (bytes : List (BitVec 8))
  /-- Read one byte of a memory. -/
  | readMem (m : HostMem) (addr : Nat)
  /-- A command line of R115: wait for `BUSY = 0`, write the code to `CMD`, wait for `DONE = 1` (R273). -/
  | issue (code : BitVec 4)
  /-- Let the block make one step. -/
  | pass
  /-- Assert the reset input (R270). -/
  | reset
  deriving DecidableEq, Repr

/-- The whole state (R20). -/
structure State where
  /-- `CMD`: the last code that started a command (R24). -/
  cmd : BitVec 4
  /-- `STATUS` (R25). -/
  status : Status
  /-- `ERR`: the cause code of the last completed command (R26). -/
  err : BitVec 4
  /-- `ARG_WIDTH` (R21). -/
  argWidth : BitVec 32
  /-- `ARG_HEIGHT` (R21). -/
  argHeight : BitVec 32
  /-- `ARG_PRESENT` (R22). -/
  argPresent : Bool
  /-- `ARG_LEN` (R22). -/
  argLen : Nat
  /-- `ARG_MEM`: false is PIX, true is CMP (R23). -/
  argMem : Bool
  /-- `ARG_BASE` (R23). -/
  argBase : Nat
  /-- `ARG_BIT` (R23). -/
  argBit : Nat
  /-- `RES_LEN` (R27). -/
  resLen : Nat
  /-- `RES_WIDTH` (R27). -/
  resWidth : BitVec 32
  /-- `RES_HEIGHT` (R27). -/
  resHeight : BitVec 32
  /-- `RES_BIT` (R27). -/
  resBit : Bool
  /-- `DBUF` (R28). -/
  dbuf : Mem
  /-- `W` (R30). -/
  w : Nat
  /-- `H` (R30). -/
  h : Nat
  /-- `L` (R30). -/
  l : Nat
  /-- `ROW` (R30). -/
  row : Nat
  /-- `CHK` (R30). -/
  chk : Nat
  /-- `N` (R30). -/
  n : Nat
  /-- `DSTATE` (R31). -/
  dstate : DState
  /-- `ESTATE` (R32). -/
  estate : EState
  /-- `RC` (R33). -/
  rc : Nat
  /-- `ROWWHITE` (R33). -/
  rowWhite : Bool
  /-- `EXT` (R33). -/
  ext : Nat
  /-- MODEL'S OWN: the pixels `px` that `E_CLASSIFY` read, for `E_EMIT_LITERAL` (R176, R179; log 12). -/
  px : List (BitVec 8)
  /-- `CUR`, the bit cursor (R34). -/
  cur : Nat
  /-- PIX (R41). -/
  pix : Mem
  /-- CMP (R42). -/
  cmp : Mem
  /-- SCR (R43). -/
  scr : Mem
  /-- MODEL'S OWN: the capacities of this instance of the block (R9, U7; log 3). -/
  caps : Config.Caps
  /-- MODEL'S OWN: the host's actions still to come (log 4). -/
  host : List HostOp
  /-- MODEL'S OWN: what the host's last read returned (log 4). -/
  hostSaw : Nat
  /-- MODEL'S OWN: how many draws of free bytes have been made (log 7). -/
  draws : Nat
  deriving DecidableEq, Repr

/-- The state the reset input puts the block into (R45, R270): registers 0, units idle, every byte of PIX, CMP, SCR and DBUF free.
What the spec leaves unspecified of the working registers is 0 here (DESIGN CHOICE, log 1). -/
def State.afterReset (caps : Config.Caps) (host : List HostOp) (hostSaw draws : Nat) : State where
  cmd := 0
  status := { busy := false, done := false, fail := false }
  err := 0
  argWidth := 0
  argHeight := 0
  argPresent := false
  argLen := 0
  argMem := false
  argBase := 0
  argBit := 0
  resLen := 0
  resWidth := 0
  resHeight := 0
  resBit := false
  dbuf := { draw := draws, cells := [] }
  w := 0
  h := 0
  l := 0
  row := 0
  chk := 0
  n := 0
  dstate := .idle
  estate := .idle
  rc := 0
  rowWhite := false
  ext := 0
  px := []
  cur := 0
  pix := { draw := draws, cells := [] }
  cmp := { draw := draws, cells := [] }
  scr := { draw := draws, cells := [] }
  caps := caps
  host := host
  hostSaw := hostSaw
  draws := draws + 1

/-- The machine right after reset (R45), on an instance whose capacities are a DESIGN CHOICE (log 3), with no host action to come. -/
def State.reset : State :=
  State.afterReset { pixCap := 4096, cmpCap := 8192, scrCap := 1024, dbufCap := 64 } [] 0 0

end Sys2Proof.Machine
end

