-- ==== Sys2Proof/Machine/Ops.lean ====
section
/-! DEFINITION. The named operations: the byte stores, the five primitives of the Bit Accessor (R130 to R138), the run of bytes
written or read in ascending order, the destination of a failed command (R252), and `raise Fail` (R250), the block's one event of
the kind of an exception. There is no return from it (R253). -/

namespace Sys2Proof.Machine

open Config (Store)

/-- Why an operation stops: a fault or a refusal of the model. A failure of the block (`raise Fail`, R250) is no stop. -/
inductive Stop where
  | fault (r : Fault)
  | refuse (r : Refusal)
  deriving DecidableEq, Repr

/-- The result of an operation that may stop. -/
abbrev Res (α : Type) := Except Stop α

/-- The outcome of a step whose result is a state. -/
def toOutcome : Res State → Host.Outcome State Fault Refusal
  | .ok s               => .next s
  | .error (.fault r)   => .fault r
  | .error (.refuse r)  => .refused r

/-! ### The byte stores -/

/-- The byte listed at an address, if one is. -/
def cellsGet : List Host.Cell → Nat → Option Byte
  | [],           _ => none
  | (b, x) :: cs, a => if a = b then some x else cellsGet cs a

/-- The list with byte `v` at address `a`, in its place among strictly rising addresses. -/
def cellsSet : List Host.Cell → Nat → Byte → List Host.Cell
  | [],           a, v => [(a, v)]
  | (b, x) :: cs, a, v =>
      if a < b then (a, v) :: (b, x) :: cs
      else if a = b then (a, v) :: cs
      else (b, x) :: cellsSet cs a v

/-- The canonical form: addresses strictly rising. An address that is not listed holds no value of its own (it reads as a free
byte), so no entry can equal what an unlisted address holds (log 2). -/
abbrev Mem.wf (m : Mem) : Prop := (m.cells.map Prod.fst).Pairwise (· < ·)

/-- The byte at an address: the listed one, or the free byte of the store's draw (log 2). -/
def Mem.byteAt (m : Mem) (which : Store) (a : Nat) : Byte :=
  (cellsGet m.cells a).getD (Config.freeByte m.draw which a)

/-- A byte store of the state. -/
def State.mem (s : State) : Store → Mem
  | .pix  => s.pix
  | .cmp  => s.cmp
  | .scr  => s.scr
  | .dbuf => s.dbuf

/-- The state with a byte store replaced. -/
def State.setMem (s : State) : Store → Mem → State
  | .pix,  m => { s with pix := m }
  | .cmp,  m => { s with cmp := m }
  | .scr,  m => { s with scr := m }
  | .dbuf, m => { s with dbuf := m }

/-- THE MODEL'S READ OF ONE BYTE: the byte of store `m` at address `a`. Reading changes nothing (R68). -/
def State.byteAt (s : State) (m : Store) (a : Nat) : Byte := (s.mem m).byteAt m a

/-- The state with byte `v` at address `a` of store `m`. -/
def State.setByte (s : State) (m : Store) (a : Nat) (v : Byte) : State :=
  s.setMem m { s.mem m with cells := cellsSet (s.mem m).cells a v }

/-- The state with a run of bytes in a store, from address `a` up, whatever its capacity. -/
def placeBytes (s : State) (m : Store) : Nat → List Byte → State
  | _, []      => s
  | a, x :: xs => placeBytes (s.setByte m a x) m (a + 1) xs

/-- `MemRead(M, a, 1)` (R13, R60): defined only below the capacity (R44, U1). -/
def load (s : State) (m : Store) (a : Nat) : Res Byte :=
  if a < s.caps.cap m then .ok (s.byteAt m a) else .error (.fault (.outOfCapacity m a))

/-- `MemWrite(M, a, 1, v)` (R13, R60): defined only below the capacity (R44, U1). -/
def store (s : State) (m : Store) (a : Nat) (v : Byte) : Res State :=
  if a < s.caps.cap m then .ok (s.setByte m a v) else .error (.fault (.outOfCapacity m a))

/-- `MemRead(M, a, n)`: `n` bytes, lowest address first (R13). -/
def loadBytes (s : State) (m : Store) : Nat → Nat → Res (List Byte)
  | _, 0     => .ok []
  | a, n + 1 => do
      let x ← load s m a
      let xs ← loadBytes s m (a + 1) n
      .ok (x :: xs)

/-- `MemWrite(M, a, n, v)`: a run of bytes, lowest address first (R13). -/
def storeBytes (s : State) (m : Store) : Nat → List Byte → Res State
  | _, []      => .ok s
  | a, x :: xs => do
      let s1 ← store s m a x
      storeBytes s1 m (a + 1) xs

/-- The same byte at `n` addresses from `a` up, lowest first. -/
def storeFill (s : State) (m : Store) (a n : Nat) (v : Byte) : Res State :=
  storeBytes s m a (List.replicate n v)

/-! ### The primitives of the Bit Accessor -/

/-- The byte address `B` of bit `b` of the slice with byte base `base` (R130). -/
def byteOf (base b : Nat) : Nat := base + b / 8

/-- `BitRead(M, base, b)` (R131). -/
def bitRead (s : State) (m : Store) (base b : Nat) : Res Bool := do
  let x ← load s m (byteOf base b)
  .ok ((x >>> (b % 8)).getLsbD 0)

/-- `BitSet(M, base, b)` (R133). -/
def bitSet (s : State) (m : Store) (base b : Nat) : Res State := do
  let x ← load s m (byteOf base b)
  store s m (byteOf base b) (x ||| (1#8 <<< (b % 8)))

/-- `BitClear(M, base, b)` (R134). -/
def bitClear (s : State) (m : Store) (base b : Nat) : Res State := do
  let x ← load s m (byteOf base b)
  store s m (byteOf base b) (x &&& (0xFF#8 - (1#8 <<< (b % 8))))

/-- One byte of `ChunkRead` (R132): an aligned one is read alone (R138), another is put together from the two it straddles. -/
def chunkByte (s : State) (m : Store) (base b : Nat) : Res Byte :=
  if b % 8 = 0 then load s m (byteOf base b)
  else do
    let x ← load s m (byteOf base b)
    let y ← load s m (byteOf base b + 1)
    .ok ((x >>> (b % 8)) ||| (y <<< (8 - b % 8)))

/-- `ChunkRead(M, base, b, n)` (R132); byte `i` starts at bit `b + 8 i`. -/
def chunkRead (s : State) (m : Store) (base : Nat) : Nat → Nat → Res (List Byte)
  | _, 0     => .ok []
  | b, n + 1 => do
      let x ← chunkByte s m base b
      let xs ← chunkRead s m base (b + 8) n
      .ok (x :: xs)

/-- The mask of the low `sh` bits (R135). -/
def lowMask (sh : Nat) : Byte := (1#8 <<< sh) - 1#8

/-- One iteration of `ChunkWrite` (R135): read before write in each byte, the lower byte first. -/
def chunkWriteByte (s : State) (m : Store) (base b : Nat) (x : Byte) : Res State :=
  if b % 8 = 0 then store s m (byteOf base b) x
  else do
    let lo ← load s m (byteOf base b)
    let s1 ← store s m (byteOf base b) ((lo &&& lowMask (b % 8)) ||| (x <<< (b % 8)))
    let hi ← load s1 m (byteOf base b + 1)
    store s1 m (byteOf base b + 1) ((hi &&& (0xFF#8 - lowMask (b % 8))) ||| (x >>> (8 - b % 8)))

/-- `ChunkWrite(M, base, b, src, n)` with `n` the length of `src` (R135); iterations in ascending order. -/
def chunkWrite (s : State) (m : Store) (base : Nat) : Nat → List Byte → Res State
  | _, []      => .ok s
  | b, x :: xs => do
      let s1 ← chunkWriteByte s m base b x
      chunkWrite s1 m base (b + 8) xs

/-- How many bytes a chunk of `n` bytes at bit offset `b` touches (R66, R138). -/
def chunkSpan (b n : Nat) : Nat := if n = 0 then 0 else if b % 8 = 0 then n else n + 1

/-! ### Failures -/

/-- The causes of a failure (R241). -/
inductive Cause where
  | sourceAbsent
  | badDimension
  | inputAbsent
  | shortHeader
  | badMagic
  | badHeaderDimension
  | shortBitmap
  | prefix1OutOfBounds
  | prefix2OutOfBounds
  | literalOutOfBounds
  | capacity
  | badCommand
  | badArgument
  deriving DecidableEq, Repr

/-- The number `ERR` holds for a cause (R241). -/
def Cause.code : Cause → BitVec 4
  | .sourceAbsent       => 1
  | .badDimension       => 2
  | .inputAbsent        => 3
  | .shortHeader        => 4
  | .badMagic           => 5
  | .badHeaderDimension => 6
  | .shortBitmap        => 7
  | .prefix1OutOfBounds => 8
  | .prefix2OutOfBounds => 9
  | .literalOutOfBounds => 10
  | .capacity           => 11
  | .badCommand         => 12
  | .badArgument        => 13

/-- `raise Fail(cause)` (R250), and nothing else: the cause, the sentinel (R249), and the block idle with the command completed. -/
def raiseFail (c : Cause) (s : State) : State :=
  { s with
    err       := c.code
    status    := { busy := false, done := true, fail := true }
    resLen    := 0
    resWidth  := 0
    resHeight := 0
    dstate    := .idle
    estate    := .idle }

/-- The bytes of store `m` at addresses 0 to `n - 1` become free bytes of a new draw, whatever they held (R252, U3; log 6). -/
def forget (s : State) (m : Store) (n : Nat) : State :=
  { s.setMem m { s.mem m with
      cells := (List.range n).map (fun a => (a, Config.freeByte s.draws m a)) ++
               (s.mem m).cells.filter (fun c => decide (n ≤ c.1)) } with
    draws := s.draws + 1 }

/-- Go on only while the command runs: a failure has completed it (R250: nothing further happens). -/
def whileBusy (f : State → Res State) (s : State) : Res State :=
  if s.status.busy then f s else .ok s

end Sys2Proof.Machine
end

