-- ==== Sys2Proof/Machine/Flags.lean ====
section
/-! DEFINITION. The flags (R35): what a command's start and its completion do to `STATUS` and `ERR` (R24 to R26, R144), and `STATUS`
read as a number. There are no arithmetic condition codes. -/

namespace Sys2Proof.Machine

/-- `STATUS` as the host reads it: BUSY bit 0, DONE bit 1, FAIL bit 2, the bits above 0 (R25). -/
def Status.word (t : Status) : Nat := t.busy.toNat + 2 * t.done.toNat + 4 * t.fail.toNat

/-- The start of the command of a code: `CMD` holds it (R24), BUSY is set, DONE, FAIL and ERR are cleared (R25, R26), and the unit
it belongs to leaves idle (R183, R216). -/
def beginCommand (code : BitVec 4) (s : State) : State :=
  { s with
    cmd    := code
    status := { busy := true, done := false, fail := false }
    err    := 0
    estate := if code = 6 then .check else .idle
    dstate := if code = 7 then .validate else .idle }

/-- The end of a command that did not fail in this step: BUSY falls, DONE rises, FAIL stays as the command's rules left it, the
units are idle (R25, R183, R216). -/
def complete (s : State) : State :=
  { s with
    status := { busy := false, done := true, fail := s.status.fail }
    dstate := .idle
    estate := .idle }

/-- A command's meaning: a `CMD` write while BUSY = 1 is ignored and changes nothing (R24); otherwise the command starts and its
body runs to completion, which R74 allows as one transition. -/
def runCommand (code : BitVec 4) (body : State → Res State) (s : State) : Host.Outcome State Fault Refusal :=
  if s.status.busy then .next s else toOutcome (body (beginCommand code s))

/-- A reserved code starts and at once completes a failed command (R112). -/
def reservedCommand (code : BitVec 4) (s : State) : State := raiseFail .badCommand (beginCommand code s)

end Sys2Proof.Machine
end

