-- ==== Sys2Proof/Machine/Operands.lean ====
section
/-! DEFINITION. Operands: the memory and the slice of a direct accessor command (R23, R113, R130), the bytes it touches (R66, R277),
the fixed slices of the two units (R147), and the registers by number (R29). No operand is scaled or extended (R113). -/

namespace Sys2Proof.Machine

open Config (Store)

/-- The memory `ARG_MEM` selects: 0 is PIX, 1 is CMP (R23). -/
def argStore (s : State) : Store := if s.argMem then .cmp else .pix

/-- The byte address of the first byte a direct accessor command touches (R130). -/
def argByte (s : State) : Nat := byteOf s.argBase s.argBit

/-- The host's duty before a direct accessor command that touches `k` bytes (R277). -/
abbrev argInRange (s : State) (k : Nat) : Prop := argByte s + k ≤ s.caps.cap (argStore s)

/-- The byte base of the payload slice (R147): payload bit `p` is bit `p` of the slice (CMP, 9). -/
def payloadBase : Nat := Config.headerBytes

/-- The address in PIX of the first pixel of the current chunk (R70, R206). -/
def chunkAddr (s : State) : Nat := s.row * s.w + 4 * s.chk

/-- The address in PIX of the first pixel of the current row (R70). -/
def rowAddr (s : State) : Nat := s.row * s.w

/-- The store a host access names. -/
def hostStore : HostMem → Store
  | .pix => .pix
  | .cmp => .cmp

/-- The value the host reads from register number `n` below 16 (R29); 14 and 15 are reserved and read 0. -/
def regValue (s : State) (n : Nat) : Nat :=
  match n with
  | 0  => s.cmd.toNat
  | 1  => s.status.word
  | 2  => s.err.toNat
  | 3  => s.argWidth.toNat
  | 4  => s.argHeight.toNat
  | 5  => s.argPresent.toNat
  | 6  => s.argLen
  | 7  => s.argMem.toNat
  | 8  => s.argBase
  | 9  => s.argBit
  | 10 => s.resLen
  | 11 => s.resWidth.toNat
  | 12 => s.resHeight.toNat
  | 13 => s.resBit.toNat
  | _  => 0

/-- The state after the host writes `v` to operand register number `n` (R29); a value wider than the register loses its upper bits
(log 9). A write to a read-only or reserved register is ignored (R29). -/
def setArg (s : State) (n v : Nat) : State :=
  match n with
  | 3 => { s with argWidth := BitVec.ofNat 32 v }
  | 4 => { s with argHeight := BitVec.ofNat 32 v }
  | 5 => { s with argPresent := v.testBit 0 }
  | 6 => { s with argLen := v }
  | 7 => { s with argMem := v.testBit 0 }
  | 8 => { s with argBase := v }
  | 9 => { s with argBit := v }
  | _ => s

end Sys2Proof.Machine
end

