-- ==== Sys2Proof/Machine/Accessor.lean ====
section
/-! DEFINITION. The five direct accessor commands (R139 to R144). -/

namespace Sys2Proof.Machine

/-- The body of `RDBIT` (R139). -/
def rdbitBody (s : State) : Res State := do
  let x ← bitRead s (argStore s) s.argBase s.argBit
  .ok (complete { s with resBit := x })

/-- The body of `RDCHUNK` (R140). -/
def rdchunkBody (s : State) : Res State :=
  if s.caps.dbufCap < s.argLen then .ok (raiseFail .badArgument s)
  else do
    let out ← chunkRead s (argStore s) s.argBase s.argBit s.argLen
    let s1 ← storeBytes s .dbuf 0 out
    .ok (complete s1)

/-- The body of `SETBIT` (R141). -/
def setbitBody (s : State) : Res State := do
  let s1 ← bitSet s (argStore s) s.argBase s.argBit
  .ok (complete s1)

/-- The body of `CLRBIT` (R142). -/
def clrbitBody (s : State) : Res State := do
  let s1 ← bitClear s (argStore s) s.argBase s.argBit
  .ok (complete s1)

/-- The body of `WRCHUNK` (R143). -/
def wrchunkBody (s : State) : Res State :=
  if s.caps.dbufCap < s.argLen then .ok (raiseFail .badArgument s)
  else do
    let src ← loadBytes s .dbuf 0 s.argLen
    let s1 ← chunkWrite s (argStore s) s.argBase s.argBit src
    .ok (complete s1)

/-- `RDBIT` (R139). -/
def execRdbit (s : State) : Host.Outcome State Fault Refusal := runCommand 1 rdbitBody s

/-- `RDCHUNK` (R140). -/
def execRdchunk (s : State) : Host.Outcome State Fault Refusal := runCommand 2 rdchunkBody s

/-- `SETBIT` (R141). -/
def execSetbit (s : State) : Host.Outcome State Fault Refusal := runCommand 3 setbitBody s

/-- `CLRBIT` (R142). -/
def execClrbit (s : State) : Host.Outcome State Fault Refusal := runCommand 4 clrbitBody s

/-- `WRCHUNK` (R143). -/
def execWrchunk (s : State) : Host.Outcome State Fault Refusal := runCommand 5 wrchunkBody s

/-- The accessor command in `CMD`, started by a plain register write, runs in one step of the block (R144). -/
def accessorStep (s : State) : Res State :=
  match decodeCommand s.cmd with
  | .ok .rdbit   => rdbitBody s
  | .ok .rdchunk => rdchunkBody s
  | .ok .setbit  => setbitBody s
  | .ok .clrbit  => clrbitBody s
  | .ok .wrchunk => wrchunkBody s
  | _            => .error (.refuse .noCommandRunning)

end Sys2Proof.Machine
end

