-- ==== Sys2Proof/Machine/Decoder.lean ====
section
/-! DEFINITION. The Decompressor's parser, `DECOMPRESS` (R200 to R225), with the parsing and validation of the header (R162, R163).
The stream is the program: at `D_VALIDATE`, `ReadPresence` and `ReadPrefix1` the parser fetches and decodes a code, and the code's
meaning is its effect. `decTransition` is one transition of R216; `decompressBody` is the listing of R217. -/

namespace Sys2Proof.Machine

/-- What a fetch gives: an instruction and the state it runs in, or the state of a command that has failed. -/
inductive Fetched where
  | code (i : Instr) (s : State)
  | failed (s : State)
  deriving DecidableEq, Repr

/-- A failure after validation: the destination PIX addresses 0 to `W*H - 1` are unspecified (R215, R252; log 6). -/
def decFail (c : Cause) (s : State) : State := raiseFail c (forget s .pix (s.w * s.h))

/-! ### Fetching -/

/-- Checks 1 to 4 of `Validate()` and the nine bytes of the header (R162, R163). The length is tested before any byte is read. -/
def fetchHeader (s : State) : Res Fetched :=
  if s.argPresent = false then .ok (.failed (raiseFail .inputAbsent s))
  else
    let s1 := { s with l := s.argLen }
    if s.caps.cmpCap < s1.l then .ok (.failed (raiseFail .capacity s1))
    else if s1.l < 9 then .ok (.failed (raiseFail .shortHeader s1))
    else do
      let m ← load s1 .cmp 0
      if m ≠ Config.magic then .ok (.failed (raiseFail .badMagic s1))
      else do
        let fields ← loadBytes s1 .cmp 1 8
        match decode .header (bytesBits (m :: fields)) with
        | .ok (i, _) => .ok (.code i s1)
        | .error _   => .ok (.failed (raiseFail .badMagic s1))

/-- `ReadPresence`: the presence bit at payload bit `ROW`, with no containment test of its own (R204). -/
def fetchPresence (s : State) : Res Fetched := do
  let p ← bitRead s .cmp payloadBase s.row
  .ok (.code (decodePresence p) s)

/-- `ReadPrefix1`, `ReadPrefix2`, `Literal`: the bits of the code at the cursor, each tested before it is read (R207, R209, R211),
given to the decoder. -/
def fetchChunk (s : State) : Res Fetched :=
  if ¬ contained s.l s.cur then .ok (.failed (decFail .prefix1OutOfBounds s))
  else do
    let b1 ← bitRead s .cmp payloadBase s.cur
    if b1 = false then give [b1]
    else if ¬ contained s.l (s.cur + 1) then .ok (.failed (decFail .prefix2OutOfBounds s))
    else do
      let b2 ← bitRead s .cmp payloadBase (s.cur + 1)
      if b2 = false then give [b1, b2]
      else if ¬ contained s.l (s.cur + 2 + 8 * s.n - 1) then .ok (.failed (decFail .literalOutOfBounds s))
      else do
        let out ← chunkRead s .cmp payloadBase (s.cur + 2) s.n
        give (b1 :: b2 :: bytesBits out)
where
  /-- The decoder's answer for the bits fetched. -/
  give (bits : List Bool) : Res Fetched :=
    match decode (.chunk s.n) bits with
    | .ok (i, _) => .ok (.code i s)
    | .error _   => .error (.refuse .noSuchChunkLength)

/-! ### The codes -/

/-- The row advance (R213). -/
def decRowAdvance (s : State) : State :=
  { s with row := s.row + 1, dstate := if s.row + 1 < s.h then .readPresence else .success }

/-- `HEADER`: checks 5 to 8 of `Validate()` and the initialisation (R163, R202). Nothing is written to PIX (R201). -/
def headerCode (w h : Word32) (s : State) : Res State :=
  if w.toInt < 0 ∨ h.toInt < 0 then .ok (raiseFail .badHeaderDimension s)
  else if s.l < 9 + ceil8 h.toNat then .ok (raiseFail .shortBitmap s)
  else if s.caps.pixCap < w.toNat * h.toNat then .ok (raiseFail .capacity s)
  else .ok { s with
    w := w.toNat, h := h.toNat, cur := h.toNat, row := 0,
    dstate := if h.toNat = 0 then .success else .readPresence }

/-- `P0`: `AllWhiteDone` fills the row with 0xFF and leaves the cursor (R205). -/
def presence0Code (s : State) : Res State := do
  let s1 ← storeFill s .pix (rowAddr s) s.w Config.white
  .ok (decRowAdvance s1)

/-- `P1`: the row's chunks follow at the cursor (R204). -/
def presence1Code (s : State) : Res State := .ok { s with chk := 0, dstate := .readChunk }

/-- The end of every chunk code: the cursor moves past its bits (R208, R210, R212). -/
def chunkDone (bits : Nat) (s : State) : State :=
  { s with cur := s.cur + bits, chk := s.chk + 1, dstate := .readChunk }

/-- `W` (R208). -/
def whiteCode (s : State) : Res State := do
  let s1 ← storeFill s .pix (chunkAddr s) s.n Config.white
  .ok (chunkDone 1 s1)

/-- `B` (R210). -/
def blackCode (s : State) : Res State := do
  let s1 ← storeFill s .pix (chunkAddr s) s.n Config.black
  .ok (chunkDone 2 s1)

/-- `L` with its pixel bytes (R212). -/
def literalCode (bytes : List Byte) (s : State) : Res State := do
  let s1 ← storeBytes s .pix (chunkAddr s) bytes
  .ok (chunkDone (2 + 8 * bytes.length) s1)

/-- The effect of a stream code (R200: the sub-steps of the command). -/
def runCode (i : Instr) (s : State) : Res State :=
  match i with
  | .header w h     => headerCode w h s
  | .p0             => presence0Code s
  | .p1             => presence1Code s
  | .w              => whiteCode s
  | .b              => blackCode s
  | .l4 x0 x1 x2 x3 => literalCode [x0, x1, x2, x3] s
  | .l3 x0 x1 x2    => literalCode [x0, x1, x2] s
  | .l2 x0 x1       => literalCode [x0, x1] s
  | .l1 x0          => literalCode [x0] s
  | .rdbit          => .error (.refuse .notAStreamCode)
  | .rdchunk        => .error (.refuse .notAStreamCode)
  | .setbit         => .error (.refuse .notAStreamCode)
  | .clrbit         => .error (.refuse .notAStreamCode)
  | .wrchunk        => .error (.refuse .notAStreamCode)
  | .compress       => .error (.refuse .notAStreamCode)
  | .decompress     => .error (.refuse .notAStreamCode)

/-- Fetch a code and run it. -/
def fetchRun (fetch : State → Res Fetched) (s : State) : Res State := do
  match ← fetch s with
  | .code i s1  => runCode i s1
  | .failed s1  => .ok s1

/-- `HEADER` (R91, R162, R163, R202). -/
def execHeader (w h : Word32) (s : State) : Host.Outcome State Fault Refusal := toOutcome (headerCode w h s)

/-- `P0` (R205). -/
def execP0 (s : State) : Host.Outcome State Fault Refusal := toOutcome (presence0Code s)

/-- `P1` (R204). -/
def execP1 (s : State) : Host.Outcome State Fault Refusal := toOutcome (presence1Code s)

/-- `W` (R208). -/
def execW (s : State) : Host.Outcome State Fault Refusal := toOutcome (whiteCode s)

/-- `B` (R210). -/
def execB (s : State) : Host.Outcome State Fault Refusal := toOutcome (blackCode s)

/-- `L4` (R212). -/
def execL4 (x0 x1 x2 x3 : Byte) (s : State) : Host.Outcome State Fault Refusal :=
  toOutcome (literalCode [x0, x1, x2, x3] s)

/-- `L3` (R212). -/
def execL3 (x0 x1 x2 : Byte) (s : State) : Host.Outcome State Fault Refusal := toOutcome (literalCode [x0, x1, x2] s)

/-- `L2` (R212). -/
def execL2 (x0 x1 : Byte) (s : State) : Host.Outcome State Fault Refusal := toOutcome (literalCode [x0, x1] s)

/-- `L1` (R212). -/
def execL1 (x0 : Byte) (s : State) : Host.Outcome State Fault Refusal := toOutcome (literalCode [x0] s)

/-! ### The state machine and the command -/

/-- `ReadChunk` (R206). -/
def dReadChunk (s : State) : Res State :=
  if s.chk = chunks s.w then .ok { s with dstate := .rowDone }
  else .ok { s with n := chunkLen s.w s.chk, dstate := .readPrefix1 }

/-- `D_SUCCESS` and the completion (R214). -/
def dSuccess (s : State) : Res State :=
  .ok (complete { s with
    resWidth := BitVec.ofNat 32 s.w, resHeight := BitVec.ofNat 32 s.h, resLen := s.w * s.h,
    status := { s.status with fail := false }, err := 0 })

/-- One transition of `DSTATE` (R216), each with its own rule's action (R201 to R215). -/
def decTransition (s : State) : Res State :=
  match s.dstate with
  | .idle         => .error (.refuse .noCommandRunning)
  | .validate     => fetchRun fetchHeader s
  | .readPresence => do
      let p ← bitRead s .cmp payloadBase s.row
      .ok (if p then { s with chk := 0, dstate := .readChunk } else { s with dstate := .allWhiteDone })
  | .allWhiteDone => presence0Code s
  | .readChunk    => dReadChunk s
  | .readPrefix1  =>
      if ¬ contained s.l s.cur then .ok (decFail .prefix1OutOfBounds s)
      else do
        let b1 ← bitRead s .cmp payloadBase s.cur
        .ok { s with dstate := if b1 then .readPrefix2 else .white }
  | .white        => whiteCode s
  | .readPrefix2  =>
      if ¬ contained s.l (s.cur + 1) then .ok (decFail .prefix2OutOfBounds s)
      else do
        let b2 ← bitRead s .cmp payloadBase (s.cur + 1)
        .ok { s with dstate := if b2 then .literal else .black }
  | .black        => blackCode s
  | .literal      =>
      if ¬ contained s.l (s.cur + 2 + 8 * s.n - 1) then .ok (decFail .literalOutOfBounds s)
      else .ok { s with dstate := .readBytes }
  | .readBytes    => do
      let out ← chunkRead s .cmp payloadBase (s.cur + 2) s.n
      literalCode out s
  | .rowDone      => .ok (decRowAdvance s)
  | .success      => dSuccess s
  | .failure      => .ok (complete s)

/-- The next `k` chunks of an encoded row (R217, the inner loop). -/
def decompressChunks : Nat → State → Res State
  | 0,     s => .ok s
  | k + 1, s => do
      let s1 ← dReadChunk s
      let s2 ← fetchRun fetchChunk s1
      whileBusy (decompressChunks k) s2

/-- One row: its presence code, and for an encoded row its chunks and `RowDone` (R204 to R213). -/
def decompressRow (s : State) : Res State := do
  let s1 ← fetchRun fetchPresence s
  if s1.dstate = .readChunk then do
    let s2 ← decompressChunks (chunks s1.w) s1
    whileBusy (fun s3 => do
      let s4 ← dReadChunk s3
      .ok (decRowAdvance s4)) s2
  else .ok s1

/-- The next `k` rows (R217, the outer loop). -/
def decompressRows : Nat → State → Res State
  | 0,     s => .ok s
  | k + 1, s => do
      let s1 ← decompressRow s
      whileBusy (decompressRows k) s1

/-- The whole command from `D_VALIDATE` to its completion (R200, R217). -/
def decompressBody (s : State) : Res State := do
  let s1 ← fetchRun fetchHeader s
  whileBusy (fun s2 => do
    let s3 ← decompressRows s2.h s2
    whileBusy dSuccess s3) s1

/-- `DECOMPRESS` (R200). -/
def execDecompress (s : State) : Host.Outcome State Fault Refusal := runCommand 7 decompressBody s

end Sys2Proof.Machine
end

