-- ==== Sys2Proof/Machine/Encoder.lean ====
section
/-! DEFINITION. The Row/Chunk Encoder and Compressor, `COMPRESS` (R170 to R190), with the writing of the header (R160, R161). Each
state of `ESTATE` (R32) has its action; `encStep` is one transition of R183; `compressBody` is the listing of R184 over the same
actions. -/

namespace Sys2Proof.Machine

/-- `HeaderWrite(w, h)` (R160). -/
def headerWrite (s : State) (w h : Nat) : Res State :=
  storeBytes s .cmp 0 (headerOf (BitVec.ofNat 32 w) (BitVec.ofNat 32 h))

/-- `HeaderWriteDegenerate()` (R161): both fields are written as 0. -/
def headerWriteDegenerate (s : State) : Res State := storeBytes s .cmp 0 (headerOf 0 0)

/-- `E_CHECK` (R171): no memory access. -/
def eCheck (s : State) : Res State :=
  if s.argPresent = false then .ok (raiseFail .sourceAbsent s)
  else if s.argWidth.toInt < 0 ∨ s.argHeight.toInt < 0 then .ok (raiseFail .badDimension s)
  else if s.argWidth = 0 ∨ s.argHeight = 0 then .ok { s with estate := .degenerate }
  else
    let s1 := { s with w := s.argWidth.toNat, h := s.argHeight.toNat }
    if s.caps.pixCap < s1.w * s1.h ∨ s.caps.scrCap < scratchBytes s1.w then .ok (raiseFail .capacity s1)
    else .ok { s1 with estate := .header }

/-- `E_DEGENERATE` (R172; `RES_WIDTH` and `RES_HEIGHT` by R184). -/
def eDegenerate (s : State) : Res State := do
  let s1 ← headerWriteDegenerate s
  .ok { s1 with
    ext := 9, resLen := 9, resWidth := 0, resHeight := 0,
    status := { s1.status with fail := false }, err := 0, estate := .success }

/-- `E_HEADER` (R173). -/
def eHeader (s : State) : Res State := do
  let s1 ← headerWrite s s.w s.h
  .ok { s1 with ext := 9, cur := s1.h, row := 0, estate := .grow }

/-- `NEED` (R174). -/
def need (s : State) : Nat := 9 + ceil8 s.cur + scratchBytes s.w

/-- `E_GROW` (R174): the one growth point (R280). A failure leaves the bytes written so far, CMP 0 to `EXT - 1`, unspecified and
every other byte as it was (U3, R81, R252; log 6). -/
def eGrow (s : State) : Res State :=
  if s.caps.cmpCap < need s then .ok (raiseFail .capacity (forget s .cmp s.ext))
  else do
    let s1 ← storeFill s .cmp s.ext (need s - s.ext) 0
    .ok { s1 with ext := max s.ext (need s), estate := .rowInit }

/-- `E_ROW_INIT` (R175). -/
def eRowInit (s : State) : Res State := do
  let s1 ← storeFill s .scr 0 (scratchBytes s.w) 0
  .ok { s1 with rc := 0, rowWhite := true, chk := 0, estate := .classify }

/-- `E_CLASSIFY` (R176): the one read of the chunk's pixels (R188). -/
def eClassify (s : State) : Res State := do
  let len := chunkLen s.w s.chk
  let px ← loadBytes s .pix (chunkAddr s) len
  .ok { s with
    n := len
    px := px
    estate :=
      if px.all (· == Config.white) then .emitWhite
      else if px.all (· == Config.black) then .emitBlack
      else .emitLiteral }

/-- The chunk advance (R190). -/
def chunkAdvance (s : State) : State :=
  { s with
    chk := s.chk + 1
    estate :=
      if s.chk + 1 < chunks s.w then .classify
      else if s.rowWhite then .rowWhite
      else .rowAppend }

/-- `E_EMIT_WHITE`: code `W` (R177). -/
def eEmitWhite (s : State) : Res State := do
  let s1 ← bitClear s .scr 0 s.rc
  .ok (chunkAdvance { s1 with rc := s.rc + 1 })

/-- `E_EMIT_BLACK`: code `B` (R178). -/
def eEmitBlack (s : State) : Res State := do
  let s1 ← bitSet s .scr 0 s.rc
  let s2 ← bitClear s1 .scr 0 (s.rc + 1)
  .ok (chunkAdvance { s2 with rc := s.rc + 2, rowWhite := false })

/-- `E_EMIT_LITERAL`: code `L` and the chunk's pixel bytes, as `E_CLASSIFY` read them (R179; log 12). -/
def eEmitLiteral (s : State) : Res State := do
  let s1 ← bitSet s .scr 0 s.rc
  let s2 ← bitSet s1 .scr 0 (s.rc + 1)
  let s3 ← chunkWrite s2 .scr 0 (s.rc + 2) s.px
  .ok (chunkAdvance { s3 with rc := s.rc + 2 + 8 * s.n, rowWhite := false })

/-- The row advance (R189). -/
def encRowAdvance (s : State) : State :=
  { s with row := s.row + 1, estate := if s.row + 1 < s.h then .grow else .finish }

/-- `E_ROW_WHITE`: `P0` (R180). -/
def eRowWhite (s : State) : Res State := do
  let s1 ← bitClear s .cmp payloadBase s.row
  .ok (encRowAdvance s1)

/-- `E_ROW_APPEND`: `P1`, and the row's bits rounded up to bytes; the cursor moves by the exact bit count (R181, R282). -/
def eRowAppend (s : State) : Res State := do
  let s1 ← bitSet s .cmp payloadBase s.row
  let src ← loadBytes s1 .scr 0 (ceil8 s.rc)
  let s2 ← chunkWrite s1 .cmp payloadBase s.cur src
  .ok (encRowAdvance { s2 with cur := s.cur + s.rc })

/-- `E_FINISH` (R182). -/
def eFinish (s : State) : Res State :=
  .ok { s with
    resLen := 9 + ceil8 s.cur, resWidth := 0, resHeight := 0,
    status := { s.status with fail := false }, err := 0, estate := .success }

/-- One transition of `ESTATE` (R183). `E_SUCCESS` and `E_FAILURE` complete the command. -/
def encStep (s : State) : Res State :=
  match s.estate with
  | .idle        => .error (.refuse .noCommandRunning)
  | .check       => eCheck s
  | .degenerate  => eDegenerate s
  | .header      => eHeader s
  | .grow        => eGrow s
  | .rowInit     => eRowInit s
  | .classify    => eClassify s
  | .emitWhite   => eEmitWhite s
  | .emitBlack   => eEmitBlack s
  | .emitLiteral => eEmitLiteral s
  | .rowWhite    => eRowWhite s
  | .rowAppend   => eRowAppend s
  | .finish      => eFinish s
  | .success     => .ok (complete s)
  | .failure     => .ok (complete s)

/-- The encoder's move in one step of the block: one transition, and from `E_FINISH` and `E_DEGENERATE` on through `E_SUCCESS` to the
completion, so that the host sees the results with `BUSY = 0` and not before (R27; log 22). -/
def encMove (s : State) : Res State := do
  let s1 ← encStep s
  if s1.estate = .success then encStep s1 else .ok s1

/-- One chunk: classify it, then the emission the classification chose (R176 to R179). -/
def compressChunk (s : State) : Res State := do
  let s1 ← eClassify s
  encStep s1

/-- The next `k` chunks of the row (R184, the inner loop). -/
def compressChunks : Nat → State → Res State
  | 0,     s => .ok s
  | k + 1, s => do
      let s1 ← compressChunk s
      compressChunks k s1

/-- One row: grow, clear the scratch, the chunks, then the presence bit and the append that `ESTATE` chose (R174, R175, R180, R181). -/
def compressRow (s : State) : Res State := do
  let s1 ← eGrow s
  whileBusy (fun s2 => do
    let s3 ← eRowInit s2
    let s4 ← compressChunks (chunks s3.w) s3
    encStep s4) s1

/-- The next `k` rows (R184, the outer loop). -/
def compressRows : Nat → State → Res State
  | 0,     s => .ok s
  | k + 1, s => do
      let s1 ← compressRow s
      whileBusy (compressRows k) s1

/-- The whole command from `E_CHECK` to its completion (R170, R184). -/
def compressBody (s : State) : Res State := do
  let s1 ← eCheck s
  whileBusy (fun s2 =>
    if s2.estate = .degenerate then do
      let s3 ← eDegenerate s2
      .ok (complete s3)
    else do
      let s3 ← eHeader s2
      let s4 ← compressRows s3.h s3
      whileBusy (fun s5 => do
        let s6 ← eFinish s5
        .ok (complete s6)) s4) s1

/-- `COMPRESS` (R170). -/
def execCompress (s : State) : Host.Outcome State Fault Refusal := runCommand 6 compressBody s

end Sys2Proof.Machine
end

