-- ==== Sys2Proof/Machine/Dispatch.lean ====
section
/-! DEFINITION. One arm per instruction: its meaning. -/

namespace Sys2Proof.Machine

def exec (i : Instr) (s : State) : Host.Outcome State Fault Refusal :=
  match i with
  | .header width height => Sys2Proof.Machine.execHeader width height s
  | .p0 => Sys2Proof.Machine.execP0 s
  | .p1 => Sys2Proof.Machine.execP1 s
  | .w => Sys2Proof.Machine.execW s
  | .b => Sys2Proof.Machine.execB s
  | .l4 x0 x1 x2 x3 => Sys2Proof.Machine.execL4 x0 x1 x2 x3 s
  | .l3 x0 x1 x2 => Sys2Proof.Machine.execL3 x0 x1 x2 s
  | .l2 x0 x1 => Sys2Proof.Machine.execL2 x0 x1 s
  | .l1 x0 => Sys2Proof.Machine.execL1 x0 s
  | .rdbit => Sys2Proof.Machine.execRdbit s
  | .rdchunk => Sys2Proof.Machine.execRdchunk s
  | .setbit => Sys2Proof.Machine.execSetbit s
  | .clrbit => Sys2Proof.Machine.execClrbit s
  | .wrchunk => Sys2Proof.Machine.execWrchunk s
  | .compress => Sys2Proof.Machine.execCompress s
  | .decompress => Sys2Proof.Machine.execDecompress s

end Sys2Proof.Machine
end

