-- ==== Sys2Proof/Machine/HostPort.lean ====
section
/-! DEFINITION. The host's side of the block: registers by number (R29, R39), the memories PIX and CMP (R75), and the reset input
(R270). -/

namespace Sys2Proof.Machine

open Config (Store)

/-- The host writes register number `n`. A `CMD` write starts the command while BUSY = 0 and is ignored while BUSY = 1 (R24); it
does not wait. Operand registers and DBUF may be written only while BUSY = 0 (R281, U2). -/
def hostWriteReg (n v : Nat) (s : State) : Res State :=
  if n = 0 then
    if s.status.busy then .ok s
    else
      match decodeCommand (BitVec.ofNat 4 v) with
      | .ok _    => .ok (beginCommand (BitVec.ofNat 4 v) s)
      | .error _ => .ok (reservedCommand (BitVec.ofNat 4 v) s)
  else if 3 ≤ n ∧ n ≤ 9 then
    if s.status.busy then .error (.refuse .hostAccessWhileBusy) else .ok (setArg s n v)
  else if n < 16 then .ok s
  else if s.status.busy then .error (.refuse .hostAccessWhileBusy)
  else if n - 16 < s.caps.dbufCap then .ok (s.setByte .dbuf (n - 16) (BitVec.ofNat 8 v))
  else .error (.fault (.noSuchRegister n))

/-- The host reads register number `n`: at any time (R39), but DBUF only while BUSY = 0 (R278, U2). -/
def hostReadReg (n : Nat) (s : State) : Res State :=
  if n < 16 then .ok { s with hostSaw := regValue s n }
  else if s.status.busy then .error (.refuse .hostAccessWhileBusy)
  else if n - 16 < s.caps.dbufCap then .ok { s with hostSaw := (s.byteAt .dbuf (n - 16)).toNat }
  else .error (.fault (.noSuchRegister n))

/-- The host writes bytes to PIX or CMP, only while BUSY = 0 (R75, R278, U2). -/
def hostWriteMem (m : HostMem) (a : Nat) (bytes : List Byte) (s : State) : Res State :=
  if s.status.busy then .error (.refuse .hostAccessWhileBusy) else storeBytes s (hostStore m) a bytes

/-- The host reads a byte of PIX or CMP, only while BUSY = 0 (R75, R278, U2). -/
def hostReadMem (m : HostMem) (a : Nat) (s : State) : Res State :=
  if s.status.busy then .error (.refuse .hostAccessWhileBusy)
  else do
    let x ← load s (hostStore m) a
    .ok { s with hostSaw := x.toNat }

/-- The reset input: registers to their reset values, a running command abandoned, every byte free in a new draw (R270, U9). -/
def hostReset (s : State) : State := State.afterReset s.caps s.host s.hostSaw s.draws

end Sys2Proof.Machine
end

