-- ==== Sys2Proof/Machine/Step.lean ====
section
/-! DEFINITION. One step of the machine: the host's next action, or, while a command runs, the block's next move. -/

namespace Sys2Proof.Machine

/-- Run what a fetch gave: the decoded instruction's meaning, or the state of a command that has failed. -/
def runFetched : Res Fetched → Host.Outcome State Fault Refusal
  | .ok (.code i s)       => exec i s
  | .ok (.failed s)       => .next s
  | .error (.fault r)     => .fault r
  | .error (.refuse r)    => .refused r

/-- The block's next move while BUSY = 1. Where DEC stands before a code (`D_VALIDATE`, `ReadPresence`, `ReadPrefix1`) it fetches,
decodes and executes it whole; anywhere else the unit that runs makes one transition of R216 or R183 (log 5), the encoder's last
one together with the completion (log 22). -/
def blockStep (s : State) : Host.Outcome State Fault Refusal :=
  match s.dstate with
  | .validate     => runFetched (fetchHeader s)
  | .readPresence => runFetched (fetchPresence s)
  | .readPrefix1  => runFetched (fetchChunk s)
  | .idle         =>
      match s.estate with
      | .idle => toOutcome (accessorStep s)
      | _     => toOutcome (encMove s)
  | _             => toOutcome (decTransition s)

/-- With nothing from the host: the block moves if a command runs, and otherwise changes no state (R20). -/
def blockMove (s : State) : Host.Outcome State Fault Refusal :=
  if s.status.busy then blockStep s else .next s

/-- A command line of R115 while BUSY = 0: the code is decoded and the instruction executed to its completion (R74, R144); a
reserved code completes at once with a failure (R112). -/
def issueCommand (code : BitVec 4) (s : State) : Host.Outcome State Fault Refusal :=
  match decodeCommand code with
  | .ok i    => exec i s
  | .error _ => .next (reservedCommand code s)

/-- ONE STEP. A host action that is due lands before the block moves (log 4); `issue` waits while BUSY = 1, and the block moves
(R273). -/
def step (s : State) : Host.Outcome State Fault Refusal :=
  match s.host with
  | []                         => blockMove s
  | .pass :: rest              => blockMove { s with host := rest }
  | .issue code :: rest        => if s.status.busy then blockStep s else issueCommand code { s with host := rest }
  | .writeReg n v :: rest      => toOutcome (hostWriteReg n v { s with host := rest })
  | .readReg n :: rest         => toOutcome (hostReadReg n { s with host := rest })
  | .writeMem m a bytes :: rest => toOutcome (hostWriteMem m a bytes { s with host := rest })
  | .readMem m a :: rest       => toOutcome (hostReadMem m a { s with host := rest })
  | .reset :: rest             => .next (hostReset { s with host := rest })

/-- The state in which the very next step fetches and runs the instruction of a table word: a command waits in the host's list; a
header stands at CMP address 0 before a DEC at `D_VALIDATE`; a chunk code stands at payload bit 0 before a DEC at `ReadPrefix1`
with the chunk's length in `N` (log 13). -/
def State.withFetchWord (s : State) (nbits w : Nat) : State :=
  match tablePosition nbits w with
  | .command  => { s with host := [.issue (BitVec.ofNat 4 w)], status := { s.status with busy := false } }
  | .header   =>
      { placeBytes s .cmp 0 (packBytes 9 (natBits 72 (w % 2 ^ nbits))) with
        host := [], status := { s.status with busy := true }, dstate := .validate, argPresent := true, argLen := 9 }
  | .chunk n  =>
      { placeBytes s .cmp 9 (packBytes 5 (natBits 72 (w % 2 ^ nbits))) with
        host := [], status := { s.status with busy := true }, dstate := .readPrefix1, n := n, cur := 0, l := 14 }
  | .presence =>
      { placeBytes s .cmp 9 (packBytes 1 (natBits 72 (w % 2 ^ nbits))) with
        host := [], status := { s.status with busy := true }, dstate := .readPresence, row := 0 }

end Sys2Proof.Machine
end

