-- ==== Sys2Proof/Safety.lean ====
section
/-! DEFINITION. What counts as a safe run, in the terms the claims use: what a claim reads of a state, the invariants of the block,
and the compressed image as a function of the pixels (R185) and the pixels as a function of a stream (R217). -/

namespace Sys2Proof.Machine

open Config (Store)

/-! ### Reading a state -/

/-- Bit `b` of the slice `(m, base)`, read without a capacity check (R130). -/
def sliceBit (s : State) (m : Store) (base b : Nat) : Bool := (s.byteAt m (byteOf base b)).getLsbD (b % 8)

/-- Bit `t` of a run of bytes (R136). -/
def listBit (xs : List Byte) (t : Nat) : Bool := (xs.getD (t / 8) 0).getLsbD (t % 8)

/-- All of a state but its byte stores: two states with the same registers differ at most in PIX, CMP, SCR and DBUF. -/
def State.registers (s : State) : State :=
  { s with
    pix  := { draw := 0, cells := [] }
    cmp  := { draw := 0, cells := [] }
    scr  := { draw := 0, cells := [] }
    dbuf := { draw := 0, cells := [] } }

/-- All of a state that a command can carry to the next one (R38): not the working registers and not SCR. -/
def State.visible (s : State) : State :=
  { s with
    w := 0, h := 0, l := 0, row := 0, chk := 0, n := 0, dstate := .idle, estate := .idle,
    rc := 0, rowWhite := false, ext := 0, px := [], cur := 0, scr := { draw := 0, cells := [] } }

/-- The bytes stand at address 0 of CMP and up. -/
def cmpHolds (s : State) (bytes : List Byte) : Prop :=
  ∀ a x, bytes[a]? = some x → s.byteAt .cmp a = x

/-- The state after a command that ended without failing (R25, R144), but for its results and its working registers. -/
def succeeded (code : BitVec 4) (s : State) : State :=
  { s with
    cmd := code, status := { busy := false, done := true, fail := false }, err := 0, dstate := .idle, estate := .idle }

/-- The state after a command that failed before it wrote anything (R250, R252), but for the working registers. -/
def failedWith (code : BitVec 4) (cause : BitVec 4) (s : State) : State :=
  { s with
    cmd := code, status := { busy := false, done := true, fail := true }, err := cause,
    resLen := 0, resWidth := 0, resHeight := 0, dstate := .idle, estate := .idle }

/-- The width of the header at CMP address 1 (R92). -/
def headerWidth (s : State) : Word32 :=
  fromLE32 (s.byteAt .cmp 1) (s.byteAt .cmp 2) (s.byteAt .cmp 3) (s.byteAt .cmp 4)

/-- The height of the header at CMP address 5 (R92). -/
def headerHeight (s : State) : Word32 :=
  fromLE32 (s.byteAt .cmp 5) (s.byteAt .cmp 6) (s.byteAt .cmp 7) (s.byteAt .cmp 8)

/-- The nine bytes of a header (R91, R92), each field byte a part of the pattern. -/
def encodedHeader (w h : Word32) : List Byte :=
  [0xBA, w.extractLsb' 0 8, w.extractLsb' 8 8, w.extractLsb' 16 8, w.extractLsb' 24 8,
   h.extractLsb' 0 8, h.extractLsb' 8 8, h.extractLsb' 16 8, h.extractLsb' 24 8]

/-- `t` is `s` after a chunk code of `bits` bits that put the pixels `px` (R208, R210, R212): the cursor and the chunk counter move,
the pixels stand at the chunk's place in PIX, and nothing else changes. -/
def chunkEffect (s t : State) (bits : Nat) (px : List Byte) : Prop :=
  t.registers = { s with cur := s.cur + bits, chk := s.chk + 1, dstate := .readChunk }.registers ∧
  (∀ k x, px[k]? = some x → t.byteAt .pix (chunkAddr s + k) = x) ∧
  ∀ m a, ¬ (m = .pix ∧ chunkAddr s ≤ a ∧ a < chunkAddr s + px.length) → t.byteAt m a = s.byteAt m a

/-! ### The writing primitives as one family (R145) -/

/-- A call of one of the three writing primitives of the Bit Accessor: `BitSet`, `BitClear`, `ChunkWrite`. -/
inductive BitWrite where
  | set (b : Nat)
  | clear (b : Nat)
  | chunk (b : Nat) (src : List Byte)
  deriving DecidableEq, Repr

/-- The call, on a slice. -/
def BitWrite.run (s : State) (m : Store) (base : Nat) : BitWrite → Res State
  | .set b       => bitSet s m base b
  | .clear b     => bitClear s m base b
  | .chunk b src => chunkWrite s m base b src

/-- The first bit it targets. -/
def BitWrite.first : BitWrite → Nat
  | .set b     => b
  | .clear b   => b
  | .chunk b _ => b

/-- How many bits it targets. -/
def BitWrite.length : BitWrite → Nat
  | .set _       => 1
  | .clear _     => 1
  | .chunk _ src => 8 * src.length

/-- The value it gives to the `k`-th bit it targets. -/
def BitWrite.value (k : Nat) : BitWrite → Bool
  | .set _       => true
  | .clear _     => false
  | .chunk _ src => listBit src k

/-! ### The invariant of every state -/

/-- What holds of every state a run reaches: the stores are in canonical form and their draws have been made; the capacities are
those R9 allows; `ERR` is a cause of R241 and not 0 exactly when FAIL is set; a failure left the sentinel (R249); while a
command runs DONE and FAIL are clear (R25) and one unit at most runs; while none runs both units are idle (R183, R216). -/
structure StateInv (s : State) : Prop where
  pix_wf  : s.pix.wf
  cmp_wf  : s.cmp.wf
  scr_wf  : s.scr.wf
  dbuf_wf : s.dbuf.wf
  draws   : ∀ m, (s.mem m).draw < s.draws
  caps    : s.caps.wf
  err     : s.err.toNat ≤ 13
  fail    : s.status.fail = true ↔ s.err ≠ 0
  failed  : s.status.fail = true → s.status.done = true ∧ s.resLen = 0 ∧ s.resWidth = 0 ∧ s.resHeight = 0
  running : s.status.busy = true → s.status.done = false ∧ s.status.fail = false
  unit    : s.dstate = .idle ∨ s.estate = .idle
  idle    : s.status.busy = false → s.dstate = .idle ∧ s.estate = .idle

/-! ### The invariant of a running command -/

/-- What the validation has established for the rest of a `DECOMPRESS` (R201). -/
structure DecRange (s : State) : Prop where
  len    : s.l ≤ s.caps.cmpCap
  bitmap : 9 + ceil8 s.h ≤ s.l
  pixels : s.w * s.h ≤ s.caps.pixCap
  row    : s.row < s.h

/-- DEC is at a chunk of an encoded row (R206). -/
structure DecChunk (s : State) : Prop where
  range : DecRange s
  chk   : s.chk < chunks s.w
  len   : s.n = chunkLen s.w s.chk

/-- What holds in each state of the decoder (R31, R203 to R213). -/
def DecRun (s : State) : Prop :=
  match s.dstate with
  | .idle         => True
  | .validate     => True
  | .readPresence => DecRange s
  | .allWhiteDone => DecRange s
  | .readChunk    => DecRange s ∧ s.chk ≤ chunks s.w
  | .readPrefix1  => DecChunk s
  | .white        => DecChunk s
  | .readPrefix2  => DecChunk s ∧ contained s.l s.cur
  | .black        => DecChunk s
  | .literal      => DecChunk s ∧ contained s.l s.cur
  | .readBytes    => DecChunk s ∧ contained s.l (s.cur + 2 + 8 * s.n - 1)
  | .rowDone      => DecRange s
  | .success      => True
  | .failure      => True

/-- What the entry checks have established for the rest of a `COMPRESS` (R171). -/
structure EncRange (s : State) : Prop where
  width   : 0 < s.w
  height  : 0 < s.h
  pixels  : s.w * s.h ≤ s.caps.pixCap
  scratch : scratchBytes s.w ≤ s.caps.scrCap

/-- ENC is inside a row: what `E_GROW` has claimed covers the row's worst case (R174, R186). -/
structure EncRow (s : State) : Prop where
  range : EncRange s
  row   : s.row < s.h
  cur   : s.h ≤ s.cur
  grown : need s ≤ s.ext
  cap   : s.ext ≤ s.caps.cmpCap

/-- The most bits the first `k` chunks of a row of width `w` can take (R186). -/
def chunkBitsBound (w k : Nat) : Nat := 2 * k + 8 * min w (4 * k)

/-- ENC is at a chunk of the row. -/
structure EncChunk (s : State) : Prop where
  row : EncRow s
  chk : s.chk < chunks s.w
  rc  : s.rc ≤ chunkBitsBound s.w s.chk

/-- What holds in each state of the encoder (R32, R171 to R182). -/
def EncRun (s : State) : Prop :=
  match s.estate with
  | .idle        => True
  | .check       => True
  | .degenerate  => True
  | .header      => EncRange s
  | .grow        => EncRange s ∧ s.row < s.h ∧ s.h ≤ s.cur ∧ s.ext ≤ s.caps.cmpCap
  | .rowInit     => EncRow s
  | .classify    => EncChunk s
  | .emitWhite   => EncChunk s ∧ s.n = chunkLen s.w s.chk
  | .emitBlack   => EncChunk s ∧ s.n = chunkLen s.w s.chk
  | .emitLiteral => EncChunk s ∧ s.n = chunkLen s.w s.chk ∧ s.px.length = s.n
  | .rowWhite    => EncRow s ∧ s.rc ≤ worstRowBits s.w
  | .rowAppend   => EncRow s ∧ s.rc ≤ worstRowBits s.w
  | .finish      => True
  | .success     => True
  | .failure     => True

/-- What holds while a command runs: the unit's own invariant, and with both units idle an accessor command in `CMD` (R144). -/
structure RunInv (s : State) : Prop where
  dec      : s.status.busy = true → DecRun s
  enc      : s.status.busy = true → EncRun s
  accessor : s.status.busy = true → s.dstate = .idle → s.estate = .idle → 1 ≤ s.cmd.toNat ∧ s.cmd.toNat ≤ 5

/-! ### The compressed image as a function of the pixels (R185) -/

/-- The code of one chunk (R185: `code(px)`). -/
def chunkCode (px : List Byte) : Instr :=
  if px.all (· == Config.white) then .w
  else if px.all (· == Config.black) then .b
  else
    match literalOf px with
    | .ok i    => i
    | .error _ => .w

/-- Row `j` of an image of width `w` (R70). -/
def imageRow (px : List Byte) (w j : Nat) : List Byte := (px.drop (j * w)).take w

/-- The codes of a row, in chunk order (R185: `rowbits`). -/
def rowCodes (row : List Byte) : List Instr :=
  (List.range (chunks row.length)).map (fun k => chunkCode ((row.drop (4 * k)).take 4))

/-- The rows of an image, in order. -/
def imageRows (px : List Byte) (w h : Nat) : List (List Byte) := (List.range h).map (imageRow px w)

/-- A row has a pixel that is not white: its presence bit (R185: `pres`). -/
def rowPresent (row : List Byte) : Bool := !row.all (· == Config.white)

/-- The stream of an image (R185): the presence bits and the codes of the rows that are not white. -/
def imageStream (px : List Byte) (w h : Nat) : Stream where
  width  := BitVec.ofNat 32 w
  height := BitVec.ofNat 32 h
  pres   := (imageRows px w h).map rowPresent
  rows   := ((imageRows px w h).filter rowPresent).map rowCodes

/-- The first `n` bytes of a store. -/
def storeList (s : State) (m : Store) (n : Nat) : List Byte := (List.range n).map (s.byteAt m)

/-! ### The pixels as a function of a stream (R217) -/

/-- The pixels of one code, for a chunk of `n` pixels (R208, R210, R212). -/
def codePixels (n : Nat) : Instr → List Byte
  | .header _ _     => []
  | .p0             => []
  | .p1             => []
  | .w              => List.replicate n Config.white
  | .b              => List.replicate n Config.black
  | .l4 x0 x1 x2 x3 => [x0, x1, x2, x3]
  | .l3 x0 x1 x2    => [x0, x1, x2]
  | .l2 x0 x1       => [x0, x1]
  | .l1 x0          => [x0]
  | .rdbit          => []
  | .rdchunk        => []
  | .setbit         => []
  | .clrbit         => []
  | .wrchunk        => []
  | .compress       => []
  | .decompress     => []

/-- The pixels of a row's codes, from chunk `k` on. -/
def rowPixels (w : Nat) : Nat → List Instr → List Byte
  | _, []      => []
  | k, c :: cs => codePixels (chunkLen w k) c ++ rowPixels w (k + 1) cs

/-- The pixels of the rows: a white row for presence 0, the next run of codes for presence 1 (R205, R206). -/
def rowsPixels (w : Nat) : List Bool → List (List Instr) → List Byte
  | [],          _       => []
  | false :: ps, rs      => List.replicate w Config.white ++ rowsPixels w ps rs
  | true :: ps,  r :: rs => rowPixels w 0 r ++ rowsPixels w ps rs
  | true :: ps,  []      => rowsPixels w ps []

/-- The image a stream stands for (R217). -/
def streamPixels (st : Stream) : List Byte := rowsPixels st.width.toNat st.pres st.rows

/-! ### Failures as functions of the state -/

/-- The cause `Validate()` ends a `DECOMPRESS` with, by the first check that fails, or none if it passes (R163). -/
def validateCause (s : State) : Option (BitVec 4) :=
  if s.argPresent = false then some 3
  else if s.caps.cmpCap < s.argLen then some 11
  else if s.argLen < 9 then some 4
  else if s.byteAt .cmp 0 ≠ 0xBA then some 5
  else if (headerWidth s).toInt < 0 ∨ (headerHeight s).toInt < 0 then some 6
  else if s.argLen < 9 + ceil8 (headerHeight s).toNat then some 7
  else if s.caps.pixCap < (headerWidth s).toNat * (headerHeight s).toNat then some 11
  else none

/-- The cause the parse of the code at the cursor ends the command with, or none if the whole code is contained (R207, R209,
R211). -/
def chunkCause (s : State) : Option (BitVec 4) :=
  if ¬ contained s.l s.cur then some 8
  else if sliceBit s .cmp 9 s.cur = false then none
  else if ¬ contained s.l (s.cur + 1) then some 9
  else if sliceBit s .cmp 9 (s.cur + 1) = false then none
  else if ¬ contained s.l (s.cur + 2 + 8 * s.n - 1) then some 10
  else none

/-- The cause `E_CHECK` ends a `COMPRESS` with, by the first check that fails, or none if it passes (R171, R247). -/
def compressCause (s : State) : Option (BitVec 4) :=
  if s.argPresent = false then some 1
  else if s.argWidth.toInt < 0 ∨ s.argHeight.toInt < 0 then some 2
  else if s.argWidth = 0 ∨ s.argHeight = 0 then none
  else if s.caps.pixCap < s.argWidth.toNat * s.argHeight.toNat ∨ s.caps.scrCap < scratchBytes s.argWidth.toNat then some 11
  else none

/-! ### Runs of the state machines -/

/-- The states the encoder can be in after one transition (R183). A transition to `E_FAILURE` goes on to `E_IDLE` at once (R250). -/
def encSuccessors : EState → List EState
  | .idle        => []
  | .check       => [.idle, .degenerate, .header]
  | .degenerate  => [.success]
  | .header      => [.grow]
  | .grow        => [.idle, .rowInit]
  | .rowInit     => [.classify]
  | .classify    => [.emitWhite, .emitBlack, .emitLiteral]
  | .emitWhite   => [.classify, .rowWhite, .rowAppend]
  | .emitBlack   => [.classify, .rowWhite, .rowAppend]
  | .emitLiteral => [.classify, .rowWhite, .rowAppend]
  | .rowWhite    => [.grow, .finish]
  | .rowAppend   => [.grow, .finish]
  | .finish      => [.success]
  | .success     => [.idle]
  | .failure     => [.idle]

/-- The states the decoder can be in after one transition (R216). A transition to `D_FAILURE` goes on to `D_IDLE` at once (R250). -/
def decSuccessors : DState → List DState
  | .idle         => []
  | .validate     => [.idle, .readPresence, .success]
  | .readPresence => [.allWhiteDone, .readChunk]
  | .allWhiteDone => [.readPresence, .success]
  | .readChunk    => [.readPrefix1, .rowDone]
  | .readPrefix1  => [.idle, .white, .readPrefix2]
  | .white        => [.readChunk]
  | .readPrefix2  => [.idle, .black, .literal]
  | .black        => [.readChunk]
  | .literal      => [.idle, .readBytes]
  | .readBytes    => [.readChunk]
  | .rowDone      => [.readPresence, .success]
  | .success      => [.idle]
  | .failure      => [.idle]

/-- `k` transitions of `DSTATE`, as long as the command runs (R216). -/
def decTransitions : Nat → State → Res State
  | 0,     s => .ok s
  | k + 1, s => do
      let s1 ← decTransition s
      whileBusy (decTransitions k) s1

end Sys2Proof.Machine
end

