-- ==== Sys2Proof/Certificates/Slice0/Obligations.lean ====
section
/-! DEFINITION. The statements for the provers. In each, `s` is any state: also one that no run reaches. -/

open Sys2Proof
open Sys2Proof.Machine

/-! ### Encoding -/

/-- R91, R97 to R104, R111, R118: at every position a code can stand at, with every field at every value, the encoder's bits
followed by anything decode to the code, and exactly its bits are consumed. -/
def Obligations.EncodedInstructionDecodesToItself : Prop :=
  ∀ (p : Position) (i : Instr) (rest : List Bool), i.fits p = true → decode p (encode i ++ rest) = .ok (i, rest)

/-- R106, R111, R118: whatever the decoder accepts at a position can stand there, and is the encoding of what it answers: no two
bit patterns share an instruction. -/
def Obligations.DecodedInstructionEncodesBack : Prop :=
  ∀ (p : Position) (bits : List Bool) (i : Instr) (rest : List Bool),
    decode p bits = .ok (i, rest) → i.fits p = true ∧ bits = encode i ++ rest

/-- A word of each row of the opcode table: P0, P1, W, B, L(12), L(7F) and L(01 02 03) of 95_test_vectors.md 2.4, the literals of four
and of two pixels written out by R101 and R102 (`11`, then A5 00 FF 3C and 7E 81), the header of 300 by 2 of 2.3 and that of 300 by
70000 of R160, and the command codes of R110. -/
def Obligations.TableWordsDecodeToTheirRows : Prop :=
  decode .presence (natBits 1 0) = .ok (.p0, []) ∧
  decode .presence (natBits 1 1) = .ok (.p1, []) ∧
  decode (.chunk 4) (natBits 1 0) = .ok (.w, []) ∧
  decode (.chunk 4) (natBits 2 1) = .ok (.b, []) ∧
  decode (.chunk 1) (natBits 10 0x04B) = .ok (.l1 0x12, []) ∧
  decode (.chunk 1) (natBits 10 0x1FF) = .ok (.l1 0x7F, []) ∧
  decode (.chunk 2) (natBits 18 0x205FB) = .ok (.l2 0x7E 0x81, []) ∧
  decode (.chunk 3) (natBits 26 0x0C0807) = .ok (.l3 0x01 0x02 0x03, []) ∧
  decode (.chunk 4) (natBits 34 0xF3FC0297) = .ok (.l4 0xA5 0x00 0xFF 0x3C, []) ∧
  decode .header (bytesBits [0xBA, 0x2C, 0x01, 0x00, 0x00, 0x02, 0x00, 0x00, 0x00]) = .ok (.header 300 2, []) ∧
  decode .header (bytesBits [0xBA, 0x2C, 0x01, 0x00, 0x00, 0x70, 0x11, 0x01, 0x00]) = .ok (.header 300 70000, []) ∧
  (decodeCommand 1 = .ok .rdbit ∧ decodeCommand 2 = .ok .rdchunk ∧ decodeCommand 3 = .ok .setbit ∧
   decodeCommand 4 = .ok .clrbit ∧ decodeCommand 5 = .ok .wrchunk ∧ decodeCommand 6 = .ok .compress ∧
   decodeCommand 7 = .ok .decompress) ∧
  (∀ c : BitVec 4, decodeCommand c = .error .reservedCommand ↔ c = 0 ∨ 8 ≤ c.toNat)

/-! ### The host's side -/

/-- R24: a write of a command's code while BUSY = 0 starts that command; a write while BUSY = 1 is ignored and changes nothing; a
read returns the last code that started a command, 0 after reset. The start is R25's and R26's. -/
def Obligations.CmdRegisterStartsIgnoresAndReads : Prop :=
  ∀ (s : State) (rest : List HostOp),
    (∀ (v : Nat) (c : BitVec 4), v < 16 → c = BitVec.ofNat 4 v → 1 ≤ v → v ≤ 7 →
      s.status.busy = false → s.host = .writeReg 0 v :: rest →
      step s = .next { s with
        host := rest, cmd := c, status := { busy := true, done := false, fail := false }, err := 0,
        estate := if v = 6 then .check else .idle, dstate := if v = 7 then .validate else .idle }) ∧
    (∀ v : Nat, s.status.busy = true → s.host = .writeReg 0 v :: rest → step s = .next { s with host := rest }) ∧
    (∀ i : Instr, s.status.busy = true → i.fits .command = true → exec i s = .next s) ∧
    (s.host = .readReg 0 :: rest → step s = .next { s with host := rest, hostSaw := s.cmd.toNat }) ∧
    State.reset.cmd = 0

/-- R112: a reserved code written while BUSY = 0, as a command line or as a plain register write, ends at once with BAD_COMMAND;
nothing but STATUS, ERR, the three results and (log 11, not stated here) `CMD` changes. -/
def Obligations.ReservedCommandFailsAtOnce : Prop :=
  ∀ (s : State) (c : BitVec 4) (rest : List HostOp), s.status.busy = false → (c = 0 ∨ 8 ≤ c.toNat) →
    (s.host = .issue c :: rest ∨ s.host = .writeReg 0 c.toNat :: rest) →
    ∃ t, step s = .next t ∧
      { t with cmd := s.cmd } =
        { s with
          host := rest, status := { busy := false, done := true, fail := true }, err := 12,
          resLen := 0, resWidth := 0, resHeight := 0, dstate := .idle, estate := .idle }

/-- R29: the register numbers, as the host reads them, and as it writes a value that fits the register while BUSY = 0; writes to
read-only and reserved registers are ignored. -/
def Obligations.RegisterNumbers : Prop :=
  ∀ (s : State) (rest : List HostOp),
    (∀ n : Nat, n < 16 → s.host = .readReg n :: rest →
      step s = .next { s with
        host := rest
        hostSaw := [s.cmd.toNat, s.status.busy.toNat + 2 * s.status.done.toNat + 4 * s.status.fail.toNat, s.err.toNat,
          s.argWidth.toNat, s.argHeight.toNat, s.argPresent.toNat, s.argLen, s.argMem.toNat, s.argBase, s.argBit,
          s.resLen, s.resWidth.toNat, s.resHeight.toNat, s.resBit.toNat, 0, 0].getD n 0 }) ∧
    (∀ i : Nat, i < s.caps.dbufCap → s.status.busy = false → s.host = .readReg (16 + i) :: rest →
      step s = .next { s with host := rest, hostSaw := (s.byteAt .dbuf i).toNat }) ∧
    (∀ v : BitVec 32, s.status.busy = false → s.host = .writeReg 3 v.toNat :: rest →
      step s = .next { s with host := rest, argWidth := v }) ∧
    (∀ v : BitVec 32, s.status.busy = false → s.host = .writeReg 4 v.toNat :: rest →
      step s = .next { s with host := rest, argHeight := v }) ∧
    (∀ v : Bool, s.status.busy = false → s.host = .writeReg 5 v.toNat :: rest →
      step s = .next { s with host := rest, argPresent := v }) ∧
    (∀ v : Nat, s.status.busy = false → s.host = .writeReg 6 v :: rest →
      step s = .next { s with host := rest, argLen := v }) ∧
    (∀ v : Bool, s.status.busy = false → s.host = .writeReg 7 v.toNat :: rest →
      step s = .next { s with host := rest, argMem := v }) ∧
    (∀ v : Nat, s.status.busy = false → s.host = .writeReg 8 v :: rest →
      step s = .next { s with host := rest, argBase := v }) ∧
    (∀ v : Nat, s.status.busy = false → s.host = .writeReg 9 v :: rest →
      step s = .next { s with host := rest, argBit := v }) ∧
    (∀ (i : Nat) (v : Byte), i < s.caps.dbufCap → s.status.busy = false → s.host = .writeReg (16 + i) v.toNat :: rest →
      ∃ t, step s = .next t ∧ t.registers = { s with host := rest }.registers ∧ t.byteAt .dbuf i = v ∧
        ∀ m a, ¬ (m = .dbuf ∧ a = i) → t.byteAt m a = s.byteAt m a) ∧
    (∀ n v : Nat, n ∈ [1, 2, 10, 11, 12, 13, 14, 15] → s.host = .writeReg n v :: rest →
      step s = .next { s with host := rest })

/-- U2, R75, R278, R281 (the spec's treatment is to refuse): while BUSY = 1 every host access to PIX, CMP or DBUF and every write of
an operand register is refused by name. That reading DBUF is among them is log 20 (R39 against R278), and that a number past DBUF is
refused with it is log 10, both choices of the model. -/
def Obligations.HostAccessWhileBusyIsRefused : Prop :=
  ∀ (s : State) (op : HostOp) (rest : List HostOp), s.status.busy = true → s.host = op :: rest →
    ((∃ m a bs, op = .writeMem m a bs) ∨ (∃ m a, op = .readMem m a) ∨
     (∃ n v, (3 ≤ n ∧ n ≤ 9 ∨ 16 ≤ n) ∧ op = .writeReg n v) ∨ (∃ n, 16 ≤ n ∧ op = .readReg n)) →
    step s = .refused .hostAccessWhileBusy

/-- R75, R115: while BUSY = 0 the host writes bytes to PIX or CMP and reads one byte of them; nothing else changes. -/
def Obligations.HostReachesMemoryBetweenCommands : Prop :=
  ∀ (s : State) (m : HostMem) (a : Nat) (rest : List HostOp), s.status.busy = false →
    (∀ bytes : List Byte, a + bytes.length ≤ s.caps.cap (hostStore m) → s.host = .writeMem m a bytes :: rest →
      ∃ t, step s = .next t ∧ t.registers = { s with host := rest }.registers ∧
        (∀ k x, bytes[k]? = some x → t.byteAt (hostStore m) (a + k) = x) ∧
        ∀ m' b, ¬ (m' = hostStore m ∧ a ≤ b ∧ b < a + bytes.length) → t.byteAt m' b = s.byteAt m' b) ∧
    (a < s.caps.cap (hostStore m) → s.host = .readMem m a :: rest →
      step s = .next { s with host := rest, hostSaw := (s.byteAt (hostStore m) a).toNat })

/-- R20: when no command runs (and the host does nothing) the block changes no state. -/
def Obligations.IdleBlockChangesNothing : Prop :=
  ∀ s : State, s.status.busy = false → s.host = [] → step s = .next s

/-- R45, R270: the values the spec gives for reset, at `State.reset` and after the reset input in any state, also while a command
runs. -/
def Obligations.ResetInputGivesTheResetValues : Prop :=
  ∀ (s : State) (rest : List HostOp), s.host = .reset :: rest →
    ∃ t, step s = .next t ∧ t.caps = s.caps ∧ t.host = rest ∧
      ∀ u, u = t ∨ u = State.reset →
        u.cmd = 0 ∧ u.status = { busy := false, done := false, fail := false } ∧ u.err = 0 ∧
        u.resLen = 0 ∧ u.resWidth = 0 ∧ u.resHeight = 0 ∧ u.resBit = false ∧
        u.argWidth = 0 ∧ u.argHeight = 0 ∧ u.argPresent = false ∧ u.argLen = 0 ∧ u.argMem = false ∧
        u.argBase = 0 ∧ u.argBit = 0 ∧ u.dstate = .idle ∧ u.estate = .idle

/-! ### A step runs the decoded instruction -/

/-- R111, R115: a command line whose code decodes to an instruction is one step of that instruction's meaning, the line taken from
the host's list (log 4). -/
def Obligations.StepRunsTheIssuedCommand : Prop :=
  ∀ (s : State) (c : BitVec 4) (i : Instr) (rest : List HostOp), s.status.busy = false → s.host = .issue c :: rest →
    decodeCommand c = .ok i → step s = exec i { s with host := rest }

/-- R98 to R104, R207 to R212: when DEC stands at `ReadPrefix1`, the bits at the cursor are the encoding of a code that can stand
there, and every one of them is contained in the buffer, the step is the code's meaning. -/
def Obligations.StepRunsTheCodeAtTheCursor : Prop :=
  ∀ (s : State) (i : Instr), s.status.busy = true → s.host = [] → s.dstate = .readPrefix1 → s.l ≤ s.caps.cmpCap →
    i.fits (.chunk s.n) = true →
    (∀ k x, (encode i)[k]? = some x → contained s.l (s.cur + k) ∧ sliceBit s .cmp 9 (s.cur + k) = x) →
    step s = exec i s

/-- R97, R204: when DEC stands at `ReadPresence` the step is the meaning of the presence code at payload bit `ROW`. -/
def Obligations.StepRunsThePresenceCode : Prop :=
  ∀ s : State, s.status.busy = true → s.host = [] → s.dstate = .readPresence → 9 + s.row / 8 < s.caps.cmpCap →
    step s = exec (if sliceBit s .cmp 9 s.row then .p1 else .p0) s

/-- R91, R162, R163: when DEC stands at `D_VALIDATE`, a buffer of a length that checks 1 to 3 allow is present, and a header stands
at CMP address 0, the step is the header's meaning, with `L` latched. -/
def Obligations.StepRunsTheHeader : Prop :=
  ∀ (s : State) (w h : Word32), s.status.busy = true → s.host = [] → s.dstate = .validate →
    s.argPresent = true → 9 ≤ s.argLen → s.argLen ≤ s.caps.cmpCap → cmpHolds s (encodedHeader w h) →
    step s = exec (.header w h) { s with l := s.argLen }

/-! ### The Bit Accessor -/

/-- R139: `RDBIT` puts the addressed bit into `RES_BIT` and changes nothing else but `CMD`, STATUS, ERR and the idle units. -/
def Obligations.RdbitReadsTheBit : Prop :=
  ∀ s : State, s.status.busy = false → argInRange s 1 →
    exec .rdbit s = .next { succeeded 1 s with resBit := sliceBit s (argStore s) s.argBase s.argBit }

/-- R141: `SETBIT` sets the addressed bit; every other bit of every memory and every register is as before. -/
def Obligations.SetbitSetsTheBit : Prop :=
  ∀ s : State, s.status.busy = false → argInRange s 1 →
    ∃ t, exec .setbit s = .next t ∧ t.registers = (succeeded 3 s).registers ∧
      ∀ m a k, k < 8 → (t.byteAt m a).getLsbD k =
        if m = argStore s ∧ a = argByte s ∧ k = s.argBit % 8 then true else (s.byteAt m a).getLsbD k

/-- R142: `CLRBIT` clears the addressed bit; every other bit of every memory and every register is as before. -/
def Obligations.ClrbitClearsTheBit : Prop :=
  ∀ s : State, s.status.busy = false → argInRange s 1 →
    ∃ t, exec .clrbit s = .next t ∧ t.registers = (succeeded 4 s).registers ∧
      ∀ m a k, k < 8 → (t.byteAt m a).getLsbD k =
        if m = argStore s ∧ a = argByte s ∧ k = s.argBit % 8 then false else (s.byteAt m a).getLsbD k

/-- R140: `RDCHUNK` puts the `8 * ARG_LEN` addressed bits into DBUF from element 0 up and changes nothing else; more bytes than DBUF
has is `BAD_ARGUMENT`. -/
def Obligations.RdchunkFillsDbuf : Prop :=
  ∀ s : State, s.status.busy = false →
    (s.caps.dbufCap < s.argLen → exec .rdchunk s = .next (failedWith 2 13 s)) ∧
    (s.argLen ≤ s.caps.dbufCap → (s.argLen = 0 ∨ argInRange s (chunkSpan s.argBit s.argLen)) →
      ∃ t, exec .rdchunk s = .next t ∧ t.registers = (succeeded 2 s).registers ∧
        (∀ k, k < 8 * s.argLen →
          (t.byteAt .dbuf (k / 8)).getLsbD (k % 8) = sliceBit s (argStore s) s.argBase (s.argBit + k)) ∧
        ∀ m a, ¬ (m = .dbuf ∧ a < s.argLen) → t.byteAt m a = s.byteAt m a)

/-- R143: `WRCHUNK` puts the first `8 * ARG_LEN` bits of DBUF at the addressed bits; every other bit of every memory and every
register is as before; more bytes than DBUF has is `BAD_ARGUMENT`. -/
def Obligations.WrchunkWritesTheBits : Prop :=
  ∀ s : State, s.status.busy = false →
    (s.caps.dbufCap < s.argLen → exec .wrchunk s = .next (failedWith 5 13 s)) ∧
    (s.argLen ≤ s.caps.dbufCap → (s.argLen = 0 ∨ argInRange s (chunkSpan s.argBit s.argLen)) →
      ∃ t, exec .wrchunk s = .next t ∧ t.registers = (succeeded 5 s).registers ∧
        ∀ m a k, k < 8 → (t.byteAt m a).getLsbD k =
          if m = argStore s ∧ 8 * s.argBase + s.argBit ≤ 8 * a + k ∧
              8 * a + k < 8 * s.argBase + s.argBit + 8 * s.argLen then
            (s.byteAt .dbuf ((8 * a + k - (8 * s.argBase + s.argBit)) / 8)).getLsbD
              ((8 * a + k - (8 * s.argBase + s.argBit)) % 8)
          else (s.byteAt m a).getLsbD k)

/-- U1, R44, R137: a direct accessor command that would touch a byte beyond the memory's capacity faults, at the first such byte. -/
def Obligations.AccessBeyondTheCapacityFaults : Prop :=
  ∀ s : State, s.status.busy = false →
    (¬ argInRange s 1 →
      ∀ i ∈ [Instr.rdbit, .setbit, .clrbit], exec i s = .fault (.outOfCapacity (argStore s) (argByte s))) ∧
    (s.argLen ≠ 0 → s.argLen ≤ s.caps.dbufCap → ¬ argInRange s (chunkSpan s.argBit s.argLen) →
      ∀ i ∈ [Instr.rdchunk, .wrchunk],
        exec i s = .fault (.outOfCapacity (argStore s) (max (argByte s) (s.caps.cap (argStore s)))))

/-- R136: the chunk primitives, bit by bit. -/
def Obligations.ChunkPrimitivesAreBitwise : Prop :=
  ∀ (s : State) (m : Config.Store) (base b : Nat),
    (∀ n xs, chunkRead s m base b n = .ok xs →
      xs.length = n ∧
      ∀ t, t < 8 * n → bitRead s m base (b + t) = .ok (listBit xs t) ∧ listBit xs t = sliceBit s m base (b + t)) ∧
    (∀ src t, chunkWrite s m base b src = .ok t →
      t.registers = s.registers ∧
      (∀ k, k < 8 * src.length → bitRead t m base (b + k) = .ok (listBit src k)) ∧
      ∀ m' a k, k < 8 → ¬ (m' = m ∧ 8 * base + b ≤ 8 * a + k ∧ 8 * a + k < 8 * base + b + 8 * src.length) →
        (t.byteAt m' a).getLsbD k = (s.byteAt m' a).getLsbD k)

/-- R66, R138: which bytes a chunk primitive touches. It completes exactly if all of them are below the capacity, a read depends on
no other byte, and a write changes no other byte. An aligned one does not touch the byte after its own; an empty one touches
none. -/
def Obligations.ChunkPrimitivesTouchTheirSpan : Prop :=
  ∀ (s : State) (m : Config.Store) (base b : Nat),
    (∀ n, (∃ xs, chunkRead s m base b n = .ok xs) ↔ n = 0 ∨ byteOf base b + chunkSpan b n ≤ s.caps.cap m) ∧
    (∀ src, (∃ t, chunkWrite s m base b src = .ok t) ↔
      src = [] ∨ byteOf base b + chunkSpan b src.length ≤ s.caps.cap m) ∧
    (∀ (s' : State) n, s'.caps = s.caps →
      (∀ a, byteOf base b ≤ a → a < byteOf base b + chunkSpan b n → s'.byteAt m a = s.byteAt m a) →
      chunkRead s' m base b n = chunkRead s m base b n) ∧
    (∀ src t, chunkWrite s m base b src = .ok t →
      ∀ m' a, ¬ (m' = m ∧ byteOf base b ≤ a ∧ a < byteOf base b + chunkSpan b src.length) → t.byteAt m' a = s.byteAt m' a)

/-- R145, laws (a) to (d). -/
def Obligations.AccessorLaws : Prop :=
  ∀ (s s1 : State) (m : Config.Store) (base b : Nat),
    (∀ src, chunkWrite s m base b src = .ok s1 → chunkRead s1 m base b src.length = .ok src) ∧
    (bitSet s m base b = .ok s1 → bitRead s1 m base b = .ok true) ∧
    (bitClear s m base b = .ok s1 → bitRead s1 m base b = .ok false) ∧
    (∀ w : BitWrite, w.run s m base = .ok s1 →
      ∀ b', b' < w.first ∨ w.first + w.length ≤ b' → bitRead s1 m base b' = bitRead s m base b') ∧
    (∀ (v w : BitWrite) (s2 : State), v.first + v.length ≤ w.first ∨ w.first + w.length ≤ v.first →
      v.run s m base = .ok s1 → w.run s1 m base = .ok s2 →
      ∃ s1' s2', w.run s m base = .ok s1' ∧ v.run s1' m base = .ok s2' ∧ s2'.registers = s2.registers ∧
        ∀ m' a, s2'.byteAt m' a = s2.byteAt m' a) ∧
    (∀ (x y : List Byte) (r : Nat) (s2 : State), 1 ≤ y.length → r ≤ 8 * x.length → 8 * x.length ≤ r + 8 * y.length →
      chunkWrite s m base b x = .ok s1 → chunkWrite s1 m base (b + r) y = .ok s2 →
      (∀ k, k < r → bitRead s2 m base (b + k) = .ok (listBit x k)) ∧
      ∀ k, k < 8 * y.length → bitRead s2 m base (b + r + k) = .ok (listBit y k))

/-! ### The codes of the stream -/

/-- R202: a header that passes the checks of R163 initialises the decoder; nothing is written to PIX. -/
def Obligations.HeaderIsAccepted : Prop :=
  ∀ (s : State) (w h : Word32), 0 ≤ w.toInt → 0 ≤ h.toInt → 9 + ceil8 h.toNat ≤ s.l → w.toNat * h.toNat ≤ s.caps.pixCap →
    exec (.header w h) s = .next { s with
      w := w.toNat, h := h.toNat, cur := h.toNat, row := 0, dstate := if h = 0 then .success else .readPresence }

/-- R163, checks 5 to 7: the first that fails ends the command. That the working registers stay is log 14, a choice of the model. -/
def Obligations.HeaderIsRejected : Prop :=
  ∀ (s : State) (w h : Word32),
    (w.toInt < 0 ∨ h.toInt < 0 → exec (.header w h) s = .next (failedWith s.cmd 6 s)) ∧
    (0 ≤ w.toInt → 0 ≤ h.toInt → s.l < 9 + ceil8 h.toNat → exec (.header w h) s = .next (failedWith s.cmd 7 s)) ∧
    (0 ≤ w.toInt → 0 ≤ h.toInt → 9 + ceil8 h.toNat ≤ s.l → s.caps.pixCap < w.toNat * h.toNat →
      exec (.header w h) s = .next (failedWith s.cmd 11 s))

/-- R205: `P0` fills the row with 0xFF and makes the row advance of R213; the cursor and everything else stay. -/
def Obligations.P0FillsTheRowWhite : Prop :=
  ∀ s : State, (s.w = 0 ∨ rowAddr s + s.w ≤ s.caps.pixCap) →
    ∃ t, exec .p0 s = .next t ∧
      t.registers =
        { s with row := s.row + 1, dstate := if s.row + 1 < s.h then .readPresence else .success }.registers ∧
      (∀ x, x < s.w → t.byteAt .pix (s.row * s.w + x) = 0xFF) ∧
      ∀ m a, ¬ (m = .pix ∧ s.row * s.w ≤ a ∧ a < s.row * s.w + s.w) → t.byteAt m a = s.byteAt m a

/-- R204: `P1` starts the row's chunks. -/
def Obligations.P1StartsTheChunks : Prop :=
  ∀ s : State, exec .p1 s = .next { s with chk := 0, dstate := .readChunk }

/-- R208, R210: `W` and `B` fill the chunk with white and with black, and move the cursor by 1 and by 2. -/
def Obligations.WhiteAndBlackFillTheChunk : Prop :=
  ∀ s : State, chunkAddr s + s.n ≤ s.caps.pixCap →
    (∃ t, exec .w s = .next t ∧ chunkEffect s t 1 (List.replicate s.n 0xFF)) ∧
    (∃ t, exec .b s = .next t ∧ chunkEffect s t 2 (List.replicate s.n 0x00))

/-- R212: `L4`, `L3`, `L2` and `L1` put their bytes, first pixel first, and move the cursor by 34, 26, 18 and 10. -/
def Obligations.LiteralsPutTheirBytes : Prop :=
  ∀ (s : State) (x0 x1 x2 x3 : Byte),
    (chunkAddr s + 4 ≤ s.caps.pixCap → ∃ t, exec (.l4 x0 x1 x2 x3) s = .next t ∧ chunkEffect s t 34 [x0, x1, x2, x3]) ∧
    (chunkAddr s + 3 ≤ s.caps.pixCap → ∃ t, exec (.l3 x0 x1 x2) s = .next t ∧ chunkEffect s t 26 [x0, x1, x2]) ∧
    (chunkAddr s + 2 ≤ s.caps.pixCap → ∃ t, exec (.l2 x0 x1) s = .next t ∧ chunkEffect s t 18 [x0, x1]) ∧
    (chunkAddr s + 1 ≤ s.caps.pixCap → ∃ t, exec (.l1 x0) s = .next t ∧ chunkEffect s t 10 [x0])

/-- R34 (b), R225: a chunk code moves the cursor by exactly the length of its encoding and a row's presence code leaves it. -/
def Obligations.CodesMoveTheCursorByTheirLength : Prop :=
  ∀ (s t : State) (i : Instr), exec i s = .next t →
    (∀ n, i.fits (.chunk n) = true → t.cur = s.cur + (encode i).length) ∧
    (i.fits .presence = true → t.cur = s.cur)

/-- R207, R209, R211: a code whose next bit, or whose literal span, is not contained in the buffer ends the command with the cause of
the first test that fails; PIX 0 to `W*H - 1` is then unspecified and every other byte is as before (R252). The counter of draws is
the model's own (log 7), and that the working registers stay is log 14, a choice of the model. -/
def Obligations.UncontainedCodeEndsTheCommand : Prop :=
  ∀ (s : State) (c : BitVec 4), s.status.busy = true → s.host = [] → s.dstate = .readPrefix1 → s.l ≤ s.caps.cmpCap →
    chunkCause s = some c →
    ∃ t, step s = .next t ∧ { t.registers with draws := s.draws } = (failedWith s.cmd c s).registers ∧
      ∀ m a, ¬ (m = .pix ∧ a < s.w * s.h) → t.byteAt m a = s.byteAt m a

/-! ### COMPRESS -/

/-- R247: the first of the entry conditions that holds is the one reported, and no memory changes; a zero dimension ends the command
without a failure before any capacity is looked at. -/
def Obligations.CompressEntryChecks : Prop :=
  ∀ s : State, s.status.busy = false → s.caps.wf →
    (∀ c, compressCause s = some c → ∃ t, exec .compress s = .next t ∧ { t with w := s.w, h := s.h } = failedWith 6 c s) ∧
    (s.argPresent = true → 0 ≤ s.argWidth.toInt → 0 ≤ s.argHeight.toInt → (s.argWidth = 0 ∨ s.argHeight = 0) →
      compressCause s = none ∧
      ∃ t, exec .compress s = .next t ∧ t.status = { busy := false, done := true, fail := false } ∧ t.err = 0)

/-- R161, R172: the result of a zero width or height is the header with both fields 0. That `EXT` is 9 and the other
working registers are as before when the command has ended is log 14, a choice of the model. -/
def Obligations.CompressOfAZeroDimension : Prop :=
  ∀ s : State, s.status.busy = false → s.caps.wf → s.argPresent = true → 0 ≤ s.argWidth.toInt → 0 ≤ s.argHeight.toInt →
    (s.argWidth = 0 ∨ s.argHeight = 0) →
    ∃ t, exec .compress s = .next t ∧
      t.registers = { succeeded 6 s with ext := 9, resLen := 9, resWidth := 0, resHeight := 0 }.registers ∧
      cmpHolds t [0xBA, 0, 0, 0, 0, 0, 0, 0, 0] ∧
      ∀ m a, ¬ (m = .cmp ∧ a < 9) → t.byteAt m a = s.byteAt m a

/-- R243, R288: `COMPRESS` always completes, with success or with one of its three causes, and PIX and DBUF are unchanged.
The counter of draws is the model's own (log 7). -/
def Obligations.CompressAlwaysCompletes : Prop :=
  ∀ s : State, s.status.busy = false → s.caps.wf →
    ∃ t, exec .compress s = .next t ∧
      (t.visible.registers =
          { succeeded 6 s with resLen := t.resLen, resWidth := 0, resHeight := 0 }.visible.registers ∧ 9 ≤ t.resLen ∨
        t.err ∈ [1, 2, 11] ∧ { t.visible.registers with draws := s.draws } = (failedWith 6 t.err s).visible.registers) ∧
      ∀ a, t.byteAt .pix a = s.byteAt .pix a ∧ t.byteAt .dbuf a = s.byteAt .dbuf a

/-- R185: after a successful `COMPRESS` of an image with pixels, CMP holds the stream of R185 and `RES_LEN` is its length. -/
def Obligations.CompressedImageIsTheStream : Prop :=
  ∀ s t : State, s.status.busy = false → s.argPresent = true → 0 < s.argWidth.toInt → 0 < s.argHeight.toInt →
    exec .compress s = .next t → t.status.fail = false →
    t.resLen =
      (imageStream (storeList s .pix (s.argWidth.toNat * s.argHeight.toNat)) s.argWidth.toNat s.argHeight.toNat).assemble.length ∧
    cmpHolds t
      (imageStream (storeList s .pix (s.argWidth.toNat * s.argHeight.toNat)) s.argWidth.toNat s.argHeight.toNat).assemble

/-- R274: the capacities that make `COMPRESS` sure of success, and its result then (R185). -/
def Obligations.CompressSucceedsWithRoom : Prop :=
  ∀ s : State, s.status.busy = false → s.argPresent = true → 0 < s.argWidth.toInt → 0 < s.argHeight.toInt →
    s.argWidth.toNat * s.argHeight.toNat ≤ s.caps.pixCap → scratchBytes s.argWidth.toNat ≤ s.caps.scrCap →
    9 + ceil8 (s.argHeight.toNat + s.argHeight.toNat * worstRowBits s.argWidth.toNat) + scratchBytes s.argWidth.toNat ≤
      s.caps.cmpCap →
    ∃ t, exec .compress s = .next t ∧
      t.visible.registers =
        { succeeded 6 s with
          resLen := (imageStream (storeList s .pix (s.argWidth.toNat * s.argHeight.toNat))
            s.argWidth.toNat s.argHeight.toNat).assemble.length
          resWidth := 0, resHeight := 0 }.visible.registers ∧
      cmpHolds t
        (imageStream (storeList s .pix (s.argWidth.toNat * s.argHeight.toNat)) s.argWidth.toNat s.argHeight.toNat).assemble

/-- R187, R283: after a successful `COMPRESS` CMP holds 0 from the result's end up to `EXT - 1`, at most `SCRATCH_BYTES(W)` bytes,
and is unchanged from `EXT` up. `EXT` is read after the command has ended, where it keeps its last value by log 14, a choice of the
model. -/
def Obligations.CompressLeavesZerosAboveTheResult : Prop :=
  ∀ s t : State, s.status.busy = false → s.argPresent = true → 0 < s.argWidth.toInt → 0 < s.argHeight.toInt →
    exec .compress s = .next t → t.status.fail = false →
    t.resLen ≤ t.ext ∧ t.ext ≤ t.resLen + scratchBytes s.argWidth.toNat ∧ t.ext ≤ s.caps.cmpCap ∧
    (∀ a, t.resLen ≤ a → a < t.ext → t.byteAt .cmp a = 0) ∧
    ∀ a, t.ext ≤ a → t.byteAt .cmp a = s.byteAt .cmp a

/-- R105: the bounds on a row's encoding, and the sizes of an all-white and of an all-black image. -/
def Obligations.SizesOfRowsAndUniformImages : Prop :=
  (∀ row : List Byte, row ≠ [] →
    chunks row.length ≤ (encodeAll (rowCodes row)).length ∧ (encodeAll (rowCodes row)).length ≤ worstRowBits row.length) ∧
  ∀ s t : State, s.status.busy = false → s.argPresent = true → 0 < s.argWidth.toInt → 0 < s.argHeight.toInt →
    exec .compress s = .next t → t.status.fail = false →
    ((∀ a, a < s.argWidth.toNat * s.argHeight.toNat → s.byteAt .pix a = 0xFF) →
      t.resLen = 9 + ceil8 s.argHeight.toNat ∧ ∀ j, j < s.argHeight.toNat → sliceBit t .cmp 9 j = false) ∧
    ((∀ a, a < s.argWidth.toNat * s.argHeight.toNat → s.byteAt .pix a = 0x00) →
      t.resLen = 9 + ceil8 (s.argHeight.toNat + 2 * s.argHeight.toNat * chunks s.argWidth.toNat) ∧
      (∀ j, j < s.argHeight.toNat → sliceBit t .cmp 9 j = true) ∧
      ∀ k, k < s.argHeight.toNat * chunks s.argWidth.toNat →
        sliceBit t .cmp 9 (s.argHeight.toNat + 2 * k) = true ∧ sliceBit t .cmp 9 (s.argHeight.toNat + 2 * k + 1) = false)

/-- R185, R217, R219 as a law of the format: the stream of an image is well formed and stands for the image. -/
def Obligations.StreamOfAnImageIsLossless : Prop :=
  ∀ (px : List Byte) (w h : Nat), w < 2 ^ 31 → h < 2 ^ 31 → px.length = w * h →
    (imageStream px w h).wf = true ∧ streamPixels (imageStream px w h) = px

/-- R80, R81: `COMPRESS` changes no byte of CMP from `EXT` up and none of SCR from `SCRATCH_BYTES(W)` up, also when it fails in
`E_GROW` (U3; log 6). `EXT` is read after the command has ended, where it keeps its last value by log 14, a choice of the model. -/
def Obligations.CompressStaysWithinItsRanges : Prop :=
  ∀ s t : State, exec .compress s = .next t →
    (∀ a, t.ext ≤ a → t.byteAt .cmp a = s.byteAt .cmp a) ∧
    ∀ a, scratchBytes s.argWidth.toNat ≤ a → t.byteAt .scr a = s.byteAt .scr a

/-! ### DECOMPRESS -/

/-- R163, R202: the step of `D_VALIDATE`. The first check that fails ends the command with nothing else changed that a host can see;
when all pass, `L`, `W` and `H` are latched and the decoder is initialised. -/
def Obligations.ValidateStepChecksAndLatches : Prop :=
  ∀ s : State, s.status.busy = true → s.host = [] → s.dstate = .validate →
    (∀ c, validateCause s = some c → ∃ t, step s = .next t ∧ t.visible = (failedWith s.cmd c s).visible) ∧
    (validateCause s = none →
      step s = .next { s with
        l := s.argLen, w := (headerWidth s).toNat, h := (headerHeight s).toNat, cur := (headerHeight s).toNat, row := 0
        dstate := if headerHeight s = 0 then .success else .readPresence })

/-- R163: the checks of `Validate()` in their order. The first that fails ends the command and no memory changes; when all pass,
`L`, `W` and `H` are latched and only the parse can still fail. That the working registers keep their last values when the command
has ended is log 14, a choice of the model. -/
def Obligations.DecompressValidates : Prop :=
  ∀ s : State, s.status.busy = false →
    (∀ c, validateCause s = some c → ∃ t, exec .decompress s = .next t ∧ { t with l := s.l } = failedWith 7 c s) ∧
    (validateCause s = none →
      ∃ t, exec .decompress s = .next t ∧ t.err ∈ [0, 8, 9, 10] ∧
        t.l = s.argLen ∧ t.w = (headerWidth s).toNat ∧ t.h = (headerHeight s).toNat)

/-- R109, R218, R288: `DECOMPRESS` completes on any bytes: with the image's size or with the sentinel and one cause. -/
def Obligations.DecompressAlwaysCompletes : Prop :=
  ∀ s : State, s.status.busy = false →
    ∃ t, exec .decompress s = .next t ∧
      (validateCause s = none ∧
        t.visible.registers =
          { succeeded 7 s with
            resLen := (headerWidth s).toNat * (headerHeight s).toNat
            resWidth := headerWidth s, resHeight := headerHeight s }.visible.registers ∨
        t.err ∈ [3, 4, 5, 6, 7, 8, 9, 10, 11] ∧
        { t.visible.registers with draws := s.draws } = (failedWith 7 t.err s).visible.registers)

/-- R73, R214, R215, R224: `DECOMPRESS` changes no byte but those of PIX below `W*H`. -/
def Obligations.DecompressChangesOnlyTheImage : Prop :=
  ∀ s t : State, exec .decompress s = .next t →
    ∀ m a, ¬ (m = .pix ∧ a < (headerWidth s).toNat * (headerHeight s).toNat) → t.byteAt m a = s.byteAt m a

/-- R217: a well-formed stream whose header and payload bits stand in CMP and fit is decoded to the pixels it stands for, whatever the pad
bits of its last byte and the bytes after it are (R108, R109, R222, vector D12). The cursor ends after its last bit (R225), and keeps
that value when the command has ended by log 14, a choice of the model. -/
def Obligations.DecompressReadsTheStream : Prop :=
  ∀ (s : State) (st : Stream), s.status.busy = false → s.argPresent = true → st.wf = true →
    cmpHolds s (encodedHeader st.width st.height) →
    (∀ k x, st.payload[k]? = some x → sliceBit s .cmp 9 k = x) →
    st.assemble.length ≤ s.argLen → s.argLen ≤ s.caps.cmpCap → st.width.toNat * st.height.toNat ≤ s.caps.pixCap →
    ∃ t, exec .decompress s = .next t ∧
      t.visible.registers =
        { succeeded 7 s with
          resLen := st.width.toNat * st.height.toNat, resWidth := st.width, resHeight := st.height }.visible.registers ∧
      storeList t .pix (st.width.toNat * st.height.toNat) = streamPixels st ∧
      t.cur = st.payload.length

/-- R218: `DECOMPRESS` is a total function of `ARG_PRESENT`, `ARG_LEN`, the first `ARG_LEN` bytes of CMP, `CMP_CAP` and `PIX_CAP`. -/
def Obligations.DecompressIsAFunctionOfItsBuffer : Prop :=
  ∀ s s' : State, s.status.busy = false → s'.status.busy = false →
    s'.caps.cmpCap = s.caps.cmpCap → s'.caps.pixCap = s.caps.pixCap →
    s'.argPresent = s.argPresent → s'.argLen = s.argLen → (∀ a, a < s.argLen → s'.byteAt .cmp a = s.byteAt .cmp a) →
    ∃ t t', exec .decompress s = .next t ∧ exec .decompress s' = .next t' ∧
      t'.status = t.status ∧ t'.err = t.err ∧
      t'.resLen = t.resLen ∧ t'.resWidth = t.resWidth ∧ t'.resHeight = t.resHeight ∧
      (t.status.fail = false → ∀ a, a < t.resLen → t'.byteAt .pix a = t.byteAt .pix a)

/-- R219, R222: what `COMPRESS` wrote is decoded to the image it read, from any buffer length that holds the result. -/
def Obligations.RoundTrip : Prop :=
  ∀ s t u : State, s.status.busy = false → s.argPresent = true → 0 < s.argWidth.toInt → 0 < s.argHeight.toInt →
    exec .compress s = .next t → t.status.fail = false →
    u.status.busy = false → u.caps = s.caps → u.argPresent = true → t.resLen ≤ u.argLen → u.argLen ≤ u.caps.cmpCap →
    (∀ a, a < t.resLen → u.byteAt .cmp a = t.byteAt .cmp a) →
    ∃ v, exec .decompress u = .next v ∧ v.status = { busy := false, done := true, fail := false } ∧ v.err = 0 ∧
      v.resWidth = s.argWidth ∧ v.resHeight = s.argHeight ∧ v.resLen = s.argWidth.toNat * s.argHeight.toNat ∧
      ∀ a, a < s.argWidth.toNat * s.argHeight.toNat → v.byteAt .pix a = s.byteAt .pix a

/-- R220: a compressed buffer that is cut at any byte, or whose magic byte is changed, makes `DECOMPRESS` fail. -/
def Obligations.CorruptionIsRejected : Prop :=
  ∀ s t u : State, s.status.busy = false → s.argPresent = true → 0 < s.argWidth.toInt → 0 < s.argHeight.toInt →
    exec .compress s = .next t → t.status.fail = false →
    u.status.busy = false → u.caps = s.caps → u.argPresent = true → u.argLen ≤ u.caps.cmpCap →
    ((∀ a, a < u.argLen → u.byteAt .cmp a = t.byteAt .cmp a) → u.argLen < t.resLen →
      ∃ v, exec .decompress u = .next v ∧ v.status = { busy := false, done := true, fail := true } ∧ v.err ≠ 0 ∧
        v.resLen = 0 ∧ v.resWidth = 0 ∧ v.resHeight = 0) ∧
    (9 ≤ u.argLen → u.byteAt .cmp 0 ≠ 0xBA →
      ∃ v, exec .decompress u = .next v ∧ v.status = { busy := false, done := true, fail := true } ∧ v.err = 5 ∧
        v.resLen = 0 ∧ v.resWidth = 0 ∧ v.resHeight = 0)

/-! ### Rules of the whole block -/

/-- R279: `COMPRESS` never writes PIX and `DECOMPRESS` never writes CMP, whether they succeed or fail. -/
def Obligations.InputsAreReadOnly : Prop :=
  ∀ s t : State,
    (exec .compress s = .next t → ∀ a, t.byteAt .pix a = s.byteAt .pix a) ∧
    (exec .decompress s = .next t → ∀ a, t.byteAt .cmp a = s.byteAt .cmp a)

/-- R27, R39: no instruction writes an `ARG_*` register, only `RDBIT` writes `RES_BIT`, only `RDCHUNK` writes DBUF, and the
capacities and the host's part stay as they are. -/
def Obligations.NoInstructionWritesTheOperands : Prop :=
  ∀ (i : Instr) (s t : State), exec i s = .next t →
    t.argWidth = s.argWidth ∧ t.argHeight = s.argHeight ∧ t.argPresent = s.argPresent ∧ t.argLen = s.argLen ∧
    t.argMem = s.argMem ∧ t.argBase = s.argBase ∧ t.argBit = s.argBit ∧
    (i ≠ .rdbit → t.resBit = s.resBit) ∧
    (i ≠ .rdchunk → ∀ a, t.byteAt .dbuf a = s.byteAt .dbuf a) ∧
    t.caps = s.caps ∧ t.host = s.host ∧ t.hostSaw = s.hostSaw

/-- R25, R26, R249: how every command ends, and the sentinel of a failed one. -/
def Obligations.CommandsEndWithAResultOrTheSentinel : Prop :=
  ∀ (i : Instr) (s t : State), i.fits .command = true → s.status.busy = false → exec i s = .next t →
    t.cmd = commandCode i ∧ t.status.busy = false ∧ t.status.done = true ∧ t.dstate = .idle ∧ t.estate = .idle ∧
    (t.status.fail = true ↔ t.err ≠ 0) ∧
    (t.status.fail = true → t.resLen = 0 ∧ t.resWidth = 0 ∧ t.resHeight = 0)

/-- R38: nothing but the host-visible registers and PIX, CMP and DBUF reaches from one command to the next: two states that agree in
them end a command in states that agree in them. That the free bytes of a failed command's destination are the same in both (R252,
U3) is log 7, a choice of the model. -/
def Obligations.CommandsDependOnVisibleState : Prop :=
  ∀ (i : Instr) (s s' t : State), i.fits .command = true → s.status.busy = false → s'.visible = s.visible →
    exec i s = .next t → ∃ t', exec i s' = .next t' ∧ t'.visible = t.visible

/-- R27: the result registers are written only at command completion: while a command goes on after a step they are as before it. -/
def Obligations.ResultsAreWrittenOnlyAtCompletion : Prop :=
  ∀ s t : State, step s = .next t → t.status.busy = true →
    t.resLen = s.resLen ∧ t.resWidth = s.resWidth ∧ t.resHeight = s.resHeight ∧ t.resBit = s.resBit

/-! ### Runs of the block -/

/-- R74: a command that a plain write to `CMD` starts and that then moves in steps of the block ends as its meaning says, in a fault
too (log 5). -/
def Obligations.StepsOfACommandAddUpToIt : Prop :=
  ∀ (s : State) (c : BitVec 4) (i : Instr), s.status.busy = false → s.host = [] → decodeCommand c = .ok i →
    ∃ k, Host.Core.run Sys2Proof.core k (beginCommand c s) = exec i s

/-- R216: the step that runs a whole chunk code is the run of the decoder's states from `ReadPrefix1` to the code's end (log 5). -/
def Obligations.CodeIsItsTransitions : Prop :=
  ∀ s : State, s.status.busy = true → s.dstate = .readPrefix1 → 1 ≤ s.n → s.n ≤ 4 →
    ∃ k, k ≤ 4 ∧ decTransitions k s = fetchRun fetchChunk s

/-- R183, R216: no transition of `ESTATE` or `DSTATE` but those of the spec. -/
def Obligations.TransitionsAreTheSpecs : Prop :=
  ∀ s t : State,
    (encStep s = .ok t → t.estate ∈ encSuccessors s.estate) ∧
    (decTransition s = .ok t → t.dstate ∈ decSuccessors s.dstate)

/-- The invariant of every state holds after a step from any state that meets it, whatever the host does. -/
def Obligations.StepKeepsTheStateInvariant : Prop :=
  ∀ s t : State, StateInv s → step s = .next t → StateInv t

/-- The two invariants hold at reset. -/
def Obligations.ResetMeetsTheInvariants : Prop :=
  StateInv State.reset ∧ RunInv State.reset

/-- What holds in each state of the decoder and of the encoder (R163, R186, R201, R203, R206) is kept by every step. -/
def Obligations.StepKeepsTheRunInvariant : Prop :=
  ∀ s t : State, StateInv s → RunInv s → step s = .next t → RunInv t

/-- R44, R81, R186, R221, R288: from any state that meets the invariants, a running `COMPRESS` or `DECOMPRESS` never stops: every access
it makes is within its store. -/
def Obligations.RunningCodecNeverStops : Prop :=
  ∀ s : State, StateInv s → RunInv s → s.status.busy = true → (s.dstate ≠ .idle ∨ s.estate ≠ .idle) → s.host = [] →
    ∃ t, step s = .next t
end

