-- ==== Sys2Proof/Laws/State.lean ====
section
/-! SUPPORT. The small lemmas of every update of the state: what each field is after it, so that no proof unfolds a record update. -/

namespace Sys2Proof.Machine

open Config (Store)

/-! ### A byte store replaced -/

@[simp] theorem setMem_cmd (s : State) (m : Store) (x : Mem) : (s.setMem m x).cmd = s.cmd := by cases m <;> rfl
@[simp] theorem setMem_status (s : State) (m : Store) (x : Mem) : (s.setMem m x).status = s.status := by cases m <;> rfl
@[simp] theorem setMem_err (s : State) (m : Store) (x : Mem) : (s.setMem m x).err = s.err := by cases m <;> rfl
@[simp] theorem setMem_argWidth (s : State) (m : Store) (x : Mem) : (s.setMem m x).argWidth = s.argWidth := by cases m <;> rfl
@[simp] theorem setMem_argHeight (s : State) (m : Store) (x : Mem) : (s.setMem m x).argHeight = s.argHeight := by cases m <;> rfl
@[simp] theorem setMem_argPresent (s : State) (m : Store) (x : Mem) : (s.setMem m x).argPresent = s.argPresent := by cases m <;> rfl
@[simp] theorem setMem_argLen (s : State) (m : Store) (x : Mem) : (s.setMem m x).argLen = s.argLen := by cases m <;> rfl
@[simp] theorem setMem_argMem (s : State) (m : Store) (x : Mem) : (s.setMem m x).argMem = s.argMem := by cases m <;> rfl
@[simp] theorem setMem_argBase (s : State) (m : Store) (x : Mem) : (s.setMem m x).argBase = s.argBase := by cases m <;> rfl
@[simp] theorem setMem_argBit (s : State) (m : Store) (x : Mem) : (s.setMem m x).argBit = s.argBit := by cases m <;> rfl
@[simp] theorem setMem_resLen (s : State) (m : Store) (x : Mem) : (s.setMem m x).resLen = s.resLen := by cases m <;> rfl
@[simp] theorem setMem_resWidth (s : State) (m : Store) (x : Mem) : (s.setMem m x).resWidth = s.resWidth := by cases m <;> rfl
@[simp] theorem setMem_resHeight (s : State) (m : Store) (x : Mem) : (s.setMem m x).resHeight = s.resHeight := by cases m <;> rfl
@[simp] theorem setMem_resBit (s : State) (m : Store) (x : Mem) : (s.setMem m x).resBit = s.resBit := by cases m <;> rfl
@[simp] theorem setMem_w (s : State) (m : Store) (x : Mem) : (s.setMem m x).w = s.w := by cases m <;> rfl
@[simp] theorem setMem_h (s : State) (m : Store) (x : Mem) : (s.setMem m x).h = s.h := by cases m <;> rfl
@[simp] theorem setMem_l (s : State) (m : Store) (x : Mem) : (s.setMem m x).l = s.l := by cases m <;> rfl
@[simp] theorem setMem_row (s : State) (m : Store) (x : Mem) : (s.setMem m x).row = s.row := by cases m <;> rfl
@[simp] theorem setMem_chk (s : State) (m : Store) (x : Mem) : (s.setMem m x).chk = s.chk := by cases m <;> rfl
@[simp] theorem setMem_n (s : State) (m : Store) (x : Mem) : (s.setMem m x).n = s.n := by cases m <;> rfl
@[simp] theorem setMem_dstate (s : State) (m : Store) (x : Mem) : (s.setMem m x).dstate = s.dstate := by cases m <;> rfl
@[simp] theorem setMem_estate (s : State) (m : Store) (x : Mem) : (s.setMem m x).estate = s.estate := by cases m <;> rfl
@[simp] theorem setMem_rc (s : State) (m : Store) (x : Mem) : (s.setMem m x).rc = s.rc := by cases m <;> rfl
@[simp] theorem setMem_rowWhite (s : State) (m : Store) (x : Mem) : (s.setMem m x).rowWhite = s.rowWhite := by cases m <;> rfl
@[simp] theorem setMem_ext (s : State) (m : Store) (x : Mem) : (s.setMem m x).ext = s.ext := by cases m <;> rfl
@[simp] theorem setMem_px (s : State) (m : Store) (x : Mem) : (s.setMem m x).px = s.px := by cases m <;> rfl
@[simp] theorem setMem_cur (s : State) (m : Store) (x : Mem) : (s.setMem m x).cur = s.cur := by cases m <;> rfl
@[simp] theorem setMem_caps (s : State) (m : Store) (x : Mem) : (s.setMem m x).caps = s.caps := by cases m <;> rfl
@[simp] theorem setMem_host (s : State) (m : Store) (x : Mem) : (s.setMem m x).host = s.host := by cases m <;> rfl
@[simp] theorem setMem_hostSaw (s : State) (m : Store) (x : Mem) : (s.setMem m x).hostSaw = s.hostSaw := by cases m <;> rfl
@[simp] theorem setMem_draws (s : State) (m : Store) (x : Mem) : (s.setMem m x).draws = s.draws := by cases m <;> rfl

/-! ### A byte written -/

@[simp] theorem setByte_cmd (s : State) (m : Store) (a : Nat) (v : Byte) : (s.setByte m a v).cmd = s.cmd := by cases m <;> rfl
@[simp] theorem setByte_status (s : State) (m : Store) (a : Nat) (v : Byte) : (s.setByte m a v).status = s.status := by cases m <;> rfl
@[simp] theorem setByte_err (s : State) (m : Store) (a : Nat) (v : Byte) : (s.setByte m a v).err = s.err := by cases m <;> rfl
@[simp] theorem setByte_argWidth (s : State) (m : Store) (a : Nat) (v : Byte) : (s.setByte m a v).argWidth = s.argWidth := by cases m <;> rfl
@[simp] theorem setByte_argHeight (s : State) (m : Store) (a : Nat) (v : Byte) : (s.setByte m a v).argHeight = s.argHeight := by cases m <;> rfl
@[simp] theorem setByte_argPresent (s : State) (m : Store) (a : Nat) (v : Byte) : (s.setByte m a v).argPresent = s.argPresent := by cases m <;> rfl
@[simp] theorem setByte_argLen (s : State) (m : Store) (a : Nat) (v : Byte) : (s.setByte m a v).argLen = s.argLen := by cases m <;> rfl
@[simp] theorem setByte_argMem (s : State) (m : Store) (a : Nat) (v : Byte) : (s.setByte m a v).argMem = s.argMem := by cases m <;> rfl
@[simp] theorem setByte_argBase (s : State) (m : Store) (a : Nat) (v : Byte) : (s.setByte m a v).argBase = s.argBase := by cases m <;> rfl
@[simp] theorem setByte_argBit (s : State) (m : Store) (a : Nat) (v : Byte) : (s.setByte m a v).argBit = s.argBit := by cases m <;> rfl
@[simp] theorem setByte_resLen (s : State) (m : Store) (a : Nat) (v : Byte) : (s.setByte m a v).resLen = s.resLen := by cases m <;> rfl
@[simp] theorem setByte_resWidth (s : State) (m : Store) (a : Nat) (v : Byte) : (s.setByte m a v).resWidth = s.resWidth := by cases m <;> rfl
@[simp] theorem setByte_resHeight (s : State) (m : Store) (a : Nat) (v : Byte) : (s.setByte m a v).resHeight = s.resHeight := by cases m <;> rfl
@[simp] theorem setByte_resBit (s : State) (m : Store) (a : Nat) (v : Byte) : (s.setByte m a v).resBit = s.resBit := by cases m <;> rfl
@[simp] theorem setByte_w (s : State) (m : Store) (a : Nat) (v : Byte) : (s.setByte m a v).w = s.w := by cases m <;> rfl
@[simp] theorem setByte_h (s : State) (m : Store) (a : Nat) (v : Byte) : (s.setByte m a v).h = s.h := by cases m <;> rfl
@[simp] theorem setByte_l (s : State) (m : Store) (a : Nat) (v : Byte) : (s.setByte m a v).l = s.l := by cases m <;> rfl
@[simp] theorem setByte_row (s : State) (m : Store) (a : Nat) (v : Byte) : (s.setByte m a v).row = s.row := by cases m <;> rfl
@[simp] theorem setByte_chk (s : State) (m : Store) (a : Nat) (v : Byte) : (s.setByte m a v).chk = s.chk := by cases m <;> rfl
@[simp] theorem setByte_n (s : State) (m : Store) (a : Nat) (v : Byte) : (s.setByte m a v).n = s.n := by cases m <;> rfl
@[simp] theorem setByte_dstate (s : State) (m : Store) (a : Nat) (v : Byte) : (s.setByte m a v).dstate = s.dstate := by cases m <;> rfl
@[simp] theorem setByte_estate (s : State) (m : Store) (a : Nat) (v : Byte) : (s.setByte m a v).estate = s.estate := by cases m <;> rfl
@[simp] theorem setByte_rc (s : State) (m : Store) (a : Nat) (v : Byte) : (s.setByte m a v).rc = s.rc := by cases m <;> rfl
@[simp] theorem setByte_rowWhite (s : State) (m : Store) (a : Nat) (v : Byte) : (s.setByte m a v).rowWhite = s.rowWhite := by cases m <;> rfl
@[simp] theorem setByte_ext (s : State) (m : Store) (a : Nat) (v : Byte) : (s.setByte m a v).ext = s.ext := by cases m <;> rfl
@[simp] theorem setByte_px (s : State) (m : Store) (a : Nat) (v : Byte) : (s.setByte m a v).px = s.px := by cases m <;> rfl
@[simp] theorem setByte_cur (s : State) (m : Store) (a : Nat) (v : Byte) : (s.setByte m a v).cur = s.cur := by cases m <;> rfl
@[simp] theorem setByte_caps (s : State) (m : Store) (a : Nat) (v : Byte) : (s.setByte m a v).caps = s.caps := by cases m <;> rfl
@[simp] theorem setByte_host (s : State) (m : Store) (a : Nat) (v : Byte) : (s.setByte m a v).host = s.host := by cases m <;> rfl
@[simp] theorem setByte_hostSaw (s : State) (m : Store) (a : Nat) (v : Byte) : (s.setByte m a v).hostSaw = s.hostSaw := by cases m <;> rfl
@[simp] theorem setByte_draws (s : State) (m : Store) (a : Nat) (v : Byte) : (s.setByte m a v).draws = s.draws := by cases m <;> rfl

/-! ### A range forgotten -/

@[simp] theorem forget_cmd (s : State) (m : Store) (k : Nat) : (forget s m k).cmd = s.cmd := by cases m <;> rfl
@[simp] theorem forget_status (s : State) (m : Store) (k : Nat) : (forget s m k).status = s.status := by cases m <;> rfl
@[simp] theorem forget_err (s : State) (m : Store) (k : Nat) : (forget s m k).err = s.err := by cases m <;> rfl
@[simp] theorem forget_argWidth (s : State) (m : Store) (k : Nat) : (forget s m k).argWidth = s.argWidth := by cases m <;> rfl
@[simp] theorem forget_argHeight (s : State) (m : Store) (k : Nat) : (forget s m k).argHeight = s.argHeight := by cases m <;> rfl
@[simp] theorem forget_argPresent (s : State) (m : Store) (k : Nat) : (forget s m k).argPresent = s.argPresent := by cases m <;> rfl
@[simp] theorem forget_argLen (s : State) (m : Store) (k : Nat) : (forget s m k).argLen = s.argLen := by cases m <;> rfl
@[simp] theorem forget_argMem (s : State) (m : Store) (k : Nat) : (forget s m k).argMem = s.argMem := by cases m <;> rfl
@[simp] theorem forget_argBase (s : State) (m : Store) (k : Nat) : (forget s m k).argBase = s.argBase := by cases m <;> rfl
@[simp] theorem forget_argBit (s : State) (m : Store) (k : Nat) : (forget s m k).argBit = s.argBit := by cases m <;> rfl
@[simp] theorem forget_resLen (s : State) (m : Store) (k : Nat) : (forget s m k).resLen = s.resLen := by cases m <;> rfl
@[simp] theorem forget_resWidth (s : State) (m : Store) (k : Nat) : (forget s m k).resWidth = s.resWidth := by cases m <;> rfl
@[simp] theorem forget_resHeight (s : State) (m : Store) (k : Nat) : (forget s m k).resHeight = s.resHeight := by cases m <;> rfl
@[simp] theorem forget_resBit (s : State) (m : Store) (k : Nat) : (forget s m k).resBit = s.resBit := by cases m <;> rfl
@[simp] theorem forget_w (s : State) (m : Store) (k : Nat) : (forget s m k).w = s.w := by cases m <;> rfl
@[simp] theorem forget_h (s : State) (m : Store) (k : Nat) : (forget s m k).h = s.h := by cases m <;> rfl
@[simp] theorem forget_l (s : State) (m : Store) (k : Nat) : (forget s m k).l = s.l := by cases m <;> rfl
@[simp] theorem forget_row (s : State) (m : Store) (k : Nat) : (forget s m k).row = s.row := by cases m <;> rfl
@[simp] theorem forget_chk (s : State) (m : Store) (k : Nat) : (forget s m k).chk = s.chk := by cases m <;> rfl
@[simp] theorem forget_n (s : State) (m : Store) (k : Nat) : (forget s m k).n = s.n := by cases m <;> rfl
@[simp] theorem forget_dstate (s : State) (m : Store) (k : Nat) : (forget s m k).dstate = s.dstate := by cases m <;> rfl
@[simp] theorem forget_estate (s : State) (m : Store) (k : Nat) : (forget s m k).estate = s.estate := by cases m <;> rfl
@[simp] theorem forget_rc (s : State) (m : Store) (k : Nat) : (forget s m k).rc = s.rc := by cases m <;> rfl
@[simp] theorem forget_rowWhite (s : State) (m : Store) (k : Nat) : (forget s m k).rowWhite = s.rowWhite := by cases m <;> rfl
@[simp] theorem forget_ext (s : State) (m : Store) (k : Nat) : (forget s m k).ext = s.ext := by cases m <;> rfl
@[simp] theorem forget_px (s : State) (m : Store) (k : Nat) : (forget s m k).px = s.px := by cases m <;> rfl
@[simp] theorem forget_cur (s : State) (m : Store) (k : Nat) : (forget s m k).cur = s.cur := by cases m <;> rfl
@[simp] theorem forget_caps (s : State) (m : Store) (k : Nat) : (forget s m k).caps = s.caps := by cases m <;> rfl
@[simp] theorem forget_host (s : State) (m : Store) (k : Nat) : (forget s m k).host = s.host := by cases m <;> rfl
@[simp] theorem forget_hostSaw (s : State) (m : Store) (k : Nat) : (forget s m k).hostSaw = s.hostSaw := by cases m <;> rfl
@[simp] theorem forget_draws (s : State) (m : Store) (k : Nat) :
    (forget s m k).draws = s.draws + 1 := by cases m <;> rfl

/-! ### A command's start -/

@[simp] theorem beginCommand_cmd (c : BitVec 4) (s : State) :
    (beginCommand c s).cmd = c := rfl
@[simp] theorem beginCommand_status (c : BitVec 4) (s : State) :
    (beginCommand c s).status = { busy := true, done := false, fail := false } := rfl
@[simp] theorem beginCommand_err (c : BitVec 4) (s : State) :
    (beginCommand c s).err = 0 := rfl
@[simp] theorem beginCommand_argWidth (c : BitVec 4) (s : State) : (beginCommand c s).argWidth = s.argWidth := rfl
@[simp] theorem beginCommand_argHeight (c : BitVec 4) (s : State) : (beginCommand c s).argHeight = s.argHeight := rfl
@[simp] theorem beginCommand_argPresent (c : BitVec 4) (s : State) : (beginCommand c s).argPresent = s.argPresent := rfl
@[simp] theorem beginCommand_argLen (c : BitVec 4) (s : State) : (beginCommand c s).argLen = s.argLen := rfl
@[simp] theorem beginCommand_argMem (c : BitVec 4) (s : State) : (beginCommand c s).argMem = s.argMem := rfl
@[simp] theorem beginCommand_argBase (c : BitVec 4) (s : State) : (beginCommand c s).argBase = s.argBase := rfl
@[simp] theorem beginCommand_argBit (c : BitVec 4) (s : State) : (beginCommand c s).argBit = s.argBit := rfl
@[simp] theorem beginCommand_resLen (c : BitVec 4) (s : State) : (beginCommand c s).resLen = s.resLen := rfl
@[simp] theorem beginCommand_resWidth (c : BitVec 4) (s : State) : (beginCommand c s).resWidth = s.resWidth := rfl
@[simp] theorem beginCommand_resHeight (c : BitVec 4) (s : State) : (beginCommand c s).resHeight = s.resHeight := rfl
@[simp] theorem beginCommand_resBit (c : BitVec 4) (s : State) : (beginCommand c s).resBit = s.resBit := rfl
@[simp] theorem beginCommand_w (c : BitVec 4) (s : State) : (beginCommand c s).w = s.w := rfl
@[simp] theorem beginCommand_h (c : BitVec 4) (s : State) : (beginCommand c s).h = s.h := rfl
@[simp] theorem beginCommand_l (c : BitVec 4) (s : State) : (beginCommand c s).l = s.l := rfl
@[simp] theorem beginCommand_row (c : BitVec 4) (s : State) : (beginCommand c s).row = s.row := rfl
@[simp] theorem beginCommand_chk (c : BitVec 4) (s : State) : (beginCommand c s).chk = s.chk := rfl
@[simp] theorem beginCommand_n (c : BitVec 4) (s : State) : (beginCommand c s).n = s.n := rfl
@[simp] theorem beginCommand_dstate (c : BitVec 4) (s : State) :
    (beginCommand c s).dstate = if c = 7 then .validate else .idle := rfl
@[simp] theorem beginCommand_estate (c : BitVec 4) (s : State) :
    (beginCommand c s).estate = if c = 6 then .check else .idle := rfl
@[simp] theorem beginCommand_rc (c : BitVec 4) (s : State) : (beginCommand c s).rc = s.rc := rfl
@[simp] theorem beginCommand_rowWhite (c : BitVec 4) (s : State) : (beginCommand c s).rowWhite = s.rowWhite := rfl
@[simp] theorem beginCommand_ext (c : BitVec 4) (s : State) : (beginCommand c s).ext = s.ext := rfl
@[simp] theorem beginCommand_px (c : BitVec 4) (s : State) : (beginCommand c s).px = s.px := rfl
@[simp] theorem beginCommand_cur (c : BitVec 4) (s : State) : (beginCommand c s).cur = s.cur := rfl
@[simp] theorem beginCommand_caps (c : BitVec 4) (s : State) : (beginCommand c s).caps = s.caps := rfl
@[simp] theorem beginCommand_host (c : BitVec 4) (s : State) : (beginCommand c s).host = s.host := rfl
@[simp] theorem beginCommand_hostSaw (c : BitVec 4) (s : State) : (beginCommand c s).hostSaw = s.hostSaw := rfl
@[simp] theorem beginCommand_draws (c : BitVec 4) (s : State) : (beginCommand c s).draws = s.draws := rfl
@[simp] theorem beginCommand_pix (c : BitVec 4) (s : State) : (beginCommand c s).pix = s.pix := rfl
@[simp] theorem beginCommand_cmp (c : BitVec 4) (s : State) : (beginCommand c s).cmp = s.cmp := rfl
@[simp] theorem beginCommand_scr (c : BitVec 4) (s : State) : (beginCommand c s).scr = s.scr := rfl
@[simp] theorem beginCommand_dbuf (c : BitVec 4) (s : State) : (beginCommand c s).dbuf = s.dbuf := rfl
@[simp] theorem beginCommand_mem (c : BitVec 4) (s : State) (m : Store) : (beginCommand c s).mem m = s.mem m := by cases m <;> rfl
@[simp] theorem beginCommand_byteAt (c : BitVec 4) (s : State) (m : Store) (a : Nat) :
    (beginCommand c s).byteAt m a = s.byteAt m a := by cases m <;> rfl

/-! ### A command's completion -/

@[simp] theorem complete_cmd (s : State) : (complete s).cmd = s.cmd := rfl
@[simp] theorem complete_status (s : State) :
    (complete s).status = { busy := false, done := true, fail := s.status.fail } := rfl
@[simp] theorem complete_err (s : State) : (complete s).err = s.err := rfl
@[simp] theorem complete_argWidth (s : State) : (complete s).argWidth = s.argWidth := rfl
@[simp] theorem complete_argHeight (s : State) : (complete s).argHeight = s.argHeight := rfl
@[simp] theorem complete_argPresent (s : State) : (complete s).argPresent = s.argPresent := rfl
@[simp] theorem complete_argLen (s : State) : (complete s).argLen = s.argLen := rfl
@[simp] theorem complete_argMem (s : State) : (complete s).argMem = s.argMem := rfl
@[simp] theorem complete_argBase (s : State) : (complete s).argBase = s.argBase := rfl
@[simp] theorem complete_argBit (s : State) : (complete s).argBit = s.argBit := rfl
@[simp] theorem complete_resLen (s : State) : (complete s).resLen = s.resLen := rfl
@[simp] theorem complete_resWidth (s : State) : (complete s).resWidth = s.resWidth := rfl
@[simp] theorem complete_resHeight (s : State) : (complete s).resHeight = s.resHeight := rfl
@[simp] theorem complete_resBit (s : State) : (complete s).resBit = s.resBit := rfl
@[simp] theorem complete_w (s : State) : (complete s).w = s.w := rfl
@[simp] theorem complete_h (s : State) : (complete s).h = s.h := rfl
@[simp] theorem complete_l (s : State) : (complete s).l = s.l := rfl
@[simp] theorem complete_row (s : State) : (complete s).row = s.row := rfl
@[simp] theorem complete_chk (s : State) : (complete s).chk = s.chk := rfl
@[simp] theorem complete_n (s : State) : (complete s).n = s.n := rfl
@[simp] theorem complete_dstate (s : State) :
    (complete s).dstate = .idle := rfl
@[simp] theorem complete_estate (s : State) :
    (complete s).estate = .idle := rfl
@[simp] theorem complete_rc (s : State) : (complete s).rc = s.rc := rfl
@[simp] theorem complete_rowWhite (s : State) : (complete s).rowWhite = s.rowWhite := rfl
@[simp] theorem complete_ext (s : State) : (complete s).ext = s.ext := rfl
@[simp] theorem complete_px (s : State) : (complete s).px = s.px := rfl
@[simp] theorem complete_cur (s : State) : (complete s).cur = s.cur := rfl
@[simp] theorem complete_caps (s : State) : (complete s).caps = s.caps := rfl
@[simp] theorem complete_host (s : State) : (complete s).host = s.host := rfl
@[simp] theorem complete_hostSaw (s : State) : (complete s).hostSaw = s.hostSaw := rfl
@[simp] theorem complete_draws (s : State) : (complete s).draws = s.draws := rfl
@[simp] theorem complete_pix (s : State) : (complete s).pix = s.pix := rfl
@[simp] theorem complete_cmp (s : State) : (complete s).cmp = s.cmp := rfl
@[simp] theorem complete_scr (s : State) : (complete s).scr = s.scr := rfl
@[simp] theorem complete_dbuf (s : State) : (complete s).dbuf = s.dbuf := rfl
@[simp] theorem complete_mem (s : State) (m : Store) : (complete s).mem m = s.mem m := by cases m <;> rfl
@[simp] theorem complete_byteAt (s : State) (m : Store) (a : Nat) :
    (complete s).byteAt m a = s.byteAt m a := by cases m <;> rfl

/-! ### A failure -/

@[simp] theorem raiseFail_cmd (c : Cause) (s : State) : (raiseFail c s).cmd = s.cmd := rfl
@[simp] theorem raiseFail_status (c : Cause) (s : State) :
    (raiseFail c s).status = { busy := false, done := true, fail := true } := rfl
@[simp] theorem raiseFail_err (c : Cause) (s : State) :
    (raiseFail c s).err = c.code := rfl
@[simp] theorem raiseFail_argWidth (c : Cause) (s : State) : (raiseFail c s).argWidth = s.argWidth := rfl
@[simp] theorem raiseFail_argHeight (c : Cause) (s : State) : (raiseFail c s).argHeight = s.argHeight := rfl
@[simp] theorem raiseFail_argPresent (c : Cause) (s : State) : (raiseFail c s).argPresent = s.argPresent := rfl
@[simp] theorem raiseFail_argLen (c : Cause) (s : State) : (raiseFail c s).argLen = s.argLen := rfl
@[simp] theorem raiseFail_argMem (c : Cause) (s : State) : (raiseFail c s).argMem = s.argMem := rfl
@[simp] theorem raiseFail_argBase (c : Cause) (s : State) : (raiseFail c s).argBase = s.argBase := rfl
@[simp] theorem raiseFail_argBit (c : Cause) (s : State) : (raiseFail c s).argBit = s.argBit := rfl
@[simp] theorem raiseFail_resLen (c : Cause) (s : State) :
    (raiseFail c s).resLen = 0 := rfl
@[simp] theorem raiseFail_resWidth (c : Cause) (s : State) :
    (raiseFail c s).resWidth = 0 := rfl
@[simp] theorem raiseFail_resHeight (c : Cause) (s : State) :
    (raiseFail c s).resHeight = 0 := rfl
@[simp] theorem raiseFail_resBit (c : Cause) (s : State) : (raiseFail c s).resBit = s.resBit := rfl
@[simp] theorem raiseFail_w (c : Cause) (s : State) : (raiseFail c s).w = s.w := rfl
@[simp] theorem raiseFail_h (c : Cause) (s : State) : (raiseFail c s).h = s.h := rfl
@[simp] theorem raiseFail_l (c : Cause) (s : State) : (raiseFail c s).l = s.l := rfl
@[simp] theorem raiseFail_row (c : Cause) (s : State) : (raiseFail c s).row = s.row := rfl
@[simp] theorem raiseFail_chk (c : Cause) (s : State) : (raiseFail c s).chk = s.chk := rfl
@[simp] theorem raiseFail_n (c : Cause) (s : State) : (raiseFail c s).n = s.n := rfl
@[simp] theorem raiseFail_dstate (c : Cause) (s : State) :
    (raiseFail c s).dstate = .idle := rfl
@[simp] theorem raiseFail_estate (c : Cause) (s : State) :
    (raiseFail c s).estate = .idle := rfl
@[simp] theorem raiseFail_rc (c : Cause) (s : State) : (raiseFail c s).rc = s.rc := rfl
@[simp] theorem raiseFail_rowWhite (c : Cause) (s : State) : (raiseFail c s).rowWhite = s.rowWhite := rfl
@[simp] theorem raiseFail_ext (c : Cause) (s : State) : (raiseFail c s).ext = s.ext := rfl
@[simp] theorem raiseFail_px (c : Cause) (s : State) : (raiseFail c s).px = s.px := rfl
@[simp] theorem raiseFail_cur (c : Cause) (s : State) : (raiseFail c s).cur = s.cur := rfl
@[simp] theorem raiseFail_caps (c : Cause) (s : State) : (raiseFail c s).caps = s.caps := rfl
@[simp] theorem raiseFail_host (c : Cause) (s : State) : (raiseFail c s).host = s.host := rfl
@[simp] theorem raiseFail_hostSaw (c : Cause) (s : State) : (raiseFail c s).hostSaw = s.hostSaw := rfl
@[simp] theorem raiseFail_draws (c : Cause) (s : State) : (raiseFail c s).draws = s.draws := rfl
@[simp] theorem raiseFail_pix (c : Cause) (s : State) : (raiseFail c s).pix = s.pix := rfl
@[simp] theorem raiseFail_cmp (c : Cause) (s : State) : (raiseFail c s).cmp = s.cmp := rfl
@[simp] theorem raiseFail_scr (c : Cause) (s : State) : (raiseFail c s).scr = s.scr := rfl
@[simp] theorem raiseFail_dbuf (c : Cause) (s : State) : (raiseFail c s).dbuf = s.dbuf := rfl
@[simp] theorem raiseFail_mem (c : Cause) (s : State) (m : Store) : (raiseFail c s).mem m = s.mem m := by cases m <;> rfl
@[simp] theorem raiseFail_byteAt (c : Cause) (s : State) (m : Store) (a : Nat) :
    (raiseFail c s).byteAt m a = s.byteAt m a := by cases m <;> rfl

/-! ### The encoder's chunk advance -/

@[simp] theorem chunkAdvance_cmd (s : State) : (chunkAdvance s).cmd = s.cmd := rfl
@[simp] theorem chunkAdvance_status (s : State) : (chunkAdvance s).status = s.status := rfl
@[simp] theorem chunkAdvance_err (s : State) : (chunkAdvance s).err = s.err := rfl
@[simp] theorem chunkAdvance_argWidth (s : State) : (chunkAdvance s).argWidth = s.argWidth := rfl
@[simp] theorem chunkAdvance_argHeight (s : State) : (chunkAdvance s).argHeight = s.argHeight := rfl
@[simp] theorem chunkAdvance_argPresent (s : State) : (chunkAdvance s).argPresent = s.argPresent := rfl
@[simp] theorem chunkAdvance_argLen (s : State) : (chunkAdvance s).argLen = s.argLen := rfl
@[simp] theorem chunkAdvance_argMem (s : State) : (chunkAdvance s).argMem = s.argMem := rfl
@[simp] theorem chunkAdvance_argBase (s : State) : (chunkAdvance s).argBase = s.argBase := rfl
@[simp] theorem chunkAdvance_argBit (s : State) : (chunkAdvance s).argBit = s.argBit := rfl
@[simp] theorem chunkAdvance_resLen (s : State) : (chunkAdvance s).resLen = s.resLen := rfl
@[simp] theorem chunkAdvance_resWidth (s : State) : (chunkAdvance s).resWidth = s.resWidth := rfl
@[simp] theorem chunkAdvance_resHeight (s : State) : (chunkAdvance s).resHeight = s.resHeight := rfl
@[simp] theorem chunkAdvance_resBit (s : State) : (chunkAdvance s).resBit = s.resBit := rfl
@[simp] theorem chunkAdvance_w (s : State) : (chunkAdvance s).w = s.w := rfl
@[simp] theorem chunkAdvance_h (s : State) : (chunkAdvance s).h = s.h := rfl
@[simp] theorem chunkAdvance_l (s : State) : (chunkAdvance s).l = s.l := rfl
@[simp] theorem chunkAdvance_row (s : State) : (chunkAdvance s).row = s.row := rfl
@[simp] theorem chunkAdvance_chk (s : State) :
    (chunkAdvance s).chk = s.chk + 1 := rfl
@[simp] theorem chunkAdvance_n (s : State) : (chunkAdvance s).n = s.n := rfl
@[simp] theorem chunkAdvance_dstate (s : State) : (chunkAdvance s).dstate = s.dstate := rfl
@[simp] theorem chunkAdvance_estate (s : State) :
    (chunkAdvance s).estate = if s.chk + 1 < chunks s.w then .classify else if s.rowWhite then .rowWhite else .rowAppend := rfl
@[simp] theorem chunkAdvance_rc (s : State) : (chunkAdvance s).rc = s.rc := rfl
@[simp] theorem chunkAdvance_rowWhite (s : State) : (chunkAdvance s).rowWhite = s.rowWhite := rfl
@[simp] theorem chunkAdvance_ext (s : State) : (chunkAdvance s).ext = s.ext := rfl
@[simp] theorem chunkAdvance_px (s : State) : (chunkAdvance s).px = s.px := rfl
@[simp] theorem chunkAdvance_cur (s : State) : (chunkAdvance s).cur = s.cur := rfl
@[simp] theorem chunkAdvance_caps (s : State) : (chunkAdvance s).caps = s.caps := rfl
@[simp] theorem chunkAdvance_host (s : State) : (chunkAdvance s).host = s.host := rfl
@[simp] theorem chunkAdvance_hostSaw (s : State) : (chunkAdvance s).hostSaw = s.hostSaw := rfl
@[simp] theorem chunkAdvance_draws (s : State) : (chunkAdvance s).draws = s.draws := rfl
@[simp] theorem chunkAdvance_pix (s : State) : (chunkAdvance s).pix = s.pix := rfl
@[simp] theorem chunkAdvance_cmp (s : State) : (chunkAdvance s).cmp = s.cmp := rfl
@[simp] theorem chunkAdvance_scr (s : State) : (chunkAdvance s).scr = s.scr := rfl
@[simp] theorem chunkAdvance_dbuf (s : State) : (chunkAdvance s).dbuf = s.dbuf := rfl
@[simp] theorem chunkAdvance_mem (s : State) (m : Store) : (chunkAdvance s).mem m = s.mem m := by cases m <;> rfl
@[simp] theorem chunkAdvance_byteAt (s : State) (m : Store) (a : Nat) :
    (chunkAdvance s).byteAt m a = s.byteAt m a := by cases m <;> rfl

/-! ### The encoder's row advance -/

@[simp] theorem encRowAdvance_cmd (s : State) : (encRowAdvance s).cmd = s.cmd := rfl
@[simp] theorem encRowAdvance_status (s : State) : (encRowAdvance s).status = s.status := rfl
@[simp] theorem encRowAdvance_err (s : State) : (encRowAdvance s).err = s.err := rfl
@[simp] theorem encRowAdvance_argWidth (s : State) : (encRowAdvance s).argWidth = s.argWidth := rfl
@[simp] theorem encRowAdvance_argHeight (s : State) : (encRowAdvance s).argHeight = s.argHeight := rfl
@[simp] theorem encRowAdvance_argPresent (s : State) : (encRowAdvance s).argPresent = s.argPresent := rfl
@[simp] theorem encRowAdvance_argLen (s : State) : (encRowAdvance s).argLen = s.argLen := rfl
@[simp] theorem encRowAdvance_argMem (s : State) : (encRowAdvance s).argMem = s.argMem := rfl
@[simp] theorem encRowAdvance_argBase (s : State) : (encRowAdvance s).argBase = s.argBase := rfl
@[simp] theorem encRowAdvance_argBit (s : State) : (encRowAdvance s).argBit = s.argBit := rfl
@[simp] theorem encRowAdvance_resLen (s : State) : (encRowAdvance s).resLen = s.resLen := rfl
@[simp] theorem encRowAdvance_resWidth (s : State) : (encRowAdvance s).resWidth = s.resWidth := rfl
@[simp] theorem encRowAdvance_resHeight (s : State) : (encRowAdvance s).resHeight = s.resHeight := rfl
@[simp] theorem encRowAdvance_resBit (s : State) : (encRowAdvance s).resBit = s.resBit := rfl
@[simp] theorem encRowAdvance_w (s : State) : (encRowAdvance s).w = s.w := rfl
@[simp] theorem encRowAdvance_h (s : State) : (encRowAdvance s).h = s.h := rfl
@[simp] theorem encRowAdvance_l (s : State) : (encRowAdvance s).l = s.l := rfl
@[simp] theorem encRowAdvance_row (s : State) :
    (encRowAdvance s).row = s.row + 1 := rfl
@[simp] theorem encRowAdvance_chk (s : State) : (encRowAdvance s).chk = s.chk := rfl
@[simp] theorem encRowAdvance_n (s : State) : (encRowAdvance s).n = s.n := rfl
@[simp] theorem encRowAdvance_dstate (s : State) : (encRowAdvance s).dstate = s.dstate := rfl
@[simp] theorem encRowAdvance_estate (s : State) :
    (encRowAdvance s).estate = if s.row + 1 < s.h then .grow else .finish := rfl
@[simp] theorem encRowAdvance_rc (s : State) : (encRowAdvance s).rc = s.rc := rfl
@[simp] theorem encRowAdvance_rowWhite (s : State) : (encRowAdvance s).rowWhite = s.rowWhite := rfl
@[simp] theorem encRowAdvance_ext (s : State) : (encRowAdvance s).ext = s.ext := rfl
@[simp] theorem encRowAdvance_px (s : State) : (encRowAdvance s).px = s.px := rfl
@[simp] theorem encRowAdvance_cur (s : State) : (encRowAdvance s).cur = s.cur := rfl
@[simp] theorem encRowAdvance_caps (s : State) : (encRowAdvance s).caps = s.caps := rfl
@[simp] theorem encRowAdvance_host (s : State) : (encRowAdvance s).host = s.host := rfl
@[simp] theorem encRowAdvance_hostSaw (s : State) : (encRowAdvance s).hostSaw = s.hostSaw := rfl
@[simp] theorem encRowAdvance_draws (s : State) : (encRowAdvance s).draws = s.draws := rfl
@[simp] theorem encRowAdvance_pix (s : State) : (encRowAdvance s).pix = s.pix := rfl
@[simp] theorem encRowAdvance_cmp (s : State) : (encRowAdvance s).cmp = s.cmp := rfl
@[simp] theorem encRowAdvance_scr (s : State) : (encRowAdvance s).scr = s.scr := rfl
@[simp] theorem encRowAdvance_dbuf (s : State) : (encRowAdvance s).dbuf = s.dbuf := rfl
@[simp] theorem encRowAdvance_mem (s : State) (m : Store) : (encRowAdvance s).mem m = s.mem m := by cases m <;> rfl
@[simp] theorem encRowAdvance_byteAt (s : State) (m : Store) (a : Nat) :
    (encRowAdvance s).byteAt m a = s.byteAt m a := by cases m <;> rfl

/-! ### The decoder's row advance -/

@[simp] theorem decRowAdvance_cmd (s : State) : (decRowAdvance s).cmd = s.cmd := rfl
@[simp] theorem decRowAdvance_status (s : State) : (decRowAdvance s).status = s.status := rfl
@[simp] theorem decRowAdvance_err (s : State) : (decRowAdvance s).err = s.err := rfl
@[simp] theorem decRowAdvance_argWidth (s : State) : (decRowAdvance s).argWidth = s.argWidth := rfl
@[simp] theorem decRowAdvance_argHeight (s : State) : (decRowAdvance s).argHeight = s.argHeight := rfl
@[simp] theorem decRowAdvance_argPresent (s : State) : (decRowAdvance s).argPresent = s.argPresent := rfl
@[simp] theorem decRowAdvance_argLen (s : State) : (decRowAdvance s).argLen = s.argLen := rfl
@[simp] theorem decRowAdvance_argMem (s : State) : (decRowAdvance s).argMem = s.argMem := rfl
@[simp] theorem decRowAdvance_argBase (s : State) : (decRowAdvance s).argBase = s.argBase := rfl
@[simp] theorem decRowAdvance_argBit (s : State) : (decRowAdvance s).argBit = s.argBit := rfl
@[simp] theorem decRowAdvance_resLen (s : State) : (decRowAdvance s).resLen = s.resLen := rfl
@[simp] theorem decRowAdvance_resWidth (s : State) : (decRowAdvance s).resWidth = s.resWidth := rfl
@[simp] theorem decRowAdvance_resHeight (s : State) : (decRowAdvance s).resHeight = s.resHeight := rfl
@[simp] theorem decRowAdvance_resBit (s : State) : (decRowAdvance s).resBit = s.resBit := rfl
@[simp] theorem decRowAdvance_w (s : State) : (decRowAdvance s).w = s.w := rfl
@[simp] theorem decRowAdvance_h (s : State) : (decRowAdvance s).h = s.h := rfl
@[simp] theorem decRowAdvance_l (s : State) : (decRowAdvance s).l = s.l := rfl
@[simp] theorem decRowAdvance_row (s : State) :
    (decRowAdvance s).row = s.row + 1 := rfl
@[simp] theorem decRowAdvance_chk (s : State) : (decRowAdvance s).chk = s.chk := rfl
@[simp] theorem decRowAdvance_n (s : State) : (decRowAdvance s).n = s.n := rfl
@[simp] theorem decRowAdvance_dstate (s : State) :
    (decRowAdvance s).dstate = if s.row + 1 < s.h then .readPresence else .success := rfl
@[simp] theorem decRowAdvance_estate (s : State) : (decRowAdvance s).estate = s.estate := rfl
@[simp] theorem decRowAdvance_rc (s : State) : (decRowAdvance s).rc = s.rc := rfl
@[simp] theorem decRowAdvance_rowWhite (s : State) : (decRowAdvance s).rowWhite = s.rowWhite := rfl
@[simp] theorem decRowAdvance_ext (s : State) : (decRowAdvance s).ext = s.ext := rfl
@[simp] theorem decRowAdvance_px (s : State) : (decRowAdvance s).px = s.px := rfl
@[simp] theorem decRowAdvance_cur (s : State) : (decRowAdvance s).cur = s.cur := rfl
@[simp] theorem decRowAdvance_caps (s : State) : (decRowAdvance s).caps = s.caps := rfl
@[simp] theorem decRowAdvance_host (s : State) : (decRowAdvance s).host = s.host := rfl
@[simp] theorem decRowAdvance_hostSaw (s : State) : (decRowAdvance s).hostSaw = s.hostSaw := rfl
@[simp] theorem decRowAdvance_draws (s : State) : (decRowAdvance s).draws = s.draws := rfl
@[simp] theorem decRowAdvance_pix (s : State) : (decRowAdvance s).pix = s.pix := rfl
@[simp] theorem decRowAdvance_cmp (s : State) : (decRowAdvance s).cmp = s.cmp := rfl
@[simp] theorem decRowAdvance_scr (s : State) : (decRowAdvance s).scr = s.scr := rfl
@[simp] theorem decRowAdvance_dbuf (s : State) : (decRowAdvance s).dbuf = s.dbuf := rfl
@[simp] theorem decRowAdvance_mem (s : State) (m : Store) : (decRowAdvance s).mem m = s.mem m := by cases m <;> rfl
@[simp] theorem decRowAdvance_byteAt (s : State) (m : Store) (a : Nat) :
    (decRowAdvance s).byteAt m a = s.byteAt m a := by cases m <;> rfl

/-! ### The end of a chunk code -/

@[simp] theorem chunkDone_cmd (k : Nat) (s : State) : (chunkDone k s).cmd = s.cmd := rfl
@[simp] theorem chunkDone_status (k : Nat) (s : State) : (chunkDone k s).status = s.status := rfl
@[simp] theorem chunkDone_err (k : Nat) (s : State) : (chunkDone k s).err = s.err := rfl
@[simp] theorem chunkDone_argWidth (k : Nat) (s : State) : (chunkDone k s).argWidth = s.argWidth := rfl
@[simp] theorem chunkDone_argHeight (k : Nat) (s : State) : (chunkDone k s).argHeight = s.argHeight := rfl
@[simp] theorem chunkDone_argPresent (k : Nat) (s : State) : (chunkDone k s).argPresent = s.argPresent := rfl
@[simp] theorem chunkDone_argLen (k : Nat) (s : State) : (chunkDone k s).argLen = s.argLen := rfl
@[simp] theorem chunkDone_argMem (k : Nat) (s : State) : (chunkDone k s).argMem = s.argMem := rfl
@[simp] theorem chunkDone_argBase (k : Nat) (s : State) : (chunkDone k s).argBase = s.argBase := rfl
@[simp] theorem chunkDone_argBit (k : Nat) (s : State) : (chunkDone k s).argBit = s.argBit := rfl
@[simp] theorem chunkDone_resLen (k : Nat) (s : State) : (chunkDone k s).resLen = s.resLen := rfl
@[simp] theorem chunkDone_resWidth (k : Nat) (s : State) : (chunkDone k s).resWidth = s.resWidth := rfl
@[simp] theorem chunkDone_resHeight (k : Nat) (s : State) : (chunkDone k s).resHeight = s.resHeight := rfl
@[simp] theorem chunkDone_resBit (k : Nat) (s : State) : (chunkDone k s).resBit = s.resBit := rfl
@[simp] theorem chunkDone_w (k : Nat) (s : State) : (chunkDone k s).w = s.w := rfl
@[simp] theorem chunkDone_h (k : Nat) (s : State) : (chunkDone k s).h = s.h := rfl
@[simp] theorem chunkDone_l (k : Nat) (s : State) : (chunkDone k s).l = s.l := rfl
@[simp] theorem chunkDone_row (k : Nat) (s : State) : (chunkDone k s).row = s.row := rfl
@[simp] theorem chunkDone_chk (k : Nat) (s : State) :
    (chunkDone k s).chk = s.chk + 1 := rfl
@[simp] theorem chunkDone_n (k : Nat) (s : State) : (chunkDone k s).n = s.n := rfl
@[simp] theorem chunkDone_dstate (k : Nat) (s : State) :
    (chunkDone k s).dstate = .readChunk := rfl
@[simp] theorem chunkDone_estate (k : Nat) (s : State) : (chunkDone k s).estate = s.estate := rfl
@[simp] theorem chunkDone_rc (k : Nat) (s : State) : (chunkDone k s).rc = s.rc := rfl
@[simp] theorem chunkDone_rowWhite (k : Nat) (s : State) : (chunkDone k s).rowWhite = s.rowWhite := rfl
@[simp] theorem chunkDone_ext (k : Nat) (s : State) : (chunkDone k s).ext = s.ext := rfl
@[simp] theorem chunkDone_px (k : Nat) (s : State) : (chunkDone k s).px = s.px := rfl
@[simp] theorem chunkDone_cur (k : Nat) (s : State) :
    (chunkDone k s).cur = s.cur + k := rfl
@[simp] theorem chunkDone_caps (k : Nat) (s : State) : (chunkDone k s).caps = s.caps := rfl
@[simp] theorem chunkDone_host (k : Nat) (s : State) : (chunkDone k s).host = s.host := rfl
@[simp] theorem chunkDone_hostSaw (k : Nat) (s : State) : (chunkDone k s).hostSaw = s.hostSaw := rfl
@[simp] theorem chunkDone_draws (k : Nat) (s : State) : (chunkDone k s).draws = s.draws := rfl
@[simp] theorem chunkDone_pix (k : Nat) (s : State) : (chunkDone k s).pix = s.pix := rfl
@[simp] theorem chunkDone_cmp (k : Nat) (s : State) : (chunkDone k s).cmp = s.cmp := rfl
@[simp] theorem chunkDone_scr (k : Nat) (s : State) : (chunkDone k s).scr = s.scr := rfl
@[simp] theorem chunkDone_dbuf (k : Nat) (s : State) : (chunkDone k s).dbuf = s.dbuf := rfl
@[simp] theorem chunkDone_mem (k : Nat) (s : State) (m : Store) : (chunkDone k s).mem m = s.mem m := by cases m <;> rfl
@[simp] theorem chunkDone_byteAt (k : Nat) (s : State) (m : Store) (a : Nat) :
    (chunkDone k s).byteAt m a = s.byteAt m a := by cases m <;> rfl

/-! ### The stores -/

@[simp] theorem setMem_mem_self (s : State) (m : Store) (x : Mem) : (s.setMem m x).mem m = x := by cases m <;> rfl

theorem setMem_mem_other (s : State) (m m' : Store) (x : Mem) (h : m' ≠ m) : (s.setMem m x).mem m' = s.mem m' := by
  cases m <;> cases m' <;> first | rfl | exact absurd rfl h

@[simp] theorem setMem_registers (s : State) (m : Store) (x : Mem) : (s.setMem m x).registers = s.registers := by
  cases m <;> rfl

@[simp] theorem setByte_registers (s : State) (m : Store) (a : Nat) (v : Byte) :
    (s.setByte m a v).registers = s.registers := by cases m <;> rfl

theorem mem_registers (s : State) (m : Store) : s.registers.mem m = { draw := 0, cells := [] } := by cases m <;> rfl

/-- Two states with the same registers and the same stores are the same state. -/
theorem state_eq_of_registers {s t : State} (hr : s.registers = t.registers) (hm : ∀ m, s.mem m = t.mem m) : s = t := by
  have hp := hm .pix
  have hc := hm .cmp
  have hs := hm .scr
  have hd := hm .dbuf
  cases s
  cases t
  simp only [State.mem] at hp hc hs hd
  subst hp hc hs hd
  simp only [State.registers, State.mk.injEq] at hr
  simp only [State.mk.injEq]
  tauto

end Sys2Proof.Machine
end

