-- ==== Sys2Proof/Laws/Ops.lean ====
section
/-! SUPPORT. For each shared operation what it can do, said once: the byte stores and their canonical form, the primitives of the
Bit Accessor on a range that exists, runs of bytes, and the forgetting of a failed command's destination. -/

namespace Sys2Proof.Machine

open Config (Store)

/-! ### Results -/

theorem bind_eq_ok {α β : Type} {x : Res α} {f : α → Res β} {y : β} :
    (x >>= f) = .ok y ↔ ∃ a, x = .ok a ∧ f a = .ok y := by
  cases x with
  | error e => simp [bind, Except.bind]
  | ok a => simp [bind, Except.bind]

@[simp] theorem ok_bind {α β : Type} (a : α) (f : α → Res β) : ((.ok a : Res α) >>= f) = f a := rfl

@[simp] theorem error_bind {α β : Type} (e : Stop) (f : α → Res β) : ((.error e : Res α) >>= f) = .error e := rfl

@[simp] theorem toOutcome_ok (s : State) : toOutcome (.ok s) = .next s := rfl

theorem toOutcome_eq_next {r : Res State} {t : State} : toOutcome r = .next t ↔ r = .ok t := by
  cases r with
  | ok s => simp [toOutcome]
  | error e => cases e <;> simp [toOutcome]

theorem whileBusy_of_busy {f : State → Res State} {s : State} (h : s.status.busy = true) : whileBusy f s = f s := by
  simp [whileBusy, h]

theorem whileBusy_of_idle {f : State → Res State} {s : State} (h : s.status.busy = false) : whileBusy f s = .ok s := by
  simp [whileBusy, h]

theorem runCommand_of_idle {c : BitVec 4} {f : State → Res State} {s : State} (h : s.status.busy = false) :
    runCommand c f s = toOutcome (f (beginCommand c s)) := by simp [runCommand, h]

theorem runCommand_of_busy {c : BitVec 4} {f : State → Res State} {s : State} (h : s.status.busy = true) :
    runCommand c f s = .next s := by simp [runCommand, h]

/-! ### The list of written bytes -/

@[simp] theorem cellsGet_cellsSet_self (cs : List Host.Cell) (a : Nat) (v : Byte) :
    cellsGet (cellsSet cs a v) a = some v := by
  induction cs with
  | nil => simp [cellsSet, cellsGet]
  | cons c cs ih =>
    obtain ⟨b, x⟩ := c
    simp only [cellsSet]
    split
    · simp [cellsGet]
    · split
      · simp [cellsGet]
      · simp [cellsGet, *]

theorem cellsGet_cellsSet_other (cs : List Host.Cell) {a b : Nat} (v : Byte) (h : b ≠ a) :
    cellsGet (cellsSet cs a v) b = cellsGet cs b := by
  induction cs with
  | nil => simp [cellsSet, cellsGet, h]
  | cons c cs ih =>
    obtain ⟨d, x⟩ := c
    simp only [cellsSet]
    split
    · simp [cellsGet, h]
    · split
      · rename_i h1
        subst h1
        simp [cellsGet, h]
      · simp [cellsGet, ih]

theorem mem_cellsSet {cs : List Host.Cell} {a : Nat} {v : Byte} {c : Host.Cell} (h : c ∈ cellsSet cs a v) :
    c = (a, v) ∨ c ∈ cs := by
  induction cs with
  | nil => simpa [cellsSet] using h
  | cons d cs ih =>
    obtain ⟨b, x⟩ := d
    simp only [cellsSet] at h
    split at h
    · simpa using h
    · split at h
      · rcases List.mem_cons.1 h with h | h
        · exact .inl h
        · exact .inr (List.mem_cons_of_mem _ h)
      · rcases List.mem_cons.1 h with h | h
        · exact .inr (h ▸ List.mem_cons_self)
        · rcases ih h with h | h
          · exact .inl h
          · exact .inr (List.mem_cons_of_mem _ h)

/-- A write keeps the canonical form. -/
theorem cellsSet_sorted {cs : List Host.Cell} (a : Nat) (v : Byte) (h : (cs.map Prod.fst).Pairwise (· < ·)) :
    ((cellsSet cs a v).map Prod.fst).Pairwise (· < ·) := by
  induction cs with
  | nil => simp [cellsSet]
  | cons c cs ih =>
    obtain ⟨b, x⟩ := c
    simp only [List.map_cons, List.pairwise_cons] at h
    simp only [cellsSet]
    split
    · rename_i hab
      simp only [List.map_cons, List.pairwise_cons]
      refine ⟨?_, h.1, h.2⟩
      intro d hd
      rcases List.mem_cons.1 hd with hd | hd
      · exact hd ▸ hab
      · exact lt_trans hab (h.1 d hd)
    · split
      · rename_i hab
        subst hab
        simpa using h
      · rename_i h1 h2
        simp only [List.map_cons, List.pairwise_cons]
        refine ⟨?_, ih h.2⟩
        intro d hd
        obtain ⟨c, hc, rfl⟩ := List.mem_map.1 hd
        rcases mem_cellsSet hc with hc | hc
        · subst hc
          show b < a
          omega
        · exact h.1 _ (List.mem_map_of_mem hc)

/-- In canonical form the list is determined by what is read at each address: equal memories are equal data. -/
theorem cells_ext {cs ds : List Host.Cell} (hc : (cs.map Prod.fst).Pairwise (· < ·)) (hd : (ds.map Prod.fst).Pairwise (· < ·))
    (h : ∀ a, cellsGet cs a = cellsGet ds a) : cs = ds := by
  have none_of_lt : ∀ {es : List Host.Cell} {a : Nat}, (∀ d ∈ es.map Prod.fst, a < d) → cellsGet es a = none := by
    intro es
    induction es with
    | nil => intros; rfl
    | cons e es ih =>
      intro a ha
      obtain ⟨b, x⟩ := e
      have hb : a < b := ha b (by simp)
      simp only [cellsGet]
      rw [if_neg (by omega)]
      exact ih (fun d hd => ha d (by simpa using Or.inr hd))
  induction cs generalizing ds with
  | nil =>
    cases ds with
    | nil => rfl
    | cons d ds =>
      obtain ⟨b, x⟩ := d
      have := h b
      simp [cellsGet] at this
  | cons c cs ih =>
    obtain ⟨b, x⟩ := c
    cases ds with
    | nil =>
      have := h b
      simp [cellsGet] at this
    | cons d ds =>
      obtain ⟨b', x'⟩ := d
      simp only [List.map_cons, List.pairwise_cons] at hc hd
      have hbb : b = b' := by
        rcases lt_trichotomy b b' with hlt | heq | hgt
        · have h1 := h b
          simp only [cellsGet, if_true] at h1
          rw [if_neg (by omega), none_of_lt (fun d hd' => lt_trans hlt (hd.1 d hd'))] at h1
          cases h1
        · exact heq
        · have h1 := h b'
          simp only [cellsGet, if_true] at h1
          rw [if_neg (by omega), none_of_lt (fun d hd' => lt_trans hgt (hc.1 d hd'))] at h1
          cases h1
      subst hbb
      have hx : x = x' := by
        have h1 := h b
        simpa [cellsGet] using h1
      subst hx
      congr 1
      refine ih hc.2 hd.2 (fun a => ?_)
      by_cases hab : a = b
      · subst hab
        rw [none_of_lt hc.1, none_of_lt hd.1]
      · have h1 := h a
        simpa [cellsGet, hab] using h1

/-! ### One byte of the state -/

/-- Read after write, and a write leaves every other byte of every store alone. -/
theorem byteAt_setByte (s : State) (m m' : Store) (a b : Nat) (v : Byte) :
    (s.setByte m a v).byteAt m' b = if m' = m ∧ b = a then v else s.byteAt m' b := by
  unfold State.byteAt State.setByte
  by_cases hm : m' = m
  · subst hm
    rw [setMem_mem_self]
    by_cases hb : b = a
    · subst hb
      simp [Mem.byteAt]
    · simp [Mem.byteAt, hb, cellsGet_cellsSet_other _ _ hb]
  · rw [setMem_mem_other _ _ _ _ hm]
    simp [hm]

@[simp] theorem byteAt_setByte_self (s : State) (m : Store) (a : Nat) (v : Byte) : (s.setByte m a v).byteAt m a = v := by
  simp [byteAt_setByte]

theorem byteAt_setByte_other (s : State) {m m' : Store} {a b : Nat} (v : Byte) (h : ¬ (m' = m ∧ b = a)) :
    (s.setByte m a v).byteAt m' b = s.byteAt m' b := by
  rw [byteAt_setByte, if_neg h]

/-- A write keeps the canonical form of every store. -/
theorem setByte_wf {s : State} (m : Store) (a : Nat) (v : Byte) (h : ∀ k, (s.mem k).wf) (k : Store) :
    ((s.setByte m a v).mem k).wf := by
  unfold State.setByte
  by_cases hk : k = m
  · subst hk
    rw [setMem_mem_self]
    exact cellsSet_sorted a v (h k)
  · rw [setMem_mem_other _ _ _ _ hk]
    exact h k

/-- A write leaves the draw of every store. -/
theorem setByte_draw (s : State) (m : Store) (a : Nat) (v : Byte) (k : Store) :
    ((s.setByte m a v).mem k).draw = (s.mem k).draw := by
  unfold State.setByte
  by_cases hk : k = m
  · subst hk
    rw [setMem_mem_self]
  · rw [setMem_mem_other _ _ _ _ hk]

theorem load_eq_ok {s : State} {m : Store} {a : Nat} {x : Byte} :
    load s m a = .ok x ↔ a < s.caps.cap m ∧ x = s.byteAt m a := by
  unfold load
  split <;> simp_all [eq_comm]

theorem store_eq_ok {s t : State} {m : Store} {a : Nat} {v : Byte} :
    store s m a v = .ok t ↔ a < s.caps.cap m ∧ t = s.setByte m a v := by
  unfold store
  split <;> simp_all [eq_comm]

theorem load_of_lt {s : State} {m : Store} {a : Nat} (h : a < s.caps.cap m) : load s m a = .ok (s.byteAt m a) := by
  simp [load, h]

theorem store_of_lt {s : State} {m : Store} {a : Nat} (v : Byte) (h : a < s.caps.cap m) :
    store s m a v = .ok (s.setByte m a v) := by simp [store, h]

theorem load_of_ge {s : State} {m : Store} {a : Nat} (h : s.caps.cap m ≤ a) :
    load s m a = .error (.fault (.outOfCapacity m a)) := by
  simp [load, Nat.not_lt.2 h]

theorem store_of_ge {s : State} {m : Store} {a : Nat} (v : Byte) (h : s.caps.cap m ≤ a) :
    store s m a v = .error (.fault (.outOfCapacity m a)) := by
  simp [store, Nat.not_lt.2 h]

/-! ### Runs of bytes -/

@[simp] theorem placeBytes_registers (s : State) (m : Store) (a : Nat) (xs : List Byte) :
    (placeBytes s m a xs).registers = s.registers := by
  induction xs generalizing s a with
  | nil => rfl
  | cons x xs ih => simp [placeBytes, ih]

@[simp] theorem placeBytes_caps (s : State) (m : Store) (a : Nat) (xs : List Byte) :
    (placeBytes s m a xs).caps = s.caps := by
  induction xs generalizing s a with
  | nil => rfl
  | cons x xs ih => simp [placeBytes, ih]

/-- Every byte after a run of writes. -/
theorem byteAt_placeBytes (s : State) (m m' : Store) (a b : Nat) (xs : List Byte) :
    (placeBytes s m a xs).byteAt m' b =
      if m' = m ∧ a ≤ b ∧ b < a + xs.length then xs.getD (b - a) 0 else s.byteAt m' b := by
  induction xs generalizing s a with
  | nil =>
    rw [if_neg (by rintro ⟨-, h1, h2⟩; simp at h2; omega)]
    rfl
  | cons x xs ih =>
    simp only [placeBytes, ih, byteAt_setByte, List.length_cons]
    by_cases hm : m' = m
    · subst hm
      rcases Nat.lt_trichotomy b a with hb | hb | hb
      · rw [if_neg (by omega), if_neg (by omega), if_neg (by omega)]
      · subst hb
        rw [if_neg (by omega), if_pos ⟨rfl, rfl⟩, if_pos ⟨rfl, le_refl _, by omega⟩]
        simp
      · by_cases hlt : b < a + 1 + xs.length
        · rw [if_pos ⟨rfl, by omega, hlt⟩, if_pos ⟨rfl, by omega, by omega⟩]
          obtain ⟨k, rfl⟩ : ∃ k, b = a + 1 + k := ⟨b - (a + 1), by omega⟩
          rw [show a + 1 + k - (a + 1) = k by omega, show a + 1 + k - a = k + 1 by omega]
          simp
        · rw [if_neg (by omega), if_neg (by omega), if_neg (by omega)]
    · simp [hm]

/-- A run of writes keeps the canonical form of every store. -/
theorem placeBytes_wf {s : State} (m : Store) (a : Nat) (xs : List Byte) (h : ∀ k, (s.mem k).wf) (k : Store) :
    ((placeBytes s m a xs).mem k).wf := by
  induction xs generalizing s a with
  | nil => exact h k
  | cons x xs ih => exact ih (a + 1) (setByte_wf m a x h)

/-- A run of writes leaves the draw of every store. -/
theorem placeBytes_draw (s : State) (m : Store) (a : Nat) (xs : List Byte) (k : Store) :
    ((placeBytes s m a xs).mem k).draw = (s.mem k).draw := by
  induction xs generalizing s a with
  | nil => rfl
  | cons x xs ih =>
    show ((placeBytes (s.setByte m a x) m (a + 1) xs).mem k).draw = _
    rw [ih, setByte_draw]

/-- `MemWrite` of a run of bytes inside the store completes. -/
theorem storeBytes_of_le {s : State} {m : Store} {a : Nat} {xs : List Byte} (h : a + xs.length ≤ s.caps.cap m) :
    storeBytes s m a xs = .ok (placeBytes s m a xs) := by
  induction xs generalizing s a with
  | nil => rfl
  | cons x xs ih =>
    simp only [List.length_cons] at h
    simp only [storeBytes, placeBytes]
    rw [store_of_lt x (by omega), ok_bind]
    exact ih (by simpa using (by omega : a + 1 + xs.length ≤ s.caps.cap m))

/-- `MemWrite` of a run of bytes does nothing but place them. -/
theorem storeBytes_eq_ok {s t : State} {m : Store} {a : Nat} {xs : List Byte} (h : storeBytes s m a xs = .ok t) :
    t = placeBytes s m a xs ∧ (xs = [] ∨ a + xs.length ≤ s.caps.cap m) := by
  induction xs generalizing s a with
  | nil => exact ⟨(by simpa [storeBytes, placeBytes, eq_comm] using h), .inl rfl⟩
  | cons x xs ih =>
    simp only [storeBytes] at h
    obtain ⟨s1, h1, h2⟩ := bind_eq_ok.1 h
    obtain ⟨hlt, rfl⟩ := store_eq_ok.1 h1
    obtain ⟨rfl, h3⟩ := ih h2
    refine ⟨rfl, .inr ?_⟩
    rcases h3 with rfl | h3
    · simpa using hlt
    · simp only [setByte_caps] at h3
      simp only [List.length_cons]
      omega

/-- `MemRead` of a run of bytes inside the store gives them in order. -/
theorem loadBytes_of_le {s : State} {m : Store} {a n : Nat} (h : a + n ≤ s.caps.cap m) :
    loadBytes s m a n = .ok ((List.range n).map (fun i => s.byteAt m (a + i))) := by
  induction n generalizing a with
  | zero => rfl
  | succ n ih =>
    simp only [loadBytes]
    rw [load_of_lt (by omega), ok_bind, ih (by omega), ok_bind, List.range_succ_eq_map, List.map_cons, List.map_map]
    refine congrArg Except.ok (congrArg _ (List.map_congr_left fun i _ => ?_))
    simp only [Function.comp, Nat.succ_eq_add_one]
    rw [show a + 1 + i = a + (i + 1) by omega]

/-! ### The primitives of the Bit Accessor -/

theorem bitRead_of_lt {s : State} {m : Store} {base b : Nat} (h : byteOf base b < s.caps.cap m) :
    bitRead s m base b = .ok (sliceBit s m base b) := by
  simp [bitRead, load_of_lt h, sliceBit]

theorem bitSet_of_lt {s : State} {m : Store} {base b : Nat} (h : byteOf base b < s.caps.cap m) :
    bitSet s m base b = .ok (s.setByte m (byteOf base b) (s.byteAt m (byteOf base b) ||| (1#8 <<< (b % 8)))) := by
  simp [bitSet, load_of_lt h, store_of_lt _ h]

theorem bitClear_of_lt {s : State} {m : Store} {base b : Nat} (h : byteOf base b < s.caps.cap m) :
    bitClear s m base b =
      .ok (s.setByte m (byteOf base b) (s.byteAt m (byteOf base b) &&& (0xFF#8 - (1#8 <<< (b % 8))))) := by
  simp [bitClear, load_of_lt h, store_of_lt _ h]

/-- What `BitRead` gives when it completes. -/
theorem bitRead_eq_ok {s : State} {m : Store} {base b : Nat} {x : Bool} (h : bitRead s m base b = .ok x) :
    byteOf base b < s.caps.cap m ∧ x = sliceBit s m base b := by
  obtain ⟨y, h1, h2⟩ := bind_eq_ok.1 h
  obtain ⟨hlt, rfl⟩ := load_eq_ok.1 h1
  exact ⟨hlt, by simpa [sliceBit, eq_comm] using h2⟩

/-- One aligned byte of `ChunkRead` (R132, R138): the byte alone. -/
theorem chunkByte_aligned {s : State} {m : Store} {base b : Nat} (h8 : b % 8 = 0) (h : byteOf base b < s.caps.cap m) :
    chunkByte s m base b = .ok (s.byteAt m (byteOf base b)) := by
  simp [chunkByte, h8, load_of_lt h]

/-- One unaligned byte of `ChunkRead` (R132): from the two bytes it straddles. -/
theorem chunkByte_unaligned {s : State} {m : Store} {base b : Nat} (h8 : b % 8 ≠ 0) (h : byteOf base b + 1 < s.caps.cap m) :
    chunkByte s m base b =
      .ok ((s.byteAt m (byteOf base b) >>> (b % 8)) ||| (s.byteAt m (byteOf base b + 1) <<< (8 - b % 8))) := by
  simp [chunkByte, h8, load_of_lt (Nat.lt_of_succ_lt h), load_of_lt h]

/-- One aligned iteration of `ChunkWrite` (R135): the byte alone. -/
theorem chunkWriteByte_aligned {s : State} {m : Store} {base b : Nat} (x : Byte) (h8 : b % 8 = 0)
    (h : byteOf base b < s.caps.cap m) : chunkWriteByte s m base b x = .ok (s.setByte m (byteOf base b) x) := by
  simp [chunkWriteByte, h8, store_of_lt x h]

/-- One unaligned iteration of `ChunkWrite` (R135): the two bytes it straddles, the lower first. -/
theorem chunkWriteByte_unaligned {s : State} {m : Store} {base b : Nat} (x : Byte) (h8 : b % 8 ≠ 0)
    (h : byteOf base b + 1 < s.caps.cap m) :
    chunkWriteByte s m base b x =
      .ok ((s.setByte m (byteOf base b)
              ((s.byteAt m (byteOf base b) &&& lowMask (b % 8)) ||| (x <<< (b % 8)))).setByte m (byteOf base b + 1)
              ((s.byteAt m (byteOf base b + 1) &&& (0xFF#8 - lowMask (b % 8))) ||| (x >>> (8 - b % 8)))) := by
  have h0 : byteOf base b < s.caps.cap m := Nat.lt_of_succ_lt h
  simp only [chunkWriteByte, h8, if_false]
  rw [load_of_lt h0, ok_bind, store_of_lt _ h0, ok_bind, load_of_lt (by simpa using h), ok_bind,
    store_of_lt _ (by simpa using h), byteAt_setByte_other _ _ (by simp)]

/-- An iteration of `ChunkWrite` that completes changes no register and keeps the canonical form and the draws. -/
theorem chunkWriteByte_frame {s t : State} {m : Store} {base b : Nat} {x : Byte} (h : chunkWriteByte s m base b x = .ok t) :
    t.registers = s.registers ∧ ((∀ k, (s.mem k).wf) → ∀ k, (t.mem k).wf) ∧ ∀ k, (t.mem k).draw = (s.mem k).draw := by
  unfold chunkWriteByte at h
  split at h
  · obtain ⟨-, rfl⟩ := store_eq_ok.1 h
    exact ⟨by simp, fun hw => setByte_wf _ _ _ hw, setByte_draw _ _ _ _⟩
  · obtain ⟨lo, -, h⟩ := bind_eq_ok.1 h
    obtain ⟨s1, h1, h⟩ := bind_eq_ok.1 h
    obtain ⟨hi, -, h⟩ := bind_eq_ok.1 h
    obtain ⟨-, rfl⟩ := store_eq_ok.1 h1
    obtain ⟨-, rfl⟩ := store_eq_ok.1 h
    exact ⟨by simp, fun hw => setByte_wf _ _ _ (setByte_wf _ _ _ hw), fun k => by simp [setByte_draw]⟩

/-- `ChunkWrite` that completes changes no register and keeps the canonical form and the draws. -/
theorem chunkWrite_frame {s t : State} {m : Store} {base b : Nat} {xs : List Byte} (h : chunkWrite s m base b xs = .ok t) :
    t.registers = s.registers ∧ ((∀ k, (s.mem k).wf) → ∀ k, (t.mem k).wf) ∧ ∀ k, (t.mem k).draw = (s.mem k).draw := by
  induction xs generalizing s b with
  | nil =>
    obtain rfl : s = t := by simpa [chunkWrite] using h
    exact ⟨rfl, id, fun _ => rfl⟩
  | cons x xs ih =>
    obtain ⟨s1, h1, h2⟩ := bind_eq_ok.1 h
    obtain ⟨r1, w1, d1⟩ := chunkWriteByte_frame h1
    obtain ⟨r2, w2, d2⟩ := ih h2
    exact ⟨r2.trans r1, fun hw => w2 (w1 hw), fun k => (d2 k).trans (d1 k)⟩

/-! ### The destination of a failed command -/

theorem cellsGet_append (cs ds : List Host.Cell) (a : Nat) :
    cellsGet (cs ++ ds) a = (cellsGet cs a).or (cellsGet ds a) := by
  induction cs with
  | nil => simp [cellsGet]
  | cons c cs ih =>
    obtain ⟨b, x⟩ := c
    simp only [List.cons_append, cellsGet]
    split <;> simp [ih]

theorem cellsGet_range (f : Nat → Byte) (n a : Nat) :
    cellsGet ((List.range n).map (fun i => (i, f i))) a = if a < n then some (f a) else none := by
  induction n with
  | zero => simp [cellsGet]
  | succ n ih =>
    rw [List.range_succ, List.map_append, cellsGet_append, ih]
    rcases Nat.lt_trichotomy a n with h | h | h
    · simp [h, Nat.lt_succ_of_lt h]
    · subst h
      simp [cellsGet]
    · have h1 : ¬ a < n := by omega
      have h2 : ¬ a < n + 1 := by omega
      have h3 : a ≠ n := by omega
      simp [cellsGet, h1, h2, h3]

theorem cellsGet_filter_ge (cs : List Host.Cell) {n a : Nat} (h : n ≤ a) :
    cellsGet (cs.filter (fun c => decide (n ≤ c.1))) a = cellsGet cs a := by
  induction cs with
  | nil => rfl
  | cons c cs ih =>
    obtain ⟨b, x⟩ := c
    by_cases hb : n ≤ b
    · simp [hb, cellsGet, ih]
    · have : a ≠ b := by omega
      simp [hb, cellsGet, ih, this]

theorem forget_mem_self (s : State) (m : Store) (n : Nat) :
    (forget s m n).mem m = { s.mem m with
      cells := (List.range n).map (fun a => (a, Config.freeByte s.draws m a)) ++
               (s.mem m).cells.filter (fun c => decide (n ≤ c.1)) } := by cases m <;> rfl

theorem forget_mem_other (s : State) {m m' : Store} (n : Nat) (h : m' ≠ m) : (forget s m n).mem m' = s.mem m' := by
  cases m <;> cases m' <;> first | rfl | exact absurd rfl h

/-- Every byte after a range was forgotten: a free byte of the new draw inside it, the old byte outside it. -/
theorem byteAt_forget (s : State) (m m' : Store) (n a : Nat) :
    (forget s m n).byteAt m' a = if m' = m ∧ a < n then Config.freeByte s.draws m a else s.byteAt m' a := by
  unfold State.byteAt
  by_cases hm : m' = m
  · subst hm
    rw [forget_mem_self]
    simp only [Mem.byteAt, cellsGet_append, cellsGet_range]
    by_cases ha : a < n
    · simp [ha]
    · simp [ha, cellsGet_filter_ge _ (Nat.not_lt.1 ha)]
  · rw [forget_mem_other _ _ hm]
    simp [hm]

/-- Forgetting a range keeps the canonical form of every store. -/
theorem forget_wf {s : State} (m : Store) (n : Nat) (h : ∀ k, (s.mem k).wf) (k : Store) : ((forget s m n).mem k).wf := by
  by_cases hk : k = m
  · subst hk
    rw [forget_mem_self]
    have hs := h k
    simp only [Mem.wf, List.map_append, List.pairwise_append, List.map_map]
    refine ⟨?_, ?_, ?_⟩
    · simpa [Function.comp_def] using List.pairwise_lt_range
    · exact hs.sublist (List.filter_sublist.map _)
    · intro a ha b hb
      simp only [List.mem_map, Function.comp, List.mem_range, List.mem_filter, decide_eq_true_eq] at ha hb
      obtain ⟨i, hi, rfl⟩ := ha
      obtain ⟨c, ⟨-, hc⟩, rfl⟩ := hb
      omega
  · rw [forget_mem_other _ _ hk]
    exact h k

/-- Right after reset every store is in canonical form: nothing is listed. -/
theorem reset_wf (k : Store) : (State.reset.mem k).wf := by cases k <;> decide

/-! ### The encoder's move -/

/-- The encoder's move in one step is one transition that does not succeed, or one that does and the completion after it. -/
theorem encMove_cases {s t : State} (h : encMove s = .ok t) :
    (encStep s = .ok t ∧ t.estate ≠ .success) ∨
    ∃ s1, encStep s = .ok s1 ∧ s1.estate = .success ∧ t = complete s1 := by
  cases h1 : encStep s with
  | error e => simp [encMove, h1, bind, Except.bind] at h
  | ok s1 =>
    by_cases h2 : s1.estate = .success
    · have h3 : encStep s1 = .ok (complete s1) := by simp [encStep, h2]
      simp only [encMove, h1, bind, Except.bind, h2, if_true, h3, Except.ok.injEq] at h
      exact .inr ⟨s1, rfl, h2, h.symm⟩
    · simp only [encMove, h1, bind, Except.bind, h2, if_false, Except.ok.injEq] at h
      subst h
      exact .inl ⟨rfl, h2⟩

end Sys2Proof.Machine
end

