-- ==== Sys2Proof/Laws/PerInstr.lean ====
section
/-! SUPPORT. Families of statements over all instructions, one lemma per constructor. -/

namespace Sys2Proof.Laws

/-- The `length_bits` of an instruction's row of the opcode table. -/
def tableBits : Instr → Nat
  | .header _ _   => 72
  | .p0           => 1
  | .p1           => 1
  | .w            => 1
  | .b            => 2
  | .l4 _ _ _ _   => 34
  | .l3 _ _ _     => 26
  | .l2 _ _       => 18
  | .l1 _         => 10
  | .rdbit        => 4
  | .rdchunk      => 4
  | .setbit       => 4
  | .clrbit       => 4
  | .wrchunk      => 4
  | .compress     => 4
  | .decompress   => 4

namespace EncodedLength

/-- The encoder gives an instruction as many bits as its row of the opcode table says. -/
def Statement (i : Instr) : Prop := (encode i).length = tableBits i

theorem header (w h : Word32) : Statement (.header w h) := rfl
theorem p0 : Statement .p0 := rfl
theorem p1 : Statement .p1 := rfl
theorem w : Statement .w := rfl
theorem b : Statement .b := rfl
theorem l4 (x0 x1 x2 x3 : Byte) : Statement (.l4 x0 x1 x2 x3) := rfl
theorem l3 (x0 x1 x2 : Byte) : Statement (.l3 x0 x1 x2) := rfl
theorem l2 (x0 x1 : Byte) : Statement (.l2 x0 x1) := rfl
theorem l1 (x0 : Byte) : Statement (.l1 x0) := rfl
theorem rdbit : Statement .rdbit := rfl
theorem rdchunk : Statement .rdchunk := rfl
theorem setbit : Statement .setbit := rfl
theorem clrbit : Statement .clrbit := rfl
theorem wrchunk : Statement .wrchunk := rfl
theorem compress : Statement .compress := rfl
theorem decompress : Statement .decompress := rfl

end EncodedLength

end Sys2Proof.Laws
end

