-- ==== Sys2Proof/Tests/Slice0.lean ====
section
/-! SUPPORT. Tests on fixed values and, for each obligation with hypotheses, a witness that meets them. The expected values are those of
spec/95_test_vectors.md, or hand calculation from the rules named. -/

namespace Sys2Proof.Tests

open Sys2Proof.Machine

set_option Elab.async false

/-! ### Helpers -/

/-- The state of an outcome that is a next state. -/
def after (o : Host.Outcome State Fault Refusal) : State :=
  match o with
  | .next s    => s
  | .fault _   => State.reset
  | .refused _ => State.reset

/-- The outcome is a next state. -/
def isNext (o : Host.Outcome State Fault Refusal) : Bool :=
  match o with
  | .next _    => true
  | .fault _   => false
  | .refused _ => false

theorem next_after {o : Host.Outcome State Fault Refusal} (h : isNext o = true) : o = .next (after o) := by
  cases o with
  | next s    => rfl
  | fault r   => cases h
  | refused r => cases h

/-- The state of a result that is one. -/
def okState (r : Res State) : State :=
  match r with
  | .ok s    => s
  | .error _ => State.reset

/-- The state after reset on a small instance. -/
def blank : State := { State.reset with caps := { pixCap := 16, cmpCap := 32, scrCap := 19, dbufCap := 4 } }

/-- The accessor vectors of 2.2: PIX holds `A5 3C F0 0F 77`, DBUF a source, and the operands address PIX. -/
def acc (base bit len : Nat) (src : List Byte) : State :=
  { placeBytes (placeBytes blank .pix 0 [0xA5, 0x3C, 0xF0, 0x0F, 0x77]) .dbuf 0 src with
    argBase := base, argBit := bit, argLen := len }

/-- The same for CMP, from address 2, as in program P1. -/
def accCmp (bit len : Nat) (src : List Byte) : State :=
  { placeBytes (placeBytes blank .cmp 0 [0xEE, 0xEE, 0xA5, 0x3C, 0xF0, 0x0F, 0x77, 0xEE]) .dbuf 0 src with
    argMem := true, argBase := 2, argBit := bit, argLen := len }

/-- An image in PIX before `COMPRESS`. -/
def image (w h : Word32) (px : List Byte) : State :=
  { placeBytes blank .pix 0 px with argPresent := true, argWidth := w, argHeight := h }

/-- A buffer in CMP before `DECOMPRESS`. -/
def buffer (bytes : List Byte) (len : Nat) : State :=
  { placeBytes blank .cmp 0 bytes with argPresent := true, argLen := len }

/-- DEC at `ReadPrefix1`, chunk `k` of row 0 of an image of width `w`, with payload bytes in CMP. -/
def atChunk (w k cur : Nat) (payload : List Byte) : State :=
  { placeBytes blank .cmp 9 payload with
    cmd := 7, status := { busy := true, done := false, fail := false }, dstate := .readPrefix1,
    w := w, h := 1, l := 9 + payload.length, chk := k, n := chunkLen w k, cur := cur }

/-- Vector E1: 5 by 1, `FF FF FF FF 12`. -/
def e1 : List Byte := [0xBA, 0x05, 0, 0, 0, 0x01, 0, 0, 0, 0x2D, 0x01]

/-- Vector E4: 3 by 3. -/
def e4 : List Byte := [0xBA, 0x03, 0, 0, 0, 0x03, 0, 0, 0, 0x3D, 0x40, 0x60, 0x20]

/-- Vector E5: 8 by 2. -/
def e5 : List Byte :=
  [0xBA, 0x08, 0, 0, 0, 0x02, 0, 0, 0, 0xBB, 0x14, 0xE0, 0x9F, 0xA7, 0xFF, 0xFF, 0xFF, 0xFD, 0x01]

/-- What is checked of an outcome: STATUS as the host reads it, `ERR`, and the three results. -/
def summary (s : State) : Nat × Nat × Nat × Nat × Nat :=
  (s.status.word, s.err.toNat, s.resLen, s.resWidth.toNat, s.resHeight.toNat)

/-! ### Well-formedness: an ill-formed term for each check -/

theorem test_wf_chunk_length : (Position.chunk 0).wf = false ∧ (Position.chunk 5).wf = false ∧ (Position.chunk 4).wf = true := by
  decide

theorem test_wf_fits :
    (Instr.header 1 1).fits .presence = false ∧ Instr.p0.fits .header = false ∧ Instr.p1.fits (.chunk 1) = false ∧
    Instr.w.fits .presence = false ∧ Instr.w.fits (.chunk 5) = false ∧ Instr.b.fits .command = false ∧
    Instr.b.fits (.chunk 0) = false ∧ (Instr.l4 0 0 0 0).fits (.chunk 3) = false ∧ (Instr.l3 0 0 0).fits (.chunk 4) = false ∧
    (Instr.l2 0 0).fits (.chunk 1) = false ∧ (Instr.l1 0).fits .presence = false ∧ Instr.rdbit.fits .header = false ∧
    Instr.rdchunk.fits (.chunk 2) = false ∧ Instr.setbit.fits .presence = false ∧ Instr.clrbit.fits .header = false ∧
    Instr.wrchunk.fits (.chunk 4) = false ∧ Instr.compress.fits .presence = false ∧ Instr.decompress.fits .header = false := by
  decide

/-- Too few codes, too many, and a literal of another chunk's length (R98, R103). -/
theorem test_wf_row :
    rowFits 5 0 [.w] = false ∧ rowFits 4 0 [.w, .w] = false ∧ rowFits 5 0 [.l1 0x12, .w] = false ∧
    rowFits 5 0 [.w, .l1 0x12] = true := by decide

/-- A negative width, a negative height, presence bits that are not the rows', runs that are not the presence bits', a bad run. -/
theorem test_wf_stream :
    (Stream.mk 0xFFFFFFFF 0 [] []).wf = false ∧ (Stream.mk 0 0x80000000 [] []).wf = false ∧
    (Stream.mk 4 2 [false] []).wf = false ∧ (Stream.mk 4 1 [true] []).wf = false ∧
    (Stream.mk 4 1 [true] [[]]).wf = false ∧ (Stream.mk 4 1 [true] [[.b]]).wf = true := by decide

/-! ### Decoding: words written out from the encodings of R91, R97 to R101, R110 -/

/-- `BA 2C 01 00 00 70 11 01 00`, byte 0 in the low bits. -/
theorem test_decode_header : decode .header (natBits 72 0x000111700000012CBA) = .ok (.header 300 70000, []) := by rfl
theorem test_decode_presence : decode .presence [false] = .ok (.p0, []) ∧ decode .presence [true] = .ok (.p1, []) := ⟨rfl, rfl⟩
theorem test_decode_w : decode (.chunk 3) [false, true] = .ok (.w, [true]) := rfl
theorem test_decode_b : decode (.chunk 3) [true, false, true] = .ok (.b, [true]) := rfl
/-- `1 1` then A5, 00, FF, 3C: 3 + (0x3CFF00A5 << 2). -/
theorem test_decode_l4 : decode (.chunk 4) (natBits 34 0xF3FC0297) = .ok (.l4 0xA5 0x00 0xFF 0x3C, []) := by rfl
theorem test_decode_l3 : decode (.chunk 3) (natBits 26 0x0C0807) = .ok (.l3 0x01 0x02 0x03, []) := by rfl
/-- `1 1` then 7E, 81: 3 + (0x817E << 2). -/
theorem test_decode_l2 : decode (.chunk 2) (natBits 18 0x205FB) = .ok (.l2 0x7E 0x81, []) := by rfl
/-- `1 1` then 12, bit 0 first: `0 1 0 0 1 0 0 0`. -/
theorem test_decode_l1 :
    decode (.chunk 1) [true, true, false, true, false, false, true, false, false, false] = .ok (.l1 0x12, []) := by rfl
theorem test_decode_rdbit : decode .command [true, false, false, false] = .ok (.rdbit, []) := by rfl
theorem test_decode_rdchunk : decode .command [false, true, false, false] = .ok (.rdchunk, []) := by rfl
theorem test_decode_setbit : decode .command [true, true, false, false] = .ok (.setbit, []) := by rfl
theorem test_decode_clrbit : decode .command [false, false, true, false] = .ok (.clrbit, []) := by rfl
theorem test_decode_wrchunk : decode .command [true, false, true, false] = .ok (.wrchunk, []) := by rfl
theorem test_decode_compress : decode .command [false, true, true, false] = .ok (.compress, []) := by rfl
theorem test_decode_decompress : decode .command [true, true, true, false] = .ok (.decompress, []) := by rfl
theorem test_decode_rejects :
    decode .header (natBits 72 0xBB) = .error .badMagic ∧ decode (.chunk 1) [true] = .error .truncated ∧
    decode (.chunk 0) [false] = .error .noSuchChunkLength ∧ decode .command [false, false, false, true] = .error .reservedCommand :=
  ⟨rfl, rfl, rfl, rfl⟩

/-- Vector D11, as text and as bytes. -/
theorem test_assemble :
    (Stream.mk 4 1 [true] [[.l4 0xFF 0xFF 0xFF 0xFF]]).assemble =
      [0xBA, 0x04, 0, 0, 0, 0x01, 0, 0, 0, 0xFF, 0xFF, 0xFF, 0xFF, 0x07] := by decide +kernel

/-! ### The accessor commands: the vectors of 2.2 and the examples of R139 to R143 -/

theorem test_rdbit_msb : (after (exec .rdbit (acc 0 7 0 []))).resBit = true := by decide +kernel
theorem test_rdbit_base : (after (exec .rdbit (acc 2 4 0 []))).resBit = true := by decide +kernel
theorem test_rdchunk_unaligned :
    storeList (after (exec .rdchunk (acc 0 3 3 []))) .dbuf 3 = [0x94, 0x07, 0xFE] := by decide +kernel
/-- As in P1, line 17, on the memory of 2.2: only `DBUF[0]` is written. -/
theorem test_rdchunk_aligned :
    storeList (after (exec .rdchunk (accCmp 24 1 [0xAB, 0xCD, 0xEF]))) .dbuf 3 = [0x0F, 0xCD, 0xEF] := by decide +kernel
theorem test_setbit : storeList (after (exec .setbit (acc 0 9 0 []))) .pix 2 = [0xA5, 0x3E] := by decide +kernel
theorem test_setbit_again : storeList (after (exec .setbit (accCmp 0 0 []))) .cmp 4 = [0xEE, 0xEE, 0xA5, 0x3C] := by decide +kernel
theorem test_clrbit : storeList (after (exec .clrbit (acc 0 13 0 []))) .pix 2 = [0xA5, 0x1C] := by decide +kernel
theorem test_clrbit_low : storeList (after (exec .clrbit (acc 0 0 0 []))) .pix 2 = [0xA4, 0x3C] := by decide +kernel
/-- P1, line 6. -/
theorem test_wrchunk_unaligned :
    storeList (after (exec .wrchunk (accCmp 3 3 [0xAB, 0xCD, 0xEF]))) .cmp 8 =
      [0xEE, 0xEE, 0x5D, 0x6D, 0x7E, 0x0F, 0x77, 0xEE] := by decide +kernel
theorem test_wrchunk_aligned :
    storeList (after (exec .wrchunk (acc 0 0 2 [0x12, 0x34]))) .pix 5 = [0x12, 0x34, 0xF0, 0x0F, 0x77] := by decide +kernel

/-! ### The stream codes -/

/-- F4: the width field `08 00 00 80` is negative. -/
theorem test_header_negative : (after (exec (.header 0x80000008 2) { buffer e5 19 with l := 19 })).err = 6 := by decide +kernel
/-- R202: the cursor starts after the presence bits. -/
theorem test_header_starts : (after (exec (.header 5 2) { buffer e5 15 with l := 15 })).cur = 2 := by decide +kernel
/-- S-A. -/
theorem test_p0 : storeList (after (exec .p0 { atChunk 4 0 1 [0] with chk := 0 })) .pix 4 = [0xFF, 0xFF, 0xFF, 0xFF] := by decide +kernel
theorem test_p1 : (after (exec .p1 { atChunk 4 1 1 [1] with dstate := .readPresence })).chk = 0 := by decide +kernel
/-- D-E1, chunk 0. -/
theorem test_w : (after (exec .w (atChunk 5 0 1 [0x2D, 0x01]))).cur = 2 ∧
    storeList (after (exec .w (atChunk 5 0 1 [0x2D, 0x01]))) .pix 4 = [0xFF, 0xFF, 0xFF, 0xFF] := by decide +kernel
/-- S-B. -/
theorem test_b : (after (exec .b (atChunk 4 0 1 [0x03]))).cur = 3 ∧
    storeList (after (exec .b (atChunk 4 0 1 [0x03]))) .pix 4 = [0, 0, 0, 0] := by decide +kernel
/-- P3, row 0, chunk 1: `CUR` 3 to 37, PIX 4 to 7. -/
theorem test_l4 : (after (exec (.l4 0xA5 0 0xFF 0x3C) (atChunk 8 1 3 []))).cur = 37 ∧
    (after (exec (.l4 0xA5 0 0xFF 0x3C) (atChunk 8 1 3 []))).byteAt .pix 7 = 0x3C := by decide +kernel
/-- P4, row 0: `CUR` 3 to 29. -/
theorem test_l3 : (after (exec (.l3 1 2 3) (atChunk 3 0 3 []))).cur = 29 ∧
    storeList (after (exec (.l3 1 2 3) (atChunk 3 0 3 []))) .pix 3 = [1, 2, 3] := by decide +kernel
theorem test_l2 : (after (exec (.l2 0x7E 0x81) (atChunk 6 1 1 []))).byteAt .pix 4 = 0x7E ∧
    (after (exec (.l2 0x7E 0x81) (atChunk 6 1 1 []))).byteAt .pix 5 = 0x81 := by decide +kernel
/-- D-E1, chunk 1: fetched from payload bytes `2D 01` at bit 2, `CUR` 2 to 12, PIX 4. -/
theorem test_l1 : (after (step (atChunk 5 1 2 [0x2D, 0x01]))).cur = 12 ∧
    (after (step (atChunk 5 1 2 [0x2D, 0x01]))).byteAt .pix 4 = 0x12 := by decide +kernel

/-! ### The two codec commands -/

/-- E4: the adjacent-row regression, its zeros above the result, and the codec's registers. -/
theorem test_compress : storeList (after (exec .compress (image 3 3 [1, 2, 3, 0xFF, 0xFF, 0xFF, 0, 0, 0]))) .cmp 17 =
    e4 ++ [0, 0, 0, 0] ∧
    summary (after (exec .compress (image 3 3 [1, 2, 3, 0xFF, 0xFF, 0xFF, 0, 0, 0]))) = (2, 0, 13, 0, 0) := by decide +kernel
/-- E11 and F7. -/
theorem test_compress_edges : summary (after (exec .compress (image 0 7 []))) = (2, 0, 9, 0, 0) ∧
    summary (after (exec .compress (image 0xFFFFFFFF 0 []))) = (6, 2, 0, 0, 0) := by decide +kernel
/-- P3, line 4. -/
theorem test_decompress : storeList (after (exec .decompress (buffer e5 19))) .pix 16 =
    [0xFF, 0xFF, 0xFF, 0xFF, 0xA5, 0, 0xFF, 0x3C, 0, 0, 0, 0, 0xFF, 0xFF, 0xFF, 0xFE] ∧
    summary (after (exec .decompress (buffer e5 19))) = (2, 0, 16, 8, 2) := by decide +kernel
/-- F1: each length up to the whole one, and its cause. -/
theorem test_decompress_cut : [0, 8, 9, 10, 13, 14, 15, 18, 19].map (fun n => (after (exec .decompress (buffer e5 n))).err.toNat) =
    [4, 4, 7, 10, 10, 9, 10, 10, 0] := by decide +kernel

/-- 3 by 3, every pixel `55`, as in F8. -/
def i8 : State := image 3 3 [0x55, 0x55, 0x55, 0x55, 0x55, 0x55, 0x55, 0x55, 0x55]

/-- F8: with CMP_CAP = 20 it fits, and with 19 it fails before row 2. -/
theorem test_compress_capacity :
    summary (after (exec .compress { i8 with caps := { i8.caps with cmpCap := 20 } })) = (2, 0, 20, 0, 0) ∧
    summary (after (exec .compress { i8 with caps := { i8.caps with cmpCap := 19 } })) = (6, 11, 0, 0, 0) := by decide +kernel

/-- F8 and U3: `EXT` is 17 then, and the bytes from there up are as they were. -/
theorem test_compress_capacity_range :
    let t := after (exec .compress (placeBytes { i8 with caps := { i8.caps with cmpCap := 19 } } .cmp 17 [0xEE, 0xEE]))
    t.ext = 17 ∧ t.byteAt .cmp 17 = 0xEE ∧ t.byteAt .cmp 18 = 0xEE := by decide +kernel

/-- R27: the step that ends a `COMPRESS` shows its results with `BUSY = 0`. -/
theorem test_results_at_completion :
    summary (after (step { beginCommand 6 blank with estate := .finish, cur := 31 })) = (2, 0, 13, 0, 0) ∧
    summary (after (step { beginCommand 6 blank with estate := .degenerate })) = (2, 0, 9, 0, 0) := by decide +kernel

/-- D12: set pad bits and two bytes more. -/
def d12 : List Byte := [0xBA, 0x03, 0, 0, 0, 0x02, 0, 0, 0, 0xEF, 0x17, 0x38, 0xDC, 0xDE, 0xAD]

theorem test_decompress_pad_bits :
    storeList (after (exec .decompress (buffer d12 15))) .pix 6 = [0x7E, 0x81, 0xC3, 0, 0, 0] := by decide +kernel

/-! ### Witnesses: a state and operands that meet the hypotheses of each obligation -/

theorem witness_EncodedInstructionDecodesToItself :
    (Instr.header 0x80000000 0).fits .header = true ∧ Instr.p1.fits .presence = true ∧ Instr.w.fits (.chunk 1) = true ∧
    (Instr.l4 0 0xFF 1 2).fits (.chunk 4) = true ∧ Instr.decompress.fits .command = true := by decide

theorem witness_DecodedInstructionEncodesBack : decode (.chunk 1) (natBits 12 0x04B) = .ok (.l1 0x12, [false, false]) := by rfl

/-- A running command, with a host action to come. -/
def busyWith (ops : List HostOp) : State := { atChunk 5 0 1 [0x2D, 0x01] with host := ops }

theorem witness_CmdRegisterStartsIgnoresAndReads :
    ({ blank with host := [.writeReg 0 1] } : State).status.busy = false ∧
    ({ blank with host := [.writeReg 0 7] } : State).host = .writeReg 0 7 :: [] ∧
    (busyWith [.writeReg 0 6]).status.busy = true ∧ (busyWith [.writeReg 0 6]).host = .writeReg 0 6 :: [] ∧
    Instr.rdbit.fits .command = true ∧ (busyWith [.readReg 0]).host = .readReg 0 :: [] := by decide +kernel

theorem witness_ReservedCommandFailsAtOnce :
    ({ blank with host := [.issue 0] } : State).status.busy = false ∧ ({ blank with host := [.issue 0] } : State).host = .issue 0 :: [] ∧
    8 ≤ (8 : BitVec 4).toNat ∧ ({ blank with host := [.writeReg 0 8] } : State).host = .writeReg 0 (8 : BitVec 4).toNat :: [] ∧
    8 ≤ (15 : BitVec 4).toNat ∧ ({ blank with host := [.issue 15] } : State).host = .issue 15 :: [] := by decide +kernel

theorem witness_RegisterNumbers :
    ({ blank with host := [.readReg 15] } : State).host = .readReg 15 :: [] ∧
    3 < blank.caps.dbufCap ∧ blank.status.busy = false ∧
    ({ blank with host := [.readReg 19] } : State).host = .readReg (16 + 3) :: [] ∧
    ({ blank with host := [.writeReg 3 0xFFFFFFFF] } : State).host = .writeReg 3 (0xFFFFFFFF : BitVec 32).toNat :: [] ∧
    ({ blank with host := [.writeReg 4 0] } : State).host = .writeReg 4 (0 : BitVec 32).toNat :: [] ∧
    ({ blank with host := [.writeReg 5 1] } : State).host = .writeReg 5 true.toNat :: [] ∧
    ({ blank with host := [.writeReg 6 9] } : State).host = .writeReg 6 9 :: [] ∧
    ({ blank with host := [.writeReg 7 0] } : State).host = .writeReg 7 false.toNat :: [] ∧
    ({ blank with host := [.writeReg 8 2] } : State).host = .writeReg 8 2 :: [] ∧
    ({ blank with host := [.writeReg 9 31] } : State).host = .writeReg 9 31 :: [] ∧
    ({ blank with host := [.writeReg 19 0xFF] } : State).host = .writeReg (16 + 3) (0xFF : Byte).toNat :: [] ∧
    ({ blank with host := [.writeReg 10 5] } : State).host = .writeReg 10 5 :: [] ∧ 10 ∈ [1, 2, 10, 11, 12, 13, 14, 15] := by
  decide +kernel

theorem witness_HostAccessWhileBusyIsRefused :
    (busyWith [.writeMem .cmp 0 [1]]).status.busy = true ∧ (busyWith [.writeMem .cmp 0 [1]]).host = .writeMem .cmp 0 [1] :: [] ∧
    (busyWith [.readMem .pix 0]).host = .readMem .pix 0 :: [] ∧ (busyWith [.writeReg 3 1]).host = .writeReg 3 1 :: [] ∧
    (busyWith [.writeReg 9 1]).host = .writeReg 9 1 :: [] ∧ (busyWith [.writeReg 16 1]).host = .writeReg 16 1 :: [] ∧
    (busyWith [.readReg 16]).host = .readReg 16 :: [] := by decide +kernel

theorem witness_HostReachesMemoryBetweenCommands :
    ({ blank with host := [.writeMem .pix 14 [1, 2]] } : State).status.busy = false ∧
    14 + [(1 : Byte), 2].length ≤ blank.caps.cap (hostStore .pix) ∧
    ({ blank with host := [.writeMem .pix 14 [1, 2]] } : State).host = .writeMem .pix 14 [1, 2] :: [] ∧
    31 < blank.caps.cap (hostStore .cmp) ∧ ({ blank with host := [.readMem .cmp 31] } : State).host = .readMem .cmp 31 :: [] := by
  decide +kernel

theorem witness_IdleBlockChangesNothing : blank.status.busy = false ∧ blank.host = [] := by decide +kernel

theorem witness_ResetInputGivesTheResetValues : (busyWith [.reset, .pass]).host = .reset :: [.pass] := by decide +kernel

theorem witness_StepRunsTheIssuedCommand :
    ({ blank with host := [.issue 6] } : State).status.busy = false ∧ ({ blank with host := [.issue 6] } : State).host = .issue 6 :: [] ∧
    decodeCommand 6 = .ok .compress := ⟨rfl, rfl, rfl⟩

/-- Bytes read one by one are bytes that stand there. -/
theorem cmpHolds_of_storeList {s : State} {xs : List Byte} (h : storeList s .cmp xs.length = xs) : cmpHolds s xs := by
  intro a x hx
  rw [← h] at hx
  have ha := (List.getElem?_eq_some_iff.mp hx).1
  simp only [storeList, List.length_map, List.length_range] at ha
  simpa [storeList, List.getElem?_map, List.getElem?_range, ha] using hx

/-- D-E1, chunk 1: the code `L(12)` at payload bit 2, whose last bit is the buffer's last but four. -/
theorem witness_StepRunsTheCodeAtTheCursor :
    (atChunk 5 1 2 [0x2D, 0x01]).status.busy = true ∧ (atChunk 5 1 2 [0x2D, 0x01]).host = [] ∧
    (atChunk 5 1 2 [0x2D, 0x01]).dstate = .readPrefix1 ∧
    (atChunk 5 1 2 [0x2D, 0x01]).l ≤ (atChunk 5 1 2 [0x2D, 0x01]).caps.cmpCap ∧
    (Instr.l1 0x12).fits (.chunk (atChunk 5 1 2 [0x2D, 0x01]).n) = true ∧
    ∀ k x, (encode (.l1 0x12))[k]? = some x →
      contained (atChunk 5 1 2 [0x2D, 0x01]).l ((atChunk 5 1 2 [0x2D, 0x01]).cur + k) ∧
      sliceBit (atChunk 5 1 2 [0x2D, 0x01]) .cmp 9 ((atChunk 5 1 2 [0x2D, 0x01]).cur + k) = x := by
  refine ⟨by decide +kernel, by decide +kernel, by decide +kernel, by decide +kernel, by decide +kernel, ?_⟩
  have h : ∀ k, k < 10 →
      contained (atChunk 5 1 2 [0x2D, 0x01]).l ((atChunk 5 1 2 [0x2D, 0x01]).cur + k) ∧
      (encode (.l1 0x12))[k]? = some (sliceBit (atChunk 5 1 2 [0x2D, 0x01]) .cmp 9 ((atChunk 5 1 2 [0x2D, 0x01]).cur + k)) := by
    decide +kernel
  intro k x hx
  have hk : k < 10 := (List.getElem?_eq_some_iff.mp hx).1
  have := h k hk
  rw [hx] at this
  exact ⟨this.1, (Option.some.inj this.2).symm⟩

/-- DEC at `ReadPresence`, row 0. -/
def atPresence : State := { atChunk 4 0 1 [0x03] with dstate := .readPresence }

theorem witness_StepRunsThePresenceCode :
    atPresence.status.busy = true ∧ atPresence.host = [] ∧ atPresence.dstate = .readPresence ∧
    9 + atPresence.row / 8 < atPresence.caps.cmpCap := by decide +kernel

/-- DEC at `D_VALIDATE`, vector E1. -/
def atValidate : State := beginCommand 7 (buffer e1 11)

theorem witness_StepRunsTheHeader :
    atValidate.status.busy = true ∧ atValidate.host = [] ∧ atValidate.dstate = .validate ∧ atValidate.argPresent = true ∧
    9 ≤ atValidate.argLen ∧ atValidate.argLen ≤ atValidate.caps.cmpCap ∧
    cmpHolds atValidate (encodedHeader 5 1) := by
  refine ⟨?_, ?_, ?_, ?_, ?_, ?_, cmpHolds_of_storeList ?_⟩ <;> decide +kernel

/-- The last byte of PIX, bit 7. -/
theorem witness_RdbitReadsTheBit : (acc 0 127 0 []).status.busy = false ∧ argInRange (acc 0 127 0 []) 1 := by decide +kernel
theorem witness_SetbitSetsTheBit : (acc 15 7 0 []).status.busy = false ∧ argInRange (acc 15 7 0 []) 1 := by decide +kernel
theorem witness_ClrbitClearsTheBit : (accCmp 239 0 []).status.busy = false ∧ argInRange (accCmp 239 0 []) 1 := by decide +kernel

/-- One byte more than DBUF has, all of DBUF up to the end of PIX aligned and unaligned, and no byte at all. -/
theorem witness_RdchunkFillsDbuf :
    (acc 0 0 5 []).status.busy = false ∧ (acc 0 0 5 []).caps.dbufCap < (acc 0 0 5 []).argLen ∧
    (acc 12 0 4 []).argLen ≤ (acc 12 0 4 []).caps.dbufCap ∧ argInRange (acc 12 0 4 []) (chunkSpan 0 4) ∧
    argInRange (acc 11 3 4 []) (chunkSpan 3 4) ∧ (acc 99 0 0 []).argLen = 0 := by decide +kernel
theorem witness_WrchunkWritesTheBits :
    (accCmp 3 5 []).status.busy = false ∧ (accCmp 3 5 []).caps.dbufCap < (accCmp 3 5 []).argLen ∧
    (acc 12 0 4 []).argLen ≤ (acc 12 0 4 []).caps.dbufCap ∧ argInRange (acc 12 0 4 []) (chunkSpan 0 4) ∧
    argInRange (acc 11 3 4 []) (chunkSpan 3 4) ∧ (acc 99 0 0 []).argLen = 0 := by decide +kernel

/-- The first address that is not there, and a chunk whose last byte alone is not there. -/
theorem witness_AccessBeyondTheCapacityFaults :
    (acc 16 0 4 []).status.busy = false ∧ ¬ argInRange (acc 16 0 4 []) 1 ∧
    (acc 12 1 4 []).argLen ≠ 0 ∧ (acc 12 1 4 []).argLen ≤ (acc 12 1 4 []).caps.dbufCap ∧
    ¬ argInRange (acc 12 1 4 []) (chunkSpan 1 4) := by decide +kernel

theorem witness_ChunkPrimitivesAreBitwise :
    chunkRead (acc 0 0 0 []) .pix 0 4 2 = .ok [0xCA, 0x03] ∧
    chunkWrite (acc 0 0 0 []) .pix 0 3 [0xAB, 0xCD, 0xEF] =
      .ok (okState (chunkWrite (acc 0 0 0 []) .pix 0 3 [0xAB, 0xCD, 0xEF])) := ⟨rfl, rfl⟩

theorem witness_ChunkPrimitivesTouchTheirSpan :
    (acc 0 0 0 []).caps = blank.caps ∧
    chunkWrite (acc 0 0 0 []) .pix 0 8 [0xAB] = .ok (okState (chunkWrite (acc 0 0 0 []) .pix 0 8 [0xAB])) := ⟨rfl, rfl⟩

/-- Two bit writes in one byte, and a second chunk that starts inside the first and ends with it. -/
theorem witness_AccessorLaws :
    bitSet (acc 0 0 0 []) .pix 0 1 = .ok (okState (bitSet (acc 0 0 0 []) .pix 0 1)) ∧
    bitClear (acc 0 0 0 []) .pix 0 2 = .ok (okState (bitClear (acc 0 0 0 []) .pix 0 2)) ∧
    (BitWrite.set 1).first + (BitWrite.set 1).length ≤ (BitWrite.clear 2).first ∧
    (BitWrite.set 1).run (acc 0 0 0 []) .pix 0 = .ok (okState (bitSet (acc 0 0 0 []) .pix 0 1)) ∧
    (BitWrite.clear 2).run (okState (bitSet (acc 0 0 0 []) .pix 0 1)) .pix 0 =
      .ok (okState (bitClear (okState (bitSet (acc 0 0 0 []) .pix 0 1)) .pix 0 2)) ∧
    1 ≤ [(0x34 : Byte)].length ∧ 8 ≤ 8 * [(0x12 : Byte), 0x56].length ∧
    8 * [(0x12 : Byte), 0x56].length ≤ 8 + 8 * [(0x34 : Byte)].length ∧
    chunkWrite (acc 0 0 0 []) .pix 0 3 [0x12, 0x56] = .ok (okState (chunkWrite (acc 0 0 0 []) .pix 0 3 [0x12, 0x56])) ∧
    chunkWrite (okState (chunkWrite (acc 0 0 0 []) .pix 0 3 [0x12, 0x56])) .pix 0 (3 + 8) [0x34] =
      .ok (okState (chunkWrite (okState (chunkWrite (acc 0 0 0 []) .pix 0 3 [0x12, 0x56])) .pix 0 (3 + 8) [0x34])) := by
  refine ⟨rfl, rfl, ?_, rfl, rfl, ?_, ?_, ?_, rfl, rfl⟩ <;> decide

/-- The shortest buffer that holds the presence bits of 8 rows, and an image that is just as large as PIX. -/
theorem witness_HeaderIsAccepted :
    0 ≤ (2 : Word32).toInt ∧ 0 ≤ (8 : Word32).toInt ∧ 9 + ceil8 (8 : Word32).toNat ≤ ({ blank with l := 10 } : State).l ∧
    (2 : Word32).toNat * (8 : Word32).toNat ≤ blank.caps.pixCap := by decide +kernel

theorem witness_HeaderIsRejected :
    (0xFFFFFFFF : Word32).toInt < 0 ∧ 0 ≤ (2 : Word32).toInt ∧ 0 ≤ (9 : Word32).toInt ∧
    ({ blank with l := 10 } : State).l < 9 + ceil8 (9 : Word32).toNat ∧
    9 + ceil8 (9 : Word32).toNat ≤ ({ blank with l := 11 } : State).l ∧
    blank.caps.pixCap < (2 : Word32).toNat * (9 : Word32).toNat := by decide +kernel

/-- The last row that PIX holds, and a row of width 0 beyond it. -/
theorem witness_P0FillsTheRowWhite :
    rowAddr { blank with w := 4, h := 4, row := 3 } + 4 ≤ blank.caps.pixCap ∧ ({ blank with w := 0, row := 99 } : State).w = 0 := by
  decide +kernel

theorem witness_WhiteAndBlackFillTheChunk :
    chunkAddr { blank with w := 4, row := 3, n := 4 } + 4 ≤ blank.caps.pixCap := by decide +kernel

theorem witness_LiteralsPutTheirBytes :
    chunkAddr { blank with w := 4, row := 3 } + 4 ≤ blank.caps.pixCap ∧ chunkAddr { blank with w := 13 } + 3 ≤ blank.caps.pixCap ∧
    chunkAddr { blank with w := 7, row := 2 } + 2 ≤ blank.caps.pixCap ∧
    chunkAddr { blank with w := 5, row := 3 } + 1 ≤ blank.caps.pixCap := by decide +kernel

theorem witness_CodesMoveTheCursorByTheirLength :
    exec .b (atChunk 4 0 1 [0x03]) = .next (after (exec .b (atChunk 4 0 1 [0x03]))) ∧ Instr.b.fits (.chunk 4) = true ∧
    exec .p0 atPresence = .next (after (exec .p0 atPresence)) ∧ Instr.p0.fits .presence = true :=
  ⟨rfl, rfl, rfl, rfl⟩

/-- Each of the three causes: the first bit, the second bit (F1, length 14, shortened to one byte) and the span's last bit. -/
theorem witness_UncontainedCodeEndsTheCommand :
    (atChunk 5 0 8 [0xFF]).status.busy = true ∧ (atChunk 5 0 8 [0xFF]).host = [] ∧ (atChunk 5 0 8 [0xFF]).dstate = .readPrefix1 ∧
    (atChunk 5 0 8 [0xFF]).l ≤ (atChunk 5 0 8 [0xFF]).caps.cmpCap ∧ chunkCause (atChunk 5 0 8 [0xFF]) = some 8 ∧
    chunkCause (atChunk 5 0 7 [0xFF]) = some 9 ∧ chunkCause (atChunk 5 1 7 [0xFF, 0xFF]) = some 10 := by decide +kernel

/-- F6, F7, F8, and a zero dimension on an instance that has no room for the other one. -/
theorem witness_CompressEntryChecks :
    (image 5 4 []).status.busy = false ∧ (image 5 4 []).caps.wf ∧ compressCause blank = some 1 ∧
    compressCause (image 0xFFFFFFFF 0 []) = some 2 ∧ compressCause (image 5 4 []) = some 11 ∧
    (image 0x7FFFFFFF 0 []).argPresent = true ∧ 0 ≤ (image 0x7FFFFFFF 0 []).argWidth.toInt ∧
    0 ≤ (image 0x7FFFFFFF 0 []).argHeight.toInt ∧ (image 0x7FFFFFFF 0 []).argHeight = 0 := by decide +kernel

theorem witness_CompressOfAZeroDimension :
    (image 0 7 []).status.busy = false ∧ (image 0 7 []).caps.wf ∧ (image 0 7 []).argPresent = true ∧
    0 ≤ (image 0 7 []).argWidth.toInt ∧ 0 ≤ (image 0 7 []).argHeight.toInt ∧ (image 0 7 []).argWidth = 0 := by decide +kernel

theorem witness_CompressAlwaysCompletes : (image 5 2 []).status.busy = false ∧ (image 5 2 []).caps.wf := by decide +kernel

/-- Vector E4. -/
def i4 : State := image 3 3 [1, 2, 3, 0xFF, 0xFF, 0xFF, 0, 0, 0]

/-- The state after `COMPRESS` of vector E4. -/
def c4 : State := after (exec .compress i4)

theorem compress_i4 : exec .compress i4 = .next c4 := next_after (by decide +kernel)

theorem witness_CompressedImageIsTheStream :
    i4.status.busy = false ∧ i4.argPresent = true ∧ 0 < i4.argWidth.toInt ∧ 0 < i4.argHeight.toInt ∧
    exec .compress i4 = .next c4 ∧ c4.status.fail = false := by
  refine ⟨?_, ?_, ?_, ?_, compress_i4, ?_⟩ <;> decide +kernel

/-- 9 + ceil((3 + 3 * 26) / 8) + 4 = 24. -/
theorem witness_CompressSucceedsWithRoom :
    i4.status.busy = false ∧ i4.argPresent = true ∧ 0 < i4.argWidth.toInt ∧ 0 < i4.argHeight.toInt ∧
    i4.argWidth.toNat * i4.argHeight.toNat ≤ i4.caps.pixCap ∧ scratchBytes i4.argWidth.toNat ≤ i4.caps.scrCap ∧
    9 + ceil8 (i4.argHeight.toNat + i4.argHeight.toNat * worstRowBits i4.argWidth.toNat) + scratchBytes i4.argWidth.toNat = 24 ∧
    24 ≤ i4.caps.cmpCap := by decide +kernel

theorem witness_CompressLeavesZerosAboveTheResult :
    i4.status.busy = false ∧ i4.argPresent = true ∧ 0 < i4.argWidth.toInt ∧ 0 < i4.argHeight.toInt ∧
    exec .compress i4 = .next c4 ∧ c4.status.fail = false := witness_CompressedImageIsTheStream

/-- An all-white and an all-black image of one pixel (E6). -/
theorem witness_SizesOfRowsAndUniformImages :
    [(0x12 : Byte)] ≠ [] ∧ (image 1 1 [0xFF]).status.busy = false ∧ (image 1 1 [0xFF]).argPresent = true ∧
    0 < (image 1 1 [0xFF]).argWidth.toInt ∧ 0 < (image 1 1 [0xFF]).argHeight.toInt ∧
    isNext (exec .compress (image 1 1 [0xFF])) = true ∧ (after (exec .compress (image 1 1 [0xFF]))).status.fail = false ∧
    storeList (image 1 1 [0xFF]) .pix 1 = [0xFF] ∧
    isNext (exec .compress (image 1 1 [0])) = true ∧ (after (exec .compress (image 1 1 [0]))).status.fail = false ∧
    storeList (image 1 1 [0]) .pix 1 = [0] := by decide +kernel

theorem witness_StreamOfAnImageIsLossless : 3 < 2 ^ 31 ∧ 2 < 2 ^ 31 ∧ [(1 : Byte), 2, 3, 0xFF, 0xFF, 0xFF].length = 3 * 2 := by decide

/-- Each cause in the order of R163 at a boundary of its check, and a buffer that passes. -/
theorem witness_DecompressValidates :
    (buffer e5 19).status.busy = false ∧ validateCause blank = some 3 ∧ validateCause (buffer e5 33) = some 11 ∧
    validateCause (buffer e5 8) = some 4 ∧ validateCause (buffer (0xBB :: e5.tail) 19) = some 5 ∧
    validateCause (buffer [0xBA, 8, 0, 0, 0x80, 2, 0, 0, 0] 9) = some 6 ∧ validateCause (buffer e5 9) = some 7 ∧
    validateCause (buffer [0xBA, 17, 0, 0, 0, 1, 0, 0, 0] 10) = some 11 ∧ validateCause (buffer e5 10) = none := by decide +kernel

theorem witness_DecompressAlwaysCompletes : (buffer e5 14).status.busy = false := by decide +kernel

theorem witness_DecompressChangesOnlyTheImage : exec .decompress (buffer e4 13) = .next (after (exec .decompress (buffer e4 13))) :=
  next_after (by decide +kernel)

/-- Vector E4 as text. -/
def s4 : Stream := { width := 3, height := 3, pres := [true, false, true], rows := [[.l3 1 2 3], [.b]] }

theorem test_assemble_e4 : s4.assemble = e4 := by decide +kernel

/-- Vector E10 as text, which D12 holds with its pad bits set. -/
def s10 : Stream := { width := 3, height := 2, pres := [true, true], rows := [[.l3 0x7E 0x81 0xC3], [.b]] }

theorem witness_DecompressReadsTheStream :
    (buffer d12 15).status.busy = false ∧ (buffer d12 15).argPresent = true ∧ s10.wf = true ∧
    cmpHolds (buffer d12 15) (encodedHeader s10.width s10.height) ∧
    (∀ k x, s10.payload[k]? = some x → sliceBit (buffer d12 15) .cmp 9 k = x) ∧
    s10.assemble.length ≤ (buffer d12 15).argLen ∧ (buffer d12 15).argLen ≤ (buffer d12 15).caps.cmpCap ∧
    s10.width.toNat * s10.height.toNat ≤ (buffer d12 15).caps.pixCap := by
  refine ⟨?_, ?_, ?_, cmpHolds_of_storeList ?_, ?_, ?_, ?_, ?_⟩
  case refine_5 =>
    have h : ∀ k, k < 30 → s10.payload[k]? = some (sliceBit (buffer d12 15) .cmp 9 k) := by decide +kernel
    intro k x hx
    have hk : k < 30 := (List.getElem?_eq_some_iff.mp hx).1
    exact (Option.some.inj (hx ▸ h k hk)).symm
  all_goals decide +kernel

/-- Two buffers of different bytes above `ARG_LEN`, on instances of different SCR_CAP. -/
def otherBuffer : State := { buffer (e4 ++ [0xDE, 0xAD]) 13 with caps := { blank.caps with scrCap := 0 } }

theorem witness_DecompressIsAFunctionOfItsBuffer :
    (buffer e4 13).status.busy = false ∧ otherBuffer.status.busy = false ∧
    otherBuffer.caps.cmpCap = (buffer e4 13).caps.cmpCap ∧ otherBuffer.caps.pixCap = (buffer e4 13).caps.pixCap ∧
    otherBuffer.argPresent = (buffer e4 13).argPresent ∧ otherBuffer.argLen = (buffer e4 13).argLen ∧
    ∀ a, a < 13 → otherBuffer.byteAt .cmp a = (buffer e4 13).byteAt .cmp a := by decide +kernel

theorem witness_RoundTrip :
    i4.status.busy = false ∧ i4.argPresent = true ∧ 0 < i4.argWidth.toInt ∧ 0 < i4.argHeight.toInt ∧
    exec .compress i4 = .next c4 ∧ c4.status.fail = false ∧
    (buffer e4 13).status.busy = false ∧ (buffer e4 13).caps = i4.caps ∧ (buffer e4 13).argPresent = true ∧
    c4.resLen ≤ (buffer e4 13).argLen ∧ (buffer e4 13).argLen ≤ (buffer e4 13).caps.cmpCap ∧ c4.resLen = 13 ∧
    ∀ a, a < 13 → (buffer e4 13).byteAt .cmp a = c4.byteAt .cmp a := by
  refine ⟨?_, ?_, ?_, ?_, compress_i4, ?_, ?_, ?_, ?_, ?_, ?_, ?_, ?_⟩ <;> decide +kernel

/-- The longest cut, and the magic byte changed. -/
theorem witness_CorruptionIsRejected :
    exec .compress i4 = .next c4 ∧ (buffer e4 12).caps = i4.caps ∧ (buffer e4 12).argLen ≤ (buffer e4 12).caps.cmpCap ∧
    (∀ a, a < 12 → (buffer e4 12).byteAt .cmp a = c4.byteAt .cmp a) ∧ (buffer e4 12).argLen < c4.resLen ∧
    9 ≤ (buffer (0xBB :: e4.tail) 9).argLen ∧ (buffer (0xBB :: e4.tail) 9).byteAt .cmp 0 ≠ 0xBA := by
  refine ⟨compress_i4, ?_, ?_, ?_, ?_, ?_, ?_⟩ <;> decide +kernel

theorem witness_InputsAreReadOnly :
    exec .compress i4 = .next c4 ∧ exec .decompress (buffer e4 13) = .next (after (exec .decompress (buffer e4 13))) :=
  ⟨compress_i4, witness_DecompressChangesOnlyTheImage⟩

theorem witness_NoInstructionWritesTheOperands :
    exec .rdchunk (acc 0 3 3 []) = .next (after (exec .rdchunk (acc 0 3 3 []))) ∧
    exec .wrchunk (acc 0 0 2 [0x12, 0x34]) = .next (after (exec .wrchunk (acc 0 0 2 [0x12, 0x34]))) :=
  ⟨next_after (by decide +kernel), next_after (by decide +kernel)⟩

/-- A `COMPRESS` that succeeds and one that fails in `E_GROW`. -/
theorem witness_CompressStaysWithinItsRanges :
    exec .compress i4 = .next c4 ∧
    isNext (exec .compress { i8 with caps := { i8.caps with cmpCap := 19 } }) = true := ⟨compress_i4, by decide +kernel⟩

/-- The first and the last check, and a buffer that passes. -/
theorem witness_ValidateStepChecksAndLatches :
    atValidate.status.busy = true ∧ atValidate.host = [] ∧ atValidate.dstate = .validate ∧ validateCause atValidate = none ∧
    validateCause { atValidate with argPresent := false } = some 3 ∧
    validateCause { atValidate with caps := { blank.caps with pixCap := 4 } } = some 11 := by decide +kernel

/-- A step in the middle of a `COMPRESS`. -/
theorem witness_ResultsAreWrittenOnlyAtCompletion :
    isNext (step { beginCommand 6 i4 with estate := .header, w := 3, h := 3 }) = true ∧
    (after (step { beginCommand 6 i4 with estate := .header, w := 3, h := 3 })).status.busy = true := by decide +kernel

/-- A command that succeeds and one that fails. -/
theorem witness_CommandsEndWithAResultOrTheSentinel :
    Instr.compress.fits .command = true ∧ i4.status.busy = false ∧ exec .compress i4 = .next c4 ∧
    exec .rdchunk (acc 0 0 5 []) = .next (after (exec .rdchunk (acc 0 0 5 []))) ∧
    (after (exec .rdchunk (acc 0 0 5 []))).status.fail = true := by
  refine ⟨rfl, ?_, compress_i4, next_after ?_, ?_⟩ <;> decide +kernel

/-- Two states that differ in a working register and in SCR. -/
theorem witness_CommandsDependOnVisibleState :
    Instr.compress.fits .command = true ∧ i4.status.busy = false ∧
    State.visible (placeBytes { i4 with cur := 77, n := 3 } .scr 0 [0xFF, 0xFF]) = i4.visible ∧ exec .compress i4 = .next c4 := by
  refine ⟨rfl, ?_, ?_, compress_i4⟩ <;> decide +kernel

theorem witness_StepsOfACommandAddUpToIt : i4.status.busy = false ∧ i4.host = [] ∧ decodeCommand 6 = .ok .compress :=
  ⟨rfl, rfl, rfl⟩

theorem witness_CodeIsItsTransitions :
    (atChunk 5 1 2 [0x2D, 0x01]).status.busy = true ∧ (atChunk 5 1 2 [0x2D, 0x01]).dstate = .readPrefix1 ∧
    1 ≤ (atChunk 5 1 2 [0x2D, 0x01]).n ∧ (atChunk 4 0 1 [0x03]).n ≤ 4 := by decide +kernel

theorem witness_TransitionsAreTheSpecs :
    encStep (beginCommand 6 i4) = .ok (okState (encStep (beginCommand 6 i4))) ∧
    decTransition (atChunk 5 1 2 [0x2D, 0x01]) = .ok (okState (decTransition (atChunk 5 1 2 [0x2D, 0x01]))) := ⟨rfl, rfl⟩

/-- A running decoder, before a literal whose last bit is the last of its byte's. -/
theorem stateInv_atChunk : StateInv (atChunk 5 1 2 [0x2D, 0x01]) := by
  constructor
  case draws => intro m; cases m <;> decide
  all_goals decide +kernel

theorem runInv_atChunk : RunInv (atChunk 5 1 2 [0x2D, 0x01]) := by
  constructor
  · intro _
    show DecChunk _
    exact ⟨⟨by decide +kernel, by decide +kernel, by decide +kernel, by decide +kernel⟩, by decide +kernel, by decide +kernel⟩
  · intro _
    trivial
  · intro _ h
    cases h

theorem witness_StepKeepsTheStateInvariant :
    StateInv (atChunk 5 1 2 [0x2D, 0x01]) ∧
    step (atChunk 5 1 2 [0x2D, 0x01]) = .next (after (step (atChunk 5 1 2 [0x2D, 0x01]))) :=
  ⟨stateInv_atChunk, next_after (by decide +kernel)⟩

theorem witness_StepKeepsTheRunInvariant :
    StateInv (atChunk 5 1 2 [0x2D, 0x01]) ∧ RunInv (atChunk 5 1 2 [0x2D, 0x01]) ∧
    step (atChunk 5 1 2 [0x2D, 0x01]) = .next (after (step (atChunk 5 1 2 [0x2D, 0x01]))) :=
  ⟨stateInv_atChunk, runInv_atChunk, next_after (by decide +kernel)⟩

theorem witness_RunningCodecNeverStops :
    StateInv (atChunk 5 1 2 [0x2D, 0x01]) ∧ RunInv (atChunk 5 1 2 [0x2D, 0x01]) ∧
    (atChunk 5 1 2 [0x2D, 0x01]).status.busy = true ∧ (atChunk 5 1 2 [0x2D, 0x01]).dstate ≠ .idle ∧
    (atChunk 5 1 2 [0x2D, 0x01]).host = [] :=
  ⟨stateInv_atChunk, runInv_atChunk, by decide +kernel, by decide +kernel, by decide +kernel⟩

end Sys2Proof.Tests
end

