-- ==== Sys2Proof/Proofs/HostRegisters.lean ====
section
/-! PROOFS. The registers as the host writes and reads them by number (R24, R29): one lemma for each range of numbers, and from them
the statements about the `CMD` register and about the register table. -/

namespace Sys2Proof.Machine

/-! ### A register access that is due -/

theorem step_writeReg_of_ok {s t : State} {n v : Nat} {rest : List HostOp} (hd : s.host = .writeReg n v :: rest)
    (hw : hostWriteReg n v { s with host := rest } = .ok t) : step s = .next t := by
  simp [step, hd, hw]

theorem step_readReg_of_ok {s t : State} {n : Nat} {rest : List HostOp} (hd : s.host = .readReg n :: rest)
    (hr : hostReadReg n { s with host := rest } = .ok t) : step s = .next t := by
  simp [step, hd, hr]

/-! ### What the host writes, by the range of the number -/

/-- The codes of R110 are the ones `decodeCommand` accepts. -/
theorem decodeCommand_ofNat_ok {v : Nat} (h1 : 1 ≤ v) (h7 : v ≤ 7) : ∃ i, decodeCommand (BitVec.ofNat 4 v) = .ok i := by
  interval_cases v <;> exact ⟨_, rfl⟩

/-- Numbers that fit the four bits of `CMD` are the same code only when they are equal. -/
theorem ofNat_four_eq_iff {v k : Nat} (hv : v < 16) (hk : k < 16) : BitVec.ofNat 4 v = BitVec.ofNat 4 k ↔ v = k := by
  rw [← BitVec.toNat_inj, BitVec.toNat_ofNat, BitVec.toNat_ofNat, Nat.mod_eq_of_lt hv, Nat.mod_eq_of_lt hk]

theorem hostWriteReg_cmd_of_busy {s : State} (v : Nat) (hb : s.status.busy = true) : hostWriteReg 0 v s = .ok s := by
  simp [hostWriteReg, hb]

theorem hostWriteReg_cmd_of_idle {s : State} {v : Nat} (hb : s.status.busy = false) (h1 : 1 ≤ v) (h7 : v ≤ 7) :
    hostWriteReg 0 v s = .ok (beginCommand (BitVec.ofNat 4 v) s) := by
  obtain ⟨i, hi⟩ := decodeCommand_ofNat_ok h1 h7
  simp [hostWriteReg, hb, hi]

theorem hostWriteReg_operand_of_idle {s : State} {n : Nat} (v : Nat) (hb : s.status.busy = false) (h3 : 3 ≤ n) (h9 : n ≤ 9) :
    hostWriteReg n v s = .ok (setArg s n v) := by
  have h0 : n ≠ 0 := by omega
  simp [hostWriteReg, hb, h0, h3, h9]

/-- R29: a write to a read-only or a reserved number is ignored, also while a command runs. -/
theorem hostWriteReg_readOnly (s : State) {n : Nat} (v : Nat) (h0 : n ≠ 0) (hop : ¬ (3 ≤ n ∧ n ≤ 9)) (h16 : n < 16) :
    hostWriteReg n v s = .ok s := by
  simp only [hostWriteReg, if_neg h0, if_neg hop, if_pos h16]

theorem hostWriteReg_dbuf_of_idle {s : State} {i : Nat} (v : Nat) (hb : s.status.busy = false) (hi : i < s.caps.dbufCap) :
    hostWriteReg (16 + i) v s = .ok (s.setByte .dbuf i (BitVec.ofNat 8 v)) := by
  have hop : ¬ (3 ≤ 16 + i ∧ 16 + i ≤ 9) := by omega
  simp [hostWriteReg, hb, hi, hop]

/-! ### What the host reads, by the range of the number -/

theorem hostReadReg_of_lt (s : State) {n : Nat} (h : n < 16) : hostReadReg n s = .ok { s with hostSaw := regValue s n } := by
  simp [hostReadReg, h]

theorem hostReadReg_dbuf_of_idle {s : State} {i : Nat} (hb : s.status.busy = false) (hi : i < s.caps.dbufCap) :
    hostReadReg (16 + i) s = .ok { s with hostSaw := (s.byteAt .dbuf i).toNat } := by
  simp [hostReadReg, hb, hi]

/-- The table of R29 as a list, in the order of the numbers. -/
theorem regValue_eq_getD (s : State) {n : Nat} (h : n < 16) :
    regValue s n =
      [s.cmd.toNat, s.status.busy.toNat + 2 * s.status.done.toNat + 4 * s.status.fail.toNat, s.err.toNat,
        s.argWidth.toNat, s.argHeight.toNat, s.argPresent.toNat, s.argLen, s.argMem.toNat, s.argBase, s.argBit,
        s.resLen, s.resWidth.toNat, s.resHeight.toNat, s.resBit.toNat, 0, 0].getD n 0 := by
  interval_cases n <;> rfl

/-! ### Operand values that fit their register -/

theorem setArg_argWidth_toNat (s : State) (v : BitVec 32) : setArg s 3 v.toNat = { s with argWidth := v } := by
  simp [setArg]

theorem setArg_argHeight_toNat (s : State) (v : BitVec 32) : setArg s 4 v.toNat = { s with argHeight := v } := by
  simp [setArg]

theorem setArg_argPresent_toNat (s : State) (v : Bool) : setArg s 5 v.toNat = { s with argPresent := v } := by
  cases v <;> rfl

theorem setArg_argMem_toNat (s : State) (v : Bool) : setArg s 7 v.toNat = { s with argMem := v } := by
  cases v <;> rfl

/-! ### The steps of the host's register accesses -/

/-- R281: an operand register takes its value in one step between commands. -/
theorem step_writeOperand {s : State} {n v : Nat} {rest : List HostOp} (hb : s.status.busy = false)
    (hd : s.host = .writeReg n v :: rest) (h3 : 3 ≤ n) (h9 : n ≤ 9) : step s = .next (setArg { s with host := rest } n v) :=
  step_writeReg_of_ok hd (hostWriteReg_operand_of_idle v hb h3 h9)

theorem step_writeReadOnly {s : State} {n v : Nat} {rest : List HostOp} (hd : s.host = .writeReg n v :: rest)
    (h0 : n ≠ 0) (hop : ¬ (3 ≤ n ∧ n ≤ 9)) (h16 : n < 16) : step s = .next { s with host := rest } :=
  step_writeReg_of_ok hd (hostWriteReg_readOnly _ v h0 hop h16)

theorem step_writeDbuf {s : State} {i v : Nat} {rest : List HostOp} (hb : s.status.busy = false)
    (hd : s.host = .writeReg (16 + i) v :: rest) (hi : i < s.caps.dbufCap) :
    step s = .next ({ s with host := rest }.setByte .dbuf i (BitVec.ofNat 8 v)) :=
  step_writeReg_of_ok hd (hostWriteReg_dbuf_of_idle v hb hi)

/-- R39: a register below the data buffer can be read at any time. -/
theorem step_readRegister {s : State} {n : Nat} {rest : List HostOp} (hd : s.host = .readReg n :: rest) (h : n < 16) :
    step s = .next { s with host := rest, hostSaw := regValue s n } :=
  step_readReg_of_ok hd (hostReadReg_of_lt { s with host := rest } h)

theorem step_readDbuf {s : State} {i : Nat} {rest : List HostOp} (hb : s.status.busy = false)
    (hd : s.host = .readReg (16 + i) :: rest) (hi : i < s.caps.dbufCap) :
    step s = .next { s with host := rest, hostSaw := (s.byteAt .dbuf i).toNat } :=
  step_readReg_of_ok hd (hostReadReg_dbuf_of_idle (s := { s with host := rest }) hb hi)

/-! ### A command's meaning while another command runs -/

/-- R24: each of the seven commands is a `runCommand`, which a running command makes the identity; a stream code fits no `CMD`
write. -/
theorem exec_command_of_busy {i : Instr} {s : State} (hb : s.status.busy = true) (hf : i.fits .command = true) :
    exec i s = .next s := by
  cases i with
  | rdbit | rdchunk | setbit | clrbit | wrchunk | compress | decompress => exact runCommand_of_busy hb
  | _ => simp [Instr.fits] at hf

/-! ### The statements -/

/-- Settles O4: the start is `beginCommand`, the ignored write and the ignored command are the busy cases. -/
theorem cmdRegisterStartsIgnoresAndReads : Obligations.CmdRegisterStartsIgnoresAndReads := by
  intro s rest
  refine ⟨?start, ?ignoredWrite, ?ignoredCommand, ?read, rfl⟩
  case start =>
    intro v c hv hc h1 h7 hb hd
    subst hc
    have hcompress : BitVec.ofNat 4 v = 6 ↔ v = 6 := ofNat_four_eq_iff hv (by decide)
    have hdecompress : BitVec.ofNat 4 v = 7 ↔ v = 7 := ofNat_four_eq_iff hv (by decide)
    have hstep : step s = .next (beginCommand (BitVec.ofNat 4 v) { s with host := rest }) :=
      step_writeReg_of_ok hd (hostWriteReg_cmd_of_idle hb h1 h7)
    simp only [hstep, beginCommand, hcompress, hdecompress]
  case ignoredWrite =>
    intro v hb hd
    exact step_writeReg_of_ok hd (hostWriteReg_cmd_of_busy v hb)
  case ignoredCommand =>
    intro i hb hf
    exact exec_command_of_busy hb hf
  case read =>
    intro hd
    exact step_readRegister hd (by decide)

/-- Settles O6, range of numbers by range of numbers. -/
theorem registerNumbers : Obligations.RegisterNumbers := by
  intro s rest
  refine ⟨?readRegister, ?readDbuf, ?width, ?height, ?present, ?len, ?mem, ?base, ?bit, ?writeDbuf, ?readOnly⟩
  case readRegister =>
    intro n hn hd
    rw [step_readRegister hd hn, regValue_eq_getD s hn]
  case readDbuf =>
    intro i hi hb hd
    exact step_readDbuf hb hd hi
  case width =>
    intro v hb hd
    rw [step_writeOperand hb hd (by decide) (by decide), setArg_argWidth_toNat]
  case height =>
    intro v hb hd
    rw [step_writeOperand hb hd (by decide) (by decide), setArg_argHeight_toNat]
  case present =>
    intro v hb hd
    rw [step_writeOperand hb hd (by decide) (by decide), setArg_argPresent_toNat]
  case len =>
    intro v hb hd
    exact step_writeOperand hb hd (by decide) (by decide)
  case mem =>
    intro v hb hd
    rw [step_writeOperand hb hd (by decide) (by decide), setArg_argMem_toNat]
  case base =>
    intro v hb hd
    exact step_writeOperand hb hd (by decide) (by decide)
  case bit =>
    intro v hb hd
    exact step_writeOperand hb hd (by decide) (by decide)
  case writeDbuf =>
    intro i v hi hb hd
    rw [step_writeDbuf hb hd hi, BitVec.ofNat_toNat, BitVec.setWidth_eq]
    refine ⟨_, rfl, setByte_registers _ _ _ _, byteAt_setByte_self _ _ _ _, ?_⟩
    intro m a hne
    rw [byteAt_setByte_other _ _ hne]
    cases m <;> rfl
  case readOnly =>
    intro n v hn hd
    have hrange : n ≠ 0 ∧ ¬ (3 ≤ n ∧ n ≤ 9) ∧ n < 16 := by
      simp only [List.mem_cons, List.not_mem_nil, or_false] at hn
      omega
    obtain ⟨h0, hop, h16⟩ := hrange
    exact step_writeReadOnly hd h0 hop h16

end Sys2Proof.Machine
end

