-- ==== Sys2Proof/Proofs/ReservedCommand.lean ====
section
/-! PROOFS. The reserved command codes (R112): the host's two ways to give one both make the state of `reservedCommand`. -/

namespace Sys2Proof.Machine

/-- R112: the codes that R110 leaves out are the ones `decodeCommand` rejects. -/
theorem decodeCommand_reserved {c : BitVec 4} (hc : c = 0 ∨ 8 ≤ c.toNat) : decodeCommand c = .error .reservedCommand := by
  have hcode : c.toNat = 0 ∨ 8 ≤ c.toNat := hc.imp_left (fun h => by simp [h])
  unfold decodeCommand
  split
  case h_8 => rfl
  all_goals omega

theorem hostWriteReg_cmd_reserved {s : State} {c : BitVec 4} (hb : s.status.busy = false) (hc : c = 0 ∨ 8 ≤ c.toNat) :
    hostWriteReg 0 c.toNat s = .ok (reservedCommand c s) := by
  simp [hostWriteReg, hb, decodeCommand_reserved hc]

/-- A reserved code between commands makes the same step as a command line and as a plain write of `CMD`. -/
theorem step_reservedCommand {s : State} {c : BitVec 4} {rest : List HostOp} (hb : s.status.busy = false)
    (hc : c = 0 ∨ 8 ≤ c.toNat) (hd : s.host = .issue c :: rest ∨ s.host = .writeReg 0 c.toNat :: rest) :
    step s = .next (reservedCommand c { s with host := rest }) := by
  rcases hd with hd | hd
  · simp [step, hd, hb, issueCommand, decodeCommand_reserved hc]
  · exact step_writeReg_of_ok hd (hostWriteReg_cmd_reserved hb hc)

/-- Settles O5: the state `reservedCommand` makes is the failed command's, but for the code in `CMD`. -/
theorem reservedCommandFailsAtOnce : Obligations.ReservedCommandFailsAtOnce := by
  intro s c rest hb hc hd
  exact ⟨_, step_reservedCommand hb hc hd, rfl⟩

end Sys2Proof.Machine
end

