-- ==== Sys2Proof/Proofs/BitEffects.lean ====
section
/-! PROOFS. What the writing primitives of the Bit Accessor do (R133 to R136), bit by bit. A bit of a store is named by its index
from bit 0 of address 0, so that bit `b` of the slice `(m, base)` is bit `8 * base + b` and effects on slices of different
bases, and on whole bytes, compare. -/

namespace Sys2Proof.Machine

open Config (Store)

/-! ### The two predicates -/

/-- The bits stand in store `m` from bit `p` up. -/
def bitsAt (s : State) (m : Store) (p : Nat) (bits : List Bool) : Prop :=
  ∀ k x, bits[k]? = some x → sliceBit s m 0 (p + k) = x

/-- The stores of `t` are those of `s` with the bits put into store `m` from bit `p` up. -/
def PutsBits (s t : State) (m : Store) (p : Nat) (bits : List Bool) : Prop :=
  ∀ m' q, sliceBit t m' 0 q =
    if m' = m ∧ p ≤ q ∧ q < p + bits.length then bits.getD (q - p) false else sliceBit s m' 0 q

/-! ### Bits and bytes of a state -/

theorem sliceBit_eq_base_zero (s : State) (m : Store) (base b : Nat) :
    sliceBit s m base b = sliceBit s m 0 (8 * base + b) := by
  simp only [sliceBit, byteOf]
  rw [show 0 + (8 * base + b) / 8 = base + b / 8 by omega, show (8 * base + b) % 8 = b % 8 by omega]

theorem sliceBit_eight_mul_add (s : State) (m : Store) (a : Nat) {i : Nat} (hi : i < 8) :
    sliceBit s m 0 (8 * a + i) = (s.byteAt m a).getLsbD i := by
  simp only [sliceBit, byteOf]
  rw [show 0 + (8 * a + i) / 8 = a by omega, show (8 * a + i) % 8 = i by omega]

theorem sliceBit_congr {s t : State} {m : Store} (h : ∀ a, t.byteAt m a = s.byteAt m a) (base b : Nat) :
    sliceBit t m base b = sliceBit s m base b := by
  simp only [sliceBit, h]

theorem storeList_congr {s t : State} {m : Store} (h : ∀ a, t.byteAt m a = s.byteAt m a) (n : Nat) :
    storeList t m n = storeList s m n :=
  List.map_congr_left fun a _ => h a

/-- A byte is determined by its bits. -/
theorem byteAt_congr {s t : State} {m : Store} (h : ∀ q, sliceBit t m 0 q = sliceBit s m 0 q) (a : Nat) :
    t.byteAt m a = s.byteAt m a := by
  apply BitVec.eq_of_getLsbD_eq
  intro i hi
  rw [← sliceBit_eight_mul_add t m a hi, ← sliceBit_eight_mul_add s m a hi, h]

theorem sliceBit_setByte (s : State) (m m' : Store) (a q : Nat) (v : Byte) :
    sliceBit (s.setByte m a v) m' 0 q = if m' = m ∧ q / 8 = a then v.getLsbD (q % 8) else sliceBit s m' 0 q := by
  simp only [sliceBit, byteOf, byteAt_setByte, Nat.zero_add]
  split <;> rfl

/-! ### The bits of a run of bytes -/

@[simp] theorem length_bytesBits (xs : List Byte) : (bytesBits xs).length = 8 * xs.length := by
  induction xs with
  | nil => rfl
  | cons x xs ih =>
    simp only [bytesBits, List.length_append, ih, List.length_cons, byteBits, List.length_nil]
    omega

theorem getD_byteBits (x : Byte) {k : Nat} (hk : k < 8) : (byteBits x).getD k false = x.getLsbD k := by
  interval_cases k <;> rfl

/-- Bit `k` of a run of bytes is bit `k % 8` of byte `k / 8` (R12, R61). -/
theorem getElem?_bytesBits (xs : List Byte) (k : Nat) : (bytesBits xs)[k]? = (xs[k / 8]?).map (·.getLsbD (k % 8)) := by
  induction xs generalizing k with
  | nil => simp [bytesBits]
  | cons x xs ih =>
    by_cases hk : k < 8
    · have hx : (byteBits x)[k]? = some (x.getLsbD k) := by interval_cases k <;> rfl
      rw [bytesBits, List.getElem?_append_left (by simpa [byteBits] using hk), hx, Nat.div_eq_of_lt hk, Nat.mod_eq_of_lt hk]
      rfl
    · obtain ⟨j, rfl⟩ : ∃ j, k = j + 8 := ⟨k - 8, by omega⟩
      rw [bytesBits, List.getElem?_append_right (by simp [byteBits]), show (byteBits x).length = 8 from rfl,
        Nat.add_sub_cancel, ih, Nat.add_div_right _ (by decide), Nat.add_mod_right, List.getElem?_cons_succ]

theorem getElem?_bytesBits_storeList (s : State) (m : Store) {k n : Nat} (hk : k < 8 * n) :
    (bytesBits (storeList s m n))[k]? = some (sliceBit s m 0 k) := by
  have hlt : k / 8 < n := by omega
  simp [getElem?_bytesBits, storeList, hlt, sliceBit, byteOf]

/-! ### Rules of the predicates -/

theorem bitsAt_nil (s : State) (m : Store) (p : Nat) : bitsAt s m p [] := by
  intro k x h
  simp at h

theorem bitsAt_singleton {s : State} {m : Store} {p : Nat} {x : Bool} (h : sliceBit s m 0 p = x) : bitsAt s m p [x] := by
  intro k y hk
  cases k with
  | zero => exact h.trans (Option.some.inj hk)
  | succ k => simp at hk

theorem bitsAt_append {s : State} {m : Store} {p : Nat} {xs ys : List Bool} (hx : bitsAt s m p xs)
    (hy : bitsAt s m (p + xs.length) ys) : bitsAt s m p (xs ++ ys) := by
  intro k x hk
  rcases Nat.lt_or_ge k xs.length with h | h
  · exact hx k x (by rwa [List.getElem?_append_left h] at hk)
  · rw [List.getElem?_append_right h] at hk
    have hbit := hy _ x hk
    rwa [show p + xs.length + (k - xs.length) = p + k by omega] at hbit

/-- Bits stay where they are if each of them does. -/
theorem bitsAt_of_eq {s t : State} {m : Store} {p : Nat} {bits : List Bool} (hb : bitsAt s m p bits)
    (h : ∀ q, p ≤ q → q < p + bits.length → sliceBit t m 0 q = sliceBit s m 0 q) : bitsAt t m p bits := by
  intro k x hk
  have hlt : k < bits.length := (List.getElem?_eq_some_iff.mp hk).1
  rw [h _ (by omega) (by omega), hb k x hk]

theorem PutsBits.bitsAt {s t : State} {m : Store} {p : Nat} {bits : List Bool} (h : PutsBits s t m p bits) :
    bitsAt t m p bits := by
  intro k x hk
  have hlt : k < bits.length := (List.getElem?_eq_some_iff.mp hk).1
  rw [h, if_pos ⟨rfl, by omega, by omega⟩, Nat.add_sub_cancel_left]
  simp [List.getD, hk]

theorem PutsBits.other {s t : State} {m m' : Store} {p q : Nat} {bits : List Bool} (h : PutsBits s t m p bits)
    (hq : m' ≠ m ∨ q < p ∨ p + bits.length ≤ q) : sliceBit t m' 0 q = sliceBit s m' 0 q := by
  rw [h, if_neg]
  rintro ⟨rfl, h1, h2⟩
  rcases hq with hq | hq | hq
  · exact hq rfl
  all_goals omega

theorem PutsBits.byteAt_other {s t : State} {m m' : Store} {p : Nat} {bits : List Bool} (h : PutsBits s t m p bits)
    (hm : m' ≠ m) (a : Nat) : t.byteAt m' a = s.byteAt m' a :=
  byteAt_congr (fun _ => h.other (.inl hm)) a

theorem PutsBits.congr_left {s t u : State} {m : Store} {p : Nat} {bits : List Bool} (h : PutsBits t u m p bits)
    (hs : ∀ m' a, t.byteAt m' a = s.byteAt m' a) : PutsBits s u m p bits := by
  intro m' q
  rw [h, sliceBit_congr (hs m')]

theorem PutsBits.congr {s t u : State} {m : Store} {p : Nat} {bits : List Bool} (h : PutsBits s t m p bits)
    (hu : ∀ m' a, u.byteAt m' a = t.byteAt m' a) : PutsBits s u m p bits :=
  fun m' q => (sliceBit_congr (hu m') 0 q).trans (h m' q)

theorem PutsBits.refl (s : State) (m : Store) (p : Nat) : PutsBits s s m p [] := by
  intro m' q
  rw [if_neg]
  simp

/-- Two puts of which the second begins where the first ends are one put. -/
theorem PutsBits.append {s t u : State} {m : Store} {p p' : Nat} {xs ys : List Bool} (h1 : PutsBits s t m p xs)
    (h2 : PutsBits t u m p' ys) (hp : p' = p + xs.length) : PutsBits s u m p (xs ++ ys) := by
  subst hp
  intro m' q
  rw [h2, h1, List.length_append]
  by_cases hm : m' = m
  · subst hm
    rcases Nat.lt_or_ge q (p + xs.length) with hq | hq
    · by_cases hp : p ≤ q
      · rw [if_neg (by omega), if_pos ⟨rfl, hp, hq⟩, if_pos ⟨rfl, hp, by omega⟩, List.getD_append _ _ _ _ (by omega)]
      · rw [if_neg (by omega), if_neg (by omega), if_neg (by omega)]
    · rw [List.getD_append_right _ _ _ _ (by omega), show q - p - xs.length = q - (p + xs.length) by omega]
      by_cases hlt : q < p + xs.length + ys.length
      · rw [if_pos ⟨rfl, hq, hlt⟩, if_pos ⟨rfl, by omega, by omega⟩]
      · rw [if_neg (by omega), if_neg (by omega), if_neg (by omega)]
  · simp [hm]

/-! ### The bytes the primitives write -/

theorem getLsbD_or_one_shiftLeft (x : Byte) {i j : Nat} (hi : i < 8) (hj : j < 8) :
    (x ||| (1#8 <<< i)).getLsbD j = if j = i then true else x.getLsbD j := by
  interval_cases i <;> interval_cases j <;> simp

theorem getLsbD_and_sub_one_shiftLeft (x : Byte) {i j : Nat} (hi : i < 8) (hj : j < 8) :
    (x &&& (0xFF#8 - (1#8 <<< i))).getLsbD j = if j = i then false else x.getLsbD j := by
  interval_cases i <;> interval_cases j <;> simp

/-- The lower byte of an unaligned `ChunkWrite` keeps its bits below `sh` and takes the low bits of `x` above them (R135). -/
theorem getLsbD_chunkWrite_low (lo x : Byte) {sh j : Nat} (hsh : sh < 8) (hj : j < 8) :
    ((lo &&& lowMask sh) ||| (x <<< sh)).getLsbD j = if j < sh then lo.getLsbD j else x.getLsbD (j - sh) := by
  interval_cases sh <;> interval_cases j <;> simp [lowMask]

/-- The upper byte takes the high bits of `x` below `sh` and keeps its bits above them (R135). -/
theorem getLsbD_chunkWrite_high (hi x : Byte) {sh j : Nat} (hsh : sh < 8) (hj : j < 8) :
    ((hi &&& (0xFF#8 - lowMask sh)) ||| (x >>> (8 - sh))).getLsbD j =
      if j < sh then x.getLsbD (8 - sh + j) else hi.getLsbD j := by
  interval_cases sh <;> interval_cases j <;> simp [lowMask]

/-- A byte replaced by one that takes the bits from its bit `i` up and agrees with it elsewhere is a put of the bits. -/
theorem putsBits_setByte {s : State} {m : Store} {a i : Nat} {v : Byte} {bits : List Bool} (hi : i + bits.length ≤ 8)
    (hv : ∀ j, j < 8 → v.getLsbD j =
      if i ≤ j ∧ j < i + bits.length then bits.getD (j - i) false else (s.byteAt m a).getLsbD j) :
    PutsBits s (s.setByte m a v) m (8 * a + i) bits := by
  intro m' q
  rw [sliceBit_setByte]
  by_cases ha : m' = m ∧ q / 8 = a
  · obtain ⟨rfl, ha⟩ := ha
    obtain ⟨j, hj, rfl⟩ : ∃ j, j < 8 ∧ q = 8 * a + j := ⟨q % 8, Nat.mod_lt _ (by decide), by omega⟩
    rw [if_pos ⟨rfl, ha⟩, show (8 * a + j) % 8 = j by omega, hv j hj, sliceBit_eight_mul_add _ _ _ hj]
    simp only [Nat.add_le_add_iff_left, Nat.add_assoc, Nat.add_lt_add_iff_left, Nat.add_sub_add_left, true_and]
  · rw [if_neg ha, if_neg]
    rintro ⟨rfl, h1, h2⟩
    exact ha ⟨rfl, by omega⟩

/-! ### The primitives -/

theorem eight_mul_byteOf (base b : Nat) : 8 * byteOf base b + b % 8 = 8 * base + b := by
  simp only [byteOf]
  omega

/-- A byte replaced by one that takes the value `x` at one bit and agrees with it elsewhere is a put of that bit. -/
theorem putsBits_setByte_one {s : State} {m : Store} {base b : Nat} {v : Byte} {x : Bool}
    (hv : ∀ j, j < 8 → v.getLsbD j = if j = b % 8 then x else (s.byteAt m (byteOf base b)).getLsbD j) :
    PutsBits s (s.setByte m (byteOf base b) v) m (8 * base + b) [x] := by
  rw [← eight_mul_byteOf]
  refine putsBits_setByte (Nat.mod_lt _ (by decide)) fun j hj => ?_
  rw [hv j hj, List.length_singleton]
  by_cases h : j = b % 8
  · rw [if_pos h, if_pos (by omega), h, Nat.sub_self]
    rfl
  · rw [if_neg h, if_neg (by omega)]

/-- `BitSet` that completes (R133). -/
theorem bitSet_eq_ok {s t : State} {m : Store} {base b : Nat} (h : bitSet s m base b = .ok t) :
    t.registers = s.registers ∧ PutsBits s t m (8 * base + b) [true] := by
  obtain ⟨x, hx, h⟩ := bind_eq_ok.1 h
  obtain ⟨-, rfl⟩ := load_eq_ok.1 hx
  obtain ⟨-, rfl⟩ := store_eq_ok.1 h
  exact ⟨setByte_registers _ _ _ _,
    putsBits_setByte_one fun j hj => getLsbD_or_one_shiftLeft _ (Nat.mod_lt _ (by decide)) hj⟩

/-- `BitClear` that completes (R134). -/
theorem bitClear_eq_ok {s t : State} {m : Store} {base b : Nat} (h : bitClear s m base b = .ok t) :
    t.registers = s.registers ∧ PutsBits s t m (8 * base + b) [false] := by
  obtain ⟨x, hx, h⟩ := bind_eq_ok.1 h
  obtain ⟨-, rfl⟩ := load_eq_ok.1 hx
  obtain ⟨-, rfl⟩ := store_eq_ok.1 h
  exact ⟨setByte_registers _ _ _ _,
    putsBits_setByte_one fun j hj => getLsbD_and_sub_one_shiftLeft _ (Nat.mod_lt _ (by decide)) hj⟩

/-- An unaligned iteration of `ChunkWrite`: the low bits of the byte end the lower byte, the high bits begin the upper one. -/
theorem putsBits_chunkWrite_unaligned (s : State) (m : Store) (a : Nat) (x : Byte) {sh : Nat} (hsh : sh < 8) :
    PutsBits s ((s.setByte m a ((s.byteAt m a &&& lowMask sh) ||| (x <<< sh))).setByte m (a + 1)
      ((s.byteAt m (a + 1) &&& (0xFF#8 - lowMask sh)) ||| (x >>> (8 - sh)))) m (8 * a + sh) (byteBits x) := by
  have hlow : ((byteBits x).take (8 - sh)).length = 8 - sh := by simp [byteBits]
  have hhigh : ((byteBits x).drop (8 - sh)).length = sh := by
    simp only [List.length_drop, byteBits, List.length_cons, List.length_nil]
    omega
  have low : PutsBits s (s.setByte m a ((s.byteAt m a &&& lowMask sh) ||| (x <<< sh))) m (8 * a + sh)
      ((byteBits x).take (8 - sh)) := by
    refine putsBits_setByte (by omega) fun j hj => ?_
    rw [getLsbD_chunkWrite_low _ _ hsh hj, hlow]
    by_cases h : j < sh
    · rw [if_pos h, if_neg (by omega)]
    · rw [if_neg h, if_pos (by omega), ← getD_byteBits x (by omega)]
      simp only [List.getD]
      rw [List.getElem?_take_of_lt (by omega)]
  have high : PutsBits (s.setByte m a ((s.byteAt m a &&& lowMask sh) ||| (x <<< sh)))
      ((s.setByte m a ((s.byteAt m a &&& lowMask sh) ||| (x <<< sh))).setByte m (a + 1)
        ((s.byteAt m (a + 1) &&& (0xFF#8 - lowMask sh)) ||| (x >>> (8 - sh)))) m (8 * (a + 1) + 0)
      ((byteBits x).drop (8 - sh)) := by
    refine putsBits_setByte (by omega) fun j hj => ?_
    rw [getLsbD_chunkWrite_high _ _ hsh hj, hhigh, byteAt_setByte_other _ _ (by simp)]
    by_cases h : j < sh
    · rw [if_pos h, if_pos (by omega), ← getD_byteBits x (by omega)]
      simp only [List.getD, List.getElem?_drop, Nat.sub_zero]
    · rw [if_neg h, if_neg (by omega)]
  rw [← List.take_append_drop (8 - sh) (byteBits x)]
  exact low.append high (by omega)

/-- One iteration of `ChunkWrite` that completes (R135). -/
theorem chunkWriteByte_eq_ok {s t : State} {m : Store} {base b : Nat} {x : Byte} (h : chunkWriteByte s m base b x = .ok t) :
    t.registers = s.registers ∧ PutsBits s t m (8 * base + b) (byteBits x) := by
  refine ⟨(chunkWriteByte_frame h).1, ?_⟩
  rw [← eight_mul_byteOf]
  unfold chunkWriteByte at h
  split at h
  case isTrue h8 =>
    obtain ⟨-, rfl⟩ := store_eq_ok.1 h
    rw [h8]
    refine putsBits_setByte (le_refl 8) fun j hj => ?_
    rw [if_pos ⟨Nat.zero_le j, by simpa [byteBits] using hj⟩, Nat.sub_zero, getD_byteBits x hj]
  case isFalse h8 =>
    obtain ⟨lo, hlo, h⟩ := bind_eq_ok.1 h
    obtain ⟨s1, h1, h⟩ := bind_eq_ok.1 h
    obtain ⟨hi, hhi, h⟩ := bind_eq_ok.1 h
    obtain ⟨-, rfl⟩ := load_eq_ok.1 hlo
    obtain ⟨-, rfl⟩ := store_eq_ok.1 h1
    obtain ⟨-, rfl⟩ := load_eq_ok.1 hhi
    obtain ⟨-, rfl⟩ := store_eq_ok.1 h
    rw [byteAt_setByte_other _ _ (by simp)]
    exact putsBits_chunkWrite_unaligned s m _ x (Nat.mod_lt _ (by decide))

/-- `ChunkWrite` that completes (R135, R136). -/
theorem chunkWrite_eq_ok {s t : State} {m : Store} {base b : Nat} {xs : List Byte} (h : chunkWrite s m base b xs = .ok t) :
    t.registers = s.registers ∧ PutsBits s t m (8 * base + b) (bytesBits xs) := by
  refine ⟨(chunkWrite_frame h).1, ?_⟩
  induction xs generalizing s b with
  | nil =>
    obtain rfl : s = t := by simpa [chunkWrite] using h
    exact .refl s m _
  | cons x xs ih =>
    obtain ⟨s1, h1, h2⟩ := bind_eq_ok.1 h
    exact (chunkWriteByte_eq_ok h1).2.append (ih h2) (Nat.add_assoc _ _ _).symm

/-! ### Runs of bytes -/

/-- `MemWrite` of a run of bytes that completes changes no register, no other store and no byte below the run. -/
theorem storeBytes_frame {s t : State} {m : Store} {a : Nat} {xs : List Byte} (h : storeBytes s m a xs = .ok t) :
    t.registers = s.registers ∧ ∀ m' b, m' ≠ m ∨ b < a → t.byteAt m' b = s.byteAt m' b := by
  obtain ⟨rfl, -⟩ := storeBytes_eq_ok h
  refine ⟨placeBytes_registers s m a xs, fun m' b hb => ?_⟩
  rw [byteAt_placeBytes, if_neg]
  rintro ⟨rfl, hle, -⟩
  rcases hb with hb | hb
  · exact hb rfl
  · omega

/-- `MemRead` of a run of bytes that completes gives them in order (R13). -/
theorem loadBytes_eq_ok {s : State} {m : Store} {a n : Nat} {xs : List Byte} (h : loadBytes s m a n = .ok xs) :
    xs = (List.range n).map (fun i => s.byteAt m (a + i)) := by
  induction n generalizing a xs with
  | zero => simpa [loadBytes, eq_comm] using h
  | succ n ih =>
    obtain ⟨y, h1, h⟩ := bind_eq_ok.1 h
    obtain ⟨ys, h2, h⟩ := bind_eq_ok.1 h
    obtain ⟨-, rfl⟩ := load_eq_ok.1 h1
    obtain rfl := ih h2
    obtain rfl := Except.ok.inj h
    rw [List.range_succ_eq_map, List.map_cons, List.map_map]
    refine congrArg _ (List.map_congr_left fun i _ => ?_)
    simp only [Function.comp, Nat.succ_eq_add_one]
    rw [show a + 1 + i = a + (i + 1) by omega]

end Sys2Proof.Machine
end

