-- ==== Sys2Proof/Proofs/RowCodes.lean ====
section
/-! PROOFS. The codes of chunks, rows and images as lists (R98 to R105, R185): their bits, their lengths, and an image's stream row by
row. -/

namespace Sys2Proof.Machine

open Config (Store)

theorem encodeAll_append (cs ds : List Instr) : encodeAll (cs ++ ds) = encodeAll cs ++ encodeAll ds := by
  induction cs with
  | nil => rfl
  | cons c cs ih => simp [encodeAll, ih]

/-! ### One chunk -/

/-- The bits of a chunk's code, by the classification of R176. -/
theorem encode_chunkCode {px : List Byte} (h : px.length ≤ 4) :
    encode (chunkCode px) =
      if px.all (· == Config.white) then [false]
      else if px.all (· == Config.black) then [true, false]
      else literalBits px := by
  unfold chunkCode
  split
  · rfl
  · split
    · rfl
    · match px with
      | [] => contradiction
      | [_] | [_, _] | [_, _, _] | [_, _, _, _] => rfl
      | _ :: _ :: _ :: _ :: _ :: _ =>
        simp only [List.length_cons] at h
        omega

theorem length_encode_chunkCode {px : List Byte} (h : px.length ≤ 4) :
    1 ≤ (encode (chunkCode px)).length ∧ (encode (chunkCode px)).length ≤ 2 + 8 * px.length := by
  rw [encode_chunkCode h]
  split
  · simp only [List.length_singleton]
    omega
  · split
    · simp
    · simp only [literalBits, List.length_cons, length_bytesBits]
      omega

/-! ### The chunks of a row -/

/-- Chunk `k` of a row: `CHUNK_LEN(w, k)` pixels (R10). -/
def rowChunk (row : List Byte) (k : Nat) : List Byte := (row.drop (4 * k)).take 4

theorem rowCodes_eq (row : List Byte) :
    rowCodes row = (List.range (chunks row.length)).map (fun k => chunkCode (rowChunk row k)) := rfl

theorem length_rowChunk (row : List Byte) (k : Nat) : (rowChunk row k).length = chunkLen row.length k := by
  simp [rowChunk, chunkLen]

theorem length_rowChunk_le (row : List Byte) (k : Nat) : (rowChunk row k).length ≤ 4 := by
  simp [rowChunk]

/-- R186: the bits of the first `k` chunks of a row. -/
theorem length_encodeAll_chunks (row : List Byte) (k : Nat) :
    k ≤ (encodeAll ((List.range k).map fun i => chunkCode (rowChunk row i))).length ∧
    (encodeAll ((List.range k).map fun i => chunkCode (rowChunk row i))).length ≤ chunkBitsBound row.length k := by
  induction k with
  | zero => simp [encodeAll]
  | succ k ih =>
    have hk := length_encode_chunkCode (length_rowChunk_le row k)
    rw [length_rowChunk] at hk
    rw [List.range_succ, List.map_append, encodeAll_append]
    simp only [List.map_cons, List.map_nil, encodeAll, List.append_nil, List.length_append]
    simp only [chunkBitsBound, chunkLen] at ih hk ⊢
    omega

/-- R105: a row takes at least a bit for each chunk, and at most its worst case. -/
theorem length_encodeAll_rowCodes (row : List Byte) :
    chunks row.length ≤ (encodeAll (rowCodes row)).length ∧
    (encodeAll (rowCodes row)).length ≤ worstRowBits row.length := by
  obtain ⟨hlow, hhigh⟩ := length_encodeAll_chunks row (chunks row.length)
  rw [rowCodes_eq]
  refine ⟨hlow, hhigh.trans ?_⟩
  simp only [chunkBitsBound, worstRowBits, chunks]
  omega

/-- Every pixel of a row stands in one of its chunks. -/
theorem all_rowChunk (row : List Byte) (p : Byte → Bool) :
    ((List.range (chunks row.length)).all fun k => (rowChunk row k).all p) = row.all p := by
  rw [Bool.eq_iff_iff]
  simp only [List.all_eq_true, List.mem_range]
  constructor
  · intro h x hx
    obtain ⟨i, hi, rfl⟩ := List.getElem_of_mem hx
    refine h (i / 4) (by simp only [chunks]; omega) _ (List.mem_of_getElem? (i := i % 4) ?_)
    rw [rowChunk, List.getElem?_take_of_lt (Nat.mod_lt _ (by decide)), List.getElem?_drop, Nat.div_add_mod,
      List.getElem?_eq_getElem hi]
  · intro h k _ x hx
    exact h x (List.mem_of_mem_drop (List.mem_of_mem_take hx))

/-! ### The rows of an image -/

/-- What a row appends to the payload (R180, R181): nothing if it is white, else its codes. -/
def appendedCodes (row : List Byte) : List Instr := if rowPresent row then rowCodes row else []

theorem length_encodeAll_appendedCodes (row : List Byte) :
    (encodeAll (appendedCodes row)).length ≤ worstRowBits row.length := by
  unfold appendedCodes
  split
  · exact (length_encodeAll_rowCodes row).2
  · exact Nat.zero_le _

theorem imageStream_pres_succ (px : List Byte) (w j : Nat) :
    (imageStream px w (j + 1)).pres = (imageStream px w j).pres ++ [rowPresent (imageRow px w j)] := by
  simp [imageStream, imageRows, List.range_succ]

theorem imageStream_codes_succ (px : List Byte) (w j : Nat) :
    (imageStream px w (j + 1)).rows.flatten =
      (imageStream px w j).rows.flatten ++ appendedCodes (imageRow px w j) := by
  simp only [imageStream, imageRows, List.range_succ, List.map_append, List.filter_append, List.flatten_append,
    List.map_cons, List.map_nil, appendedCodes]
  cases h : rowPresent (imageRow px w j) <;> simp [h]

theorem length_imageStream_pres (px : List Byte) (w h : Nat) : (imageStream px w h).pres.length = h := by
  simp [imageStream, imageRows]

theorem storeList_eq_replicate {s : State} {m : Store} {n : Nat} {v : Byte} (h : ∀ a, a < n → s.byteAt m a = v) :
    storeList s m n = List.replicate n v := by
  rw [List.eq_replicate_iff]
  simpa [storeList] using h

/-- The pixels of the row a unit is at (R70). -/
def currentRow (s : State) : List Byte := (List.range s.w).map (fun i => s.byteAt .pix (rowAddr s + i))

@[simp] theorem length_currentRow (s : State) : (currentRow s).length = s.w := by simp [currentRow]

theorem currentRow_congr {s t : State} (hw : t.w = s.w) (hr : t.row = s.row)
    (hp : ∀ a, t.byteAt .pix a = s.byteAt .pix a) : currentRow t = currentRow s := by
  simp only [currentRow, rowAddr, hw, hr, hp]

/-- The pixels of the current chunk, at consecutive addresses (R70, R188). -/
theorem rowChunk_currentRow (s : State) :
    rowChunk (currentRow s) s.chk = (List.range (chunkLen s.w s.chk)).map (fun i => s.byteAt .pix (chunkAddr s + i)) := by
  apply List.ext_getElem
  · simp [length_rowChunk]
  · intro i h1 h2
    simp [rowChunk, currentRow, rowAddr, chunkAddr, Nat.add_assoc]

theorem imageRow_storeList {s : State} {h : Nat} (hr : s.row < h) :
    imageRow (storeList s .pix (s.w * h)) s.w s.row = currentRow s := by
  have hle : s.w * (s.row + 1) ≤ s.w * h := Nat.mul_le_mul_left s.w hr
  rw [Nat.mul_succ, Nat.mul_comm s.w s.row] at hle
  apply List.ext_getElem
  · simp only [imageRow, storeList, List.length_take, List.length_drop, List.length_map, List.length_range, length_currentRow]
    omega
  · intro i h1 h2
    simp [imageRow, storeList, currentRow, rowAddr]

end Sys2Proof.Machine
end

