-- ==== Sys2Proof/Proofs/CompressedPayload.lean ====
section
/-! PROOFS. The payload of a successful `COMPRESS` (R170 to R190): what each action of the encoder does when it completes, the loop
over the chunks of a row, the loop over the rows, and from them the length of the result and the payload bits in CMP. The
payload's bit `p` is bit `72 + p` of CMP (R147). The header and the zeros above the payload are not spoken of here. -/

namespace Sys2Proof.Machine

open Config (Store)

/-! ### The actions on one chunk -/

/-- What the chunks of a row leave alone: every register but those of the row in progress. -/
def State.rowFixed (s : State) : State :=
  { s.registers with chk := 0, n := 0, px := [], rc := 0, rowWhite := false, estate := .idle }

/-- `t` is `s` after the classification of its chunk (R176): nothing but `N`, the pixels read and the state of ENC changed. -/
structure ChunkClassified (s t : State) : Prop where
  fixed    : t.rowFixed = s.rowFixed
  chk      : t.chk = s.chk
  rc       : t.rc = s.rc
  rowWhite : t.rowWhite = s.rowWhite
  n        : t.n = (rowChunk (currentRow s) s.chk).length
  px       : t.px = rowChunk (currentRow s) s.chk
  estate   : t.estate =
    if (rowChunk (currentRow s) s.chk).all (· == Config.white) then .emitWhite
    else if (rowChunk (currentRow s) s.chk).all (· == Config.black) then .emitBlack
    else .emitLiteral
  bytes    : ∀ m a, t.byteAt m a = s.byteAt m a

/-- `E_CLASSIFY` that completes (R176). -/
theorem eClassify_eq_ok {s t : State} (h : eClassify s = .ok t) : ChunkClassified s t := by
  obtain ⟨px, hpx, h⟩ := bind_eq_ok.1 h
  obtain rfl : px = rowChunk (currentRow s) s.chk := by rw [loadBytes_eq_ok hpx, rowChunk_currentRow]
  obtain rfl := Except.ok.inj h
  constructor
  case n => rw [length_rowChunk, length_currentRow]
  case bytes => exact fun m a => by cases m <;> rfl
  all_goals rfl

/-- The chunk advance after its registers were set (R190). -/
theorem chunkAdvance_registers {s u : State} (h : u.registers = s.registers) (r : Nat) (b : Bool) :
    (chunkAdvance { u with rc := r, rowWhite := b }).registers = (chunkAdvance { s with rc := r, rowWhite := b }).registers :=
  congrArg (fun v : State => chunkAdvance { v with rc := r, rowWhite := b }) h

/-- `E_EMIT_WHITE` that completes (R177, R190). -/
theorem eEmitWhite_eq_ok {s t : State} (h : eEmitWhite s = .ok t) :
    t.registers = (chunkAdvance { s with rc := s.rc + 1, rowWhite := s.rowWhite }).registers ∧
      PutsBits s t .scr s.rc [false] := by
  obtain ⟨u, hu, h⟩ := bind_eq_ok.1 h
  obtain ⟨hreg, hput⟩ := bitClear_eq_ok hu
  obtain rfl := Except.ok.inj h
  have hwhite : u.rowWhite = s.rowWhite := (congrArg State.rowWhite hreg :)
  refine ⟨hwhite ▸ chunkAdvance_registers hreg _ _, ?_⟩
  exact PutsBits.congr (by simpa using hput) fun m a => by cases m <;> rfl

/-- `E_EMIT_BLACK` that completes (R178, R190). -/
theorem eEmitBlack_eq_ok {s t : State} (h : eEmitBlack s = .ok t) :
    t.registers = (chunkAdvance { s with rc := s.rc + 2, rowWhite := false }).registers ∧
      PutsBits s t .scr s.rc [true, false] := by
  obtain ⟨u1, h1, h⟩ := bind_eq_ok.1 h
  obtain ⟨u2, h2, h⟩ := bind_eq_ok.1 h
  obtain ⟨hreg1, hput1⟩ := bitSet_eq_ok h1
  obtain ⟨hreg2, hput2⟩ := bitClear_eq_ok h2
  obtain rfl := Except.ok.inj h
  have hput := hput1.append hput2 (by simp)
  refine ⟨chunkAdvance_registers (hreg2.trans hreg1) _ _, ?_⟩
  exact PutsBits.congr (by simpa using hput) fun m a => by cases m <;> rfl

/-- `E_EMIT_LITERAL` that completes (R179, R190). -/
theorem eEmitLiteral_eq_ok {s t : State} (h : eEmitLiteral s = .ok t) :
    t.registers = (chunkAdvance { s with rc := s.rc + 2 + 8 * s.n, rowWhite := false }).registers ∧
      PutsBits s t .scr s.rc (literalBits s.px) := by
  obtain ⟨u1, h1, h⟩ := bind_eq_ok.1 h
  obtain ⟨u2, h2, h⟩ := bind_eq_ok.1 h
  obtain ⟨u3, h3, h⟩ := bind_eq_ok.1 h
  obtain ⟨hreg1, hput1⟩ := bitSet_eq_ok h1
  obtain ⟨hreg2, hput2⟩ := bitSet_eq_ok h2
  obtain ⟨hreg3, hput3⟩ := chunkWrite_eq_ok h3
  obtain rfl := Except.ok.inj h
  have hput := (hput1.append hput2 (by simp)).append hput3 (by simp)
  refine ⟨chunkAdvance_registers (hreg3.trans (hreg2.trans hreg1)) _ _, ?_⟩
  exact PutsBits.congr (by simpa [literalBits] using hput) fun m a => by cases m <;> rfl

/-! ### The chunks of a row -/

/-- The codes of `k` chunks of a row, from chunk `i` on. -/
def chunkRunCodes (row : List Byte) (i k : Nat) : List Instr :=
  (List.range' i k).map (fun j => chunkCode (rowChunk row j))

theorem chunkRunCodes_add (row : List Byte) (i k l : Nat) :
    chunkRunCodes row i (k + l) = chunkRunCodes row i k ++ chunkRunCodes row (i + k) l := by
  simp [chunkRunCodes, ← List.range'_append_1]

theorem chunkRunCodes_all (row : List Byte) : chunkRunCodes row 0 (chunks row.length) = rowCodes row := by
  rw [chunkRunCodes, rowCodes_eq, List.range_eq_range']

/-- `t` is `s` after the next `k` chunks of its row: their codes follow in SCR, and `ROWWHITE` has seen them. -/
structure ChunksEmitted (k : Nat) (s t : State) : Prop where
  fixed  : t.rowFixed = s.rowFixed
  chk    : t.chk = s.chk + k
  rc     : t.rc = s.rc + (encodeAll (chunkRunCodes (currentRow s) s.chk k)).length
  white  : t.rowWhite =
    (s.rowWhite && (List.range' s.chk k).all fun i => (rowChunk (currentRow s) i).all (· == Config.white))
  puts   : PutsBits s t .scr s.rc (encodeAll (chunkRunCodes (currentRow s) s.chk k))
  estate : 0 < k → t.estate = if t.chk < chunks t.w then .classify else if t.rowWhite then .rowWhite else .rowAppend

theorem ChunksEmitted.refl (s : State) : ChunksEmitted 0 s s where
  fixed := rfl
  chk := rfl
  rc := rfl
  white := by simp
  puts := .refl s _ _
  estate := fun h => absurd h (lt_irrefl 0)

theorem ChunksEmitted.currentRow {k : Nat} {s t : State} (h : ChunksEmitted k s t) : currentRow t = currentRow s :=
  currentRow_congr (congrArg State.w h.fixed :) (congrArg State.row h.fixed :) (h.puts.byteAt_other (by decide))

theorem ChunksEmitted.trans {k l : Nat} {s t u : State} (h1 : ChunksEmitted k s t) (h2 : ChunksEmitted l t u) (hl : 0 < l) :
    ChunksEmitted (k + l) s u where
  fixed := h2.fixed.trans h1.fixed
  chk := by rw [h2.chk, h1.chk, Nat.add_assoc]
  rc := by
    rw [h2.rc, h1.rc, h1.chk, h1.currentRow, chunkRunCodes_add, encodeAll_append, List.length_append, Nat.add_assoc]
  white := by
    rw [h2.white, h1.white, h1.chk, h1.currentRow, ← List.range'_append_1, List.all_append, Bool.and_assoc]
  puts := by
    have hput := h2.puts
    rw [h1.chk, h1.currentRow] at hput
    rw [chunkRunCodes_add, encodeAll_append]
    exact h1.puts.append hput h1.rc
  estate := fun _ => h2.estate hl

/-- An emission that puts the bits of the chunk's code and advances by them is the chunk's. -/
theorem ChunkClassified.emitted {s s1 t : State} (hc : ChunkClassified s s1) {b : Bool} {r : Nat}
    (ht : t.registers = (chunkAdvance { s1 with rc := r, rowWhite := b }).registers)
    (hb : b = (s1.rowWhite && (rowChunk (currentRow s) s.chk).all (· == Config.white)))
    (hr : r = s1.rc + (encode (chunkCode (rowChunk (currentRow s) s.chk))).length)
    (hput : PutsBits s1 t .scr s1.rc (encode (chunkCode (rowChunk (currentRow s) s.chk)))) : ChunksEmitted 1 s t := by
  have hcodes : encodeAll (chunkRunCodes (currentRow s) s.chk 1) = encode (chunkCode (rowChunk (currentRow s) s.chk)) := by
    simp [chunkRunCodes, encodeAll]
  have hwhite : t.rowWhite = b := (congrArg State.rowWhite ht :)
  have hchk : t.chk = s1.chk + 1 := (congrArg State.chk ht :)
  have hw : t.w = s1.w := (congrArg State.w ht :)
  constructor
  case fixed => exact (congrArg State.rowFixed ht :).trans hc.fixed
  case chk => rw [hchk, hc.chk]
  case rc =>
    rw [hcodes, ← hc.rc, ← hr]
    exact (congrArg State.rc ht :)
  case white => simpa [hwhite, hc.rowWhite] using hb
  case puts =>
    rw [hcodes, ← hc.rc]
    exact hput.congr_left hc.bytes
  case estate =>
    intro _
    rw [hchk, hw, hwhite]
    exact (congrArg State.estate ht :)

/-- One chunk (R176 to R179): by the classification, one of the three emissions. -/
theorem compressChunk_eq_ok {s t : State} (h : compressChunk s = .ok t) : ChunksEmitted 1 s t := by
  obtain ⟨s1, h1, h⟩ := bind_eq_ok.1 h
  have hc := eClassify_eq_ok h1
  have hcode := encode_chunkCode (length_rowChunk_le (currentRow s) s.chk)
  have hestate := hc.estate
  by_cases hwhite : (rowChunk (currentRow s) s.chk).all (· == Config.white) = true
  · rw [if_pos hwhite] at hestate hcode
    obtain ⟨hreg, hput⟩ := eEmitWhite_eq_ok (by simpa only [encStep, hestate] using h)
    exact hc.emitted hreg (by rw [hwhite, Bool.and_true]) (by rw [hcode]; rfl) (hcode ▸ hput)
  · rw [if_neg hwhite] at hestate hcode
    by_cases hblack : (rowChunk (currentRow s) s.chk).all (· == Config.black) = true
    · rw [if_pos hblack] at hestate hcode
      obtain ⟨hreg, hput⟩ := eEmitBlack_eq_ok (by simpa only [encStep, hestate] using h)
      exact hc.emitted hreg (by simp [hwhite]) (by rw [hcode]; rfl) (hcode ▸ hput)
    · rw [if_neg hblack] at hestate hcode
      obtain ⟨hreg, hput⟩ := eEmitLiteral_eq_ok (by simpa only [encStep, hestate] using h)
      rw [hc.px] at hput
      have hr : s1.rc + 2 + 8 * s1.n = s1.rc + (encode (chunkCode (rowChunk (currentRow s) s.chk))).length := by
        simp only [hcode, literalBits, List.length_cons, length_bytesBits, hc.n]
        omega
      exact hc.emitted hreg (by simp [hwhite]) hr (hcode ▸ hput)

/-- The inner loop of R184. -/
theorem compressChunks_eq_ok {k : Nat} {s t : State} (h : compressChunks k s = .ok t) : ChunksEmitted k s t := by
  induction k generalizing s with
  | zero =>
    obtain rfl : s = t := by simpa [compressChunks] using h
    exact .refl s
  | succ k ih =>
    obtain ⟨s1, h1, h2⟩ := bind_eq_ok.1 h
    rcases Nat.eq_zero_or_pos k with rfl | hk
    · obtain rfl : s1 = t := by simpa [compressChunks] using h2
      exact compressChunk_eq_ok h1
    · exact Nat.add_comm 1 k ▸ (compressChunk_eq_ok h1).trans (ih h2) hk

/-! ### One row -/

/-- `E_GROW` that does not fail leaves everything below `EXT` alone and claims the row's worst case (R174). -/
theorem eGrow_cases {s t : State} (h : eGrow s = .ok t) :
    t.status = { busy := false, done := true, fail := true } ∨
    t.registers = { s with ext := max s.ext (need s), estate := .rowInit }.registers ∧
      ∀ m a, m ≠ .cmp ∨ a < s.ext → t.byteAt m a = s.byteAt m a := by
  unfold eGrow at h
  split at h
  case isTrue =>
    obtain rfl := Except.ok.inj h
    exact .inl rfl
  case isFalse =>
    obtain ⟨u, hu, h⟩ := bind_eq_ok.1 h
    obtain ⟨hreg, hbytes⟩ := storeBytes_frame hu
    obtain rfl := Except.ok.inj h
    exact .inr ⟨congrArg (fun r : State => { r with ext := max s.ext (need s), estate := .rowInit }) hreg, hbytes⟩

/-- `E_ROW_INIT` that completes (R175). -/
theorem eRowInit_eq_ok {s t : State} (h : eRowInit s = .ok t) :
    t.registers = { s with rc := 0, rowWhite := true, chk := 0, estate := .classify }.registers ∧
      ∀ m a, m ≠ .scr → t.byteAt m a = s.byteAt m a := by
  obtain ⟨u, hu, h⟩ := bind_eq_ok.1 h
  obtain ⟨hreg, hbytes⟩ := storeBytes_frame hu
  obtain rfl := Except.ok.inj h
  exact ⟨congrArg (fun r : State => { r with rc := 0, rowWhite := true, chk := 0, estate := .classify }) hreg,
    fun m a hm => hbytes m a (.inl hm)⟩

/-- `t` is `s` after the scan of its row: SCR holds the row's codes, and nothing outside SCR and the row's registers changed. -/
structure RowScanned (s t : State) : Prop where
  fixed  : t.rowFixed = s.rowFixed
  stores : ∀ m a, m ≠ .scr → t.byteAt m a = s.byteAt m a
  rc     : t.rc = (encodeAll (rowCodes (currentRow s))).length
  codes  : bitsAt t .scr 0 (encodeAll (rowCodes (currentRow s)))
  estate : t.estate = if rowPresent (currentRow s) then .rowAppend else .rowWhite

theorem rowScanned_of_ok {s s1 t : State} (hw : 0 < s.w) (h1 : eRowInit s = .ok s1)
    (h : compressChunks (chunks s1.w) s1 = .ok t) : RowScanned s t := by
  obtain ⟨hreg, hstores⟩ := eRowInit_eq_ok h1
  have hs1w : s1.w = s.w := (congrArg State.w hreg :)
  have hrc : s1.rc = 0 := (congrArg State.rc hreg :)
  have hchk : s1.chk = 0 := (congrArg State.chk hreg :)
  have hwhite : s1.rowWhite = true := (congrArg State.rowWhite hreg :)
  have hrow : currentRow s1 = currentRow s :=
    currentRow_congr hs1w (congrArg State.row hreg :) fun a => hstores .pix a (by decide)
  have hc := compressChunks_eq_ok h
  have htw : t.w = s.w := (congrArg State.w hc.fixed :).trans hs1w
  have hcodes : chunkRunCodes (currentRow s) 0 (chunks s1.w) = rowCodes (currentRow s) := by
    rw [hs1w, ← chunkRunCodes_all, length_currentRow]
  have hall := all_rowChunk (currentRow s) (· == Config.white)
  rw [length_currentRow, List.range_eq_range'] at hall
  constructor
  case fixed => exact hc.fixed.trans (congrArg State.rowFixed hreg :)
  case stores => exact fun m a hm => (hc.puts.byteAt_other hm a).trans (hstores m a hm)
  case rc => rw [hc.rc, hrc, hchk, hrow, hcodes, Nat.zero_add]
  case codes =>
    have hbits := hc.puts.bitsAt
    rwa [hrc, hchk, hrow, hcodes] at hbits
  case estate =>
    have hpos : 0 < chunks s1.w := by
      rw [hs1w]
      simp only [chunks]
      omega
    rw [hc.estate hpos, hc.chk, hc.white, hchk, htw, hrow, hs1w, hwhite, Bool.true_and, hall, if_neg (by omega), rowPresent]
    cases (currentRow s).all (· == Config.white) <;> rfl

/-- `E_ROW_WHITE` that completes (R180, R189). -/
theorem eRowWhite_eq_ok {s t : State} (h : eRowWhite s = .ok t) :
    t.registers = (encRowAdvance s).registers ∧ PutsBits s t .cmp (72 + s.row) [false] := by
  obtain ⟨u, hu, h⟩ := bind_eq_ok.1 h
  obtain ⟨hreg, hput⟩ := bitClear_eq_ok hu
  obtain rfl := Except.ok.inj h
  exact ⟨congrArg encRowAdvance hreg, hput.congr fun m a => by cases m <;> rfl⟩

/-- `E_ROW_APPEND` that completes (R181, R189). -/
theorem eRowAppend_eq_ok {s t : State} (h : eRowAppend s = .ok t) :
    t.registers = (encRowAdvance { s with cur := s.cur + s.rc }).registers ∧
      ∃ u, PutsBits s u .cmp (72 + s.row) [true] ∧
        PutsBits u t .cmp (72 + s.cur) (bytesBits (storeList s .scr (ceil8 s.rc))) := by
  obtain ⟨u1, h1, h⟩ := bind_eq_ok.1 h
  obtain ⟨src, hsrc, h⟩ := bind_eq_ok.1 h
  obtain ⟨u2, h2, h⟩ := bind_eq_ok.1 h
  obtain ⟨hreg1, hput1⟩ := bitSet_eq_ok h1
  obtain ⟨hreg2, hput2⟩ := chunkWrite_eq_ok h2
  obtain rfl := Except.ok.inj h
  have hsrc' : src = storeList s .scr (ceil8 s.rc) := by
    rw [loadBytes_eq_ok hsrc, storeList]
    simp only [Nat.zero_add, hput1.byteAt_other (show Store.scr ≠ .cmp by decide)]
  refine ⟨?_, u1, hput1, ?_⟩
  · exact congrArg (fun v : State => encRowAdvance { v with cur := s.cur + s.rc }) (hreg2.trans hreg1)
  · rw [← hsrc']
    exact PutsBits.congr hput2 fun m a => by cases m <;> rfl

/-- `t` is `s` after its row: the presence bit at its place, the codes of a row that is not white at the cursor, which moves past
them, and no other payload bit below the old cursor changed. -/
structure RowEmitted (s t : State) : Prop where
  fixed : t.rowFixed =
    { s with row := s.row + 1, cur := s.cur + (encodeAll (appendedCodes (currentRow s))).length }.rowFixed
  pix   : ∀ a, t.byteAt .pix a = s.byteAt .pix a
  pres  : sliceBit t .cmp 0 (72 + s.row) = rowPresent (currentRow s)
  codes : bitsAt t .cmp (72 + s.cur) (encodeAll (appendedCodes (currentRow s)))
  kept  : ∀ q, q < 72 + s.cur → q ≠ 72 + s.row → sliceBit t .cmp 0 q = sliceBit s .cmp 0 q

/-- The registers after the row advance of a scanned row. -/
theorem RowScanned.fixed_advance {s u t : State} (hu : RowScanned s u) {c : Nat}
    (ht : t.registers = (encRowAdvance { u with cur := c }).registers) :
    t.rowFixed = { s with row := s.row + 1, cur := c }.rowFixed :=
  (congrArg State.rowFixed ht :).trans (congrArg (fun v : State => { v with row := v.row + 1, cur := c }) hu.fixed)

theorem rowEmitted_of_white {s u t : State} (hu : RowScanned s u) (hp : rowPresent (currentRow s) = false)
    (h : eRowWhite u = .ok t) : RowEmitted s t := by
  obtain ⟨hreg, hput⟩ := eRowWhite_eq_ok h
  have hnone : appendedCodes (currentRow s) = [] := by simp [appendedCodes, hp]
  have hrow : u.row = s.row := (congrArg State.row hu.fixed :)
  have hcur : u.cur = s.cur := (congrArg State.cur hu.fixed :)
  rw [hrow] at hput
  constructor
  case fixed =>
    rw [hnone, encodeAll, List.length_nil, Nat.add_zero, ← hcur]
    exact hu.fixed_advance hreg
  case pix => exact fun a => (hput.byteAt_other (by decide) a).trans (hu.stores .pix a (by decide))
  case pres => exact (hput.bitsAt 0 false rfl).trans hp.symm
  case codes =>
    rw [hnone]
    exact bitsAt_nil _ _ _
  case kept =>
    intro q _ hq
    calc sliceBit t .cmp 0 q
        _ = sliceBit u .cmp 0 q := hput.other (.inr (by simp only [List.length_singleton]; omega))
        _ = sliceBit s .cmp 0 q := sliceBit_congr (fun a => hu.stores .cmp a (by decide)) 0 q

theorem rowEmitted_of_append {s u t : State} (hu : RowScanned s u) (hp : rowPresent (currentRow s) = true)
    (hlt : s.row < s.cur) (h : eRowAppend u = .ok t) : RowEmitted s t := by
  obtain ⟨hreg, v, hpres, hput⟩ := eRowAppend_eq_ok h
  have hcodes : appendedCodes (currentRow s) = rowCodes (currentRow s) := by simp [appendedCodes, hp]
  have hrow : u.row = s.row := (congrArg State.row hu.fixed :)
  have hcur : u.cur = s.cur := (congrArg State.cur hu.fixed :)
  rw [hrow] at hpres
  rw [hcur] at hreg hput
  constructor
  case fixed =>
    rw [hcodes, ← hu.rc]
    exact hu.fixed_advance hreg
  case pix =>
    exact fun a => (hput.byteAt_other (by decide) a).trans
      ((hpres.byteAt_other (by decide) a).trans (hu.stores .pix a (by decide)))
  case pres =>
    rw [hput.other (.inr (.inl (by omega))), hp]
    exact hpres.bitsAt 0 true rfl
  case codes =>
    rw [hcodes]
    intro k x hk
    have hlen : k < u.rc := hu.rc ▸ (List.getElem?_eq_some_iff.mp hk).1
    have hbit : sliceBit u .scr 0 k = x := by simpa using hu.codes k x hk
    refine hput.bitsAt k x ?_
    rw [getElem?_bytesBits_storeList _ _ (by simp only [ceil8]; omega), hbit]
  case kept =>
    intro q hq hne
    calc sliceBit t .cmp 0 q
        _ = sliceBit v .cmp 0 q := hput.other (.inr (.inl hq))
        _ = sliceBit u .cmp 0 q := hpres.other (.inr (by simp only [List.length_singleton]; omega))
        _ = sliceBit s .cmp 0 q := sliceBit_congr (fun a => hu.stores .cmp a (by decide)) 0 q

/-- A row after `E_GROW`: its scan, and then the one of `E_ROW_WHITE` and `E_ROW_APPEND` that the scan chose. -/
theorem rowEmitted_of_scanned {s u t : State} (hu : RowScanned s u) (hlt : s.row < s.cur) (h : encStep u = .ok t) :
    RowEmitted s t := by
  have hestate := hu.estate
  cases hp : rowPresent (currentRow s) with
  | false =>
    rw [hp] at hestate
    exact rowEmitted_of_white hu hp (by simpa [encStep, hestate] using h)
  | true =>
    rw [hp] at hestate
    exact rowEmitted_of_append hu hp hlt (by simpa [encStep, hestate] using h)

/-- A row of R184: `E_GROW` fails, or it leaves everything below `EXT` alone and the row is emitted after it. -/
theorem compressRow_cases {s t : State} (hb : s.status.busy = true) (hw : 0 < s.w) (hlt : s.row < s.cur)
    (h : compressRow s = .ok t) :
    t.status = { busy := false, done := true, fail := true } ∨
    ∃ s1, s1.registers = { s with ext := max s.ext (need s), estate := .rowInit }.registers ∧
      (∀ m a, m ≠ .cmp ∨ a < s.ext → s1.byteAt m a = s.byteAt m a) ∧ RowEmitted s1 t := by
  obtain ⟨s1, h1, h⟩ := bind_eq_ok.1 h
  rcases eGrow_cases h1 with hfail | ⟨hreg, hbytes⟩
  · rw [whileBusy_of_idle (by rw [hfail])] at h
    obtain rfl := Except.ok.inj h
    exact .inl hfail
  · have hstatus : s1.status = s.status := (congrArg State.status hreg :)
    have hs1w : s1.w = s.w := (congrArg State.w hreg :)
    have hs1row : s1.row = s.row := (congrArg State.row hreg :)
    have hs1cur : s1.cur = s.cur := (congrArg State.cur hreg :)
    rw [whileBusy_of_busy (by rw [hstatus, hb])] at h
    obtain ⟨s3, h3, h⟩ := bind_eq_ok.1 h
    obtain ⟨s4, h4, h⟩ := bind_eq_ok.1 h
    have hscan : RowScanned s1 s4 := rowScanned_of_ok (hs1w ▸ hw) h3 h4
    exact .inr ⟨s1, hreg, hbytes, rowEmitted_of_scanned hscan (by rw [hs1row, hs1cur]; exact hlt) h⟩

/-! ### The rows of the image -/

/-- `COMPRESS` of the `w` by `h` image `px` stands before row `j`: CMP holds the presence bits and the codes of the rows above it, the
cursor is past them, and what has been claimed covers them. -/
structure RowsCompressed (px : List Byte) (w h j : Nat) (s : State) : Prop where
  busy   : s.status.busy = true
  width  : s.w = w
  height : s.h = h
  pixels : storeList s .pix (w * h) = px
  row    : s.row = j
  cur    : s.cur = h + (encodeAll (imageStream px w j).rows.flatten).length
  pres   : bitsAt s .cmp 72 (imageStream px w j).pres
  codes  : bitsAt s .cmp (72 + h) (encodeAll (imageStream px w j).rows.flatten)
  room   : 0 < j → 72 + s.cur ≤ 8 * s.ext

/-- R174, R186: what `E_GROW` claims covers the payload so far and any row. -/
theorem need_covers_row (s : State) : 72 + (s.cur + worstRowBits s.w) ≤ 8 * need s := by
  simp only [need, ceil8, scratchBytes]
  omega

/-- The growth keeps what the rows so far have made: it zeroes bytes from `EXT` up only. -/
theorem RowsCompressed.grow {px : List Byte} {w h j : Nat} {s s1 : State} (hs : RowsCompressed px w h j s) (hj : j ≤ h)
    (hreg : s1.registers = { s with ext := max s.ext (need s), estate := .rowInit }.registers)
    (hbytes : ∀ m a, m ≠ .cmp ∨ a < s.ext → s1.byteAt m a = s.byteAt m a) :
    RowsCompressed px w h j s1 ∧ 72 + (s1.cur + worstRowBits w) ≤ 8 * s1.ext := by
  have hcur : s1.cur = s.cur := (congrArg State.cur hreg :)
  have hext : s1.ext = max s.ext (need s) := (congrArg State.ext hreg :)
  have hroom : 72 + (s1.cur + worstRowBits w) ≤ 8 * s1.ext := by
    have hneed := need_covers_row s
    rw [hs.width] at hneed
    omega
  have hkeep : ∀ p bits, (j = 0 → bits = []) → p + bits.length ≤ 72 + s.cur →
      bitsAt s .cmp p bits → bitsAt s1 .cmp p bits := by
    intro p bits hnone hle hbits
    rcases Nat.eq_zero_or_pos j with h0 | hpos
    · rw [hnone h0]
      exact bitsAt_nil _ _ _
    · have hold := hs.room hpos
      refine bitsAt_of_eq hbits fun q _ hq => ?_
      simp only [sliceBit, byteOf]
      rw [hbytes .cmp _ (.inr (by omega))]
  refine ⟨?_, hroom⟩
  constructor
  case busy => exact (congrArg (·.status.busy) hreg :).trans hs.busy
  case width => exact (congrArg State.w hreg :).trans hs.width
  case height => exact (congrArg State.h hreg :).trans hs.height
  case pixels => rw [storeList_congr fun a => hbytes .pix a (.inl (by decide)), hs.pixels]
  case row => exact (congrArg State.row hreg :).trans hs.row
  case cur => exact hcur.trans hs.cur
  case pres =>
    refine hkeep _ _ (fun h0 => ?_) ?_ hs.pres
    · rw [h0]
      rfl
    · rw [length_imageStream_pres, hs.cur]
      omega
  case codes =>
    refine hkeep _ _ (fun h0 => ?_) ?_ hs.codes
    · rw [h0]
      rfl
    · rw [hs.cur]
      omega
  case room => exact fun _ => by omega

/-- A row advances what the rows so far have made by its presence bit and its codes. -/
theorem RowsCompressed.emit {px : List Byte} {w h j : Nat} {s t : State} (hs : RowsCompressed px w h j s) (hj : j < h)
    (hroom : 72 + (s.cur + worstRowBits w) ≤ 8 * s.ext) (ht : RowEmitted s t) : RowsCompressed px w h (j + 1) t := by
  have himage : imageRow px w j = currentRow s := by
    rw [← hs.pixels, ← hs.row, ← hs.width, imageRow_storeList (hs.row ▸ hj)]
  have hcur : t.cur = s.cur + (encodeAll (appendedCodes (currentRow s))).length := (congrArg State.cur ht.fixed :)
  have hext : t.ext = s.ext := (congrArg State.ext ht.fixed :)
  have hlen : (encodeAll (appendedCodes (currentRow s))).length ≤ worstRowBits w := by
    have hle := length_encodeAll_appendedCodes (currentRow s)
    rwa [length_currentRow, hs.width] at hle
  have hpres := ht.pres
  have hcodes := ht.codes
  have hkept := ht.kept
  rw [hs.row] at hpres hkept
  have hsc := hs.cur
  constructor
  case busy => exact (congrArg (·.status.busy) ht.fixed :).trans hs.busy
  case width => exact (congrArg State.w ht.fixed :).trans hs.width
  case height => exact (congrArg State.h ht.fixed :).trans hs.height
  case pixels => rw [storeList_congr ht.pix, hs.pixels]
  case row =>
    rw [← hs.row]
    exact (congrArg State.row ht.fixed :)
  case cur =>
    rw [hcur, hsc, imageStream_codes_succ, himage, encodeAll_append, List.length_append, Nat.add_assoc]
  case pres =>
    rw [imageStream_pres_succ, himage]
    refine bitsAt_append (bitsAt_of_eq hs.pres fun q _ hq => ?_) (bitsAt_singleton ?_)
    · rw [length_imageStream_pres] at hq
      exact hkept q (by omega) (by omega)
    · rw [length_imageStream_pres, hpres]
  case codes =>
    rw [imageStream_codes_succ, himage, encodeAll_append]
    refine bitsAt_append (bitsAt_of_eq hs.codes fun q hp hq => ?_) ?_
    · exact hkept q (by omega) (by omega)
    · rwa [Nat.add_assoc, ← hsc]
  case room => exact fun _ => by omega

/-- The outer loop of R184: it fails in `E_GROW`, or all its rows are made. -/
theorem compressRows_cases {px : List Byte} {w h k j : Nat} {s t : State} (hw : 0 < w) (hk : j + k = h)
    (hs : RowsCompressed px w h j s) (hrun : compressRows k s = .ok t) :
    t.status = { busy := false, done := true, fail := true } ∨ RowsCompressed px w h h t := by
  induction k generalizing j s with
  | zero =>
    obtain rfl : s = t := by simpa [compressRows] using hrun
    obtain rfl : j = h := hk
    exact .inr hs
  | succ k ih =>
    obtain ⟨s2, h2, hrun⟩ := bind_eq_ok.1 hrun
    have hlt : s.row < s.cur := by
      rw [hs.row, hs.cur]
      omega
    rcases compressRow_cases hs.busy (by rw [hs.width]; exact hw) hlt h2 with hfail | ⟨s1, hreg, hbytes, hrow⟩
    · rw [whileBusy_of_idle (by rw [hfail])] at hrun
      obtain rfl := Except.ok.inj hrun
      exact .inl hfail
    · obtain ⟨hs1, hroom⟩ := hs.grow (by omega) hreg hbytes
      have hs2 := hs1.emit (by omega) hroom hrow
      rw [whileBusy_of_busy hs2.busy] at hrun
      exact ih (by omega) hs2 hrun

/-! ### The command -/

theorem toNat_pos_of_toInt_pos {v : Word32} (h : 0 < v.toInt) : 0 < v.toNat :=
  Nat.pos_of_ne_zero fun h0 => by simp [BitVec.toInt, h0] at h

/-- The entry checks of an image with pixels (R171): a failure, or the image's size latched. -/
theorem eCheck_cases {s t : State} (hp : s.argPresent = true) (hw : 0 < s.argWidth.toInt) (hh : 0 < s.argHeight.toInt)
    (h : eCheck s = .ok t) :
    t.status = { busy := false, done := true, fail := true } ∨
    t = { s with w := s.argWidth.toNat, h := s.argHeight.toNat, estate := .header } := by
  have hw0 : s.argWidth ≠ 0 := fun h0 => by simp [h0] at hw
  have hh0 : s.argHeight ≠ 0 := fun h0 => by simp [h0] at hh
  rw [eCheck, if_neg (by simp [hp]), if_neg (by omega), if_neg (not_or.2 ⟨hw0, hh0⟩)] at h
  dsimp only at h
  split at h
  case isTrue =>
    obtain rfl := Except.ok.inj h
    exact .inl rfl
  case isFalse => exact .inr (Except.ok.inj h).symm

/-- `E_HEADER` that completes (R173). -/
theorem eHeader_eq_ok {s t : State} (h : eHeader s = .ok t) :
    t.registers = { s with ext := 9, cur := s.h, row := 0, estate := .grow }.registers ∧
      ∀ m a, m ≠ .cmp → t.byteAt m a = s.byteAt m a := by
  obtain ⟨u, hu, h⟩ := bind_eq_ok.1 h
  obtain ⟨hreg, hbytes⟩ := storeBytes_frame hu
  obtain rfl := Except.ok.inj h
  exact ⟨congrArg (fun r : State => { r with ext := 9, cur := r.h, row := 0, estate := .grow }) hreg,
    fun m a hm => hbytes m a (.inl hm)⟩

/-- After `E_HEADER` no row is made yet. -/
theorem rowsCompressed_zero {s t : State} (hb : s.status.busy = true) (h : eHeader s = .ok t) :
    RowsCompressed (storeList s .pix (s.w * s.h)) s.w s.h 0 t := by
  obtain ⟨hreg, hbytes⟩ := eHeader_eq_ok h
  constructor
  case busy => exact (congrArg (·.status.busy) hreg :).trans hb
  case width => exact (congrArg State.w hreg :)
  case height => exact (congrArg State.h hreg :)
  case pixels => exact storeList_congr (fun a => hbytes .pix a (by decide)) _
  case row => exact (congrArg State.row hreg :)
  case cur => exact (congrArg State.cur hreg :)
  case pres => exact bitsAt_nil _ _ _
  case codes => exact bitsAt_nil _ _ _
  case room => exact fun h0 => absurd h0 (lt_irrefl 0)

/-- R185, without the header and the pad bits: a `COMPRESS` of an image with pixels that succeeds leaves the payload of the image's
stream at payload bit 0, and counts it in `RES_LEN`. -/
theorem compress_payload {s t : State} (hb : s.status.busy = false) (hp : s.argPresent = true) (hw : 0 < s.argWidth.toInt)
    (hh : 0 < s.argHeight.toInt) (h : exec .compress s = .next t) (hf : t.status.fail = false) :
    t.resLen = 9 + ceil8 (imageStream (storeList s .pix (s.argWidth.toNat * s.argHeight.toNat))
        s.argWidth.toNat s.argHeight.toNat).payload.length ∧
      bitsAt t .cmp 72 (imageStream (storeList s .pix (s.argWidth.toNat * s.argHeight.toNat))
        s.argWidth.toNat s.argHeight.toNat).payload := by
  have hrun : compressBody (beginCommand 6 s) = .ok t := by
    rw [← toOutcome_eq_next, ← runCommand_of_idle hb]
    exact h
  obtain ⟨s1, h1, hrun⟩ := bind_eq_ok.1 hrun
  rcases eCheck_cases (s := beginCommand 6 s) hp hw hh h1 with hfail | rfl
  · rw [whileBusy_of_idle (by rw [hfail])] at hrun
    obtain rfl := Except.ok.inj hrun
    simp [hfail] at hf
  rw [whileBusy_of_busy rfl, if_neg (show EState.header ≠ .degenerate by decide)] at hrun
  obtain ⟨s3, h3, hrun⟩ := bind_eq_ok.1 hrun
  obtain ⟨s4, h4, hrun⟩ := bind_eq_ok.1 hrun
  have hs3 := rowsCompressed_zero rfl h3
  rw [hs3.height] at h4
  rcases compressRows_cases (toNat_pos_of_toInt_pos hw) (Nat.zero_add _) hs3 h4 with hfail | hs4
  · rw [whileBusy_of_idle (by rw [hfail])] at hrun
    obtain rfl := Except.ok.inj hrun
    simp [hfail] at hf
  rw [whileBusy_of_busy hs4.busy] at hrun
  obtain rfl := Except.ok.inj hrun
  refine ⟨?_, bitsAt_append hs4.pres ?_⟩
  · show 9 + ceil8 s4.cur = _
    rw [hs4.cur, Stream.payload, List.length_append, length_imageStream_pres]
    rfl
  · rw [length_imageStream_pres]
    exact hs4.codes

end Sys2Proof.Machine
end

