-- ==== Sys2Proof/Proofs/SizesOfRowsAndUniformImages.lean ====
section
/-! PROOFS. The streams of all-white and all-black images (R105), and with the payload of `COMPRESS` the statement about their sizes. -/

namespace Sys2Proof.Machine

/-! ### The stream of an image of one value -/

theorem imageRows_replicate (v : Byte) (w h : Nat) :
    imageRows (List.replicate (w * h) v) w h = List.replicate h (List.replicate w v) := by
  rw [List.eq_replicate_iff]
  refine ⟨by simp [imageRows], fun row hrow => ?_⟩
  obtain ⟨j, hj, rfl⟩ := List.mem_map.1 hrow
  have hle : w * (j + 1) ≤ w * h := Nat.mul_le_mul_left w (List.mem_range.1 hj)
  rw [Nat.mul_succ, Nat.mul_comm w j] at hle
  rw [imageRow, List.drop_replicate, List.take_replicate, Nat.min_eq_left (by omega)]

/-- Every row is white, so no row has codes. -/
theorem payload_white (w h : Nat) :
    (imageStream (List.replicate (w * h) Config.white) w h).payload = List.replicate h false := by
  have hwhite : rowPresent (List.replicate w Config.white) = false := by simp [rowPresent]
  simp [Stream.payload, imageStream, imageRows_replicate, hwhite, encodeAll]

theorem chunkCode_black {n : Nat} (hn : 0 < n) : chunkCode (List.replicate n Config.black) = .b := by
  have hne : n ≠ 0 := Nat.ne_of_gt hn
  simp [chunkCode, List.all_replicate, hne, show (Config.black == Config.white) = false from rfl]

theorem rowCodes_black (w : Nat) : rowCodes (List.replicate w Config.black) = List.replicate (chunks w) .b := by
  rw [List.eq_replicate_iff]
  refine ⟨by simp [rowCodes], fun c hc => ?_⟩
  rw [rowCodes_eq, List.length_replicate] at hc
  obtain ⟨k, hk, rfl⟩ := List.mem_map.1 hc
  have hlt : k < (w + 3) / 4 := List.mem_range.1 hk
  rw [rowChunk, List.drop_replicate, List.take_replicate]
  exact chunkCode_black (by omega)

/-- Every row is encoded, and each of its chunks is black. -/
theorem payload_black {w : Nat} (hw : 0 < w) (h : Nat) :
    (imageStream (List.replicate (w * h) Config.black) w h).payload =
      List.replicate h true ++ encodeAll (List.replicate (h * chunks w) .b) := by
  have hblack : rowPresent (List.replicate w Config.black) = true := by
    simp [rowPresent, Nat.ne_of_gt hw, show (Config.black == Config.white) = false from rfl]
  simp [Stream.payload, imageStream, imageRows_replicate, hblack, rowCodes_black]

theorem length_encodeAll_black (n : Nat) : (encodeAll (List.replicate n .b)).length = 2 * n := by
  induction n with
  | zero => rfl
  | succ n ih =>
    rw [List.replicate_succ, encodeAll, List.length_append, ih]
    simp only [encode, List.length_cons, List.length_nil]
    omega

/-- The codes of black chunks stand two bits apart, each of them `10` (R100). -/
theorem getElem?_encodeAll_black {n k : Nat} (hk : k < n) :
    (encodeAll (List.replicate n .b))[2 * k]? = some true ∧ (encodeAll (List.replicate n .b))[2 * k + 1]? = some false := by
  induction n generalizing k with
  | zero => omega
  | succ n ih =>
    rw [List.replicate_succ]
    cases k with
    | zero => exact ⟨rfl, rfl⟩
    | succ k => exact ih (Nat.lt_of_succ_lt_succ hk)

/-! ### The statement -/

theorem getElem?_append_of_length {xs ys : List Bool} {p k : Nat} {x : Bool} (hp : p = xs.length + k) (hx : ys[k]? = some x) :
    (xs ++ ys)[p]? = some x := by
  rw [hp, List.getElem?_append_right (Nat.le_add_right _ _), Nat.add_sub_cancel_left, hx]

theorem bitsAt_payload {t : State} {p : Nat} {bits : List Bool} (h : bitsAt t .cmp 72 bits) {x : Bool}
    (hx : bits[p]? = some x) : sliceBit t .cmp 9 p = x := by
  rw [sliceBit_eq_base_zero]
  exact h p x hx

/-- Settles O38: the bounds are those of `length_encodeAll_rowCodes`; the sizes and bits are those of the streams of the two images,
which `COMPRESS` leaves by `compress_payload`. -/
theorem sizesOfRowsAndUniformImages : Obligations.SizesOfRowsAndUniformImages := by
  refine ⟨fun row _ => length_encodeAll_rowCodes row, ?_⟩
  intro s t hb hp hw hh hrun hf
  obtain ⟨hlen, hbits⟩ := compress_payload hb hp hw hh hrun hf
  refine ⟨?white, ?black⟩
  case white =>
    intro hpix
    rw [storeList_eq_replicate (v := Config.white) hpix, payload_white] at hlen hbits
    refine ⟨by simpa using hlen, fun j hj => bitsAt_payload hbits ?_⟩
    simp [hj]
  case black =>
    intro hpix
    rw [storeList_eq_replicate (v := Config.black) hpix, payload_black (toNat_pos_of_toInt_pos hw)] at hlen hbits
    refine ⟨?_, fun j hj => bitsAt_payload hbits ?_, fun k hk => ?_⟩
    · rw [hlen, List.length_append, List.length_replicate, length_encodeAll_black, Nat.mul_assoc]
    · rw [List.getElem?_append_left (by simpa using hj)]
      simp [hj]
    · obtain ⟨hfirst, hsecond⟩ := getElem?_encodeAll_black hk
      exact ⟨bitsAt_payload hbits (getElem?_append_of_length (by simp) hfirst),
        bitsAt_payload hbits (getElem?_append_of_length (by simp [Nat.add_assoc]) hsecond)⟩

end Sys2Proof.Machine
end

