-- ==== Sys2Proof/Proofs/AccessorPrimitives.lean ====
section
/-! PROOFS. The five primitives of the Bit Accessor (R130 to R138) as a whole: when each completes, what the reading ones give and what
the writing ones leave, and from them R136 and the laws of R145. That a run of `n` bits from bit `b` of the slice `(m, base)` lies in
store `m` is `8 * base + b + n ≤ 8 * s.caps.cap m`. -/

namespace Sys2Proof.Machine

open Config (Store)

/-! ### The bits of a run of bytes -/

theorem listBit_cons (x : Byte) (xs : List Byte) (t : Nat) :
    listBit (x :: xs) t = if t < 8 then x.getLsbD t else listBit xs (t - 8) := by
  unfold listBit
  by_cases ht : t < 8
  · rw [if_pos ht, Nat.div_eq_of_lt ht, Nat.mod_eq_of_lt ht, List.getD_cons_zero]
  · rw [if_neg ht, show t / 8 = (t - 8) / 8 + 1 by omega, List.getD_cons_succ, show t % 8 = (t - 8) % 8 by omega]

theorem getD_bytesBits (xs : List Byte) (k : Nat) : (bytesBits xs).getD k false = listBit xs k := by
  simp only [List.getD, getElem?_bytesBits, listBit]
  cases xs[k / 8]? <;> simp

/-- A run of bytes is determined by its length and its bits. -/
theorem eq_of_listBit_eq {xs ys : List Byte} (hlen : xs.length = ys.length)
    (h : ∀ t, t < 8 * xs.length → listBit xs t = listBit ys t) : xs = ys := by
  refine List.ext_getElem hlen fun i hx hy => BitVec.eq_of_getLsbD_eq fun j hj => ?_
  have hbit := h (8 * i + j) (by omega)
  simp only [listBit, show (8 * i + j) / 8 = i by omega, show (8 * i + j) % 8 = j by omega] at hbit
  rwa [List.getD_eq_getElem _ _ hx, List.getD_eq_getElem _ _ hy] at hbit

/-! ### The reading primitives -/

/-- `BitRead` (R131) with its fault (R137). -/
theorem bitRead_eq (s : State) (m : Store) (base b : Nat) :
    bitRead s m base b =
      if byteOf base b < s.caps.cap m then .ok (sliceBit s m base b) else .error (.fault (.outOfCapacity m (byteOf base b))) := by
  split
  next h => exact bitRead_of_lt h
  next h => rw [bitRead, load_of_ge (Nat.not_lt.1 h), error_bind]

theorem bitRead_congr {s t : State} {m : Store} {base b : Nat} (hc : t.caps = s.caps)
    (h : sliceBit t m base b = sliceBit s m base b) : bitRead t m base b = bitRead s m base b := by
  rw [bitRead_eq, bitRead_eq, hc, h]

/-- The byte an unaligned read puts together has the upper bits of the lower byte and then the lower bits of the upper one (R132). -/
theorem getLsbD_chunkByte (x y : Byte) {sh j : Nat} (hj : j < 8) :
    ((x >>> sh) ||| (y <<< (8 - sh))).getLsbD j = if j < 8 - sh then x.getLsbD (sh + j) else y.getLsbD (j - (8 - sh)) := by
  rw [BitVec.getLsbD_or, BitVec.getLsbD_ushiftRight, BitVec.getLsbD_shiftLeft]
  split
  next h => simp [h]
  next h =>
    rw [BitVec.getLsbD_of_ge x _ (by omega)]
    simp [hj, h]

theorem chunkByte_completes_iff {s : State} {m : Store} {base b : Nat} :
    (∃ x, chunkByte s m base b = .ok x) ↔ 8 * base + b + 8 ≤ 8 * s.caps.cap m := by
  have hbit := eight_mul_byteOf base b
  constructor
  · rintro ⟨x, h⟩
    unfold chunkByte at h
    split at h
    · obtain ⟨hlt, -⟩ := load_eq_ok.1 h
      omega
    · obtain ⟨lo, -, h⟩ := bind_eq_ok.1 h
      obtain ⟨hi, hhi, -⟩ := bind_eq_ok.1 h
      obtain ⟨hlt, -⟩ := load_eq_ok.1 hhi
      omega
  · intro h
    by_cases h8 : b % 8 = 0
    · exact ⟨_, chunkByte_aligned h8 (by omega)⟩
    · exact ⟨_, chunkByte_unaligned h8 (by omega)⟩

/-- One byte of `ChunkRead` that completes holds the eight bits from bit `b` up (R136). -/
theorem chunkByte_eq_ok {s : State} {m : Store} {base b : Nat} {x : Byte} (h : chunkByte s m base b = .ok x) {j : Nat}
    (hj : j < 8) : x.getLsbD j = sliceBit s m base (b + j) := by
  have hbit := eight_mul_byteOf base b
  rw [sliceBit_eq_base_zero]
  unfold chunkByte at h
  split at h
  case isTrue h8 =>
    obtain ⟨-, rfl⟩ := load_eq_ok.1 h
    rw [show 8 * base + (b + j) = 8 * byteOf base b + j by omega, sliceBit_eight_mul_add _ _ _ hj]
  case isFalse h8 =>
    obtain ⟨lo, hlo, h⟩ := bind_eq_ok.1 h
    obtain ⟨hi, hhi, h⟩ := bind_eq_ok.1 h
    obtain ⟨-, rfl⟩ := load_eq_ok.1 hlo
    obtain ⟨-, rfl⟩ := load_eq_ok.1 hhi
    obtain rfl := Except.ok.inj h
    rw [getLsbD_chunkByte _ _ hj]
    split
    next hlow =>
      rw [show 8 * base + (b + j) = 8 * byteOf base b + (b % 8 + j) by omega, sliceBit_eight_mul_add _ _ _ (by omega)]
    next hhigh =>
      rw [show 8 * base + (b + j) = 8 * (byteOf base b + 1) + (j - (8 - b % 8)) by omega,
        sliceBit_eight_mul_add _ _ _ (by omega)]

theorem chunkRead_completes_iff {s : State} {m : Store} {base b n : Nat} :
    (∃ xs, chunkRead s m base b n = .ok xs) ↔ n = 0 ∨ 8 * base + b + 8 * n ≤ 8 * s.caps.cap m := by
  induction n generalizing b with
  | zero => simp [chunkRead]
  | succ n ih =>
    constructor
    · rintro ⟨xs, h⟩
      obtain ⟨y, h1, h⟩ := bind_eq_ok.1 h
      obtain ⟨ys, h2, -⟩ := bind_eq_ok.1 h
      have hfirst := chunkByte_completes_iff.1 ⟨y, h1⟩
      have hrest := ih.1 ⟨ys, h2⟩
      omega
    · intro h
      obtain ⟨y, h1⟩ := chunkByte_completes_iff.2 (show 8 * base + b + 8 ≤ 8 * s.caps.cap m by omega)
      obtain ⟨ys, h2⟩ := ih.2 (show n = 0 ∨ 8 * base + (b + 8) + 8 * n ≤ 8 * s.caps.cap m by omega)
      exact ⟨y :: ys, by rw [chunkRead, h1, ok_bind, h2, ok_bind]⟩

/-- `ChunkRead` that completes (R132, R136). -/
theorem chunkRead_eq_ok {s : State} {m : Store} {base b n : Nat} {xs : List Byte} (h : chunkRead s m base b n = .ok xs) :
    xs.length = n ∧ ∀ t, t < 8 * n → listBit xs t = sliceBit s m base (b + t) := by
  induction n generalizing b xs with
  | zero =>
    obtain rfl := Except.ok.inj h
    exact ⟨rfl, fun t ht => absurd ht (Nat.not_lt_zero t)⟩
  | succ n ih =>
    obtain ⟨y, h1, h⟩ := bind_eq_ok.1 h
    obtain ⟨ys, h2, h⟩ := bind_eq_ok.1 h
    obtain rfl := Except.ok.inj h
    obtain ⟨hlen, hbits⟩ := ih h2
    refine ⟨by rw [List.length_cons, hlen], fun t ht => ?_⟩
    rw [listBit_cons]
    split
    next hy => exact chunkByte_eq_ok h1 hy
    next hy => rw [hbits _ (by omega), show b + 8 + (t - 8) = b + t by omega]

/-- The bytes a chunk touches (R66, R138) are in the store if its bits are. -/
theorem chunkSpan_le_iff {base b n cap : Nat} :
    n = 0 ∨ byteOf base b + chunkSpan b n ≤ cap ↔ n = 0 ∨ 8 * base + b + 8 * n ≤ 8 * cap := by
  have hbit := eight_mul_byteOf base b
  unfold chunkSpan
  split
  · simp [*]
  · split <;> omega

/-! ### When the writing primitives complete -/

theorem caps_eq_of_registers {s t : State} (h : t.registers = s.registers) : t.caps = s.caps :=
  (congrArg State.caps h :)

/-- `BitSet` and `BitClear` have this shape (R133, R134). -/
theorem byteUpdate_completes_iff {s : State} {m : Store} {base b : Nat} (f : Byte → Byte) :
    (∃ t, (load s m (byteOf base b) >>= fun x => store s m (byteOf base b) (f x)) = .ok t) ↔
      8 * base + b + 1 ≤ 8 * s.caps.cap m := by
  have hbit := eight_mul_byteOf base b
  constructor
  · rintro ⟨t, h⟩
    obtain ⟨x, hx, -⟩ := bind_eq_ok.1 h
    obtain ⟨hlt, -⟩ := load_eq_ok.1 hx
    omega
  · intro h
    have hlt : byteOf base b < s.caps.cap m := by omega
    exact ⟨_, by rw [load_of_lt hlt, ok_bind, store_of_lt _ hlt]⟩

theorem chunkWriteByte_completes_iff {s : State} {m : Store} {base b : Nat} {x : Byte} :
    (∃ t, chunkWriteByte s m base b x = .ok t) ↔ 8 * base + b + 8 ≤ 8 * s.caps.cap m := by
  have hbit := eight_mul_byteOf base b
  constructor
  · rintro ⟨t, h⟩
    unfold chunkWriteByte at h
    split at h
    · obtain ⟨hlt, -⟩ := store_eq_ok.1 h
      omega
    · obtain ⟨lo, -, h⟩ := bind_eq_ok.1 h
      obtain ⟨s1, h1, h⟩ := bind_eq_ok.1 h
      obtain ⟨hi, hhi, -⟩ := bind_eq_ok.1 h
      obtain ⟨-, rfl⟩ := store_eq_ok.1 h1
      obtain ⟨hlt, -⟩ := load_eq_ok.1 hhi
      rw [setByte_caps] at hlt
      omega
  · intro h
    by_cases h8 : b % 8 = 0
    · exact ⟨_, chunkWriteByte_aligned x h8 (by omega)⟩
    · exact ⟨_, chunkWriteByte_unaligned x h8 (by omega)⟩

theorem chunkWrite_completes_iff {s : State} {m : Store} {base b : Nat} {xs : List Byte} :
    (∃ t, chunkWrite s m base b xs = .ok t) ↔ xs.length = 0 ∨ 8 * base + b + 8 * xs.length ≤ 8 * s.caps.cap m := by
  induction xs generalizing s b with
  | nil => simp [chunkWrite]
  | cons x xs ih =>
    rw [List.length_cons]
    constructor
    · rintro ⟨t, h⟩
      obtain ⟨s1, h1, h2⟩ := bind_eq_ok.1 h
      have hfirst := chunkWriteByte_completes_iff.1 ⟨s1, h1⟩
      have hrest := ih.1 ⟨t, h2⟩
      rw [caps_eq_of_registers (chunkWriteByte_eq_ok h1).1] at hrest
      omega
    · intro h
      obtain ⟨s1, h1⟩ := chunkWriteByte_completes_iff (x := x).2 (show 8 * base + b + 8 ≤ 8 * s.caps.cap m by omega)
      have hcaps := caps_eq_of_registers (chunkWriteByte_eq_ok h1).1
      obtain ⟨t, h2⟩ := (ih (s := s1) (b := b + 8)).2 (by rw [hcaps]; omega)
      exact ⟨t, by rw [chunkWrite, h1, ok_bind, h2]⟩

/-! ### The writing primitives as one family -/

/-- The bits the call puts, from bit `first` of the slice up. -/
def BitWrite.bits : BitWrite → List Bool
  | .set _       => [true]
  | .clear _     => [false]
  | .chunk _ src => bytesBits src

@[simp] theorem BitWrite.length_bits (w : BitWrite) : w.bits.length = w.length := by
  cases w with
  | set b => rfl
  | clear b => rfl
  | chunk b src => exact length_bytesBits src

theorem BitWrite.getD_bits (w : BitWrite) {k : Nat} (hk : k < w.length) : w.bits.getD k false = w.value k := by
  cases w with
  | set b | clear b =>
    obtain rfl : k = 0 := by simpa [BitWrite.length] using hk
    rfl
  | chunk b src => exact getD_bytesBits src k

theorem BitWrite.run_completes_iff {s : State} {m : Store} {base : Nat} {w : BitWrite} :
    (∃ t, w.run s m base = .ok t) ↔ w.length = 0 ∨ 8 * base + w.first + w.length ≤ 8 * s.caps.cap m := by
  cases w with
  | set b | clear b => exact (byteUpdate_completes_iff _).trans (by simp [BitWrite.length, BitWrite.first])
  | chunk b src => exact chunkWrite_completes_iff.trans (by simp [BitWrite.length, BitWrite.first])

/-- A writing primitive that completes (R133 to R136). -/
theorem BitWrite.run_eq_ok {s t : State} {m : Store} {base : Nat} {w : BitWrite} (h : w.run s m base = .ok t) :
    t.registers = s.registers ∧ PutsBits s t m (8 * base + w.first) w.bits := by
  cases w with
  | set b => exact bitSet_eq_ok h
  | clear b => exact bitClear_eq_ok h
  | chunk b src => exact chunkWrite_eq_ok h

/-- A bit that a writing primitive targets reads as the value given (R145). -/
theorem BitWrite.bitRead_target {s t : State} {m : Store} {base k : Nat} {w : BitWrite} (h : w.run s m base = .ok t)
    (hk : k < w.length) : bitRead t m base (w.first + k) = .ok (w.value k) := by
  obtain ⟨hreg, hput⟩ := BitWrite.run_eq_ok h
  have hrange := BitWrite.run_completes_iff.1 ⟨t, h⟩
  have hlt : byteOf base (w.first + k) < t.caps.cap m := by
    rw [caps_eq_of_registers hreg]
    have hbit := eight_mul_byteOf base (w.first + k)
    omega
  rw [bitRead_of_lt hlt, sliceBit_eq_base_zero, hput,
    if_pos ⟨rfl, by omega, by rw [BitWrite.length_bits]; omega⟩,
    show 8 * base + (w.first + k) - (8 * base + w.first) = k by omega, BitWrite.getD_bits w hk]

/-- R145 (c): a bit that a writing primitive does not target reads as before. -/
theorem BitWrite.bitRead_other {s t : State} {m : Store} {base b : Nat} {w : BitWrite} (h : w.run s m base = .ok t)
    (hb : b < w.first ∨ w.first + w.length ≤ b) : bitRead t m base b = bitRead s m base b := by
  obtain ⟨hreg, hput⟩ := BitWrite.run_eq_ok h
  refine bitRead_congr (caps_eq_of_registers hreg) ?_
  rw [sliceBit_eq_base_zero, sliceBit_eq_base_zero s]
  exact hput.other (.inr (by rw [BitWrite.length_bits]; omega))

/-! ### The statement about the chunk primitives -/

/-- The bits of a byte after a put. -/
theorem PutsBits.getLsbD {s t : State} {m : Store} {p : Nat} {bits : List Bool} (h : PutsBits s t m p bits) (m' : Store)
    (a : Nat) {k : Nat} (hk : k < 8) : (t.byteAt m' a).getLsbD k =
      if m' = m ∧ p ≤ 8 * a + k ∧ 8 * a + k < p + bits.length then bits.getD (8 * a + k - p) false
      else (s.byteAt m' a).getLsbD k := by
  rw [← sliceBit_eight_mul_add t m' a hk, ← sliceBit_eight_mul_add s m' a hk, h]

/-- Settles O21: the read by `chunkRead_eq_ok`, whose bits are all in the store if it completes; the write as a `BitWrite`. -/
theorem chunkPrimitivesAreBitwise : Obligations.ChunkPrimitivesAreBitwise := by
  intro s m base b
  refine ⟨?read, ?write⟩
  case read =>
    intro n xs h
    obtain ⟨hlen, hbits⟩ := chunkRead_eq_ok h
    have hrange := chunkRead_completes_iff.1 ⟨xs, h⟩
    refine ⟨hlen, fun t ht => ⟨?_, hbits t ht⟩⟩
    have hbit := eight_mul_byteOf base (b + t)
    rw [hbits t ht, bitRead_of_lt (by omega)]
  case write =>
    intro src t h
    obtain ⟨hreg, hput⟩ := chunkWrite_eq_ok h
    refine ⟨hreg, fun k hk => BitWrite.bitRead_target (w := .chunk b src) h hk, fun m' a k hk hout => ?_⟩
    rw [hput.getLsbD m' a hk, length_bytesBits, if_neg hout]

/-! ### The laws -/

/-- R145 (a): what `ChunkWrite` wrote, `ChunkRead` reads back. -/
theorem chunkRead_of_chunkWrite {s t : State} {m : Store} {base b : Nat} {src : List Byte}
    (h : chunkWrite s m base b src = .ok t) : chunkRead t m base b src.length = .ok src := by
  have hrange := chunkWrite_completes_iff.1 ⟨t, h⟩
  rw [← caps_eq_of_registers (chunkWrite_eq_ok h).1] at hrange
  obtain ⟨xs, hxs⟩ := chunkRead_completes_iff.2 hrange
  obtain ⟨hlen, hbits⟩ := chunkRead_eq_ok hxs
  rw [hxs, eq_of_listBit_eq hlen fun k hk => ?_]
  obtain ⟨-, hval⟩ := bitRead_eq_ok (BitWrite.bitRead_target (w := .chunk b src) h (show k < 8 * src.length by omega))
  exact (hbits k (by omega)).trans hval.symm

/-- Puts at disjoint places of one store make the same bytes in either order. -/
theorem PutsBits.comm {s t u t' u' : State} {m : Store} {p q : Nat} {xs ys : List Bool} (h1 : PutsBits s t m p xs)
    (h2 : PutsBits t u m q ys) (h1' : PutsBits s t' m q ys) (h2' : PutsBits t' u' m p xs)
    (hd : p + xs.length ≤ q ∨ q + ys.length ≤ p) (m' : Store) (a : Nat) : u'.byteAt m' a = u.byteAt m' a := by
  refine byteAt_congr (fun i => ?_) a
  rw [h2', h1', h2, h1]
  by_cases hp : m' = m ∧ p ≤ i ∧ i < p + xs.length
  · rw [if_pos hp, if_neg (by omega), if_pos hp]
  · rw [if_neg hp, if_neg hp]

/-- R145 (d): writes to disjoint bits complete in either order, with the same effect. -/
theorem BitWrite.run_comm {s s1 s2 : State} {m : Store} {base : Nat} {v w : BitWrite}
    (hd : v.first + v.length ≤ w.first ∨ w.first + w.length ≤ v.first) (h1 : v.run s m base = .ok s1)
    (h2 : w.run s1 m base = .ok s2) :
    ∃ s1' s2', w.run s m base = .ok s1' ∧ v.run s1' m base = .ok s2' ∧ s2'.registers = s2.registers ∧
      ∀ m' a, s2'.byteAt m' a = s2.byteAt m' a := by
  obtain ⟨hreg1, hput1⟩ := BitWrite.run_eq_ok h1
  obtain ⟨hreg2, hput2⟩ := BitWrite.run_eq_ok h2
  have hw := BitWrite.run_completes_iff.1 ⟨s2, h2⟩
  rw [caps_eq_of_registers hreg1] at hw
  obtain ⟨s1', h1'⟩ := BitWrite.run_completes_iff.2 hw
  obtain ⟨hreg1', hput1'⟩ := BitWrite.run_eq_ok h1'
  have hv := BitWrite.run_completes_iff.1 ⟨s1, h1⟩
  rw [← caps_eq_of_registers hreg1'] at hv
  obtain ⟨s2', h2'⟩ := BitWrite.run_completes_iff.2 hv
  obtain ⟨hreg2', hput2'⟩ := BitWrite.run_eq_ok h2'
  refine ⟨s1', s2', h1', h2', ?_, hput1.comm hput2 hput1' hput2' (by simp only [BitWrite.length_bits]; omega)⟩
  calc s2'.registers = s.registers := hreg2'.trans hreg1'
    _ = s2.registers := (hreg2.trans hreg1).symm

/-- Settles O23: (a) and (d) have lemmas of their own; what a write's target reads and what the other bits read give the rest. -/
theorem accessorLaws : Obligations.AccessorLaws := by
  intro s s1 m base b
  refine ⟨fun src h => chunkRead_of_chunkWrite h, ?set, ?clear, fun w h b' hb => BitWrite.bitRead_other h hb,
    fun v w s2 hd h1 h2 => BitWrite.run_comm hd h1 h2, ?overlap⟩
  case set => exact fun h => BitWrite.bitRead_target (w := .set b) (k := 0) h (Nat.zero_lt_one)
  case clear => exact fun h => BitWrite.bitRead_target (w := .clear b) (k := 0) h (Nat.zero_lt_one)
  case overlap =>
    intro x y r s2 _ hr _ h1 h2
    refine ⟨fun k hk => ?_, fun k hk => BitWrite.bitRead_target (w := .chunk (b + r) y) h2 hk⟩
    rw [BitWrite.bitRead_other (w := .chunk (b + r) y) h2 (.inl (Nat.add_lt_add_left hk b))]
    exact BitWrite.bitRead_target (w := .chunk b x) h1 (Nat.lt_of_lt_of_le hk hr)

end Sys2Proof.Machine
end

