-- ==== Sys2Proof/Proofs/AccessorCommands.lean ====
section
/-! PROOFS. The five direct accessor commands between commands (R139 to R144): each is its primitive on the slice of the operands, in
the state its start makes. -/

namespace Sys2Proof.Machine

open Config (Store)

/-! ### The start and the end of a command -/

@[simp] theorem beginCommand_argStore (c : BitVec 4) (s : State) : argStore (beginCommand c s) = argStore s := rfl

@[simp] theorem beginCommand_sliceBit (c : BitVec 4) (s : State) (m : Store) (base b : Nat) :
    sliceBit (beginCommand c s) m base b = sliceBit s m base b :=
  sliceBit_congr (beginCommand_byteAt c s m) base b

/-- A command that starts, changes no register and completes is one that succeeded (R25, R144). -/
theorem complete_registers_eq_succeeded {c : BitVec 4} {s t : State} (h : t.registers = (beginCommand c s).registers) :
    (complete t).registers = (succeeded c s).registers :=
  (congrArg complete h :)

/-- `ARG_LEN` above `DBUF_CAP` fails with `BAD_ARGUMENT` before any access (R140, R143). -/
theorem runCommand_badArgument {c : BitVec 4} {body : State → Res State} {s : State} (hb : s.status.busy = false)
    (hbody : body (beginCommand c s) = .ok (raiseFail .badArgument (beginCommand c s))) :
    runCommand c body s = .next (failedWith c 13 s) := by
  rw [runCommand_of_idle hb, hbody, toOutcome_ok]
  rfl

/-! ### RDBIT -/

/-- Settles O15: the body is one `BitRead` in range, of a bit that the start of the command leaves. -/
theorem rdbitReadsTheBit : Obligations.RdbitReadsTheBit := by
  intro s hb hr
  have hlt : byteOf s.argBase s.argBit < (beginCommand 1 s).caps.cap (argStore s) := hr
  have hbody : rdbitBody (beginCommand 1 s) =
      .ok (complete { beginCommand 1 s with resBit := sliceBit s (argStore s) s.argBase s.argBit }) := by
    simp only [rdbitBody, beginCommand_argStore, beginCommand_argBase, beginCommand_argBit, bitRead_of_lt hlt, ok_bind,
      beginCommand_sliceBit]
  calc exec .rdbit s = toOutcome (rdbitBody (beginCommand 1 s)) := runCommand_of_idle hb
    _ = _ := by rw [hbody]; rfl

/-! ### The commands that write a memory -/

/-- A command whose body is one call of a writing primitive on the slice of the operands succeeds if the call's bits are in range, and
leaves what the call leaves. -/
theorem runCommand_bitWrite {c : BitVec 4} {body : State → Res State} {s : State} {w : BitWrite} (hb : s.status.busy = false)
    (hbody : body (beginCommand c s) = w.run (beginCommand c s) (argStore s) s.argBase >>= fun t => .ok (complete t))
    (hw : w.length = 0 ∨ 8 * s.argBase + w.first + w.length ≤ 8 * s.caps.cap (argStore s)) :
    ∃ t, runCommand c body s = .next t ∧ t.registers = (succeeded c s).registers ∧
      PutsBits s t (argStore s) (8 * s.argBase + w.first) w.bits := by
  obtain ⟨t, ht⟩ := (BitWrite.run_completes_iff (s := beginCommand c s)).2 hw
  obtain ⟨hreg, hput⟩ := BitWrite.run_eq_ok ht
  refine ⟨complete t, ?_, complete_registers_eq_succeeded hreg, (hput.congr_left fun m a => ?_).congr fun m a => ?_⟩
  · rw [runCommand_of_idle hb, hbody, ht, ok_bind, toOutcome_ok]
  · exact beginCommand_byteAt c s m a
  · exact complete_byteAt t m a

/-- The bits of a byte after a put of one bit. -/
theorem PutsBits.getLsbD_singleton {s t : State} {m : Store} {base b : Nat} {x : Bool}
    (h : PutsBits s t m (8 * base + b) [x]) (m' : Store) (a : Nat) {k : Nat} (hk : k < 8) :
    (t.byteAt m' a).getLsbD k = if m' = m ∧ a = byteOf base b ∧ k = b % 8 then x else (s.byteAt m' a).getLsbD k := by
  have hbit := eight_mul_byteOf base b
  rw [h.getLsbD m' a hk, List.length_singleton]
  by_cases hin : m' = m ∧ a = byteOf base b ∧ k = b % 8
  · obtain ⟨rfl, rfl, rfl⟩ := hin
    rw [hbit, if_pos ⟨rfl, by omega, by omega⟩, if_pos ⟨rfl, rfl, rfl⟩, Nat.sub_self]
    rfl
  · rw [if_neg hin, if_neg]
    rintro ⟨rfl, h1, h2⟩
    exact hin ⟨rfl, by omega, by omega⟩

/-- R277 for a command on one bit. -/
theorem argBit_le_of_inRange {s : State} (h : argInRange s 1) :
    8 * s.argBase + s.argBit + 1 ≤ 8 * s.caps.cap (argStore s) := by
  have hbit := eight_mul_byteOf s.argBase s.argBit
  simp only [argInRange, argByte] at h
  omega

/-- Settles O16: the body is the call `BitSet` of the family. -/
theorem setbitSetsTheBit : Obligations.SetbitSetsTheBit := by
  intro s hb hr
  obtain ⟨t, hrun, hreg, hput⟩ :=
    runCommand_bitWrite (c := 3) (body := setbitBody) (w := .set s.argBit) hb rfl (.inr (argBit_le_of_inRange hr))
  exact ⟨t, hrun, hreg, fun m a k hk => hput.getLsbD_singleton m a hk⟩

/-- Settles O17: the body is the call `BitClear` of the family. -/
theorem clrbitClearsTheBit : Obligations.ClrbitClearsTheBit := by
  intro s hb hr
  obtain ⟨t, hrun, hreg, hput⟩ :=
    runCommand_bitWrite (c := 4) (body := clrbitBody) (w := .clear s.argBit) hb rfl (.inr (argBit_le_of_inRange hr))
  exact ⟨t, hrun, hreg, fun m a k hk => hput.getLsbD_singleton m a hk⟩

/-- The source of `WRCHUNK` is the first `ARG_LEN` bytes of DBUF (R143). -/
theorem wrchunkBody_of_le {s : State} (h : s.argLen ≤ s.caps.dbufCap) :
    wrchunkBody s =
      chunkWrite s (argStore s) s.argBase s.argBit (storeList s .dbuf s.argLen) >>= fun t => .ok (complete t) := by
  have hload : loadBytes s .dbuf 0 s.argLen = .ok (storeList s .dbuf s.argLen) := by
    simpa [storeList] using loadBytes_of_le (s := s) (m := .dbuf) (a := 0) (n := s.argLen) (by simpa [Config.Caps.cap] using h)
  rw [wrchunkBody, if_neg (Nat.not_lt.2 h), hload, ok_bind]

/-- Settles O19: the body is `ChunkWrite` of the first bytes of DBUF, whose bits are those of `bytesBits`. -/
theorem wrchunkWritesTheBits : Obligations.WrchunkWritesTheBits := by
  intro s hb
  refine ⟨?tooLong, ?inRange⟩
  case tooLong => exact fun hlen => runCommand_badArgument hb (if_pos hlen)
  case inRange =>
    intro hlen hr
    have hsrc : (storeList s .dbuf s.argLen).length = s.argLen := by simp [storeList]
    obtain ⟨t, hrun, hreg, hput⟩ :=
      runCommand_bitWrite (c := 5) (body := wrchunkBody) (w := .chunk s.argBit (storeList s .dbuf s.argLen)) hb
        (wrchunkBody_of_le (s := beginCommand 5 s) hlen)
        ((chunkSpan_le_iff.1 hr).imp (by simp [BitWrite.length, hsrc]) (by simp [BitWrite.length, BitWrite.first, hsrc]))
    refine ⟨t, hrun, hreg, fun m a k hk => ?_⟩
    rw [hput.getLsbD m a hk, BitWrite.length_bits]
    simp only [BitWrite.first, BitWrite.length, hsrc]
    split
    next hin =>
      rw [BitWrite.bits, List.getD, getElem?_bytesBits_storeList s .dbuf (by omega), Option.getD_some, sliceBit, byteOf,
        Nat.zero_add]
    next => rfl

/-! ### RDCHUNK -/

/-- `RDCHUNK` with its bits in range puts what `ChunkRead` gives at element 0 of DBUF and up (R140). -/
theorem rdchunkBody_of_le {s : State} {xs : List Byte} (h : s.argLen ≤ s.caps.dbufCap)
    (hxs : chunkRead s (argStore s) s.argBase s.argBit s.argLen = .ok xs) :
    rdchunkBody s = .ok (complete (placeBytes s .dbuf 0 xs)) := by
  have hfit : 0 + xs.length ≤ s.caps.cap .dbuf := by
    rw [(chunkRead_eq_ok hxs).1, Nat.zero_add]
    exact h
  rw [rdchunkBody, if_neg (Nat.not_lt.2 h), hxs, ok_bind, storeBytes_of_le hfit, ok_bind]

/-- Settles O18: the bytes `ChunkRead` gives have the addressed bits, and DBUF takes them from element 0 up. -/
theorem rdchunkFillsDbuf : Obligations.RdchunkFillsDbuf := by
  intro s hb
  refine ⟨?tooLong, ?inRange⟩
  case tooLong => exact fun hlen => runCommand_badArgument hb (if_pos hlen)
  case inRange =>
    intro hlen hr
    obtain ⟨xs, hxs⟩ := (chunkRead_completes_iff (s := beginCommand 2 s)).2 (chunkSpan_le_iff.1 hr)
    obtain ⟨hxlen, hbits⟩ := chunkRead_eq_ok hxs
    refine ⟨complete (placeBytes (beginCommand 2 s) .dbuf 0 xs), ?run,
      complete_registers_eq_succeeded (placeBytes_registers _ _ _ _), fun k hk => ?filled, fun m a hout => ?kept⟩
    case run =>
      calc exec .rdchunk s = toOutcome (rdchunkBody (beginCommand 2 s)) := runCommand_of_idle hb
        _ = _ := by rw [rdchunkBody_of_le (s := beginCommand 2 s) hlen hxs, toOutcome_ok]
    case filled =>
      rw [complete_byteAt, byteAt_placeBytes, if_pos ⟨rfl, Nat.zero_le _, by omega⟩, Nat.sub_zero]
      exact (hbits k hk).trans (beginCommand_sliceBit _ _ _ _ _)
    case kept =>
      rw [complete_byteAt, byteAt_placeBytes, if_neg, beginCommand_byteAt]
      rintro ⟨rfl, -, hlt⟩
      exact hout ⟨rfl, by omega⟩

end Sys2Proof.Machine
end

