-- ==== Sys2Proof/Proofs/HeaderValidation.lean ====
section
/-! PROOFS. `Validate()` at `D_VALIDATE` (R162, R163, R202): the decoder on the nine bytes of a header, what the fetch of the header
gives, and the fetch and the header's meaning together as one function of `validateCause`. -/

namespace Sys2Proof

/-! ### Taking bytes from a stream -/

theorem testBit_bitsToNat (bits : List Bool) (i : Nat) : (bitsToNat bits).testBit i = bits.getD i false := by
  induction bits generalizing i with
  | nil => simp [bitsToNat]
  | cons x bits ih =>
    have hbit : bitsToNat (x :: bits) = Nat.bit x (bitsToNat bits) := by
      rw [bitsToNat, Nat.bit_val, Nat.add_comm]
    cases i with
    | zero => rw [hbit, Nat.testBit_bit_zero, List.getD_cons_zero]
    | succ i => rw [hbit, Nat.testBit_bit_succ, ih, List.getD_cons_succ]

theorem ofNat_bitsToNat_byteBits (x : Byte) : BitVec.ofNat 8 (bitsToNat (byteBits x)) = x := by
  refine BitVec.eq_of_getLsbD_eq fun i hi => ?_
  rw [BitVec.getLsbD_ofNat, testBit_bitsToNat, Machine.getD_byteBits x hi, decide_eq_true hi, Bool.true_and]

theorem takeByte_byteBits_append (x : Byte) (rest : List Bool) : takeByte (byteBits x ++ rest) = some (x, rest) :=
  congrArg (fun y => some (y, rest)) (ofNat_bitsToNat_byteBits x)

theorem takeBytes_bytesBits_append (xs : List Byte) (rest : List Bool) :
    takeBytes xs.length (bytesBits xs ++ rest) = some (xs, rest) := by
  induction xs with
  | nil => rfl
  | cons x xs ih =>
    simp only [List.length_cons, takeBytes, bytesBits, List.append_assoc, takeByte_byteBits_append, ih]

/-- R91, R162: the nine bytes of a header with the magic tag are a `HEADER` of their two fields. -/
theorem decode_header_bytesBits (w0 w1 w2 w3 h0 h1 h2 h3 : Byte) :
    decode .header (bytesBits [Config.magic, w0, w1, w2, w3, h0, h1, h2, h3]) =
      .ok (.header (fromLE32 w0 w1 w2 w3) (fromLE32 h0 h1 h2 h3), []) := by
  have htake := takeBytes_bytesBits_append [Config.magic, w0, w1, w2, w3, h0, h1, h2, h3] []
  rw [List.append_nil] at htake
  simp only [decode, Config.headerBytes]
  rw [show (9 : Nat) = [Config.magic, w0, w1, w2, w3, h0, h1, h2, h3].length from rfl, htake]
  rfl

end Sys2Proof

namespace Sys2Proof.Machine

/-! ### Fetching the header -/

/-- `L` takes `ARG_LEN`, before the second check of R163. -/
def latchLength (s : State) : State := { s with l := s.argLen }

theorem latchLength_eq (s : State) : { s with l := s.argLen } = latchLength s := rfl

/-- The nine bytes of a header can be read from a buffer that checks 2 and 3 of R163 allow. -/
theorem read_header_of_le {s : State} (hlen : 9 ≤ s.argLen) (hcap : s.argLen ≤ s.caps.cmpCap) :
    load (latchLength s) .cmp 0 = .ok (s.byteAt .cmp 0) ∧
    loadBytes (latchLength s) .cmp 1 8 = .ok ((List.range 8).map fun i => s.byteAt .cmp (1 + i)) := by
  have hfit : 1 + 8 ≤ (latchLength s).caps.cap .cmp := hlen.trans hcap
  exact ⟨load_of_lt (Nat.lt_of_lt_of_le (by decide) hfit), loadBytes_of_le hfit⟩

/-- The nine bytes at CMP address 0, with the magic tag first, are a `HEADER` of the fields at addresses 1 and 5 (R91, R162). -/
theorem decode_header_of_magic {s : State} (hm : s.byteAt .cmp 0 = Config.magic) :
    decode .header (bytesBits (s.byteAt .cmp 0 :: (List.range 8).map fun i => s.byteAt .cmp (1 + i))) =
      .ok (.header (headerWidth s) (headerHeight s), []) := by
  rw [hm]
  exact decode_header_bytesBits _ _ _ _ _ _ _ _

/-- Checks 1 to 4 of R163. Each access is below `CMP_CAP` by the checks before it, and the decoder rejects no nine bytes that begin
with the magic tag. -/
theorem fetchHeader_eq (s : State) :
    fetchHeader s =
      if s.argPresent = false then .ok (.failed (raiseFail .inputAbsent s))
      else if s.caps.cmpCap < s.argLen then .ok (.failed (raiseFail .capacity (latchLength s)))
      else if s.argLen < 9 then .ok (.failed (raiseFail .shortHeader (latchLength s)))
      else if s.byteAt .cmp 0 ≠ 0xBA then .ok (.failed (raiseFail .badMagic (latchLength s)))
      else .ok (.code (.header (headerWidth s) (headerHeight s)) (latchLength s)) := by
  simp only [fetchHeader, latchLength_eq]
  split_ifs with hp hc hl hm
  case pos => rfl
  case pos => rfl
  case pos => rfl
  case pos =>
    obtain ⟨hload, -⟩ := read_header_of_le (s := s) (by omega) (by omega)
    rw [hload, ok_bind]
    exact if_pos hm
  case neg =>
    obtain ⟨hload, hfields⟩ := read_header_of_le (s := s) (by omega) (by omega)
    have hmagic : s.byteAt .cmp 0 = Config.magic := not_not.1 hm
    rw [hload, ok_bind, if_neg (not_not.2 hmagic), hfields, ok_bind, decode_header_of_magic hmagic]

/-! ### The fetch and the header's meaning -/

/-- The only code fetched at `D_VALIDATE` is a header, so the step there is the first transition of the listing of R217. -/
theorem runFetched_fetchHeader (s : State) : runFetched (fetchHeader s) = toOutcome (fetchRun fetchHeader s) := by
  rw [fetchRun, fetchHeader_eq]
  split_ifs <;> rfl

/-- The state `Validate()` leaves when all its checks pass (R163, R202). -/
def validated (s : State) : State :=
  { s with
    l := s.argLen, w := (headerWidth s).toNat, h := (headerHeight s).toNat, cur := (headerHeight s).toNat, row := 0
    dstate := if headerHeight s = 0 then .success else .readPresence }

/-- Checks 5 to 8 of R163 for the header that stands in CMP. -/
theorem headerCode_latchLength (s : State) :
    headerCode (headerWidth s) (headerHeight s) (latchLength s) =
      if (headerWidth s).toInt < 0 ∨ (headerHeight s).toInt < 0 then .ok (raiseFail .badHeaderDimension (latchLength s))
      else if s.argLen < 9 + ceil8 (headerHeight s).toNat then .ok (raiseFail .shortBitmap (latchLength s))
      else if s.caps.pixCap < (headerWidth s).toNat * (headerHeight s).toNat then .ok (raiseFail .capacity (latchLength s))
      else .ok (validated s) := by
  have hzero : (headerHeight s).toNat = 0 ↔ headerHeight s = 0 := (BitVec.toNat_eq (y := 0#32)).symm
  simp only [validated, ← hzero]
  rfl

/-- All checks of R163, in their order. -/
theorem fetchRun_fetchHeader_eq (s : State) :
    fetchRun fetchHeader s =
      if s.argPresent = false then .ok (raiseFail .inputAbsent s)
      else if s.caps.cmpCap < s.argLen then .ok (raiseFail .capacity (latchLength s))
      else if s.argLen < 9 then .ok (raiseFail .shortHeader (latchLength s))
      else if s.byteAt .cmp 0 ≠ 0xBA then .ok (raiseFail .badMagic (latchLength s))
      else if (headerWidth s).toInt < 0 ∨ (headerHeight s).toInt < 0 then .ok (raiseFail .badHeaderDimension (latchLength s))
      else if s.argLen < 9 + ceil8 (headerHeight s).toNat then .ok (raiseFail .shortBitmap (latchLength s))
      else if s.caps.pixCap < (headerWidth s).toNat * (headerHeight s).toNat then .ok (raiseFail .capacity (latchLength s))
      else .ok (validated s) := by
  rw [fetchRun, fetchHeader_eq, ← headerCode_latchLength]
  split_ifs <;> rfl

/-- R163: the first check that fails ends the command, with `L` the one other register that may have changed. -/
theorem fetchRun_fetchHeader_of_some {s : State} {c : BitVec 4} (h : validateCause s = some c) :
    ∃ t, fetchRun fetchHeader s = .ok t ∧ { t with l := s.l } = failedWith s.cmd c s := by
  rw [fetchRun_fetchHeader_eq]
  unfold validateCause at h
  split_ifs at h ⊢
  all_goals
    obtain rfl := Option.some.inj h
    exact ⟨_, rfl, rfl⟩

theorem fetchRun_fetchHeader_of_none {s : State} (h : validateCause s = none) :
    fetchRun fetchHeader s = .ok (validated s) := by
  rw [fetchRun_fetchHeader_eq]
  unfold validateCause at h
  split_ifs at h ⊢
  rfl

/-! ### The statement -/

theorem step_of_validate {s : State} (hb : s.status.busy = true) (hh : s.host = []) (hd : s.dstate = .validate) :
    step s = toOutcome (fetchRun fetchHeader s) := by
  rw [← runFetched_fetchHeader]
  simp only [step, hh, blockMove, hb, if_true, blockStep, hd]

/-- Settles O41: the step is the fetch of the header and its meaning; `L`, which a failing check may leave latched, is no register
that a host can see. -/
theorem validateStepChecksAndLatches : Obligations.ValidateStepChecksAndLatches := by
  intro s hb hh hd
  rw [step_of_validate hb hh hd]
  refine ⟨?fails, ?passes⟩
  case fails =>
    intro c hc
    obtain ⟨t, ht, hfail⟩ := fetchRun_fetchHeader_of_some hc
    rw [ht]
    exact ⟨t, rfl, (congrArg State.visible hfail :)⟩
  case passes =>
    intro hc
    rw [fetchRun_fetchHeader_of_none hc]
    rfl

end Sys2Proof.Machine
end

