-- ==== Sys2Proof/Proofs/AssembledBytes.lean ====
section
/-! PROOFS. The bytes of an assembled stream (R94, R114): the bits of packed bytes, and when CMP holds a stream's bytes, said of the
header's bytes, the payload's bits and the pad bits. -/

namespace Sys2Proof.Machine

@[simp] theorem length_packBytes (n : Nat) (bits : List Bool) : (packBytes n bits).length = n := by
  induction n generalizing bits with
  | zero => rfl
  | succ n ih => simp [packBytes, ih]

/-- R12, R94: packing keeps every bit at its index, and fills up with zeros. -/
theorem listBit_packBytes {n k : Nat} (bits : List Bool) (hk : k < 8 * n) :
    listBit (packBytes n bits) k = bits.getD k false := by
  induction n generalizing bits k with
  | zero => omega
  | succ n ih =>
    rw [packBytes, listBit_cons]
    split
    case isTrue hlt =>
      rw [BitVec.getLsbD_ofNat, testBit_bitsToNat, decide_eq_true hlt, Bool.true_and, List.getD, List.getD,
        List.getElem?_take_of_lt hlt]
    case isFalse hge =>
      obtain ⟨j, rfl⟩ : ∃ j, k = 8 + j := ⟨k - 8, by omega⟩
      rw [Nat.add_sub_cancel_left, ih _ (by omega)]
      simp [List.getD]

@[simp] theorem length_headerOf (w h : Word32) : (headerOf w h).length = 9 := rfl

theorem length_assemble (st : Stream) : st.assemble.length = 9 + ceil8 st.payload.length := by
  simp [Stream.assemble]

/-- A byte of a store is known by its bits. -/
theorem byteAt_eq_of_sliceBit {s : State} {m : Config.Store} {a : Nat} {x : Byte}
    (h : ∀ i, i < 8 → sliceBit s m 0 (8 * a + i) = x.getLsbD i) : s.byteAt m a = x :=
  BitVec.eq_of_getLsbD_eq fun i hi => (sliceBit_eight_mul_add s m a hi).symm.trans (h i hi)

/-- CMP holds a stream when it holds the header's bytes, the payload's bits, and zeros up to the end of the payload's last byte. -/
theorem cmpHolds_assemble {t : State} {st : Stream} (hheader : cmpHolds t (headerOf st.width st.height))
    (hbits : bitsAt t .cmp 72 st.payload)
    (hpad : ∀ q, 72 + st.payload.length ≤ q → q < 8 * st.assemble.length → sliceBit t .cmp 0 q = false) :
    cmpHolds t st.assemble := by
  intro a x hx
  rcases Nat.lt_or_ge a 9 with ha | ha
  · rw [Stream.assemble, List.getElem?_append_left (by simpa using ha)] at hx
    exact hheader a x hx
  obtain ⟨i, rfl⟩ : ∃ i, a = 9 + i := ⟨a - 9, by omega⟩
  have hlt : 9 + i < st.assemble.length := (List.getElem?_eq_some_iff.mp hx).1
  rw [Stream.assemble, List.getElem?_append_right (by simp), length_headerOf, Nat.add_sub_cancel_left] at hx
  refine byteAt_eq_of_sliceBit fun j hj => ?_
  have hbyte : x.getLsbD j = st.payload.getD (8 * i + j) false := by
    rw [← listBit_packBytes (n := ceil8 st.payload.length) _ (by rw [length_assemble] at hlt; omega), listBit,
      show (8 * i + j) / 8 = i by omega, show (8 * i + j) % 8 = j by omega, List.getD, hx, Option.getD_some]
  rw [hbyte, show 8 * (9 + i) + j = 72 + (8 * i + j) by omega]
  rcases Nat.lt_or_ge (8 * i + j) st.payload.length with hin | hout
  · rw [List.getD_eq_getElem _ _ hin]
    exact hbits _ _ (List.getElem?_eq_getElem hin)
  · rw [List.getD_eq_default _ _ hout]
    exact hpad _ (by omega) (by omega)

end Sys2Proof.Machine
end

