-- ==== Sys2Proof/Proofs/CompressedImage.lean ====
section
/-! PROOFS. The stream of a successful `COMPRESS` (R185). `CompressedPayload` has the payload's bits; here stand the header, which
no row touches, and the zeros from the cursor up to `EXT`, which `E_GROW` makes and every append keeps since the pad bits of SCR are
zeros too (R181, R187). -/

namespace Sys2Proof.Machine

open Config (Store)

/-! ### The zeros of a growth and of a new row -/

theorem sliceBit_storeFill_zero {s t : State} {m : Store} {a n q : Nat} (h : storeFill s m a n 0 = .ok t) (hle : 8 * a ≤ q)
    (hlt : q < 8 * (a + n)) : sliceBit t m 0 q = false := by
  obtain ⟨rfl, -⟩ := storeBytes_eq_ok h
  have hin : a ≤ q / 8 ∧ q / 8 < a + n := by omega
  rw [sliceBit, byteOf, Nat.zero_add, byteAt_placeBytes, if_pos ⟨rfl, hin.1, by simpa using hin.2⟩,
    List.getD_replicate _ (by omega)]
  exact BitVec.getLsbD_zero

/-- What `E_GROW` claims is zeros (R174). -/
theorem eGrow_zeros {s t : State} (h : eGrow s = .ok t) (hb : t.status.busy = true) {q : Nat} (hle : 8 * s.ext ≤ q)
    (hlt : q < 8 * t.ext) : sliceBit t .cmp 0 q = false := by
  unfold eGrow at h
  split at h
  case isTrue =>
    obtain rfl := Except.ok.inj h
    cases hb
  case isFalse =>
    obtain ⟨u, hu, h⟩ := bind_eq_ok.1 h
    obtain rfl := Except.ok.inj h
    have hlt' : q < 8 * max s.ext (need s) := hlt
    exact (sliceBit_storeFill_zero hu hle (by omega) :)

/-- After the scan of a row SCR holds zeros above the row's codes, up to the end of the row's scratch (R175). -/
theorem scratch_zeros_of_scan {s s1 t : State} (h1 : eRowInit s = .ok s1) (h : compressChunks (chunks s1.w) s1 = .ok t)
    {k : Nat} (hle : t.rc ≤ k) (hlt : k < 8 * scratchBytes s.w) : sliceBit t .scr 0 k = false := by
  have hrc : s1.rc = 0 := (congrArg State.rc (eRowInit_eq_ok h1).1 :)
  obtain ⟨u, hu, h1⟩ := bind_eq_ok.1 h1
  have hc := compressChunks_eq_ok h
  rw [hc.puts.other (.inr (.inr (by rw [← hc.rc]; exact hle)))]
  obtain rfl := Except.ok.inj h1
  exact (sliceBit_storeFill_zero (q := k) hu (by omega) (by omega) :)

/-! ### One row -/

/-- The end of a scanned row keeps the zeros above the cursor it leaves: what an append writes there are the zeros of SCR. -/
theorem emit_keeps_zero {s u t : State} (hu : RowScanned s u)
    (hpad : ∀ k, u.rc ≤ k → k < 8 * ceil8 u.rc → sliceBit u .scr 0 k = false) (hlt : s.row < s.cur)
    (h : encStep u = .ok t) {q : Nat} (hq : 72 + t.cur ≤ q) (hz : sliceBit s .cmp 0 q = false) :
    sliceBit t .cmp 0 q = false := by
  have hrow : u.row = s.row := (congrArg State.row hu.fixed :)
  have hcur : u.cur = s.cur := (congrArg State.cur hu.fixed :)
  have hzu : sliceBit u .cmp 0 q = false := (sliceBit_congr (fun a => hu.stores .cmp a (by decide)) 0 q).trans hz
  have hestate := hu.estate
  cases hp : rowPresent (currentRow s) with
  | false =>
    rw [hp] at hestate
    obtain ⟨hreg, hput⟩ := eRowWhite_eq_ok (s := u) (t := t) (by simpa [encStep, hestate] using h)
    have htcur : t.cur = u.cur := (congrArg State.cur hreg :)
    rw [hput.other (.inr (by simp only [List.length_singleton]; omega)), hzu]
  | true =>
    rw [hp] at hestate
    obtain ⟨hreg, v, hpres, hput⟩ := eRowAppend_eq_ok (s := u) (t := t) (by simpa [encStep, hestate] using h)
    have htcur : t.cur = u.cur + u.rc := (congrArg State.cur hreg :)
    have hzv : sliceBit v .cmp 0 q = false := by
      rw [hpres.other (.inr (by simp only [List.length_singleton]; omega)), hzu]
    by_cases hin : q < 72 + u.cur + 8 * ceil8 u.rc
    · obtain ⟨k, rfl⟩ : ∃ k, q = 72 + u.cur + k := ⟨q - (72 + u.cur), by omega⟩
      have hk : k < 8 * ceil8 u.rc := by omega
      rw [hput.bitsAt k _ (getElem?_bytesBits_storeList _ _ hk)]
      exact hpad k (by omega) hk
    · rw [hput.other (.inr (.inr ?_)), hzv]
      simp only [length_bytesBits, storeList, List.length_map, List.length_range]
      omega

/-- The actions of a row of R184, one after the other: `E_GROW` fails, or the row is scanned and its emission follows. -/
theorem compressRow_actions {s t : State} (hb : s.status.busy = true) (h : compressRow s = .ok t) :
    t.status = { busy := false, done := true, fail := true } ∨
    ∃ s1 s2 s3, eGrow s = .ok s1 ∧ s1.status.busy = true ∧ eRowInit s1 = .ok s2 ∧
      compressChunks (chunks s2.w) s2 = .ok s3 ∧ encStep s3 = .ok t := by
  obtain ⟨s1, h1, h⟩ := bind_eq_ok.1 h
  rcases eGrow_cases h1 with hfail | ⟨hreg, -⟩
  · rw [whileBusy_of_idle (by rw [hfail])] at h
    obtain rfl := Except.ok.inj h
    exact .inl hfail
  · have hbusy : s1.status.busy = true := (congrArg (·.status.busy) hreg :).trans hb
    rw [whileBusy_of_busy hbusy] at h
    obtain ⟨s2, h2, h⟩ := bind_eq_ok.1 h
    obtain ⟨s3, h3, h⟩ := bind_eq_ok.1 h
    exact .inr ⟨s1, s2, s3, h1, hbusy, h2, h3, h⟩

/-! ### The rows of the image -/

/-- `COMPRESS` stands before row `j`, as in `RowsCompressed`; CMP also holds the header, and zeros from the cursor up to `EXT`. -/
structure RowsStreamed (px : List Byte) (w h j : Nat) (s : State) : Prop extends RowsCompressed px w h j s where
  header  : cmpHolds s (headerOf (BitVec.ofNat 32 w) (BitVec.ofNat 32 h))
  claimed : 9 ≤ s.ext
  zeros   : ∀ q, 72 + s.cur ≤ q → q < 8 * s.ext → sliceBit s .cmp 0 q = false

/-- A header stays while the bits below the payload do. -/
theorem cmpHolds_headerOf_congr {s t : State} {w h : Word32} (hs : cmpHolds s (headerOf w h))
    (hkept : ∀ q, q < 72 → sliceBit t .cmp 0 q = sliceBit s .cmp 0 q) : cmpHolds t (headerOf w h) := by
  intro a x hx
  have ha : a < 9 := (List.getElem?_eq_some_iff.mp hx).1
  refine byteAt_eq_of_sliceBit fun i hi => ?_
  rw [hkept _ (by omega), sliceBit_eight_mul_add _ _ _ hi, hs a x hx]

theorem RowsStreamed.grow {px : List Byte} {w h j : Nat} {s s1 : State} (hs : RowsStreamed px w h j s) (hj : j ≤ h)
    (h1 : eGrow s = .ok s1) (hb : s1.status.busy = true) :
    RowsStreamed px w h j s1 ∧ 72 + (s1.cur + worstRowBits w) ≤ 8 * s1.ext := by
  rcases eGrow_cases h1 with hfail | ⟨hreg, hbytes⟩
  · simp [hfail] at hb
  obtain ⟨hs1, hroom⟩ := hs.toRowsCompressed.grow hj hreg hbytes
  have hbit : ∀ q, q < 8 * s.ext → sliceBit s1 .cmp 0 q = sliceBit s .cmp 0 q := by
    intro q hq
    simp only [sliceBit, byteOf]
    rw [hbytes .cmp _ (.inr (by omega))]
  have hclaimed := hs.claimed
  have hcur : s1.cur = s.cur := (congrArg State.cur hreg :)
  refine ⟨{ hs1 with header := ?_, claimed := ?_, zeros := ?_ }, hroom⟩
  · exact cmpHolds_headerOf_congr hs.header fun q hq => hbit q (by omega)
  · omega
  · intro q hle hlt
    rcases Nat.lt_or_ge q (8 * s.ext) with hq | hq
    · rw [hbit q hq]
      exact hs.zeros q (by omega) hq
    · exact eGrow_zeros h1 hb hq hlt

/-- A row of R184 fails in `E_GROW`, or is added to the stream. -/
theorem RowsStreamed.row_cases {px : List Byte} {w h j : Nat} {s t : State} (hs : RowsStreamed px w h j s) (hw : 0 < w)
    (hj : j < h) (hrun : compressRow s = .ok t) :
    t.status = { busy := false, done := true, fail := true } ∨ RowsStreamed px w h (j + 1) t := by
  rcases compressRow_actions hs.busy hrun with hfail | ⟨s1, s2, s3, h1, hb1, h2, h3, h4⟩
  · exact .inl hfail
  obtain ⟨hs1, hroom⟩ := hs.grow (Nat.le_of_lt hj) h1 hb1
  have hlt : s1.row < s1.cur := by
    rw [hs1.row, hs1.cur]
    omega
  have hscan : RowScanned s1 s3 := rowScanned_of_ok (by rw [hs1.width]; exact hw) h2 h3
  have hrow : RowEmitted s1 t := rowEmitted_of_scanned hscan hlt h4
  have hcur : s1.cur ≤ t.cur := by
    rw [show t.cur = _ from (congrArg State.cur hrow.fixed :)]
    exact Nat.le_add_right _ _
  have hext : t.ext = s1.ext := (congrArg State.ext hrow.fixed :)
  have hscratch : ceil8 s3.rc ≤ scratchBytes s1.w := by
    have hle := (length_encodeAll_rowCodes (currentRow s1)).2
    rw [← hscan.rc, length_currentRow] at hle
    simp only [scratchBytes, ceil8]
    omega
  refine .inr { hs1.emit hj hroom hrow with header := ?_, claimed := ?_, zeros := ?_ }
  · exact cmpHolds_headerOf_congr hs1.header fun q hq => hrow.kept q (by omega) (by omega)
  · exact hext ▸ hs1.claimed
  · intro q hle hlt'
    refine emit_keeps_zero hscan (fun k hk hk' => ?_) hlt h4 hle (hs1.zeros q (by omega) (by omega))
    exact scratch_zeros_of_scan h2 h3 hk (by omega)

/-- The outer loop of R184: what holds before its first row and is kept by every row that does not fail holds after its last, or
a row has failed. -/
theorem compressRows_induction {P : Nat → State → Prop} {h : Nat} (hbusy : ∀ {j s}, P j s → s.status.busy = true)
    (hrow : ∀ {j s t}, P j s → j < h → compressRow s = .ok t →
      t.status = { busy := false, done := true, fail := true } ∨ P (j + 1) t)
    {k j : Nat} {s t : State} (hk : j + k = h) (hs : P j s) (hrun : compressRows k s = .ok t) :
    t.status = { busy := false, done := true, fail := true } ∨ P h t := by
  induction k generalizing j s with
  | zero =>
    obtain rfl : s = t := by simpa [compressRows] using hrun
    obtain rfl : j = h := hk
    exact .inr hs
  | succ k ih =>
    obtain ⟨s1, h1, hrun⟩ := bind_eq_ok.1 hrun
    rcases hrow hs (by omega) h1 with hfail | hs1
    · rw [whileBusy_of_idle (by rw [hfail])] at hrun
      obtain rfl := Except.ok.inj hrun
      exact .inl hfail
    · rw [whileBusy_of_busy (hbusy hs1)] at hrun
      exact ih (by omega) hs1 hrun

/-! ### The command -/

/-- After `E_HEADER` the header stands in CMP and nothing above it is claimed (R173). -/
theorem rowsStreamed_zero {s t : State} (hb : s.status.busy = true) (h : eHeader s = .ok t) :
    RowsStreamed (storeList s .pix (s.w * s.h)) s.w s.h 0 t := by
  have hext : t.ext = 9 := (congrArg State.ext (eHeader_eq_ok h).1 :)
  refine { rowsCompressed_zero hb h with header := ?_, claimed := hext.ge, zeros := fun q hle hlt => by omega }
  obtain ⟨u, hu, h⟩ := bind_eq_ok.1 h
  obtain rfl := Except.ok.inj h
  obtain ⟨rfl, -⟩ := storeBytes_eq_ok hu
  intro a x hx
  show (placeBytes s .cmp 0 _).byteAt .cmp a = x
  rw [byteAt_placeBytes, if_pos ⟨rfl, Nat.zero_le _, by simpa using (List.getElem?_eq_some_iff.mp hx).1⟩, Nat.sub_zero,
    List.getD, hx, Option.getD_some]

/-- A `COMPRESS` of an image with pixels that succeeds ends with the stores, and the `EXT`, of a state after the last row (R184):
`E_FINISH` and the completion set only the results and the flags. -/
theorem rowsStreamed_of_compress {s t : State} (hb : s.status.busy = false) (hp : s.argPresent = true) (hw : 0 < s.argWidth.toInt)
    (hh : 0 < s.argHeight.toInt) (h : exec .compress s = .next t) (hf : t.status.fail = false) :
    ∃ u, RowsStreamed (storeList s .pix (s.argWidth.toNat * s.argHeight.toNat)) s.argWidth.toNat s.argHeight.toNat
        s.argHeight.toNat u ∧
      t.resLen = 9 + ceil8 u.cur ∧ t.ext = u.ext ∧ ∀ m a, t.byteAt m a = u.byteAt m a := by
  have hrun : compressBody (beginCommand 6 s) = .ok t := by
    rw [← toOutcome_eq_next, ← runCommand_of_idle hb]
    exact h
  obtain ⟨s1, h1, hrun⟩ := bind_eq_ok.1 hrun
  rcases eCheck_cases (s := beginCommand 6 s) hp hw hh h1 with hfail | rfl
  · rw [whileBusy_of_idle (by rw [hfail])] at hrun
    obtain rfl := Except.ok.inj hrun
    simp [hfail] at hf
  rw [whileBusy_of_busy rfl, if_neg (show EState.header ≠ .degenerate by decide)] at hrun
  obtain ⟨s3, h3, hrun⟩ := bind_eq_ok.1 hrun
  obtain ⟨u, h4, hrun⟩ := bind_eq_ok.1 hrun
  have hs3 := rowsStreamed_zero rfl h3
  rw [hs3.height] at h4
  rcases compressRows_induction (fun hs => hs.busy) (fun hs hj => hs.row_cases (toNat_pos_of_toInt_pos hw) hj)
    (Nat.zero_add _) hs3 h4 with hfail | hu
  · rw [whileBusy_of_idle (by rw [hfail])] at hrun
    obtain rfl := Except.ok.inj hrun
    simp [hfail] at hf
  rw [whileBusy_of_busy hu.busy] at hrun
  obtain rfl := Except.ok.inj hrun
  exact ⟨u, hu, rfl, rfl, fun m a => by cases m <;> rfl⟩

/-- The cursor after the last row is the length of the payload, which stands whole below it. -/
theorem RowsCompressed.payload {px : List Byte} {w h : Nat} {s : State} (hs : RowsCompressed px w h h s) :
    s.cur = (imageStream px w h).payload.length ∧ bitsAt s .cmp 72 (imageStream px w h).payload := by
  refine ⟨?_, bitsAt_append hs.pres ?_⟩
  · rw [hs.cur, Stream.payload, List.length_append, length_imageStream_pres]
  · rw [length_imageStream_pres]
    exact hs.codes

/-- Settles O35: the invariant of the rows at the last one, its header, payload and zeros put together by `cmpHolds_assemble`; the
pad bits are zeros since what `E_GROW` claimed ends at a whole byte above the cursor. -/
theorem compressedImageIsTheStream : Obligations.CompressedImageIsTheStream := by
  intro s t hb hp hw hh hrun hf
  obtain ⟨u, hu, hlen, -, hbytes⟩ := rowsStreamed_of_compress hb hp hw hh hrun hf
  obtain ⟨hcur, hbits⟩ := hu.toRowsCompressed.payload
  have hroom := hu.room (toNat_pos_of_toInt_pos hh)
  rw [hcur] at hlen hroom
  refine ⟨by rw [hlen, length_assemble], fun a x hx => (hbytes .cmp a).trans ?_⟩
  refine cmpHolds_assemble hu.header hbits (fun q hle hlt => hu.zeros q (by omega) ?_) a x hx
  rw [length_assemble, ceil8] at hlt
  omega

end Sys2Proof.Machine
end

