-- ==== Sys2Proof/Proofs/StreamCodes.lean ====
section
/-! PROOFS. The codes of the stream as `exec` runs them (R202, R205, R208, R210): the header that passes its checks, the white row, and
a chunk code, which puts its pixels at the chunk's place and moves the cursor past its bits. -/

namespace Sys2Proof.Machine

open Config (Store)

/-! ### The header -/

/-- Settles O24: none of checks 5 to 8 of R163 fails. -/
theorem headerIsAccepted : Obligations.HeaderIsAccepted := by
  intro s w h hw hh hlen hpix
  have hzero : h.toNat = 0 ↔ h = 0 := (BitVec.toNat_eq (y := 0#32)).symm
  have hcode : headerCode w h s = .ok { s with
      w := w.toNat, h := h.toNat, cur := h.toNat, row := 0, dstate := if h = 0 then .success else .readPresence } := by
    rw [headerCode, if_neg (by omega), if_neg (by omega), if_neg (by omega)]
    simp only [hzero]
  exact congrArg toOutcome hcode

/-! ### Fills -/

/-- A fill inside the store, or of no bytes, completes. -/
theorem storeFill_of_le {s : State} {m : Store} {a n : Nat} (v : Byte) (h : n = 0 ∨ a + n ≤ s.caps.cap m) :
    storeFill s m a n v = .ok (placeBytes s m a (List.replicate n v)) := by
  rcases h with rfl | h
  · rfl
  · exact storeBytes_of_le (by rwa [List.length_replicate])

/-- A byte inside a run of writes. -/
theorem byteAt_placeBytes_of_getElem? (s : State) (m : Store) (a : Nat) {xs : List Byte} {k : Nat} {x : Byte}
    (h : xs[k]? = some x) : (placeBytes s m a xs).byteAt m (a + k) = x := by
  have hlt : k < xs.length := (List.getElem?_eq_some_iff.mp h).1
  rw [byteAt_placeBytes, if_pos ⟨rfl, by omega, by omega⟩, Nat.add_sub_cancel_left, List.getD, h, Option.getD_some]

/-- A byte outside a run of writes. -/
theorem byteAt_placeBytes_other (s : State) {m m' : Store} {a b : Nat} {xs : List Byte}
    (h : ¬ (m' = m ∧ a ≤ b ∧ b < a + xs.length)) : (placeBytes s m a xs).byteAt m' b = s.byteAt m' b := by
  rw [byteAt_placeBytes, if_neg h]

/-! ### The white row -/

/-- `P0` with its row inside PIX (R205). -/
theorem presence0Code_of_le {s : State} (h : s.w = 0 ∨ rowAddr s + s.w ≤ s.caps.pixCap) :
    presence0Code s = .ok (decRowAdvance (placeBytes s .pix (rowAddr s) (List.replicate s.w Config.white))) := by
  rw [presence0Code, storeFill_of_le Config.white h, ok_bind]

/-- Settles O26: the row's bytes are the run that `P0` writes, and the row advance leaves the stores. -/
theorem p0FillsTheRowWhite : Obligations.P0FillsTheRowWhite := by
  intro s h
  refine ⟨_, congrArg toOutcome (presence0Code_of_le h), ?registers, fun x hx => ?filled, fun m a hout => ?kept⟩
  case registers => exact congrArg decRowAdvance (placeBytes_registers s .pix (rowAddr s) (List.replicate s.w Config.white))
  case filled =>
    rw [decRowAdvance_byteAt]
    exact byteAt_placeBytes_of_getElem? s .pix (rowAddr s) (List.getElem?_replicate_of_lt hx)
  case kept =>
    rw [decRowAdvance_byteAt]
    exact byteAt_placeBytes_other s (by rwa [List.length_replicate])

/-! ### The chunk codes -/

/-- A run of writes at the chunk's place and the end of a chunk code are the code's effect. -/
theorem chunkEffect_placeBytes (s : State) (bits : Nat) (px : List Byte) :
    chunkEffect s (chunkDone bits (placeBytes s .pix (chunkAddr s) px)) bits px := by
  refine ⟨congrArg (chunkDone bits) (placeBytes_registers s .pix (chunkAddr s) px), fun k x hx => ?_, fun m a hout => ?_⟩
  · rw [chunkDone_byteAt]
    exact byteAt_placeBytes_of_getElem? s .pix (chunkAddr s) hx
  · rw [chunkDone_byteAt]
    exact byteAt_placeBytes_other s hout

/-- R208, R210, R212: a code that can stand before a chunk of `N` pixels puts the pixels it stands for, and the cursor moves past its
encoding. -/
theorem runCode_of_fits_chunk {s : State} {i : Instr} (hi : i.fits (.chunk s.n) = true)
    (h : chunkAddr s + (codePixels s.n i).length ≤ s.caps.pixCap) :
    runCode i s = .ok (chunkDone (encode i).length (placeBytes s .pix (chunkAddr s) (codePixels s.n i))) := by
  have hstore : storeBytes s .pix (chunkAddr s) (codePixels s.n i) =
      .ok (placeBytes s .pix (chunkAddr s) (codePixels s.n i)) := storeBytes_of_le h
  have hrun : runCode i s = storeBytes s .pix (chunkAddr s) (codePixels s.n i) >>= fun t =>
      .ok (chunkDone (encode i).length t) := by
    cases i
    case w | b | l4 | l3 | l2 | l1 => rfl
    all_goals simp [Instr.fits] at hi
  rw [hrun, hstore, ok_bind]

/-- Settles O28: the fill completes, and the run it writes with the end of the code is the effect. -/
theorem whiteAndBlackFillTheChunk : Obligations.WhiteAndBlackFillTheChunk := by
  intro s h
  have hfill (v : Byte) : storeFill s .pix (chunkAddr s) s.n v =
      .ok (placeBytes s .pix (chunkAddr s) (List.replicate s.n v)) := storeFill_of_le v (.inr h)
  have hwhite : whiteCode s = .ok (chunkDone 1 (placeBytes s .pix (chunkAddr s) (List.replicate s.n Config.white))) := by
    rw [whiteCode, hfill, ok_bind]
  have hblack : blackCode s = .ok (chunkDone 2 (placeBytes s .pix (chunkAddr s) (List.replicate s.n Config.black))) := by
    rw [blackCode, hfill, ok_bind]
  exact ⟨⟨_, congrArg toOutcome hwhite, chunkEffect_placeBytes s 1 _⟩,
    ⟨_, congrArg toOutcome hblack, chunkEffect_placeBytes s 2 _⟩⟩

end Sys2Proof.Machine
end

