-- ==== Sys2Proof/Proofs/ChunkDecoding.lean ====
section
/-! PROOFS. The decoder on the bits at the cursor (R98 to R104): it accepts exactly the encodings of the codes that can stand before a
chunk, whatever follows them, and it fails only where the bits end inside a code. -/

namespace Sys2Proof

/-! ### Bytes from a stream -/

theorem byteBits_ofNat_bitsToNat (x0 x1 x2 x3 x4 x5 x6 x7 : Bool) :
    byteBits (BitVec.ofNat 8 (bitsToNat [x0, x1, x2, x3, x4, x5, x6, x7])) = [x0, x1, x2, x3, x4, x5, x6, x7] := by
  simp only [byteBits, BitVec.getLsbD_ofNat, testBit_bitsToNat]
  rfl

theorem takeByte_eq_some_iff {bits rest : List Bool} {x : Byte} :
    takeByte bits = some (x, rest) ↔ bits = byteBits x ++ rest := by
  constructor
  · intro h
    unfold takeByte at h
    split at h
    next =>
      obtain ⟨rfl, rfl⟩ := Prod.mk.inj (Option.some.inj h)
      rw [byteBits_ofNat_bitsToNat]
      rfl
    next => cases h
  · rintro rfl
    exact takeByte_byteBits_append x rest

theorem takeByte_of_length {bits : List Bool} (h : 8 ≤ bits.length) : ∃ x rest, takeByte bits = some (x, rest) := by
  match bits, h with
  | _ :: _ :: _ :: _ :: _ :: _ :: _ :: _ :: rest, _ => exact ⟨_, rest, rfl⟩

theorem takeBytes_eq_some_iff {n : Nat} {bits rest : List Bool} {xs : List Byte} :
    takeBytes n bits = some (xs, rest) ↔ xs.length = n ∧ bits = bytesBits xs ++ rest := by
  constructor
  · intro h
    induction n generalizing bits xs with
    | zero =>
      obtain ⟨rfl, rfl⟩ := Prod.mk.inj (Option.some.inj h)
      exact ⟨rfl, rfl⟩
    | succ n ih =>
      simp only [takeBytes] at h
      split at h
      next => cases h
      next x rest1 h1 =>
        split at h
        next => cases h
        next ys rest2 h2 =>
          obtain ⟨rfl, rfl⟩ := Prod.mk.inj (Option.some.inj h)
          obtain ⟨hlen, rfl⟩ := ih h2
          exact ⟨congrArg (· + 1) hlen, (takeByte_eq_some_iff.1 h1).trans (List.append_assoc _ _ _).symm⟩
  · rintro ⟨rfl, rfl⟩
    exact takeBytes_bytesBits_append xs rest

theorem takeBytes_of_length {n : Nat} {bits : List Bool} (h : 8 * n ≤ bits.length) :
    ∃ xs rest, takeBytes n bits = some (xs, rest) := by
  induction n generalizing bits with
  | zero => exact ⟨[], bits, rfl⟩
  | succ n ih =>
    obtain ⟨x, rest, h1⟩ := takeByte_of_length (bits := bits) (by omega)
    have hlen := congrArg List.length (takeByte_eq_some_iff.1 h1)
    rw [List.length_append, show (byteBits x).length = 8 from rfl] at hlen
    obtain ⟨xs, rest', h2⟩ := ih (bits := rest) (by omega)
    exact ⟨x :: xs, rest', by simp only [takeBytes, h1, h2]⟩

/-! ### Literals -/

/-- Every run of one to four bytes has its literal row (R101): it can stand before a chunk of that length, its bits are those of the
run, and the run is what it stands for. -/
theorem literalOf_of_length {xs : List Byte} (h : (Position.chunk xs.length).wf = true) :
    ∃ i, literalOf xs = .ok i ∧ i.fits (.chunk xs.length) = true ∧ encode i = literalBits xs ∧
      Machine.codePixels xs.length i = xs := by
  match xs, h with
  | [x0], _ => exact ⟨.l1 x0, rfl, rfl, rfl, rfl⟩
  | [x0, x1], _ => exact ⟨.l2 x0 x1, rfl, rfl, rfl, rfl⟩
  | [x0, x1, x2], _ => exact ⟨.l3 x0 x1 x2, rfl, rfl, rfl, rfl⟩
  | [x0, x1, x2, x3], _ => exact ⟨.l4 x0 x1 x2 x3, rfl, rfl, rfl, rfl⟩
  | [], h => exact absurd h (by decide)
  | _ :: _ :: _ :: _ :: _ :: _, h =>
    simp only [Position.wf, List.length_cons, decide_eq_true_eq] at h
    omega

/-- A code that can stand before a chunk of `n` pixels is `W`, `B` or the literal of `n` bytes (R103, R118). -/
theorem fits_chunk_cases {n : Nat} {i : Instr} (h : i.fits (.chunk n) = true) :
    (Position.chunk n).wf = true ∧
      (i = .w ∨ i = .b ∨ ∃ xs, xs.length = n ∧ literalOf xs = .ok i ∧ encode i = literalBits xs) := by
  cases i
  case w => exact ⟨h, .inl rfl⟩
  case b => exact ⟨h, .inr (.inl rfl)⟩
  case l4 x0 x1 x2 x3 =>
    obtain rfl : n = 4 := by simpa [Instr.fits] using h
    exact ⟨rfl, .inr (.inr ⟨[x0, x1, x2, x3], rfl, rfl, rfl⟩)⟩
  case l3 x0 x1 x2 =>
    obtain rfl : n = 3 := by simpa [Instr.fits] using h
    exact ⟨rfl, .inr (.inr ⟨[x0, x1, x2], rfl, rfl, rfl⟩)⟩
  case l2 x0 x1 =>
    obtain rfl : n = 2 := by simpa [Instr.fits] using h
    exact ⟨rfl, .inr (.inr ⟨[x0, x1], rfl, rfl, rfl⟩)⟩
  case l1 x0 =>
    obtain rfl : n = 1 := by simpa [Instr.fits] using h
    exact ⟨rfl, .inr (.inr ⟨[x0], rfl, rfl, rfl⟩)⟩
  all_goals simp [Instr.fits] at h

/-- A code stands for as many pixels as its chunk has. -/
theorem length_codePixels {n : Nat} {i : Instr} (h : i.fits (.chunk n) = true) : (Machine.codePixels n i).length = n := by
  obtain ⟨hn, rfl | rfl | ⟨xs, rfl, hlit, -⟩⟩ := fits_chunk_cases h
  · exact List.length_replicate
  · exact List.length_replicate
  · obtain ⟨j, hj, -, -, hpx⟩ := literalOf_of_length hn
    obtain rfl := Except.ok.inj (hj.symm.trans hlit)
    rw [hpx]

/-! ### The code at the cursor -/

theorem decode_chunk_literal {n : Nat} {xs : List Byte} {i : Instr} (hn : (Position.chunk n).wf = true) (hlen : xs.length = n)
    (hi : literalOf xs = .ok i) (rest : List Bool) :
    decode (.chunk n) (true :: true :: (bytesBits xs ++ rest)) = .ok (i, rest) := by
  simp only [decode, decodeChunk, hn, if_true, takeBytes_eq_some_iff.2 ⟨hlen, rfl⟩, hi]

/-- R98 to R104, R118: the decoder at a chunk accepts a code that can stand there followed by anything, and nothing else. -/
theorem decode_chunk_eq_ok_iff {n : Nat} {bits rest : List Bool} {i : Instr} :
    decode (.chunk n) bits = .ok (i, rest) ↔ i.fits (.chunk n) = true ∧ bits = encode i ++ rest := by
  constructor
  · intro h
    simp only [decode, decodeChunk] at h
    split at h
    case isFalse => cases h
    case isTrue hn =>
      split at h
      next => obtain ⟨rfl, rfl⟩ := Prod.mk.inj (Except.ok.inj h); exact ⟨hn, rfl⟩
      next => obtain ⟨rfl, rfl⟩ := Prod.mk.inj (Except.ok.inj h); exact ⟨hn, rfl⟩
      next tail =>
        split at h
        next => cases h
        next xs rest' htake =>
          obtain ⟨rfl, rfl⟩ := takeBytes_eq_some_iff.1 htake
          obtain ⟨j, hj, hfits, hbits, -⟩ := literalOf_of_length hn
          rw [hj] at h
          obtain ⟨rfl, rfl⟩ := Prod.mk.inj (Except.ok.inj h)
          exact ⟨hfits, by rw [hbits]; rfl⟩
      next => cases h
  · rintro ⟨hi, rfl⟩
    obtain ⟨hn, rfl | rfl | ⟨xs, hlen, hlit, hbits⟩⟩ := fits_chunk_cases hi
    · exact if_pos hn
    · exact if_pos hn
    · rw [hbits]
      exact decode_chunk_literal hn hlen hlit rest

/-- The decoder fails before a chunk only where the bits end inside a code. -/
theorem decode_chunk_error_cases {n : Nat} {bits : List Bool} {e : Reject} (hn : (Position.chunk n).wf = true)
    (h : decode (.chunk n) bits = .error e) :
    bits = [] ∨ bits = [true] ∨ ∃ tail, bits = true :: true :: tail ∧ tail.length < 8 * n := by
  match bits with
  | [] => exact .inl rfl
  | [true] => exact .inr (.inl rfl)
  | false :: rest => cases ((decode_chunk_eq_ok_iff (i := .w)).2 ⟨hn, rfl⟩).symm.trans h
  | true :: false :: rest => cases ((decode_chunk_eq_ok_iff (i := .b)).2 ⟨hn, rfl⟩).symm.trans h
  | true :: true :: tail =>
    refine .inr (.inr ⟨tail, rfl, Nat.lt_of_not_le fun hle => ?_⟩)
    obtain ⟨xs, rest, htake⟩ := takeBytes_of_length hle
    obtain ⟨rfl, rfl⟩ := takeBytes_eq_some_iff.1 htake
    obtain ⟨i, hi, -⟩ := literalOf_of_length hn
    cases (decode_chunk_literal hn rfl hi rest).symm.trans h

/-- Bits after a decoded code do not change it. -/
theorem decode_chunk_append {n : Nat} {bits rest : List Bool} {i : Instr} (h : decode (.chunk n) bits = .ok (i, rest))
    (more : List Bool) : decode (.chunk n) (bits ++ more) = .ok (i, rest ++ more) := by
  obtain ⟨hi, rfl⟩ := decode_chunk_eq_ok_iff.1 h
  exact decode_chunk_eq_ok_iff.2 ⟨hi, List.append_assoc _ _ _⟩

end Sys2Proof
end

