-- ==== Sys2Proof/Proofs/PayloadParser.lean ====
section
/-! PROOFS. The parse of a payload as a function of its bits alone (R203 to R213, R217, R218): from the bits at the cursor the pixels
and the bits that are left, or the cause of the failure. What the decoder does to a state is tied to it in `DecompressRuns`; here
stand what follows from the bits: how many pixels it makes, that bits after the parsed ones do not change it, and what it makes
of a well-formed stream. -/

namespace Sys2Proof.Machine

/-! ### The parser -/

/-- From the bits at the cursor: the pixels of some codes and the bits after them, or the cause the command fails with. -/
abbrev Parser := List Bool → Except Cause (List Byte × List Bool)

/-- The cause of a code that the buffer does not hold whole, from the bits that are left (R207, R209, R211). -/
def truncationCause : List Bool → Cause
  | []  => .prefix1OutOfBounds
  | [_] => .prefix2OutOfBounds
  | _   => .literalOutOfBounds

/-- One parser after the other. -/
def Parser.seq (p q : Parser) : Parser := fun bits =>
  match p bits with
  | .error c => .error c
  | .ok (px, mid) =>
      match q mid with
      | .error c => .error c
      | .ok (px', rest) => .ok (px ++ px', rest)

/-- The code of a chunk of `n` pixels (R207 to R212). -/
def parseChunk (n : Nat) : Parser := fun bits =>
  match decode (.chunk n) bits with
  | .ok (i, rest) => .ok (codePixels n i, rest)
  | .error _      => .error (truncationCause bits)

/-- The next `k` chunks of an encoded row of width `w`, from chunk `chk` on (R206). -/
def parseChunks (w : Nat) : Nat → Nat → Parser
  | 0,     _   => fun bits => .ok ([], bits)
  | k + 1, chk => (parseChunk (chunkLen w chk)).seq (parseChunks w k (chk + 1))

/-- A row of width `w`, by its presence bit (R204 to R206). -/
def parseRow (w : Nat) (present : Bool) : Parser :=
  if present then parseChunks w (chunks w) 0 else fun bits => .ok (List.replicate w Config.white, bits)

/-- The rows of the presence bits (R213). -/
def parseRows (w : Nat) : List Bool → Parser
  | []      => fun bits => .ok ([], bits)
  | p :: ps => (parseRow w p).seq (parseRows w ps)

/-- A whole payload of an image of height `h`: the presence bits come first (R93, R95, R96). -/
def parsePayload (w h : Nat) : Parser := fun bits => parseRows w (bits.take h) (bits.drop h)

/-! ### Two parsers in turn -/

theorem Parser.seq_of_error {p q : Parser} {bits : List Bool} {c : Cause} (hp : p bits = .error c) :
    p.seq q bits = .error c := by
  simp only [Parser.seq, hp]

theorem Parser.seq_of_ok_error {p q : Parser} {bits mid : List Bool} {px : List Byte} {c : Cause}
    (hp : p bits = .ok (px, mid)) (hq : q mid = .error c) : p.seq q bits = .error c := by
  simp only [Parser.seq, hp, hq]

theorem Parser.seq_of_ok_ok {p q : Parser} {bits mid rest : List Bool} {px px' : List Byte}
    (hp : p bits = .ok (px, mid)) (hq : q mid = .ok (px', rest)) : p.seq q bits = .ok (px ++ px', rest) := by
  simp only [Parser.seq, hp, hq]

theorem Parser.seq_eq_ok_iff {p q : Parser} {bits rest : List Bool} {px : List Byte} :
    p.seq q bits = .ok (px, rest) ↔
      ∃ px1 mid px2, p bits = .ok (px1, mid) ∧ q mid = .ok (px2, rest) ∧ px = px1 ++ px2 := by
  constructor
  · intro h
    cases hp : p bits with
    | error c => cases (Parser.seq_of_error hp).symm.trans h
    | ok r =>
      cases hq : q r.2 with
      | error c => cases (Parser.seq_of_ok_error hp hq).symm.trans h
      | ok r' =>
        obtain ⟨rfl, rfl⟩ := Prod.mk.inj (Except.ok.inj ((Parser.seq_of_ok_ok hp hq).symm.trans h))
        exact ⟨r.1, r.2, r'.1, rfl, hq, rfl⟩
  · rintro ⟨px1, mid, px2, hp, hq, rfl⟩
    exact Parser.seq_of_ok_ok hp hq

theorem parseChunk_eq_ok_iff {n : Nat} {bits rest : List Bool} {px : List Byte} :
    parseChunk n bits = .ok (px, rest) ↔ ∃ i, decode (.chunk n) bits = .ok (i, rest) ∧ px = codePixels n i := by
  unfold parseChunk
  cases h : decode (.chunk n) bits with
  | error e => simp
  | ok r =>
    obtain ⟨i, rest'⟩ := r
    simp [eq_comm, and_comm]

/-! ### How many pixels a parser makes -/

/-- Whatever the bits are, a parse that succeeds makes `n` pixels. -/
def Parser.Makes (p : Parser) (n : Nat) : Prop := ∀ bits px rest, p bits = .ok (px, rest) → px.length = n

theorem Parser.Makes.seq {p q : Parser} {m n : Nat} (hp : p.Makes m) (hq : q.Makes n) : (p.seq q).Makes (m + n) := by
  intro bits px rest h
  obtain ⟨px1, mid, px2, h1, h2, rfl⟩ := Parser.seq_eq_ok_iff.1 h
  rw [List.length_append, hp _ _ _ h1, hq _ _ _ h2]

theorem makes_const (px : List Byte) : Parser.Makes (fun bits => .ok (px, bits)) px.length := by
  intro bits px' rest h
  obtain ⟨rfl, -⟩ := Prod.mk.inj (Except.ok.inj h)
  rfl

theorem parseChunk_makes (n : Nat) : (parseChunk n).Makes n := by
  intro bits px rest h
  obtain ⟨i, hi, rfl⟩ := parseChunk_eq_ok_iff.1 h
  exact length_codePixels (decode_chunk_eq_ok_iff.1 hi).1

/-- The chunks up to the end of a row cover the rest of it (R10). -/
theorem parseChunks_makes {w k chk : Nat} (hk : chk + k = chunks w) : (parseChunks w k chk).Makes (w - 4 * chk) := by
  induction k generalizing chk with
  | zero =>
    rw [show w - 4 * chk = ([] : List Byte).length by simp only [chunks] at hk; simp only [List.length_nil]; omega]
    exact makes_const []
  | succ k ih =>
    rw [show w - 4 * chk = chunkLen w chk + (w - 4 * (chk + 1)) by simp only [chunkLen]; omega]
    exact (parseChunk_makes _).seq (ih (by omega))

theorem parseRow_makes (w : Nat) (present : Bool) : (parseRow w present).Makes w := by
  cases present with
  | true => exact parseChunks_makes (chk := 0) (Nat.zero_add _)
  | false => simpa [parseRow] using makes_const (List.replicate w Config.white)

theorem parseRows_makes (w : Nat) (pres : List Bool) : (parseRows w pres).Makes (pres.length * w) := by
  induction pres with
  | nil =>
    rw [List.length_nil, Nat.zero_mul]
    exact makes_const []
  | cons p ps ih =>
    rw [List.length_cons, Nat.succ_mul, Nat.add_comm]
    exact (parseRow_makes w p).seq ih

theorem parsePayload_length {w h : Nat} {bits rest : List Bool} {px : List Byte} (hh : h ≤ bits.length)
    (hp : parsePayload w h bits = .ok (px, rest)) : px.length = w * h := by
  rw [parseRows_makes w _ _ _ _ hp, List.length_take, Nat.min_eq_left hh, Nat.mul_comm]

/-! ### Bits that are not parsed -/

/-- Bits after those that a parse needs are left, and do not change it. -/
def Parser.Extends (p : Parser) : Prop :=
  ∀ bits px rest more, p bits = .ok (px, rest) → p (bits ++ more) = .ok (px, rest ++ more)

theorem Parser.Extends.seq {p q : Parser} (hp : p.Extends) (hq : q.Extends) : (p.seq q).Extends := by
  intro bits px rest more h
  obtain ⟨px1, mid, px2, h1, h2, rfl⟩ := Parser.seq_eq_ok_iff.1 h
  exact Parser.seq_eq_ok_iff.2 ⟨px1, _, px2, hp _ _ _ more h1, hq _ _ _ more h2, rfl⟩

theorem extends_const (px : List Byte) : Parser.Extends (fun bits => .ok (px, bits)) := by
  intro bits px' rest more h
  obtain ⟨rfl, rfl⟩ := Prod.mk.inj (Except.ok.inj h)
  rfl

theorem parseChunk_extends (n : Nat) : (parseChunk n).Extends := by
  intro bits px rest more h
  obtain ⟨i, hi, hpx⟩ := parseChunk_eq_ok_iff.1 h
  exact parseChunk_eq_ok_iff.2 ⟨i, decode_chunk_append hi more, hpx⟩

theorem parseChunks_extends (w k chk : Nat) : (parseChunks w k chk).Extends := by
  induction k generalizing chk with
  | zero => exact extends_const []
  | succ k ih => exact (parseChunk_extends _).seq (ih _)

theorem parseRow_extends (w : Nat) (present : Bool) : (parseRow w present).Extends := by
  cases present with
  | true => exact parseChunks_extends w _ 0
  | false => exact extends_const _

theorem parseRows_extends (w : Nat) (pres : List Bool) : (parseRows w pres).Extends := by
  induction pres with
  | nil => exact extends_const []
  | cons p ps ih => exact (parseRow_extends w p).seq ih

theorem parsePayload_append {w h : Nat} {bits rest : List Bool} {px : List Byte} (hh : h ≤ bits.length)
    (hp : parsePayload w h bits = .ok (px, rest)) (more : List Bool) :
    parsePayload w h (bits ++ more) = .ok (px, rest ++ more) := by
  rw [parsePayload, List.take_append_of_le_length hh, List.drop_append_of_le_length hh]
  exact parseRows_extends w _ _ _ _ more hp

/-! ### Streams -/

/-- The codes of a row that fit it are parsed to the row's pixels. -/
theorem parseChunks_codes {w chk : Nat} {codes : List Instr} (h : rowFits w chk codes = true) (rest : List Bool) :
    parseChunks w (chunks w - chk) chk (encodeAll codes ++ rest) = .ok (rowPixels w chk codes, rest) := by
  induction codes generalizing chk with
  | nil =>
    obtain rfl : chk = chunks w := by simpa [rowFits] using h
    rw [Nat.sub_self]
    rfl
  | cons c cs ih =>
    simp only [rowFits, Bool.and_eq_true, decide_eq_true_eq] at h
    obtain ⟨⟨hlt, hfit⟩, hrest⟩ := h
    rw [show chunks w - chk = (chunks w - (chk + 1)) + 1 by omega, encodeAll, List.append_assoc]
    exact Parser.seq_eq_ok_iff.2
      ⟨_, _, _, parseChunk_eq_ok_iff.2 ⟨c, decode_chunk_eq_ok_iff.2 ⟨hfit, rfl⟩, rfl⟩, ih hrest, rfl⟩

/-- The presence bits and the codes of the rows that are present are parsed to the rows' pixels (R217). -/
theorem parseRows_stream {w : Nat} {pres : List Bool} {rows : List (List Instr)}
    (hlen : rows.length = (pres.filter (· = true)).length) (hfit : rows.all (rowFits w 0) = true) (rest : List Bool) :
    parseRows w pres (encodeAll rows.flatten ++ rest) = .ok (rowsPixels w pres rows, rest) := by
  induction pres generalizing rows with
  | nil =>
    obtain rfl : rows = [] := List.eq_nil_of_length_eq_zero hlen
    rfl
  | cons p ps ih =>
    cases p with
    | false =>
      exact Parser.seq_eq_ok_iff.2 ⟨_, _, _, rfl, ih (by simpa using hlen) hfit, rfl⟩
    | true =>
      cases rows with
      | nil => simp at hlen
      | cons r rs =>
        rw [List.all_cons, Bool.and_eq_true] at hfit
        rw [List.flatten_cons, encodeAll_append, List.append_assoc]
        exact Parser.seq_eq_ok_iff.2
          ⟨_, _, _, parseChunks_codes hfit.1 _, ih (by simpa using hlen) hfit.2, rfl⟩

/-- R217: the payload of a stream whose presence bits and codes fit the width and the height is parsed to the pixels it stands for,
whatever follows it. -/
theorem parsePayload_stream {st : Stream} {w h : Nat} (hpres : st.pres.length = h)
    (hlen : st.rows.length = (st.pres.filter (· = true)).length) (hfit : st.rows.all (rowFits w 0) = true)
    (rest : List Bool) :
    parsePayload w h (st.payload ++ rest) = .ok (rowsPixels w st.pres st.rows, rest) := by
  rw [parsePayload, Stream.payload, List.append_assoc, List.take_left' hpres, List.drop_left' hpres]
  exact parseRows_stream hlen hfit rest

end Sys2Proof.Machine
end

