-- ==== Sys2Proof/Proofs/ImageStream.lean ====
section
/-! PROOFS. The stream of an image (R185) fits the image's size and stands for its pixels (R217): chunk by chunk, row by row. -/

namespace Sys2Proof.Machine

/-! ### One chunk -/

/-- A chunk of one to four pixels has a code that can stand before it and stands for its pixels. -/
theorem chunkCode_stands_for {px : List Byte} (h : (Position.chunk px.length).wf = true) :
    (chunkCode px).fits (.chunk px.length) = true ∧ codePixels px.length (chunkCode px) = px := by
  have huniform {v : Byte} (hv : px.all (· == v) = true) : List.replicate px.length v = px :=
    (List.eq_replicate_iff.2 ⟨rfl, by simpa using hv⟩).symm
  unfold chunkCode
  split
  case isTrue hwhite => exact ⟨h, huniform hwhite⟩
  case isFalse =>
    split
    case isTrue hblack => exact ⟨h, huniform hblack⟩
    case isFalse =>
      obtain ⟨i, hi, hfit, -, hpx⟩ := literalOf_of_length h
      rw [hi]
      exact ⟨hfit, hpx⟩

theorem chunkLen_wf {w k : Nat} (h : k < chunks w) : (Position.chunk (chunkLen w k)).wf = true := by
  refine decide_eq_true (p := 1 ≤ chunkLen w k ∧ chunkLen w k ≤ 4) ?_
  simp only [chunks, chunkLen] at h ⊢
  omega

/-! ### The chunks of a row -/

/-- The codes of a row's chunks, from chunk `i` to the last, fit the row and stand for the rest of its pixels. -/
theorem chunkRunCodes_stand_for {row : List Byte} {i k : Nat} (hk : i + k = chunks row.length) :
    rowFits row.length i (chunkRunCodes row i k) = true ∧
      rowPixels row.length i (chunkRunCodes row i k) = row.drop (4 * i) := by
  induction k generalizing i with
  | zero =>
    refine ⟨by simpa [chunkRunCodes, rowFits] using hk, (List.drop_eq_nil_of_le ?_).symm⟩
    simp only [chunks] at hk
    omega
  | succ k ih =>
    have hlt : i < chunks row.length := by omega
    have hchunk := chunkCode_stands_for (px := rowChunk row i) (by rw [length_rowChunk]; exact chunkLen_wf hlt)
    rw [length_rowChunk] at hchunk
    obtain ⟨hfit, hpx⟩ := hchunk
    obtain ⟨hfits, hrest⟩ := ih (i := i + 1) (by omega)
    have hcons : chunkRunCodes row i (k + 1) = chunkCode (rowChunk row i) :: chunkRunCodes row (i + 1) k := by
      rw [Nat.add_comm k 1, chunkRunCodes_add]
      rfl
    rw [hcons]
    refine ⟨?_, ?_⟩
    · rw [rowFits, decide_eq_true hlt, hfit, hfits]
      rfl
    · rw [rowPixels, hpx, hrest, rowChunk, Nat.mul_succ, ← List.drop_drop, List.take_append_drop]

theorem rowFits_rowCodes (row : List Byte) : rowFits row.length 0 (rowCodes row) = true := by
  rw [← chunkRunCodes_all]
  exact (chunkRunCodes_stand_for (Nat.zero_add _)).1

theorem rowPixels_rowCodes (row : List Byte) : rowPixels row.length 0 (rowCodes row) = row := by
  rw [← chunkRunCodes_all, (chunkRunCodes_stand_for (Nat.zero_add _)).2]
  rfl

/-! ### The rows of an image -/

/-- Rows of one width: a row without presence bit is white, and the codes of the others stand for them. -/
theorem rowsPixels_rowCodes {w : Nat} {rows : List (List Byte)} (h : ∀ row ∈ rows, row.length = w) :
    rowsPixels w (rows.map rowPresent) ((rows.filter rowPresent).map rowCodes) = rows.flatten := by
  induction rows with
  | nil => rfl
  | cons row rows ih =>
    rw [List.forall_mem_cons] at h
    obtain ⟨rfl, hrows⟩ := h
    rw [List.map_cons, List.flatten_cons, ← ih hrows]
    cases hp : rowPresent row with
    | false =>
      have hwhite : List.replicate row.length Config.white = row :=
        (List.eq_replicate_iff.2 ⟨rfl, by simpa [rowPresent] using hp⟩).symm
      rw [List.filter_cons_of_neg (by simp [hp]), rowsPixels, hwhite]
    | true => rw [List.filter_cons_of_pos hp, List.map_cons, rowsPixels, rowPixels_rowCodes]

theorem length_of_mem_imageRows {px row : List Byte} {w h : Nat} (hpx : px.length = w * h) (hrow : row ∈ imageRows px w h) :
    row.length = w := by
  obtain ⟨j, hj, rfl⟩ := List.mem_map.1 hrow
  have hle : w * (j + 1) ≤ w * h := Nat.mul_le_mul_left w (List.mem_range.1 hj)
  rw [Nat.mul_succ, Nat.mul_comm w j] at hle
  rw [imageRow, List.length_take, List.length_drop]
  omega

/-- The first `j` rows are the first `j * w` pixels. -/
theorem flatten_imageRows_take (px : List Byte) (w j : Nat) : (imageRows px w j).flatten = px.take (j * w) := by
  induction j with
  | zero => simp [imageRows]
  | succ j ih =>
    have hrows : imageRows px w (j + 1) = imageRows px w j ++ [imageRow px w j] := by simp [imageRows, List.range_succ]
    rw [hrows, List.flatten_append, ih, List.flatten_singleton, imageRow, Nat.succ_mul, List.take_add]

theorem imageStream_rows_length (px : List Byte) (w h : Nat) :
    (imageStream px w h).rows.length = ((imageStream px w h).pres.filter (· = true)).length := by
  simp [imageStream, List.filter_map, Function.comp_def]

/-- The codes of the rows that are present fit their rows. -/
theorem imageStream_rows_fit {px : List Byte} {w h : Nat} (hpx : px.length = w * h) :
    (imageStream px w h).rows.all (rowFits w 0) = true := by
  simp only [imageStream, List.all_eq_true, List.mem_map, List.mem_filter]
  rintro codes ⟨row, ⟨hrow, -⟩, rfl⟩
  rw [← length_of_mem_imageRows hpx hrow]
  exact rowFits_rowCodes row

/-- The stream of an image stands for its pixels. -/
theorem rowsPixels_imageStream {px : List Byte} {w h : Nat} (hpx : px.length = w * h) :
    rowsPixels w (imageStream px w h).pres (imageStream px w h).rows = px := by
  rw [imageStream, rowsPixels_rowCodes fun row hrow => length_of_mem_imageRows hpx hrow, flatten_imageRows_take,
    List.take_of_length_le (by rw [hpx, Nat.mul_comm])]

/-- R185, R217, R219: the payload of an image is parsed to the image, whatever follows it. -/
theorem parsePayload_imageStream {px : List Byte} {w h : Nat} (hpx : px.length = w * h) (rest : List Bool) :
    parsePayload w h ((imageStream px w h).payload ++ rest) = .ok (px, rest) := by
  have hparse := parsePayload_stream (length_imageStream_pres px w h) (imageStream_rows_length px w h)
    (imageStream_rows_fit hpx) rest
  rwa [rowsPixels_imageStream hpx] at hparse

end Sys2Proof.Machine
end

