-- ==== Sys2Proof/Proofs/DecompressRuns.lean ====
section
/-! PROOFS. The loops of `DECOMPRESS` (R203 to R217) do to the state what the parser of `PayloadParser` makes of the bits at the
cursor: the pixels stand in PIX and the cursor is past the parsed bits, or the command has failed with the parser's cause. No
access of a loop faults, since every bit that is read is contained in the buffer and every pixel is one of the image. -/

namespace Sys2Proof.Machine

/-! ### The decoder inside a command -/

/-- What the loops leave alone: every register but those of the parse in progress. -/
def State.parseFixed (s : State) : State :=
  { s.registers with row := 0, chk := 0, n := 0, cur := 0, dstate := .idle }

/-- The command runs, and the checks of R163 have passed. -/
structure Parsing (s : State) : Prop where
  busy   : s.status.busy = true
  len    : s.l ≤ s.caps.cmpCap
  bitmap : 9 + ceil8 s.h ≤ s.l
  pixels : s.w * s.h ≤ s.caps.pixCap

theorem Parsing.congr {s t : State} (hs : Parsing s) (h : t.parseFixed = s.parseFixed) : Parsing t := by
  have hcaps : t.caps = s.caps := (congrArg State.caps h :)
  have hw : t.w = s.w := (congrArg State.w h :)
  have hh : t.h = s.h := (congrArg State.h h :)
  have hl : t.l = s.l := (congrArg State.l h :)
  constructor
  case busy => exact (congrArg (·.status.busy) h :).trans hs.busy
  case len => rw [hl, hcaps]; exact hs.len
  case bitmap => rw [hl, hh]; exact hs.bitmap
  case pixels => rw [hw, hh, hcaps]; exact hs.pixels

/-- The bits from the cursor to the end of the buffer of `L` bytes are `bits`. -/
structure Unread (s : State) (bits : List Bool) : Prop where
  length : s.cur + bits.length = 8 * (s.l - 9)
  bit    : ∀ k x, bits[k]? = some x → sliceBit s .cmp 9 (s.cur + k) = x

theorem Unread.contained_iff {s : State} {bits : List Bool} (h : Unread s bits) (k : Nat) :
    contained s.l (s.cur + k) ↔ k < bits.length := by
  have hlen := h.length
  simp only [contained, Config.headerBytes]
  omega

/-- A bit that is left can be read (R203). -/
theorem Unread.bitRead {s : State} {bits : List Bool} (h : Unread s bits) (hl : s.l ≤ s.caps.cmpCap) {k : Nat} {x : Bool}
    (hx : bits[k]? = some x) : bitRead s .cmp payloadBase (s.cur + k) = .ok x := by
  have hin : contained s.l (s.cur + k) := (h.contained_iff k).2 (List.getElem?_eq_some_iff.mp hx).1
  exact (bitRead_of_lt (m := .cmp) (Nat.lt_of_lt_of_le hin hl)).trans (congrArg Except.ok (h.bit k x hx))

/-- After the cursor has moved past `xs` the bits after them are left. -/
theorem Unread.advance {s t : State} {xs bits : List Bool} (h : Unread s (xs ++ bits)) (hl : t.l = s.l)
    (hcur : t.cur = s.cur + xs.length) (hcmp : ∀ a, t.byteAt .cmp a = s.byteAt .cmp a) : Unread t bits := by
  have hlen := h.length
  rw [List.length_append] at hlen
  refine ⟨by omega, fun k x hx => ?_⟩
  rw [sliceBit_congr hcmp, hcur, Nat.add_assoc]
  refine h.bit _ _ ?_
  rw [List.getElem?_append_right (Nat.le_add_right _ _), Nat.add_sub_cancel_left, hx]

/-! ### Fetching the code at the cursor -/

theorem fetchChunk_give {s : State} {bits rest : List Bool} {i : Instr} (h : decode (.chunk s.n) bits = .ok (i, rest)) :
    fetchChunk.give s bits = .ok (.code i s) := by
  rw [fetchChunk.give, h]

/-- The tests and the reads of a fetch, by the bits that are left (R207, R209, R211). -/
theorem fetchChunk_eq {s : State} {bits : List Bool} (hl : s.l ≤ s.caps.cmpCap) (h : Unread s bits) :
    fetchChunk s =
      match bits with
      | []                   => .ok (.failed (decFail (truncationCause []) s))
      | false :: _           => fetchChunk.give s [false]
      | [true]               => .ok (.failed (decFail (truncationCause [true]) s))
      | true :: false :: _   => fetchChunk.give s [true, false]
      | true :: true :: tail =>
          if tail.length < 8 * s.n then .ok (.failed (decFail (truncationCause (true :: true :: tail)) s))
          else chunkRead s .cmp payloadBase (s.cur + 2) s.n >>= fun out =>
            fetchChunk.give s (true :: true :: bytesBits out) := by
  have hfirst : contained s.l s.cur ↔ 0 < bits.length := h.contained_iff 0
  have hsecond : contained s.l (s.cur + 1) ↔ 1 < bits.length := h.contained_iff 1
  have hread1 {x : Bool} (hx : bits[0]? = some x) : bitRead s .cmp payloadBase s.cur = .ok x := h.bitRead hl hx
  have hread2 {x : Bool} (hx : bits[1]? = some x) : bitRead s .cmp payloadBase (s.cur + 1) = .ok x := h.bitRead hl hx
  match bits with
  | [] => exact if_pos (mt hfirst.1 (by decide))
  | false :: _ =>
    rw [fetchChunk, if_neg (not_not.2 (hfirst.2 (by simp))), hread1 rfl]
    rfl
  | [true] =>
    rw [fetchChunk, if_neg (not_not.2 (hfirst.2 (by simp))), hread1 rfl, ok_bind, if_neg (by decide),
      if_pos (mt hsecond.1 (by decide))]
    rfl
  | true :: false :: _ =>
    rw [fetchChunk, if_neg (not_not.2 (hfirst.2 (by simp))), hread1 rfl, ok_bind, if_neg (by decide),
      if_neg (not_not.2 (hsecond.2 (by simp))), hread2 rfl]
    rfl
  | true :: true :: tail =>
    have hspan : ¬ contained s.l (s.cur + 2 + 8 * s.n - 1) ↔ tail.length < 8 * s.n := by
      rw [show s.cur + 2 + 8 * s.n - 1 = s.cur + (1 + 8 * s.n) by omega, h.contained_iff]
      simp only [List.length_cons]
      omega
    rw [fetchChunk, if_neg (not_not.2 (hfirst.2 (by simp))), hread1 rfl, ok_bind, if_neg (by decide),
      if_neg (not_not.2 (hsecond.2 (by simp))), hread2 rfl, ok_bind, if_neg (by decide)]
    simp only [hspan]
    rfl

/-- The bytes of a literal are read whole (R211, R212). -/
theorem Unread.chunkRead {s : State} {xs : List Byte} {rest : List Bool} (h : Unread s (literalBits xs ++ rest))
    (hl : s.l ≤ s.caps.cmpCap) : chunkRead s .cmp payloadBase (s.cur + 2) xs.length = .ok xs := by
  have hlen := h.length
  simp only [literalBits, List.length_append, List.length_cons, length_bytesBits] at hlen
  obtain ⟨out, hout⟩ := (chunkRead_completes_iff (s := s) (m := .cmp) (base := payloadBase) (b := s.cur + 2)
    (n := xs.length)).2 (.inr (by simp only [payloadBase, Config.headerBytes, Config.Caps.cap]; omega))
  obtain ⟨houtlen, hbits⟩ := chunkRead_eq_ok hout
  rw [hout, eq_of_listBit_eq houtlen fun t ht => ?_]
  have hget : (literalBits xs ++ rest)[2 + t]? = some (listBit xs t) := by
    have hin : t < (bytesBits xs).length := by rw [length_bytesBits]; omega
    rw [Nat.add_comm, literalBits, List.cons_append, List.cons_append, List.getElem?_cons_succ, List.getElem?_cons_succ,
      List.getElem?_append_left hin, ← getD_bytesBits, List.getD_eq_getElem _ _ hin, List.getElem?_eq_getElem hin]
  rw [hbits t (by omega), Nat.add_assoc]
  exact h.bit _ _ hget

/-- A code that stands whole at the cursor is fetched. -/
theorem fetchChunk_of_code {s : State} {i : Instr} {rest : List Bool} (hl : s.l ≤ s.caps.cmpCap)
    (hi : i.fits (.chunk s.n) = true) (h : Unread s (encode i ++ rest)) : fetchChunk s = .ok (.code i s) := by
  obtain ⟨-, rfl | rfl | ⟨xs, hlen, -, hbits⟩⟩ := fits_chunk_cases hi
  · exact (fetchChunk_eq hl h).trans (fetchChunk_give (decode_chunk_eq_ok_iff.2 ⟨hi, rfl⟩))
  · exact (fetchChunk_eq hl h).trans (fetchChunk_give (decode_chunk_eq_ok_iff.2 ⟨hi, rfl⟩))
  · have hdecode : decode (.chunk s.n) (true :: true :: bytesBits xs) = .ok (i, []) :=
      decode_chunk_eq_ok_iff.2 ⟨hi, by rw [hbits, List.append_nil]; rfl⟩
    have hfull : ¬ (bytesBits xs ++ rest).length < 8 * s.n := by
      rw [List.length_append, length_bytesBits, hlen]
      omega
    rw [hbits] at h
    have hread := h.chunkRead hl
    rw [hlen] at hread
    refine (fetchChunk_eq hl h).trans ((if_neg hfull).trans ?_)
    rw [hread, ok_bind, fetchChunk_give hdecode]

/-- Where the buffer ends inside the code at the cursor the command fails, with the cause of the first bit or span that is not
contained. -/
theorem fetchChunk_of_error {s : State} {bits : List Bool} {e : Reject} (hl : s.l ≤ s.caps.cmpCap)
    (hn : (Position.chunk s.n).wf = true) (h : Unread s bits) (he : decode (.chunk s.n) bits = .error e) :
    fetchChunk s = .ok (.failed (decFail (truncationCause bits) s)) := by
  rcases decode_chunk_error_cases hn he with rfl | rfl | ⟨tail, rfl, hshort⟩
  · exact fetchChunk_eq hl h
  · exact fetchChunk_eq hl h
  · exact (fetchChunk_eq hl h).trans (if_pos hshort)

/-! ### What a part of the parse does -/

/-- `t` is `s` after codes that put the pixels `px` at address `a` of the image and left the bits `rest`. -/
structure Decoded (s t : State) (a : Nat) (px : List Byte) (rest : List Bool) : Prop where
  fixed  : t.parseFixed = s.parseFixed
  inside : a + px.length ≤ s.w * s.h
  bytes  : ∀ m b, t.byteAt m b =
    if m = .pix ∧ a ≤ b ∧ b < a + px.length then px.getD (b - a) 0 else s.byteAt m b
  unread : Unread t rest

/-- `u` is `s` but for the registers of the parse and the pixels of the image. -/
structure DiffersInImage (s u : State) : Prop where
  fixed : u.parseFixed = s.parseFixed
  kept  : ∀ m b, ¬ (m = .pix ∧ b < s.w * s.h) → u.byteAt m b = s.byteAt m b

theorem Decoded.cmp {s t : State} {a : Nat} {px : List Byte} {rest : List Bool} (h : Decoded s t a px rest) (b : Nat) :
    t.byteAt .cmp b = s.byteAt .cmp b := by
  rw [h.bytes, if_neg (fun hin => by cases hin.1)]

theorem Decoded.differs {s t : State} {a : Nat} {px : List Byte} {rest : List Bool} (h : Decoded s t a px rest) :
    DiffersInImage s t := by
  refine ⟨h.fixed, fun m b hout => ?_⟩
  have hinside := h.inside
  rw [h.bytes, if_neg]
  rintro ⟨rfl, -, hb⟩
  exact hout ⟨rfl, by omega⟩

theorem DiffersInImage.trans {s t u : State} (h1 : DiffersInImage s t) (h2 : DiffersInImage t u) : DiffersInImage s u := by
  have hw : t.w = s.w := (congrArg State.w h1.fixed :)
  have hh : t.h = s.h := (congrArg State.h h1.fixed :)
  refine ⟨h2.fixed.trans h1.fixed, fun m b hout => ?_⟩
  rw [h2.kept m b (by rwa [hw, hh]), h1.kept m b hout]

/-- Registers of the parse other than the cursor do not matter to what was decoded. -/
theorem Decoded.congr {s t u : State} {a : Nat} {px : List Byte} {rest : List Bool} (h : Decoded s t a px rest)
    (hfixed : u.parseFixed = t.parseFixed) (hcur : u.cur = t.cur) (hbytes : ∀ m b, u.byteAt m b = t.byteAt m b) :
    Decoded s u a px rest where
  fixed := hfixed.trans h.fixed
  inside := h.inside
  bytes m b := (hbytes m b).trans (h.bytes m b)
  unread := Unread.advance (xs := []) h.unread (congrArg State.l hfixed :) hcur (hbytes .cmp)

theorem Decoded.congr_left {s s' t : State} {a : Nat} {px : List Byte} {rest : List Bool} (h : Decoded s' t a px rest)
    (hfixed : s'.parseFixed = s.parseFixed) (hbytes : ∀ m b, s'.byteAt m b = s.byteAt m b) : Decoded s t a px rest where
  fixed := h.fixed.trans hfixed
  inside := by
    have hw : s'.w = s.w := (congrArg State.w hfixed :)
    have hh : s'.h = s.h := (congrArg State.h hfixed :)
    rw [← hw, ← hh]
    exact h.inside
  bytes m b := by rw [h.bytes, hbytes]
  unread := h.unread

theorem Decoded.refl {s : State} {a : Nat} {bits : List Bool} (ha : a ≤ s.w * s.h) (hu : Unread s bits) :
    Decoded s s a [] bits where
  fixed := rfl
  inside := ha
  bytes m b := by
    rw [if_neg]
    rintro ⟨-, h1, h2⟩
    simp only [List.length_nil] at h2
    omega
  unread := hu

theorem Decoded.append {s t u : State} {a : Nat} {px px' : List Byte} {mid rest : List Bool} (h1 : Decoded s t a px mid)
    (h2 : Decoded t u (a + px.length) px' rest) : Decoded s u a (px ++ px') rest where
  fixed := h2.fixed.trans h1.fixed
  inside := by
    have hw : t.w = s.w := (congrArg State.w h1.fixed :)
    have hh : t.h = s.h := (congrArg State.h h1.fixed :)
    have hinside := h2.inside
    rw [hw, hh] at hinside
    rw [List.length_append]
    omega
  bytes m b := by
    rw [h2.bytes, h1.bytes, List.length_append]
    by_cases hm : m = .pix
    · by_cases hb : b < a + px.length
      · rw [if_neg (by omega)]
        by_cases ha : a ≤ b
        · rw [if_pos ⟨hm, ha, hb⟩, if_pos ⟨hm, ha, by omega⟩, List.getD_append _ _ _ _ (by omega)]
        · rw [if_neg (by omega), if_neg (by omega)]
      · rw [List.getD_append_right _ _ _ _ (by omega), show b - a - px.length = b - (a + px.length) by omega]
        by_cases hlt : b < a + px.length + px'.length
        · rw [if_pos ⟨hm, by omega, hlt⟩, if_pos ⟨hm, by omega, by omega⟩]
        · rw [if_neg (by omega), if_neg (by omega), if_neg (by omega)]
    · simp [hm]
  unread := h2.unread

/-- The result of a part of the decoder that started at `s`, on what the parser says of the bits at the cursor: the pixels stand from
address `a` up and `Q` holds, or the command has failed with the cause. -/
def Follows (res : Res State) (s : State) (a : Nat) (Q : State → Prop) : Except Cause (List Byte × List Bool) → Prop
  | .ok (px, rest) => ∃ t, res = .ok t ∧ Decoded s t a px rest ∧ Q t
  | .error c       => ∃ u, res = .ok (decFail c u) ∧ DiffersInImage s u

/-- A second part that starts where a first one that succeeded has stopped. -/
theorem Follows.seq {res : Res State} {g : State → Res State} {s : State} {a : Nat} {p q : Parser} {bits : List Bool}
    {Q R : State → Prop} (hs : Parsing s) (h1 : Follows res s a Q (p bits))
    (h2 : ∀ t px mid, p bits = .ok (px, mid) → Decoded s t a px mid → Q t → Follows (g t) t (a + px.length) R (q mid)) :
    Follows (res >>= whileBusy g) s a R (p.seq q bits) := by
  cases hp : p bits with
  | error c =>
    rw [hp] at h1
    obtain ⟨u, rfl, hu⟩ := h1
    rw [Parser.seq_of_error hp, ok_bind, whileBusy_of_idle rfl]
    exact ⟨u, rfl, hu⟩
  | ok r =>
    obtain ⟨px, mid⟩ := r
    rw [hp] at h1
    obtain ⟨t, rfl, ht, hQ⟩ := h1
    have hg := h2 t px mid hp ht hQ
    rw [ok_bind, whileBusy_of_busy (hs.congr ht.fixed).busy]
    cases hq : q mid with
    | error c =>
      rw [hq] at hg
      obtain ⟨u, hres, hu⟩ := hg
      rw [Parser.seq_of_ok_error hp hq]
      exact ⟨u, hres, ht.differs.trans hu⟩
    | ok r' =>
      obtain ⟨px', rest⟩ := r'
      rw [hq] at hg
      obtain ⟨u, hres, hu, hR⟩ := hg
      rw [Parser.seq_of_ok_ok hp hq]
      exact ⟨u, hres, ht.append hu, hR⟩

/-- A last action that changes only registers of the parse other than the cursor. -/
theorem Follows.finish {res : Res State} {g : State → Res State} {f : State → State} {s : State} {a : Nat}
    {r : Except Cause (List Byte × List Bool)} {Q R : State → Prop} (hs : Parsing s) (h : Follows res s a Q r)
    (hg : ∀ t, t.parseFixed = s.parseFixed → Q t → g t = .ok (f t) ∧ R (f t))
    (hfixed : ∀ t, (f t).parseFixed = t.parseFixed) (hcur : ∀ t, (f t).cur = t.cur)
    (hbytes : ∀ t m b, (f t).byteAt m b = t.byteAt m b) :
    Follows (res >>= whileBusy g) s a R r := by
  cases r with
  | error c =>
    obtain ⟨u, rfl, hu⟩ := h
    rw [ok_bind, whileBusy_of_idle rfl]
    exact ⟨u, rfl, hu⟩
  | ok r =>
    obtain ⟨t, rfl, ht, hQ⟩ := h
    obtain ⟨hrun, hR⟩ := hg t ht.fixed hQ
    rw [ok_bind, whileBusy_of_busy (hs.congr ht.fixed).busy]
    exact ⟨f t, hrun, ht.congr (hfixed t) (hcur t) (hbytes t), hR⟩

end Sys2Proof.Machine
end

