-- ==== Sys2Proof/Proofs/DecompressLoops.lean ====
section
/-! PROOFS. The two loops of R217 follow the parser: a chunk, the chunks of a row, a row, the rows of the image. -/

namespace Sys2Proof.Machine

open Config (Store)

/-! ### One chunk -/

/-- `ReadChunk` before a chunk of the row (R206). -/
def enterChunk (s : State) : State := { s with n := chunkLen s.w s.chk, dstate := .readPrefix1 }

theorem dReadChunk_of_lt {s : State} (h : s.chk < chunks s.w) : dReadChunk s = .ok (enterChunk s) := by
  rw [dReadChunk, if_neg (Nat.ne_of_lt h)]
  rfl

theorem dReadChunk_of_eq {s : State} (h : s.chk = chunks s.w) : dReadChunk s = .ok { s with dstate := .rowDone } := by
  rw [dReadChunk, if_pos h]

/-- R70: a row of the image is inside it. -/
theorem row_mul_add_le {w h j : Nat} (hj : j < h) : j * w + w ≤ w * h := by
  have hle : w * (j + 1) ≤ w * h := Nat.mul_le_mul_left w hj
  rwa [Nat.mul_succ, Nat.mul_comm w j] at hle

/-- R70: a chunk of a row of the image is inside the image. -/
theorem chunkAddr_add_le {s : State} (hrow : s.row < s.h) (hchk : s.chk < chunks s.w) :
    chunkAddr s + chunkLen s.w s.chk ≤ s.w * s.h := by
  have hle := row_mul_add_le (w := s.w) hrow
  simp only [chunks] at hchk
  simp only [chunkAddr, chunkLen]
  omega

/-- The effect of a code that fits the chunk DEC is at, on the bits it was decoded from. -/
theorem decoded_chunkDone {s : State} {i : Instr} {rest : List Bool} (hrow : s.row < s.h) (hchk : s.chk < chunks s.w)
    (hi : i.fits (.chunk (chunkLen s.w s.chk)) = true) (hu : Unread s (encode i ++ rest)) :
    Decoded s (chunkDone (encode i).length
        (placeBytes (enterChunk s) .pix (chunkAddr s) (codePixels (chunkLen s.w s.chk) i)))
      (chunkAddr s) (codePixels (chunkLen s.w s.chk) i) rest := by
  have hregisters := placeBytes_registers (enterChunk s) .pix (chunkAddr s) (codePixels (chunkLen s.w s.chk) i)
  have henter (m : Store) (b : Nat) : (enterChunk s).byteAt m b = s.byteAt m b := by cases m <;> rfl
  have hbytes (m : Store) (b : Nat) : (chunkDone (encode i).length
        (placeBytes (enterChunk s) .pix (chunkAddr s) (codePixels (chunkLen s.w s.chk) i))).byteAt m b = _ :=
    (chunkDone_byteAt _ _ m b).trans (byteAt_placeBytes (enterChunk s) .pix m (chunkAddr s) b _)
  constructor
  case fixed => exact (congrArg State.parseFixed hregisters :)
  case inside =>
    rw [length_codePixels hi]
    exact chunkAddr_add_le hrow hchk
  case bytes => exact fun m b => by rw [hbytes, henter]
  case unread =>
    refine hu.advance (congrArg State.l hregisters :)
      (congrArg (fun r : State => r.cur + (encode i).length) hregisters :) fun b => ?_
    rw [hbytes, henter, if_neg (fun hin => by cases hin.1)]

/-- R207 to R212: the fetch of the code of a chunk and the code itself. -/
theorem fetchRun_fetchChunk_follows {s : State} {bits : List Bool} (hs : Parsing s) (hrow : s.row < s.h)
    (hchk : s.chk < chunks s.w) (hu : Unread s bits) :
    Follows (fetchRun fetchChunk (enterChunk s)) s (chunkAddr s) (fun t => t.row = s.row ∧ t.chk = s.chk + 1)
      (parseChunk (chunkLen s.w s.chk) bits) := by
  have henter : Unread (enterChunk s) bits := ⟨hu.length, hu.bit⟩
  unfold parseChunk
  cases h : decode (.chunk (chunkLen s.w s.chk)) bits with
  | error e =>
    have hfetch := fetchChunk_of_error (s := enterChunk s) hs.len (chunkLen_wf hchk) henter h
    exact ⟨enterChunk s, by rw [fetchRun, hfetch]; rfl, rfl, fun m b _ => by cases m <;> rfl⟩
  | ok r =>
    obtain ⟨i, rest⟩ := r
    obtain ⟨hi, rfl⟩ := decode_chunk_eq_ok_iff.1 h
    have hfetch := fetchChunk_of_code (s := enterChunk s) hs.len hi henter
    have hinside : chunkAddr s + (codePixels (chunkLen s.w s.chk) i).length ≤ s.caps.pixCap := by
      rw [length_codePixels hi]
      exact (chunkAddr_add_le hrow hchk).trans hs.pixels
    have hregisters := placeBytes_registers (enterChunk s) .pix (chunkAddr s) (codePixels (chunkLen s.w s.chk) i)
    refine ⟨_, ?_, decoded_chunkDone hrow hchk hi hu, (congrArg State.row hregisters :),
      (congrArg (fun u : State => u.chk + 1) hregisters :)⟩
    rw [fetchRun, hfetch, ok_bind]
    exact runCode_of_fits_chunk (s := enterChunk s) hi hinside

/-! ### The chunks of a row -/

/-- The inner loop of R217, from chunk `CHK` to the last of row `j`. -/
theorem decompressChunks_follows {k w j : Nat} {s : State} {bits : List Bool} (hs : Parsing s) (hrow : s.row < s.h)
    (hw : s.w = w) (hj : s.row = j) (hk : s.chk + k = chunks w) (hu : Unread s bits) :
    Follows (decompressChunks k s) s (j * w + min (4 * s.chk) w) (fun t => t.row = j ∧ t.chk = chunks w)
      (parseChunks w k s.chk bits) := by
  induction k generalizing s bits with
  | zero =>
    refine ⟨s, rfl, .refl ?_ hu, hj, hk⟩
    have hle := row_mul_add_le (w := s.w) hrow
    rw [hw, hj] at hle
    rw [hw]
    omega
  | succ k ih =>
    subst hw hj
    have hchk : s.chk < chunks s.w := by omega
    have hlt : 4 * s.chk < s.w := by
      simp only [chunks] at hchk
      omega
    have hchunk := fetchRun_fetchChunk_follows hs hrow hchk hu
    rw [show s.row * s.w + min (4 * s.chk) s.w = chunkAddr s by rw [Nat.min_eq_left (Nat.le_of_lt hlt), chunkAddr],
      decompressChunks, dReadChunk_of_lt hchk, ok_bind]
    refine hchunk.seq hs fun t px mid hp ht hQ => ?_
    obtain ⟨htrow, htchk⟩ := hQ
    have htw : t.w = s.w := (congrArg State.w ht.fixed :)
    have hth : t.h = s.h := (congrArg State.h ht.fixed :)
    have hrest := ih (hs.congr ht.fixed) (by omega) htw htrow (by omega) ht.unread
    have haddr : chunkAddr s + px.length = s.row * s.w + min (4 * t.chk) s.w := by
      rw [parseChunk_makes _ _ _ _ hp, htchk, chunkAddr, chunkLen]
      omega
    rw [haddr, ← htchk]
    exact hrest

/-! ### One row -/

/-- The `k` payload bits from bit `j` on (R93, R147). -/
def payloadBits (s : State) (j k : Nat) : List Bool := (List.range' j k).map (sliceBit s .cmp 9)

theorem length_payloadBits (s : State) (j k : Nat) : (payloadBits s j k).length = k := by
  rw [payloadBits, List.length_map, List.length_range']

theorem payloadBits_add (s : State) (j k l : Nat) :
    payloadBits s j (k + l) = payloadBits s j k ++ payloadBits s (j + k) l := by
  simp [payloadBits, ← List.range'_append_1]

theorem payloadBits_succ (s : State) (j k : Nat) : payloadBits s j (k + 1) = sliceBit s .cmp 9 j :: payloadBits s (j + 1) k := by
  rw [payloadBits, List.range'_succ, List.map_cons, payloadBits]

theorem payloadBits_congr {s t : State} (hcmp : ∀ a, t.byteAt .cmp a = s.byteAt .cmp a) (j k : Nat) :
    payloadBits t j k = payloadBits s j k :=
  List.map_congr_left fun b _ => sliceBit_congr hcmp 9 b

/-- `ReadPresence` at a row of the image reads a bit that `Validate()` has found contained (R204). -/
theorem fetchRun_fetchPresence {s : State} (hs : Parsing s) (hrow : s.row < s.h) :
    fetchRun fetchPresence s = if sliceBit s .cmp 9 s.row then presence1Code s else presence0Code s := by
  have hin : byteOf payloadBase s.row < s.caps.cap .cmp := by
    have hlen := hs.len
    have hbitmap := hs.bitmap
    simp only [ceil8] at hbitmap
    simp only [byteOf, payloadBase, Config.headerBytes, Config.Caps.cap]
    omega
  rw [fetchRun, fetchPresence, bitRead_of_lt hin]
  cases h : sliceBit s .cmp 9 s.row <;> simp [payloadBase, Config.headerBytes, h, decodePresence, runCode]

theorem Follows.congr_left {res : Res State} {s s' : State} {a : Nat} {Q : State → Prop}
    {r : Except Cause (List Byte × List Bool)} (h : Follows res s' a Q r) (hfixed : s'.parseFixed = s.parseFixed)
    (hbytes : ∀ m b, s'.byteAt m b = s.byteAt m b) : Follows res s a Q r := by
  cases r with
  | error c =>
    obtain ⟨u, hres, hu⟩ := h
    exact ⟨u, hres, DiffersInImage.trans ⟨hfixed, fun m b _ => hbytes m b⟩ hu⟩
  | ok r =>
    obtain ⟨t, hres, ht, hQ⟩ := h
    exact ⟨t, hres, ht.congr_left hfixed hbytes, hQ⟩

/-- A white row (R205). -/
theorem decompressRow_of_white {s : State} {bits : List Bool} (hs : Parsing s) (hrow : s.row < s.h) (hu : Unread s bits)
    (hp : sliceBit s .cmp 9 s.row = false) :
    Follows (decompressRow s) s (rowAddr s) (fun t => t.row = s.row + 1) (parseRow s.w false bits) := by
  have hle : rowAddr s + s.w ≤ s.w * s.h := row_mul_add_le hrow
  have hregisters := placeBytes_registers s .pix (rowAddr s) (List.replicate s.w Config.white)
  have hbytes (m : Store) (b : Nat) :
      (decRowAdvance (placeBytes s .pix (rowAddr s) (List.replicate s.w Config.white))).byteAt m b = _ :=
    (decRowAdvance_byteAt _ m b).trans (byteAt_placeBytes s .pix m (rowAddr s) b _)
  refine ⟨decRowAdvance (placeBytes s .pix (rowAddr s) (List.replicate s.w Config.white)), ?run, ?decoded,
    (congrArg (fun r : State => r.row + 1) hregisters :)⟩
  case run =>
    have hnot : (decRowAdvance (placeBytes s .pix (rowAddr s) (List.replicate s.w Config.white))).dstate ≠ .readChunk := by
      rw [decRowAdvance_dstate]
      split <;> decide
    rw [decompressRow, fetchRun_fetchPresence hs hrow, hp, if_neg (by decide),
      presence0Code_of_le (.inr (hle.trans hs.pixels)), ok_bind, if_neg hnot]
  case decoded =>
    constructor
    case fixed => exact (congrArg State.parseFixed hregisters :)
    case inside => rwa [List.length_replicate]
    case bytes => exact hbytes
    case unread =>
      refine Unread.advance (xs := []) hu (congrArg State.l hregisters :) (congrArg State.cur hregisters :) fun b => ?_
      rw [hbytes, if_neg (fun hin => by cases hin.1)]

/-- `P1`: the row's chunks follow (R204). -/
def enterRow (s : State) : State := { s with chk := 0, dstate := .readChunk }

theorem enterRow_byteAt (s : State) (m : Store) (b : Nat) : (enterRow s).byteAt m b = s.byteAt m b := by cases m <;> rfl

/-- `RowDone` after the last chunk (R206, R213). -/
def endRow (s : State) : State := decRowAdvance { s with dstate := .rowDone }

/-- An encoded row (R206 to R213). -/
theorem decompressRow_of_encoded {s : State} {bits : List Bool} (hs : Parsing s) (hrow : s.row < s.h) (hu : Unread s bits)
    (hp : sliceBit s .cmp 9 s.row = true) :
    Follows (decompressRow s) s (rowAddr s) (fun t => t.row = s.row + 1) (parseRow s.w true bits) := by
  have henter : Parsing (enterRow s) := hs.congr rfl
  have hrun : decompressRow s = decompressChunks (chunks s.w) (enterRow s) >>=
      whileBusy (fun t => dReadChunk t >>= fun u => .ok (decRowAdvance u)) := by
    rw [decompressRow, fetchRun_fetchPresence hs hrow, hp, if_pos rfl, presence1Code, ok_bind, if_pos rfl]
    rfl
  have hchunks : Follows (decompressChunks (chunks s.w) (enterRow s)) (enterRow s) (rowAddr s)
      (fun t => t.row = s.row ∧ t.chk = chunks s.w) (parseRow s.w true bits) := by
    have h := decompressChunks_follows (s := enterRow s) (w := s.w) (j := s.row) henter hrow rfl rfl (Nat.zero_add _)
      ⟨hu.length, hu.bit⟩
    rwa [show s.row * s.w + min (4 * (enterRow s).chk) s.w = rowAddr s by simp [enterRow, rowAddr]] at h
  have hdone (t : State) (ht : t.parseFixed = (enterRow s).parseFixed) (hQ : t.row = s.row ∧ t.chk = chunks s.w) :
      (dReadChunk t >>= fun u => .ok (decRowAdvance u)) = .ok (endRow t) ∧ (endRow t).row = s.row + 1 := by
    have htw : t.w = s.w := (congrArg State.w ht :)
    obtain ⟨hrow', hchk⟩ := hQ
    rw [dReadChunk_of_eq (by rw [htw]; exact hchk)]
    exact ⟨rfl, congrArg (· + 1) hrow'⟩
  have hrow := hchunks.finish (f := endRow) (R := fun t => t.row = s.row + 1) henter hdone (fun _ => rfl) (fun _ => rfl)
    (fun t m b => by cases m <;> rfl)
  rw [hrun]
  exact hrow.congr_left rfl (enterRow_byteAt s)

theorem decompressRow_follows {s : State} {bits : List Bool} (hs : Parsing s) (hrow : s.row < s.h) (hu : Unread s bits) :
    Follows (decompressRow s) s (rowAddr s) (fun t => t.row = s.row + 1) (parseRow s.w (sliceBit s .cmp 9 s.row) bits) := by
  cases hp : sliceBit s .cmp 9 s.row with
  | false => exact decompressRow_of_white hs hrow hu hp
  | true => exact decompressRow_of_encoded hs hrow hu hp

/-! ### The rows of the image -/

/-- The outer loop of R217, from row `ROW` to the last. -/
theorem decompressRows_follows {k w : Nat} {s : State} {bits : List Bool} (hs : Parsing s) (hw : s.w = w)
    (hk : s.row + k = s.h) (hu : Unread s bits) :
    Follows (decompressRows k s) s (s.row * w) (fun _ => True) (parseRows w (payloadBits s s.row k) bits) := by
  induction k generalizing s bits with
  | zero =>
    refine ⟨s, rfl, .refl ?_ hu, trivial⟩
    rw [← hw, Nat.mul_comm]
    exact Nat.mul_le_mul_left s.w (Nat.le_of_eq hk)
  | succ k ih =>
    subst hw
    rw [decompressRows, payloadBits_succ]
    refine (decompressRow_follows hs (by omega) hu).seq hs fun t px mid hp ht htrow => ?_
    have htw : t.w = s.w := (congrArg State.w ht.fixed :)
    have hth : t.h = s.h := (congrArg State.h ht.fixed :)
    have hrest := ih (hs.congr ht.fixed) htw (by omega) ht.unread
    have haddr : t.row * s.w = rowAddr s + px.length := by
      rw [parseRow_makes _ _ _ _ _ hp, htrow, Nat.succ_mul, rowAddr]
    rwa [haddr, payloadBits_congr ht.cmp, htrow] at hrest

end Sys2Proof.Machine
end

