-- ==== Sys2Proof/Proofs/DecompressCommand.lean ====
section
/-! PROOFS. `DECOMPRESS` from an idle state as a function of its buffer (R200, R214, R215, R218): a check of `Validate()` ends it, or
the parser's answer for the payload bits of the buffer does. -/

namespace Sys2Proof.Machine

open Config (Store)

/-! ### The buffer -/

/-- The payload bits of the buffer of `ARG_LEN` bytes. -/
def bufferBits (s : State) : List Bool := payloadBits s 0 (8 * (s.argLen - 9))

theorem length_bufferBits (s : State) : (bufferBits s).length = 8 * (s.argLen - 9) :=
  length_payloadBits s 0 _

theorem getElem?_bufferBits {s : State} {k : Nat} (hk : k < 8 * (s.argLen - 9)) :
    (bufferBits s)[k]? = some (sliceBit s .cmp 9 k) := by
  simp [bufferBits, payloadBits, hk]

/-- R218: the payload bits are a function of the first `ARG_LEN` bytes of CMP. -/
theorem bufferBits_congr {s s' : State} (hlen : s'.argLen = s.argLen)
    (hcmp : ∀ a, a < s.argLen → s'.byteAt .cmp a = s.byteAt .cmp a) : bufferBits s' = bufferBits s := by
  rw [bufferBits, hlen]
  refine List.map_congr_left fun b hb => ?_
  rw [List.mem_range'_1] at hb
  simp only [sliceBit, byteOf]
  rw [hcmp _ (by omega)]

/-- The buffer passes the checks of R163. -/
structure ValidBuffer (s : State) : Prop where
  present : s.argPresent = true
  len     : s.argLen ≤ s.caps.cmpCap
  header  : 9 ≤ s.argLen
  magic   : s.byteAt .cmp 0 = 0xBA
  width   : 0 ≤ (headerWidth s).toInt
  height  : 0 ≤ (headerHeight s).toInt
  bitmap  : 9 + ceil8 (headerHeight s).toNat ≤ s.argLen
  pixels  : (headerWidth s).toNat * (headerHeight s).toNat ≤ s.caps.pixCap

theorem validateCause_eq_none_iff {s : State} : validateCause s = none ↔ ValidBuffer s := by
  constructor
  · intro h
    unfold validateCause at h
    split_ifs at h with hp hc hl hm hd hb hx
    exact ⟨by simpa using hp, by omega, by omega, not_not.1 hm, by omega, by omega, by omega, by omega⟩
  · intro h
    have hwidth := h.width
    have hheight := h.height
    rw [validateCause, if_neg (by simp [h.present]), if_neg (Nat.not_lt.2 h.len), if_neg (Nat.not_lt.2 h.header),
      if_neg (not_not.2 h.magic), if_neg (by omega), if_neg (Nat.not_lt.2 h.bitmap), if_neg (Nat.not_lt.2 h.pixels)]

theorem validateCause_ne_zero {s : State} {c : BitVec 4} (h : validateCause s = some c) : c ≠ 0 := by
  unfold validateCause at h
  split_ifs at h <;> (obtain rfl := Option.some.inj h; decide)

theorem headerWidth_congr {s s' : State} (h : ∀ a, a < 9 → s'.byteAt .cmp a = s.byteAt .cmp a) :
    headerWidth s' = headerWidth s := by
  rw [headerWidth, h 1 (by decide), h 2 (by decide), h 3 (by decide), h 4 (by decide), headerWidth]

theorem headerHeight_congr {s s' : State} (h : ∀ a, a < 9 → s'.byteAt .cmp a = s.byteAt .cmp a) :
    headerHeight s' = headerHeight s := by
  rw [headerHeight, h 5 (by decide), h 6 (by decide), h 7 (by decide), h 8 (by decide), headerHeight]

/-- R163, R218: no check looks at a byte past the buffer. -/
theorem validateCause_congr {s s' : State} (hcmpCap : s'.caps.cmpCap = s.caps.cmpCap)
    (hpixCap : s'.caps.pixCap = s.caps.pixCap) (hp : s'.argPresent = s.argPresent) (hlen : s'.argLen = s.argLen)
    (hcmp : ∀ a, a < s.argLen → s'.byteAt .cmp a = s.byteAt .cmp a) : validateCause s' = validateCause s := by
  unfold validateCause
  rw [hp, hlen, hcmpCap, hpixCap]
  by_cases h9 : s.argLen < 9
  · simp only [if_pos h9]
  · have hheader (a : Nat) (ha : a < 9) : s'.byteAt .cmp a = s.byteAt .cmp a := hcmp a (by omega)
    rw [hheader 0 (by decide), headerWidth_congr hheader, headerHeight_congr hheader]

/-! ### The command -/

/-- A check that fails ends the command (R163). -/
theorem decompress_of_cause {s : State} {c : BitVec 4} (hb : s.status.busy = false) (hc : validateCause s = some c) :
    ∃ t, exec .decompress s = .next t ∧ { t with l := s.l } = failedWith 7 c s := by
  obtain ⟨t, ht, hfail⟩ := fetchRun_fetchHeader_of_some (s := beginCommand 7 s) hc
  have hidle : t.status.busy = false := (congrArg (·.status.busy) hfail :)
  have hrun : decompressBody (beginCommand 7 s) = .ok t := by
    rw [decompressBody, ht, ok_bind, whileBusy_of_idle hidle]
  refine ⟨t, ?_, hfail⟩
  calc exec .decompress s = toOutcome (decompressBody (beginCommand 7 s)) := runCommand_of_idle hb
    _ = .next t := by rw [hrun, toOutcome_ok]

/-- The state in which the parse of a valid buffer starts (R202). -/
def parseStart (s : State) : State := validated (beginCommand 7 s)

theorem parseStart_byteAt (s : State) (m : Store) (b : Nat) : (parseStart s).byteAt m b = s.byteAt m b := by
  cases m <;> rfl

theorem ValidBuffer.parsing {s : State} (h : ValidBuffer s) : Parsing (parseStart s) :=
  ⟨rfl, h.len, h.bitmap, h.pixels⟩

/-- The presence bits stand below the cursor, which starts at bit `H`, and the rest of the buffer from there on. -/
theorem ValidBuffer.payload {s : State} (h : ValidBuffer s) :
    payloadBits (parseStart s) 0 (headerHeight s).toNat = (bufferBits s).take (headerHeight s).toNat ∧
      Unread (parseStart s) ((bufferBits s).drop (headerHeight s).toNat) := by
  have hbitmap := h.bitmap
  have hlen := length_bufferBits s
  simp only [ceil8] at hbitmap
  have hle : (headerHeight s).toNat ≤ 8 * (s.argLen - 9) := by omega
  refine ⟨?_, ?_, fun k x hx => ?_⟩
  · obtain ⟨k, hk⟩ := Nat.exists_eq_add_of_le hle
    rw [payloadBits_congr (parseStart_byteAt s .cmp), bufferBits, hk, payloadBits_add,
      List.take_left' (length_payloadBits s 0 _)]
  · show (headerHeight s).toNat + _ = 8 * (s.argLen - 9)
    rw [List.length_drop]
    omega
  · rw [List.getElem?_drop] at hx
    have hk := (List.getElem?_eq_some_iff.mp hx).1
    rw [getElem?_bufferBits (by omega)] at hx
    rw [sliceBit_congr (parseStart_byteAt s .cmp)]
    exact Option.some.inj hx

/-- The loops on a valid buffer do what the parser says of its payload. -/
theorem ValidBuffer.rows_follow {s : State} (h : ValidBuffer s) :
    Follows (decompressRows (headerHeight s).toNat (parseStart s)) (parseStart s) 0 (fun _ => True)
      (parsePayload (headerWidth s).toNat (headerHeight s).toNat (bufferBits s)) := by
  obtain ⟨hpres, hunread⟩ := h.payload
  have hrows := decompressRows_follows (w := (headerWidth s).toNat) h.parsing rfl (Nat.zero_add _) hunread
  rw [show (parseStart s).row = 0 from rfl, Nat.zero_mul, show (parseStart s).h = (headerHeight s).toNat from rfl,
    hpres] at hrows
  exact hrows

/-- The run of a command on a valid buffer is its loops and, if they do not fail, the completion (R217). -/
theorem exec_decompress_of_valid {s : State} (hb : s.status.busy = false) (h : ValidBuffer s) :
    exec .decompress s =
      toOutcome (decompressRows (headerHeight s).toNat (parseStart s) >>= whileBusy dSuccess) := by
  have hfetch : fetchRun fetchHeader (beginCommand 7 s) = .ok (parseStart s) :=
    fetchRun_fetchHeader_of_none (show validateCause s = none from validateCause_eq_none_iff.2 h)
  calc exec .decompress s = toOutcome (decompressBody (beginCommand 7 s)) := runCommand_of_idle hb
    _ = _ := by
      rw [decompressBody, hfetch, ok_bind, whileBusy_of_busy h.parsing.busy]
      rfl

/-- The results and the completion (R214). -/
def decSuccess (s : State) : State :=
  complete { s with
    resWidth := BitVec.ofNat 32 s.w, resHeight := BitVec.ofNat 32 s.h, resLen := s.w * s.h
    status := { s.status with fail := false }, err := 0 }

theorem dSuccess_eq (s : State) : dSuccess s = .ok (decSuccess s) := rfl

theorem decSuccess_byteAt (s : State) (m : Store) (a : Nat) : (decSuccess s).byteAt m a = s.byteAt m a := by cases m <;> rfl

/-- R214, R217: a payload that is parsed ends the command with the image's size and its pixels; the bits after the parsed ones are
those from the cursor on. -/
theorem decompress_of_parse_ok {s : State} {px : List Byte} {rest : List Bool} (hb : s.status.busy = false)
    (h : ValidBuffer s)
    (hp : parsePayload (headerWidth s).toNat (headerHeight s).toNat (bufferBits s) = .ok (px, rest)) :
    ∃ t, exec .decompress s = .next t ∧
      t.visible.registers =
        { succeeded 7 s with
          resLen := (headerWidth s).toNat * (headerHeight s).toNat
          resWidth := headerWidth s, resHeight := headerHeight s }.visible.registers ∧
      (∀ m a, t.byteAt m a = if m = .pix ∧ a < px.length then px.getD a 0 else s.byteAt m a) ∧
      t.cur + rest.length = 8 * (s.argLen - 9) := by
  have hrows := h.rows_follow
  rw [hp] at hrows
  obtain ⟨u, hu, hdec, -⟩ := hrows
  have hl : u.l = s.argLen := (congrArg State.l hdec.fixed :)
  have hregisters : (decSuccess u).visible.registers = (decSuccess (parseStart s)).visible.registers :=
    (congrArg (fun r : State => (decSuccess r).visible.registers) hdec.fixed :)
  refine ⟨decSuccess u, ?run, hregisters.trans ?results, fun m a => ?pixels, hl ▸ hdec.unread.length⟩
  case run =>
    rw [exec_decompress_of_valid hb h, hu, ok_bind, whileBusy_of_busy (h.parsing.congr hdec.fixed).busy, dSuccess_eq,
      toOutcome_ok]
  case results =>
    have hwidth : BitVec.ofNat 32 (headerWidth s).toNat = headerWidth s := by simp
    have hheight : BitVec.ofNat 32 (headerHeight s).toNat = headerHeight s := by simp
    have hresults : (decSuccess (parseStart s)).visible.registers =
        { succeeded 7 s with
          resLen := (headerWidth s).toNat * (headerHeight s).toNat
          resWidth := BitVec.ofNat 32 (headerWidth s).toNat
          resHeight := BitVec.ofNat 32 (headerHeight s).toNat }.visible.registers := rfl
    rwa [hwidth, hheight] at hresults
  case pixels =>
    rw [decSuccess_byteAt, hdec.bytes, parseStart_byteAt]
    simp only [Nat.zero_le, true_and, Nat.zero_add, Nat.sub_zero]

/-- R215, R252: a payload that is not parsed ends the command with the cause and the sentinel; nothing outside the image changes. -/
theorem decompress_of_parse_error {s : State} {c : Cause} (hb : s.status.busy = false) (h : ValidBuffer s)
    (hp : parsePayload (headerWidth s).toNat (headerHeight s).toNat (bufferBits s) = .error c) :
    ∃ t, exec .decompress s = .next t ∧
      { t.visible.registers with draws := s.draws } = (failedWith 7 c.code s).visible.registers ∧
      ∀ m a, ¬ (m = .pix ∧ a < (headerWidth s).toNat * (headerHeight s).toNat) → t.byteAt m a = s.byteAt m a := by
  have hrows := h.rows_follow
  rw [hp] at hrows
  obtain ⟨u, hu, hdiff⟩ := hrows
  have hw : u.w = (headerWidth s).toNat := (congrArg State.w hdiff.fixed :)
  have hh : u.h = (headerHeight s).toNat := (congrArg State.h hdiff.fixed :)
  refine ⟨decFail c u, ?run, ?sentinel, fun m a hout => ?kept⟩
  case run => rw [exec_decompress_of_valid hb h, hu, ok_bind, whileBusy_of_idle rfl, toOutcome_ok]
  case sentinel =>
    exact (congrArg (fun r : State => { (raiseFail c r).visible.registers with draws := s.draws }) hdiff.fixed :)
  case kept =>
    rw [decFail, raiseFail_byteAt, byteAt_forget, hw, hh, if_neg hout, hdiff.kept m a hout, parseStart_byteAt]

end Sys2Proof.Machine
end

