-- ==== Sys2Proof/Proofs/RoundTrip.lean ====
section
/-! PROOFS. The statements about whole buffers (R218 to R220): `DECOMPRESS` depends on its buffer only, it gives back the image that
`COMPRESS` read, and it fails on a buffer that was cut or lost its magic tag. -/

namespace Sys2Proof

/-- The bytes of a pattern put together again (R92). -/
theorem fromLE32_toLE32 (v : Word32) :
    fromLE32 (v.extractLsb' 0 8) (v.extractLsb' 8 8) (v.extractLsb' 16 8) (v.extractLsb' 24 8) = v := by
  refine BitVec.eq_of_toNat_eq ?_
  have hv := v.isLt
  simp only [fromLE32, BitVec.toNat_ofNat, BitVec.extractLsb'_toNat, Nat.shiftRight_eq_div_pow]
  omega

end Sys2Proof

namespace Sys2Proof.Machine

/-! ### What the host reads when a command has ended -/

/-- STATUS, `ERR` and the three results of a command. -/
def endOf (t : State) : Status × BitVec 4 × Nat × BitVec 32 × BitVec 32 :=
  (t.status, t.err, t.resLen, t.resWidth, t.resHeight)

theorem endOf_eq_iff {t : State} {st : Status} {e : BitVec 4} {n : Nat} {w h : BitVec 32} :
    endOf t = (st, e, n, w, h) ↔ t.status = st ∧ t.err = e ∧ t.resLen = n ∧ t.resWidth = w ∧ t.resHeight = h := by
  simp only [endOf, Prod.mk.injEq]

/-- The end of a failed command (R249). -/
def sentinel (e : BitVec 4) : Status × BitVec 4 × Nat × BitVec 32 × BitVec 32 :=
  ({ busy := false, done := true, fail := true }, e, 0, 0, 0)

theorem decompress_endOf_of_cause {s : State} {c : BitVec 4} (hb : s.status.busy = false) (hc : validateCause s = some c) :
    ∃ t, exec .decompress s = .next t ∧ endOf t = sentinel c := by
  obtain ⟨t, ht, hfail⟩ := decompress_of_cause hb hc
  exact ⟨t, ht, (congrArg endOf hfail :)⟩

theorem decompress_endOf_of_parse_error {s : State} {c : Cause} (hb : s.status.busy = false) (h : ValidBuffer s)
    (hp : parsePayload (headerWidth s).toNat (headerHeight s).toNat (bufferBits s) = .error c) :
    ∃ t, exec .decompress s = .next t ∧ endOf t = sentinel c.code := by
  obtain ⟨t, ht, hfail, -⟩ := decompress_of_parse_error hb h hp
  exact ⟨t, ht, (congrArg endOf hfail :)⟩

theorem decompress_endOf_of_parse_ok {s : State} {px : List Byte} {rest : List Bool} (hb : s.status.busy = false)
    (h : ValidBuffer s)
    (hp : parsePayload (headerWidth s).toNat (headerHeight s).toNat (bufferBits s) = .ok (px, rest)) :
    ∃ t, exec .decompress s = .next t ∧
      endOf t = ({ busy := false, done := true, fail := false }, 0, (headerWidth s).toNat * (headerHeight s).toNat,
        headerWidth s, headerHeight s) ∧
      ∀ a, a < (headerWidth s).toNat * (headerHeight s).toNat → t.byteAt .pix a = px.getD a 0 := by
  obtain ⟨t, ht, hok, hbytes, -⟩ := decompress_of_parse_ok hb h hp
  have hheight : (headerHeight s).toNat ≤ (bufferBits s).length := by
    have hbitmap := h.bitmap
    simp only [ceil8] at hbitmap
    rw [length_bufferBits]
    omega
  refine ⟨t, ht, (congrArg endOf hok :), fun a ha => ?_⟩
  rw [hbytes, if_pos ⟨rfl, by rwa [parsePayload_length hheight hp]⟩]

/-! ### A function of the buffer -/

/-- Settles O46: both states have the same header, the same answer of `Validate()` and the same payload bits, and the parser sees
nothing else. -/
theorem decompressIsAFunctionOfItsBuffer : Obligations.DecompressIsAFunctionOfItsBuffer := by
  intro s s' hb hb' hcmpCap hpixCap hp hlen hcmp
  have hcause := validateCause_congr hcmpCap hpixCap hp hlen hcmp
  suffices h : ∃ t t', exec .decompress s = .next t ∧ exec .decompress s' = .next t' ∧ endOf t' = endOf t ∧
      (t.status.fail = false → ∀ a, a < t.resLen → t'.byteAt .pix a = t.byteAt .pix a) by
    obtain ⟨t, t', ht, ht', hend, hpix⟩ := h
    obtain ⟨hstatus, herr, hlen, hwidth, hheight⟩ := endOf_eq_iff.1 hend
    exact ⟨t, t', ht, ht', hstatus, herr, hlen, hwidth, hheight, hpix⟩
  have hfailed {e : BitVec 4} {t t' : State} (ht : exec .decompress s = .next t) (ht' : exec .decompress s' = .next t')
      (hend : endOf t = sentinel e) (hend' : endOf t' = sentinel e) :
      ∃ t t', exec .decompress s = .next t ∧ exec .decompress s' = .next t' ∧ endOf t' = endOf t ∧
        (t.status.fail = false → ∀ a, a < t.resLen → t'.byteAt .pix a = t.byteAt .pix a) := by
    obtain ⟨hstatus, -⟩ := endOf_eq_iff.1 hend
    refine ⟨t, t', ht, ht', hend'.trans hend.symm, fun hf => ?_⟩
    rw [hstatus] at hf
    cases hf
  cases hv : validateCause s with
  | some c =>
    obtain ⟨t, ht, hend⟩ := decompress_endOf_of_cause hb hv
    obtain ⟨t', ht', hend'⟩ := decompress_endOf_of_cause hb' (hcause.trans hv)
    exact hfailed ht ht' hend hend'
  | none =>
    have hvalid := validateCause_eq_none_iff.1 hv
    have hvalid' := validateCause_eq_none_iff.1 (hcause.trans hv)
    have hheader (a : Nat) (ha : a < 9) : s'.byteAt .cmp a = s.byteAt .cmp a := hcmp a (Nat.lt_of_lt_of_le ha hvalid.header)
    have hw := headerWidth_congr hheader
    have hh := headerHeight_congr hheader
    have hparse : parsePayload (headerWidth s').toNat (headerHeight s').toNat (bufferBits s') =
        parsePayload (headerWidth s).toNat (headerHeight s).toNat (bufferBits s) := by
      rw [hw, hh, bufferBits_congr hlen hcmp]
    cases hr : parsePayload (headerWidth s).toNat (headerHeight s).toNat (bufferBits s) with
    | error c =>
      obtain ⟨t, ht, hend⟩ := decompress_endOf_of_parse_error hb hvalid hr
      obtain ⟨t', ht', hend'⟩ := decompress_endOf_of_parse_error hb' hvalid' (hparse.trans hr)
      exact hfailed ht ht' hend hend'
    | ok r =>
      obtain ⟨t, ht, hend, hpix⟩ := decompress_endOf_of_parse_ok hb hvalid hr
      obtain ⟨t', ht', hend', hpix'⟩ := decompress_endOf_of_parse_ok hb' hvalid' (hparse.trans hr)
      rw [hw, hh] at hend' hpix'
      obtain ⟨-, -, hres, -, -⟩ := endOf_eq_iff.1 hend
      refine ⟨t, t', ht, ht', hend'.trans hend.symm, fun _ a ha => ?_⟩
      rw [hres] at ha
      rw [hpix' a ha, hpix a ha]

/-! ### The buffer that `COMPRESS` leaves -/

theorem headerWidth_of_cmpHolds {t : State} {w h : Word32} (ht : cmpHolds t (headerOf w h)) : headerWidth t = w := by
  rw [headerWidth, ht 1 _ rfl, ht 2 _ rfl, ht 3 _ rfl, ht 4 _ rfl]
  exact fromLE32_toLE32 w

theorem headerHeight_of_cmpHolds {t : State} {w h : Word32} (ht : cmpHolds t (headerOf w h)) : headerHeight t = h := by
  rw [headerHeight, ht 5 _ rfl, ht 6 _ rfl, ht 7 _ rfl, ht 8 _ rfl]
  exact fromLE32_toLE32 h

/-- An image that `COMPRESS` accepts fits PIX (R171). -/
theorem compress_pixels_le {s t : State} (hb : s.status.busy = false) (hp : s.argPresent = true) (hw : 0 < s.argWidth.toInt)
    (hh : 0 < s.argHeight.toInt) (h : exec .compress s = .next t) (hf : t.status.fail = false) :
    s.argWidth.toNat * s.argHeight.toNat ≤ s.caps.pixCap := by
  refine Nat.le_of_not_lt fun hlt => ?_
  have hw0 : s.argWidth ≠ 0 := fun h0 => by simp [h0] at hw
  have hh0 : s.argHeight ≠ 0 := fun h0 => by simp [h0] at hh
  have hcheck : eCheck (beginCommand 6 s) = .ok (raiseFail .capacity
      { beginCommand 6 s with w := s.argWidth.toNat, h := s.argHeight.toNat }) := by
    rw [eCheck, beginCommand_argPresent, beginCommand_argWidth, beginCommand_argHeight, if_neg (by simp [hp]),
      if_neg (by omega), if_neg (not_or.2 ⟨hw0, hh0⟩)]
    exact if_pos (.inl hlt)
  have hrun : compressBody (beginCommand 6 s) = .ok t := by
    rw [← toOutcome_eq_next, ← runCommand_of_idle hb]
    exact h
  rw [compressBody, hcheck, ok_bind, whileBusy_of_idle rfl] at hrun
  obtain rfl := Except.ok.inj hrun
  cases hf

/-- The image a command compresses. -/
def argImage (s : State) : List Byte := storeList s .pix (s.argWidth.toNat * s.argHeight.toNat)

theorem length_argImage (s : State) : (argImage s).length = s.argWidth.toNat * s.argHeight.toNat := by
  simp [argImage, storeList]

/-- The payload of the stream of that image. -/
def argPayload (s : State) : List Bool := (imageStream (argImage s) s.argWidth.toNat s.argHeight.toNat).payload

/-- `t` holds the stream of the image of `s`, which fits PIX, and `RES_LEN` is its length. -/
structure Compressed (s t : State) : Prop where
  header  : cmpHolds t (headerOf s.argWidth s.argHeight)
  payload : ∀ k x, (argPayload s)[k]? = some x → sliceBit t .cmp 9 k = x
  resLen  : t.resLen = 9 + ceil8 (argPayload s).length
  pixels  : s.argWidth.toNat * s.argHeight.toNat ≤ s.caps.pixCap

/-- R185: a successful `COMPRESS` of an image with pixels. -/
theorem compressed_of_success {s t : State} (hb : s.status.busy = false) (hp : s.argPresent = true) (hw : 0 < s.argWidth.toInt)
    (hh : 0 < s.argHeight.toInt) (h : exec .compress s = .next t) (hf : t.status.fail = false) : Compressed s t := by
  obtain ⟨u, hu, -, -, hbytes⟩ := rowsStreamed_of_compress hb hp hw hh h hf
  obtain ⟨hlen, hbits⟩ := compress_payload hb hp hw hh h hf
  have hheader := hu.header
  rw [BitVec.ofNat_toNat, BitVec.setWidth_eq, BitVec.ofNat_toNat, BitVec.setWidth_eq] at hheader
  exact ⟨fun a x hx => (hbytes .cmp a).trans (hheader a x hx), fun k x hx => bitsAt_payload hbits hx, hlen,
    compress_pixels_le hb hp hw hh h hf⟩

/-- There is a presence bit for each row. -/
theorem height_le_argPayload (s : State) : s.argHeight.toNat ≤ (argPayload s).length := by
  rw [argPayload, Stream.payload, List.length_append, length_imageStream_pres]
  exact Nat.le_add_right _ _

/-- The header of a buffer that agrees with a compressed one in its first nine bytes. -/
theorem Compressed.header_of_agrees {s t u : State} (ht : Compressed s t)
    (hu : ∀ a, a < 9 → u.byteAt .cmp a = t.byteAt .cmp a) :
    u.byteAt .cmp 0 = 0xBA ∧ headerWidth u = s.argWidth ∧ headerHeight u = s.argHeight :=
  ⟨(hu 0 (by decide)).trans (ht.header 0 _ rfl), (headerWidth_congr hu).trans (headerWidth_of_cmpHolds ht.header),
    (headerHeight_congr hu).trans (headerHeight_of_cmpHolds ht.header)⟩

/-- A bit that a buffer shares with a compressed one is the payload's. -/
theorem Compressed.getElem?_bufferBits {s t u : State} (ht : Compressed s t) {k : Nat} (hk : k < (argPayload s).length)
    (hku : k < 8 * (u.argLen - 9)) (hu : u.byteAt .cmp (9 + k / 8) = t.byteAt .cmp (9 + k / 8)) :
    (bufferBits u)[k]? = some (argPayload s)[k] := by
  rw [Machine.getElem?_bufferBits hku, ← ht.payload k _ (List.getElem?_eq_getElem hk)]
  simp only [sliceBit, byteOf, hu]

/-! ### The round trip -/

/-- Settles O47: the payload bits of the buffer begin with the payload of the image's stream, which the parser gives back. -/
theorem roundTrip : Obligations.RoundTrip := by
  intro s t u hb hp hw hh hrun hf hub hcaps hup hlen hcap hcmp
  have ht := compressed_of_success hb hp hw hh hrun hf
  have hres := ht.resLen
  have hheight := height_le_argPayload s
  simp only [ceil8] at hres
  obtain ⟨hmagic, hwidth, hheightEq⟩ := ht.header_of_agrees (u := u) fun a ha => hcmp a (by omega)
  have hvalid : ValidBuffer u := by
    refine ⟨hup, hcap, by omega, hmagic, ?_, ?_, ?_, ?_⟩
    · rw [hwidth]; omega
    · rw [hheightEq]; omega
    · rw [hheightEq, ceil8]; omega
    · rw [hwidth, hheightEq, hcaps]; exact ht.pixels
  have hpayload : argPayload s <+: bufferBits u :=
    List.prefix_iff_getElem?.2 fun k hk => ht.getElem?_bufferBits hk (by omega) (hcmp _ (by omega))
  obtain ⟨pad, hpad⟩ := hpayload
  have hparse : parsePayload (headerWidth u).toNat (headerHeight u).toNat (bufferBits u) = .ok (argImage s, pad) := by
    rw [hwidth, hheightEq, ← hpad]
    exact parsePayload_imageStream (length_argImage s) pad
  obtain ⟨v, hv, hend, hpix⟩ := decompress_endOf_of_parse_ok hub hvalid hparse
  rw [hwidth, hheightEq] at hend hpix
  obtain ⟨hstatus, herr, hresLen, hresWidth, hresHeight⟩ := endOf_eq_iff.1 hend
  refine ⟨v, hv, hstatus, herr, hresWidth, hresHeight, hresLen, fun a ha => ?_⟩
  rw [hpix a ha]
  simp [argImage, storeList, ha]

/-! ### Corruption -/

theorem code_ne_zero (c : Cause) : c.code ≠ 0 := by
  cases c <;> decide

/-- A proper part of the payload is not parsed: a parse of it would be one of the whole payload that leaves bits. -/
theorem parsePayload_argPayload_cut {s : State} {bits more : List Bool} (hheight : s.argHeight.toNat ≤ bits.length)
    (hcut : bits ++ more = argPayload s) (hmore : more ≠ []) :
    ∃ c, parsePayload s.argWidth.toNat s.argHeight.toNat bits = .error c := by
  cases hr : parsePayload s.argWidth.toNat s.argHeight.toNat bits with
  | error c => exact ⟨c, rfl⟩
  | ok r =>
    have hwhole := parsePayload_imageStream (length_argImage s) []
    rw [List.append_nil] at hwhole
    have hcutParse := parsePayload_append hheight hr more
    rw [hcut] at hcutParse
    obtain ⟨-, hrest⟩ := Prod.mk.inj (Except.ok.inj (hcutParse.symm.trans hwhole))
    exact absurd (List.append_eq_nil_iff.1 hrest).2 hmore

/-- A compressed buffer cut at any byte is rejected. -/
theorem Compressed.cut_fails {s t u : State} (ht : Compressed s t) (hub : u.status.busy = false)
    (hcmp : ∀ a, a < u.argLen → u.byteAt .cmp a = t.byteAt .cmp a) (hcut : u.argLen < t.resLen) :
    ∃ v e, exec .decompress u = .next v ∧ endOf v = sentinel e ∧ e ≠ 0 := by
  cases hv : validateCause u with
  | some c =>
    obtain ⟨v, hrun, hend⟩ := decompress_endOf_of_cause hub hv
    exact ⟨v, c, hrun, hend, validateCause_ne_zero hv⟩
  | none =>
    have hvalid := validateCause_eq_none_iff.1 hv
    have hnine := hvalid.header
    have hbitmap := hvalid.bitmap
    obtain ⟨-, hwidth, hheight⟩ := ht.header_of_agrees fun a ha => hcmp a (by omega)
    have hlen := length_bufferBits u
    rw [ht.resLen] at hcut
    simp only [hheight, ceil8] at hcut hbitmap
    have hpart : bufferBits u <+: argPayload s := List.prefix_iff_getElem?.2 fun k hk => by
      have hin : k < (argPayload s).length := by omega
      rw [List.getElem?_eq_getElem hin, ← ht.getElem?_bufferBits hin (by omega) (hcmp _ (by omega)),
        List.getElem?_eq_getElem hk]
    obtain ⟨more, hmore⟩ := hpart
    have hne : more ≠ [] := by
      rintro rfl
      rw [← hmore, List.append_nil] at hcut
      omega
    obtain ⟨c, hc⟩ := parsePayload_argPayload_cut (by omega) hmore hne
    rw [← hwidth, ← hheight] at hc
    obtain ⟨v, hrun, hend⟩ := decompress_endOf_of_parse_error hub hvalid hc
    exact ⟨v, c.code, hrun, hend, code_ne_zero c⟩

/-- Settles O48: a cut buffer is rejected by a check or by the parser; a wrong magic tag by check 4, which only the checks of the
length precede. -/
theorem corruptionIsRejected : Obligations.CorruptionIsRejected := by
  intro s t u hb hp hw hh hrun hf hub _ hup hcap
  refine ⟨fun hcmp hcut => ?cut, fun hlen hmagic => ?magic⟩
  case cut =>
    obtain ⟨v, e, hv, hend, he⟩ := (compressed_of_success hb hp hw hh hrun hf).cut_fails hub hcmp hcut
    obtain ⟨hstatus, rfl, hresLen, hresWidth, hresHeight⟩ := endOf_eq_iff.1 hend
    exact ⟨v, hv, hstatus, he, hresLen, hresWidth, hresHeight⟩
  case magic =>
    have hcause : validateCause u = some 5 := by
      rw [validateCause, if_neg (by simp [hup]), if_neg (Nat.not_lt.2 hcap), if_neg (Nat.not_lt.2 hlen), if_pos hmagic]
    obtain ⟨v, hv, hend⟩ := decompress_endOf_of_cause hub hcause
    obtain ⟨hstatus, herr, hresLen, hresWidth, hresHeight⟩ := endOf_eq_iff.1 hend
    exact ⟨v, hv, hstatus, herr, hresLen, hresWidth, hresHeight⟩

end Sys2Proof.Machine
end

