-- ==== Sys2Proof/Proofs/CompressEntry.lean ====
section
/-! PROOFS. The entry checks of `COMPRESS` (R171, R247): the check that fails first ends the command, and a zero dimension ends it well
before any capacity of PIX or SCR is looked at (R172). -/

namespace Sys2Proof.Machine

/-- R247: the first check that fails ends the command, with `W` and `H` the only other registers that may have changed. -/
theorem eCheck_of_some {s : State} {c : BitVec 4} (h : compressCause s = some c) :
    ∃ t, eCheck s = .ok t ∧ { t with w := s.w, h := s.h } = failedWith s.cmd c s := by
  unfold compressCause at h
  unfold eCheck
  dsimp only
  split_ifs at h ⊢
  all_goals
    obtain rfl := Option.some.inj h
    exact ⟨_, rfl, rfl⟩

theorem compressCause_of_zero {s : State} (hp : s.argPresent = true) (hw : 0 ≤ s.argWidth.toInt) (hh : 0 ≤ s.argHeight.toInt)
    (h0 : s.argWidth = 0 ∨ s.argHeight = 0) : compressCause s = none := by
  rw [compressCause, if_neg (by simp [hp]), if_neg (by omega), if_pos h0]

theorem eCheck_of_zero {s : State} (hp : s.argPresent = true) (hw : 0 ≤ s.argWidth.toInt) (hh : 0 ≤ s.argHeight.toInt)
    (h0 : s.argWidth = 0 ∨ s.argHeight = 0) : eCheck s = .ok { s with estate := .degenerate } := by
  rw [eCheck, if_neg (by simp [hp]), if_neg (by omega), if_pos h0]

/-- `E_DEGENERATE` needs no capacity but the nine bytes of a header in CMP (R9, R172). -/
theorem eDegenerate_of_le {s : State} (h : Config.headerBytes ≤ s.caps.cmpCap) :
    ∃ t, eDegenerate s = .ok t ∧ t.status.fail = false ∧ t.err = 0 := by
  have hfit : 0 + (headerOf 0 0).length ≤ s.caps.cap .cmp := h
  rw [eDegenerate, headerWriteDegenerate, storeBytes_of_le hfit, ok_bind]
  exact ⟨_, rfl, rfl, rfl⟩

/-- A `COMPRESS` that starts and fails its entry checks goes no further. -/
theorem exec_compress_of_some {s : State} {c : BitVec 4} (hb : s.status.busy = false) (h : compressCause s = some c) :
    ∃ t, exec .compress s = .next t ∧ { t with w := s.w, h := s.h } = failedWith 6 c s := by
  obtain ⟨t, ht, hfail⟩ := eCheck_of_some (s := beginCommand 6 s) h
  have hidle : t.status.busy = false := (congrArg (·.status.busy) hfail :)
  refine ⟨t, ?_, hfail⟩
  calc exec .compress s = toOutcome (compressBody (beginCommand 6 s)) := runCommand_of_idle hb
    _ = .next t := by rw [compressBody, ht, ok_bind, whileBusy_of_idle hidle, toOutcome_ok]

/-- A `COMPRESS` of a zero dimension goes from its entry checks through `E_DEGENERATE` to its completion. -/
theorem exec_compress_of_zero {s : State} (hb : s.status.busy = false) (hcap : Config.headerBytes ≤ s.caps.cmpCap)
    (hp : s.argPresent = true) (hw : 0 ≤ s.argWidth.toInt) (hh : 0 ≤ s.argHeight.toInt)
    (h0 : s.argWidth = 0 ∨ s.argHeight = 0) :
    ∃ t, exec .compress s = .next t ∧ t.status = { busy := false, done := true, fail := false } ∧ t.err = 0 := by
  have hcheck := eCheck_of_zero (s := beginCommand 6 s) hp hw hh h0
  obtain ⟨u, hu, hfail, herr⟩ := eDegenerate_of_le (s := { beginCommand 6 s with estate := .degenerate }) hcap
  refine ⟨complete u, ?_, by rw [complete_status, hfail], herr⟩
  calc exec .compress s = toOutcome (compressBody (beginCommand 6 s)) := runCommand_of_idle hb
    _ = .next (complete u) := by
      rw [compressBody, hcheck, ok_bind, whileBusy_of_busy rfl, if_pos rfl, hu, ok_bind, toOutcome_ok]

/-- Settles O32: the causes are the failing branches of `E_CHECK`, a zero dimension the branch before its test of the capacities. -/
theorem compressEntryChecks : Obligations.CompressEntryChecks := by
  intro s hb hcaps
  refine ⟨fun c hc => exec_compress_of_some hb hc, fun hp hw hh h0 => ⟨compressCause_of_zero hp hw hh h0, ?_⟩⟩
  exact exec_compress_of_zero hb hcaps.1 hp hw hh h0

end Sys2Proof.Machine
end

