-- ==== Sys2Proof/Proofs/CommandEndings.lean ====
section
/-! PROOFS. How every command ends (R25, R26, R249). A command that starts is under way with DONE, FAIL and ERR clear. Each action of a
unit that completes leaves the command under way or ended, and an ended command goes no further (R250); so each of the seven
bodies, put together from such actions, can only end. -/

namespace Sys2Proof.Machine

open Config (Store)

/-! ### A command under way and a command that has ended -/

/-- The registers that say where a command stands (R24 to R26). -/
def State.control (s : State) : BitVec 4 × Status × BitVec 4 := (s.cmd, s.status, s.err)

/-- The command of code `c` is under way and has not failed. -/
def Running (c : BitVec 4) (s : State) : Prop := s.control = (c, { busy := true, done := false, fail := false }, 0)

/-- The command of code `c` has ended, with a result or with the sentinel (R249). -/
structure Ended (c : BitVec 4) (t : State) : Prop where
  cmd      : t.cmd = c
  busy     : t.status.busy = false
  done     : t.status.done = true
  dstate   : t.dstate = .idle
  estate   : t.estate = .idle
  fail     : t.status.fail = true ↔ t.err ≠ 0
  sentinel : t.status.fail = true → t.resLen = 0 ∧ t.resWidth = 0 ∧ t.resHeight = 0

/-- The command of code `c` is under way or has ended. -/
def Advanced (c : BitVec 4) (t : State) : Prop := Running c t ∨ Ended c t

theorem running_beginCommand (c : BitVec 4) (s : State) : Running c (beginCommand c s) := rfl

theorem Running.congr {c : BitVec 4} {s t : State} (hs : Running c s) (h : t.control = s.control) : Running c t := h.trans hs

theorem Running.cmd {c : BitVec 4} {s : State} (hs : Running c s) : s.cmd = c := congrArg Prod.fst hs

theorem Running.status {c : BitVec 4} {s : State} (hs : Running c s) :
    s.status = { busy := true, done := false, fail := false } := congrArg (·.2.1) hs

theorem Running.err {c : BitVec 4} {s : State} (hs : Running c s) : s.err = 0 := congrArg (·.2.2) hs

theorem Running.busy {c : BitVec 4} {s : State} (hs : Running c s) : s.status.busy = true := congrArg (·.2.1.busy) hs

theorem Running.forget {c : BitVec 4} {s : State} (hs : Running c s) (m : Store) (n : Nat) : Running c (forget s m n) :=
  hs.congr (by simp only [State.control, forget_cmd, forget_status, forget_err])

/-- R250: `raise Fail` ends the command with the sentinel. -/
theorem Running.raiseFail {c : BitVec 4} {s : State} (hs : Running c s) (k : Cause) : Ended c (raiseFail k s) where
  cmd := hs.cmd
  busy := rfl
  done := rfl
  dstate := rfl
  estate := rfl
  fail := iff_of_true rfl (code_ne_zero k)
  sentinel _ := ⟨rfl, rfl, rfl⟩

/-- R144: the completion ends a command that has not failed. -/
theorem Running.complete {c : BitVec 4} {s : State} (hs : Running c s) : Ended c (complete s) := by
  have hfail : s.status.fail = false := congrArg (·.2.1.fail) hs
  constructor
  case cmd => exact hs.cmd
  case fail => simp [hfail, hs.err]
  case sentinel => simp [hfail]
  all_goals rfl

/-! ### Actions in turn -/

/-- From a command under way, the action `f`, if it completes, leads to a state where `P` holds of the command. -/
def Leads (P : BitVec 4 → State → Prop) (f : State → Res State) : Prop := ∀ c s t, Running c s → f s = .ok t → P c t

theorem leads_ok {P : BitVec 4 → State → Prop} {g : State → State} (h : ∀ c s, Running c s → P c (g s)) :
    Leads P fun s => .ok (g s) := by
  intro c s t hs ht
  obtain rfl := Except.ok.inj ht
  exact h c s hs

theorem leads_error {P : BitVec 4 → State → Prop} {e : Stop} : Leads P fun _ => .error e :=
  fun _ _ _ _ ht => nomatch ht

theorem leads_complete : Leads Ended fun s => .ok (complete s) := leads_ok fun _ _ hs => hs.complete

/-- An action that leaves `CMD`, `STATUS` and `ERR` alone leaves the command under way. -/
theorem leads_of_control {f : State → Res State} (h : ∀ s t, f s = .ok t → t.control = s.control) : Leads Running f :=
  fun _ s t hs ht => hs.congr (h s t ht)

theorem leads_of_registers {f : State → Res State} (h : ∀ s t, f s = .ok t → t.registers = s.registers) : Leads Running f :=
  leads_of_control fun s t ht => (congrArg State.control (h s t ht) :)

theorem Leads.advanced {f : State → Res State} (h : Leads Running f) : Leads Advanced f :=
  fun c s t hs ht => .inl (h c s t hs ht)

theorem Leads.ite {P : BitVec 4 → State → Prop} {p : State → Prop} [DecidablePred p] {f g : State → Res State}
    (hf : Leads P f) (hg : Leads P g) : Leads P fun s => if p s then f s else g s := by
  intro c s t hs ht
  dsimp only at ht
  split at ht
  · exact hf c s t hs ht
  · exact hg c s t hs ht

theorem Leads.bind {P : BitVec 4 → State → Prop} {f g : State → Res State} (hf : Leads Running f) (hg : Leads P g) :
    Leads P fun s => f s >>= g := by
  intro c s t hs ht
  obtain ⟨s1, h1, ht⟩ := bind_eq_ok.1 ht
  exact hg c s1 t (hf c s s1 hs h1) ht

/-- After an action that may have ended the command, what is done only while it runs (R250). -/
theorem Leads.bind_whileBusy {P : BitVec 4 → State → Prop} {f g : State → Res State} (hend : ∀ c s, Ended c s → P c s)
    (hf : Leads Advanced f) (hg : Leads P g) : Leads P fun s => f s >>= whileBusy g := by
  intro c s t hs ht
  obtain ⟨s1, h1, ht⟩ := bind_eq_ok.1 ht
  rcases hf c s s1 hs h1 with hrun | hended
  · rw [whileBusy_of_busy hrun.busy] at ht
    exact hg c s1 t hrun ht
  · rw [whileBusy_of_idle hended.busy] at ht
    obtain rfl := Except.ok.inj ht
    exact hend c s1 hended

/-- An action on a value that was read without a change of state. -/
theorem leads_read {α : Type} {P : BitVec 4 → State → Prop} {r : State → Res α} {f : α → State → Res State}
    (hf : ∀ x, Leads P (f x)) : Leads P fun s => r s >>= fun x => f x s := by
  intro c s t hs ht
  obtain ⟨x, -, ht⟩ := bind_eq_ok.1 ht
  exact hf x c s t hs ht

/-! ### The accessor commands -/

theorem storeBytes_running (m : Store) (a : State → Nat) (xs : State → List Byte) :
    Leads Running fun s => storeBytes s m (a s) (xs s) :=
  leads_of_registers fun _ _ h => (storeBytes_frame h).1

theorem bitWrite_running (m : State → Store) (base : State → Nat) (w : State → BitWrite) :
    Leads Running fun s => (w s).run s (m s) (base s) :=
  leads_of_registers fun _ _ h => (BitWrite.run_eq_ok h).1

theorem rdbitBody_ends : Leads Ended rdbitBody :=
  leads_read (r := fun s => bitRead s (argStore s) s.argBase s.argBit) fun x =>
    leads_ok (g := fun s => complete { s with resBit := x }) fun _ _ hs => Running.complete hs

theorem rdchunkBody_ends : Leads Ended rdchunkBody :=
  Leads.ite (leads_ok fun _ _ hs => hs.raiseFail .badArgument)
    (leads_read fun xs => (storeBytes_running .dbuf (fun _ => 0) fun _ => xs).bind leads_complete)

theorem setbitBody_ends : Leads Ended setbitBody :=
  (bitWrite_running argStore State.argBase fun s => .set s.argBit).bind leads_complete

theorem clrbitBody_ends : Leads Ended clrbitBody :=
  (bitWrite_running argStore State.argBase fun s => .clear s.argBit).bind leads_complete

theorem wrchunkBody_ends : Leads Ended wrchunkBody :=
  Leads.ite (leads_ok fun _ _ hs => hs.raiseFail .badArgument)
    (leads_read fun xs => (bitWrite_running argStore State.argBase fun s => .chunk s.argBit xs).bind leads_complete)

/-! ### The actions of the decoder -/

theorem presence1Code_running : Leads Running presence1Code := leads_ok fun _ _ hs => hs

theorem presence0Code_running : Leads Running presence0Code :=
  Leads.bind (storeBytes_running .pix rowAddr fun s => List.replicate s.w Config.white) (leads_ok fun _ _ hs => hs)

/-- A chunk code: its pixels, and the end of the code. -/
theorem chunkCode_running (xs : State → List Byte) (bits : Nat) :
    Leads Running fun s => storeBytes s .pix (chunkAddr s) (xs s) >>= fun s1 => .ok (chunkDone bits s1) :=
  (storeBytes_running .pix chunkAddr xs).bind (leads_ok fun _ _ hs => hs)

theorem headerCode_advances (w h : Word32) : Leads Advanced (headerCode w h) :=
  Leads.ite (leads_ok fun _ _ hs => .inr (hs.raiseFail .badHeaderDimension))
    (Leads.ite (leads_ok fun _ _ hs => .inr (hs.raiseFail .shortBitmap))
      (Leads.ite (leads_ok fun _ _ hs => .inr (hs.raiseFail .capacity)) (leads_ok fun _ _ hs => .inl hs)))

/-- Every stream code; a command is none and gives no next state. -/
theorem runCode_advances (i : Instr) : Leads Advanced (runCode i) := by
  cases i with
  | header w h => exact headerCode_advances w h
  | p0 => exact presence0Code_running.advanced
  | p1 => exact presence1Code_running.advanced
  | w => exact (chunkCode_running (fun s => List.replicate s.n Config.white) 1).advanced
  | b => exact (chunkCode_running (fun s => List.replicate s.n Config.black) 2).advanced
  | l4 | l3 | l2 | l1 => exact (chunkCode_running _ _).advanced
  | rdbit | rdchunk | setbit | clrbit | wrchunk | compress | decompress => exact leads_error

/-- What a fetch from a command under way gives: a code to run in it, or its end. -/
def Fetched.Advanced (c : BitVec 4) : Fetched → Prop
  | .code _ s => Running c s
  | .failed s => Ended c s

theorem fetchRun_advances {fetch : State → Res Fetched}
    (h : ∀ c s x, Running c s → fetch s = .ok x → x.Advanced c) : Leads Advanced (fetchRun fetch) := by
  intro c s t hs ht
  obtain ⟨x, hx, ht⟩ := bind_eq_ok.1 ht
  have hadv := h c s x hs hx
  cases x with
  | code i s1 => exact runCode_advances i c s1 t hadv ht
  | failed s1 =>
    obtain rfl := Except.ok.inj ht
    exact .inr hadv

theorem fetchHeader_advances {c : BitVec 4} {s : State} {x : Fetched} (hs : Running c s) (h : fetchHeader s = .ok x) :
    x.Advanced c := by
  have hlatch : Running c (latchLength s) := hs
  rw [fetchHeader_eq] at h
  split_ifs at h
  all_goals obtain rfl := Except.ok.inj h
  case pos => exact hs.raiseFail _
  case neg => exact hlatch
  all_goals exact hlatch.raiseFail _

/-- R207 to R211: the fetch of a chunk code gives a code for the state it was made in, or fails the command. -/
theorem fetchChunk_cases {s : State} {x : Fetched} (h : fetchChunk s = .ok x) :
    (∃ i, x = .code i s) ∨ ∃ k, x = .failed (decFail k s) := by
  have hgive {bits : List Bool} (hg : fetchChunk.give s bits = .ok x) : ∃ i, x = .code i s := by
    unfold fetchChunk.give at hg
    split at hg
    · exact ⟨_, (Except.ok.inj hg).symm⟩
    · cases hg
  unfold fetchChunk at h
  split at h
  case isTrue => exact .inr ⟨_, (Except.ok.inj h).symm⟩
  case isFalse =>
    obtain ⟨b1, -, h⟩ := bind_eq_ok.1 h
    split at h
    case isTrue => exact .inl (hgive h)
    case isFalse =>
      split at h
      case isTrue => exact .inr ⟨_, (Except.ok.inj h).symm⟩
      case isFalse =>
        obtain ⟨b2, -, h⟩ := bind_eq_ok.1 h
        split at h
        case isTrue => exact .inl (hgive h)
        case isFalse =>
          split at h
          case isTrue => exact .inr ⟨_, (Except.ok.inj h).symm⟩
          case isFalse =>
            obtain ⟨out, -, h⟩ := bind_eq_ok.1 h
            exact .inl (hgive h)

theorem fetchChunk_advances {c : BitVec 4} {s : State} {x : Fetched} (hs : Running c s) (h : fetchChunk s = .ok x) :
    x.Advanced c := by
  rcases fetchChunk_cases h with ⟨i, rfl⟩ | ⟨k, rfl⟩
  · exact hs
  · exact (hs.forget .pix (s.w * s.h)).raiseFail k

/-- A presence bit is contained by the checks of the header, so its fetch has no failure of its own (R204). -/
theorem fetchRun_fetchPresence_running : Leads Running (fetchRun fetchPresence) := by
  intro c s t hs ht
  obtain ⟨x, hx, ht⟩ := bind_eq_ok.1 ht
  obtain ⟨p, -, hx⟩ := bind_eq_ok.1 hx
  obtain rfl := Except.ok.inj hx
  cases p with
  | true => exact presence1Code_running c s t hs ht
  | false => exact presence0Code_running c s t hs ht

theorem dReadChunk_running : Leads Running dReadChunk :=
  Leads.ite (leads_ok fun _ _ hs => hs) (leads_ok fun _ _ hs => hs)

/-! ### DECOMPRESS -/

theorem decompressChunks_advances (k : Nat) : Leads Advanced (decompressChunks k) := by
  induction k with
  | zero => exact leads_ok fun _ _ hs => .inl hs
  | succ k ih =>
    have hfetch : Leads Advanced (fetchRun fetchChunk) := fetchRun_advances fun _ _ _ => fetchChunk_advances
    exact dReadChunk_running.bind (hfetch.bind_whileBusy (fun _ _ => .inr) ih)

theorem decompressRow_advances : Leads Advanced decompressRow := by
  have hchunks : Leads Advanced fun s => decompressChunks (chunks s.w) s := fun c s => decompressChunks_advances _ c s
  have hdone : Leads Advanced fun s => dReadChunk s >>= fun s1 => .ok (decRowAdvance s1) :=
    dReadChunk_running.bind (leads_ok fun _ _ hs => .inl hs)
  exact fetchRun_fetchPresence_running.bind
    (Leads.ite (hchunks.bind_whileBusy (fun _ _ => .inr) hdone) (leads_ok fun _ _ hs => .inl hs))

theorem decompressRows_advances (k : Nat) : Leads Advanced (decompressRows k) := by
  induction k with
  | zero => exact leads_ok fun _ _ hs => .inl hs
  | succ k ih => exact decompressRow_advances.bind_whileBusy (fun _ _ => .inr) ih

theorem dSuccess_ends : Leads Ended dSuccess := by
  refine leads_ok fun c s hs => Running.complete (hs.congr ?_)
  simp only [State.control, hs.status, hs.err]

theorem decompressBody_ends : Leads Ended decompressBody := by
  have hheader : Leads Advanced (fetchRun fetchHeader) := fetchRun_advances fun _ _ _ => fetchHeader_advances
  have hrows : Leads Advanced fun s => decompressRows s.h s := fun c s => decompressRows_advances _ c s
  exact hheader.bind_whileBusy (fun _ _ => id) (hrows.bind_whileBusy (fun _ _ => id) dSuccess_ends)

/-! ### The actions of the encoder -/

theorem eCheck_advances : Leads Advanced eCheck :=
  Leads.ite (leads_ok fun _ _ hs => .inr (hs.raiseFail .sourceAbsent))
    (Leads.ite (leads_ok fun _ _ hs => .inr (hs.raiseFail .badDimension))
      (Leads.ite (leads_ok fun _ _ hs => .inl hs)
        (Leads.ite
          (leads_ok fun _ s hs => .inr <|
            Running.raiseFail (s := { s with w := s.argWidth.toNat, h := s.argHeight.toNat }) hs .capacity)
          (leads_ok fun _ _ hs => .inl hs))))

/-- R172, R182: the results are written with FAIL and ERR as they are while the command is under way. -/
theorem running_withResult {c : BitVec 4} {s : State} (hs : Running c s) (ext resLen : Nat) :
    Running c { s with
      ext := ext, resLen := resLen, resWidth := 0, resHeight := 0,
      status := { s.status with fail := false }, err := 0, estate := .success } :=
  hs.congr (by simp only [State.control, hs.status, hs.err])

theorem eDegenerate_running : Leads Running eDegenerate :=
  (storeBytes_running .cmp (fun _ => 0) fun _ => headerOf 0 0).bind (leads_ok fun _ _ hs => running_withResult hs _ _)

theorem eFinish_running : Leads Running eFinish := leads_ok fun _ _ hs => running_withResult hs _ _

theorem eHeader_running : Leads Running eHeader :=
  leads_of_control fun _ _ h => (congrArg State.control (eHeader_eq_ok h).1 :)

theorem eGrow_advances : Leads Advanced eGrow :=
  Leads.ite (leads_ok fun _ s hs => .inr ((hs.forget .cmp s.ext).raiseFail .capacity)) fun c s t hs ht => by
    obtain ⟨u, hu, ht⟩ := bind_eq_ok.1 ht
    obtain rfl := Except.ok.inj ht
    exact .inl (storeBytes_running .cmp State.ext (fun s => List.replicate (need s - s.ext) 0) c s u hs hu)

theorem eRowInit_running : Leads Running eRowInit :=
  leads_of_control fun _ _ h => (congrArg State.control (eRowInit_eq_ok h).1 :)

theorem eClassify_running : Leads Running eClassify :=
  leads_of_control fun _ _ h => (congrArg State.control (eClassify_eq_ok h).fixed :)

theorem compressChunks_running (k : Nat) : Leads Running (compressChunks k) :=
  leads_of_control fun _ _ h => (congrArg State.control (compressChunks_eq_ok h).fixed :)

/-- One transition of R183, from whatever state of ENC. -/
theorem encStep_advances : Leads Advanced encStep := by
  intro c s t hs ht
  unfold encStep at ht
  generalize s.estate = e at ht
  cases e with
  | idle => cases ht
  | check => exact eCheck_advances c s t hs ht
  | degenerate => exact .inl (eDegenerate_running c s t hs ht)
  | header => exact .inl (eHeader_running c s t hs ht)
  | grow => exact eGrow_advances c s t hs ht
  | rowInit => exact .inl (eRowInit_running c s t hs ht)
  | classify => exact .inl (eClassify_running c s t hs ht)
  | emitWhite => exact .inl (hs.congr (congrArg State.control (eEmitWhite_eq_ok ht).1 :))
  | emitBlack => exact .inl (hs.congr (congrArg State.control (eEmitBlack_eq_ok ht).1 :))
  | emitLiteral => exact .inl (hs.congr (congrArg State.control (eEmitLiteral_eq_ok ht).1 :))
  | rowWhite => exact .inl (hs.congr (congrArg State.control (eRowWhite_eq_ok ht).1 :))
  | rowAppend => exact .inl (hs.congr (congrArg State.control (eRowAppend_eq_ok ht).1 :))
  | finish => exact .inl (eFinish_running c s t hs ht)
  | success | failure => exact .inr (leads_complete c s t hs ht)

/-! ### COMPRESS -/

theorem compressRow_advances : Leads Advanced compressRow := by
  have hchunks : Leads Running fun s => compressChunks (chunks s.w) s := fun c s => compressChunks_running _ c s
  exact eGrow_advances.bind_whileBusy (fun _ _ => .inr) (eRowInit_running.bind (hchunks.bind encStep_advances))

theorem compressRows_advances (k : Nat) : Leads Advanced (compressRows k) := by
  induction k with
  | zero => exact leads_ok fun _ _ hs => .inl hs
  | succ k ih => exact compressRow_advances.bind_whileBusy (fun _ _ => .inr) ih

theorem compressBody_ends : Leads Ended compressBody := by
  have hrows : Leads Advanced fun s => compressRows s.h s := fun c s => compressRows_advances _ c s
  exact eCheck_advances.bind_whileBusy (fun _ _ => id)
    (Leads.ite (eDegenerate_running.bind leads_complete)
      (eHeader_running.bind (hrows.bind_whileBusy (fun _ _ => id) (eFinish_running.bind leads_complete))))

/-! ### The statement -/

theorem runCommand_ends {c : BitVec 4} {body : State → Res State} {s t : State} (hbody : Leads Ended body)
    (hb : s.status.busy = false) (h : runCommand c body s = .next t) : Ended c t := by
  rw [runCommand_of_idle hb, toOutcome_eq_next] at h
  exact hbody c _ t (running_beginCommand c s) h

theorem exec_command_ends {i : Instr} {s t : State} (hi : i.fits .command = true) (hb : s.status.busy = false)
    (h : exec i s = .next t) : Ended (commandCode i) t := by
  cases i with
  | rdbit => exact runCommand_ends rdbitBody_ends hb h
  | rdchunk => exact runCommand_ends rdchunkBody_ends hb h
  | setbit => exact runCommand_ends setbitBody_ends hb h
  | clrbit => exact runCommand_ends clrbitBody_ends hb h
  | wrchunk => exact runCommand_ends wrchunkBody_ends hb h
  | compress => exact runCommand_ends compressBody_ends hb h
  | decompress => exact runCommand_ends decompressBody_ends hb h
  | _ => simp [Instr.fits] at hi

/-- Settles O51: each of the seven commands starts under way, and its body leads to an end. -/
theorem commandsEndWithAResultOrTheSentinel : Obligations.CommandsEndWithAResultOrTheSentinel := by
  intro i s t hi hb h
  obtain ⟨hcmd, hbusy, hdone, hdstate, hestate, hfail, hsentinel⟩ := exec_command_ends hi hb h
  exact ⟨hcmd, hbusy, hdone, hdstate, hestate, hfail, hsentinel⟩

end Sys2Proof.Machine
end

