-- ==== Sys2Proof/Proofs/ReadOnlyInputs.lean ====
section
/-! PROOFS. The input of a codec command is read-only to the block (R279). Each action of the encoder writes CMP or SCR or nothing, so
`COMPRESS`, put together from them, leaves every byte of the other two stores. For `DECOMPRESS` the answer for its buffer says what
it wrote. -/

namespace Sys2Proof.Machine

open Config (Store)

/-! ### Actions that leave a store alone -/

/-- The action `f`, if it completes, leaves every byte of store `m`. -/
def Keeps (m : Store) (f : State → Res State) : Prop := ∀ s t, f s = .ok t → ∀ a, t.byteAt m a = s.byteAt m a

theorem keeps_ok {m : Store} {g : State → State} (h : ∀ s a, (g s).byteAt m a = s.byteAt m a) : Keeps m fun s => .ok (g s) := by
  intro s t ht
  obtain rfl := Except.ok.inj ht
  exact h s

theorem Keeps.bind {m : Store} {f g : State → Res State} (hf : Keeps m f) (hg : Keeps m g) : Keeps m fun s => f s >>= g := by
  intro s t ht a
  obtain ⟨s1, h1, h2⟩ := bind_eq_ok.1 ht
  exact (hg s1 t h2 a).trans (hf s s1 h1 a)

theorem Keeps.ite {m : Store} {p : State → Prop} [DecidablePred p] {f g : State → Res State} (hf : Keeps m f)
    (hg : Keeps m g) : Keeps m fun s => if p s then f s else g s := by
  intro s t ht
  dsimp only at ht
  split at ht
  · exact hf s t ht
  · exact hg s t ht

theorem Keeps.whileBusy {m : Store} {f : State → Res State} (hf : Keeps m f) : Keeps m (whileBusy f) :=
  hf.ite (keeps_ok fun _ _ => rfl)

theorem keeps_complete (m : Store) : Keeps m fun s => .ok (complete s) := keeps_ok fun s => complete_byteAt s m

theorem keeps_raiseFail (m : Store) (c : Cause) : Keeps m fun s => .ok (raiseFail c s) := keeps_ok fun s => raiseFail_byteAt c s m

/-! ### The actions of the encoder -/

/-- R171: `E_CHECK` makes no memory access. -/
theorem eCheck_keeps (m : Store) : Keeps m eCheck :=
  Keeps.ite (keeps_raiseFail m .sourceAbsent) <| Keeps.ite (keeps_raiseFail m .badDimension) <|
    Keeps.ite (keeps_ok fun s a => by cases m <;> rfl) <|
      Keeps.ite
        (keeps_ok (g := fun s => raiseFail .capacity { s with w := s.argWidth.toNat, h := s.argHeight.toNat })
          fun s a => by cases m <;> rfl)
        (keeps_ok fun s a => by cases m <;> rfl)

theorem eFinish_keeps (m : Store) : Keeps m eFinish := keeps_ok fun s a => by cases m <;> rfl

theorem eClassify_keeps (m : Store) : Keeps m eClassify := fun _ _ h => (eClassify_eq_ok h).bytes m

theorem eHeader_keeps {m : Store} (hm : m ≠ .cmp) : Keeps m eHeader := fun _ _ h a => (eHeader_eq_ok h).2 m a hm

theorem eRowInit_keeps {m : Store} (hm : m ≠ .scr) : Keeps m eRowInit := fun _ _ h a => (eRowInit_eq_ok h).2 m a hm

theorem compressChunks_keeps {m : Store} (hm : m ≠ .scr) (k : Nat) : Keeps m (compressChunks k) :=
  fun _ _ h => (compressChunks_eq_ok h).puts.byteAt_other hm

/-- R172: the header of a zero dimension is all that is written. -/
theorem eDegenerate_keeps {m : Store} (hm : m ≠ .cmp) : Keeps m eDegenerate := by
  have hheader : Keeps m headerWriteDegenerate := fun _ _ h a => (storeBytes_frame h).2 m a (.inl hm)
  exact hheader.bind (keeps_ok fun s a => by cases m <;> rfl)

/-- R174: the growth writes CMP, and so does its failure. -/
theorem eGrow_keeps {m : Store} (hm : m ≠ .cmp) : Keeps m eGrow := by
  intro s t h a
  unfold eGrow at h
  split at h
  case isTrue =>
    obtain rfl := Except.ok.inj h
    rw [raiseFail_byteAt, byteAt_forget, if_neg fun hc => hm hc.1]
  case isFalse =>
    obtain ⟨u, hu, h⟩ := bind_eq_ok.1 h
    obtain rfl := Except.ok.inj h
    calc _ = u.byteAt m a := by cases m <;> rfl
      _ = s.byteAt m a := (storeBytes_frame hu).2 m a (.inl hm)

theorem eRowAppend_keeps {m : Store} (hm : m ≠ .cmp) : Keeps m eRowAppend := by
  intro s t h a
  obtain ⟨-, u, hpres, hcodes⟩ := eRowAppend_eq_ok h
  exact (hcodes.byteAt_other hm a).trans (hpres.byteAt_other hm a)

/-- One transition of R183, from whatever state of ENC. -/
theorem encStep_keeps {m : Store} (hcmp : m ≠ .cmp) (hscr : m ≠ .scr) : Keeps m encStep := by
  intro s t h
  unfold encStep at h
  generalize s.estate = e at h
  cases e with
  | idle => cases h
  | check => exact eCheck_keeps m s t h
  | degenerate => exact eDegenerate_keeps hcmp s t h
  | header => exact eHeader_keeps hcmp s t h
  | grow => exact eGrow_keeps hcmp s t h
  | rowInit => exact eRowInit_keeps hscr s t h
  | classify => exact eClassify_keeps m s t h
  | emitWhite => exact (eEmitWhite_eq_ok h).2.byteAt_other hscr
  | emitBlack => exact (eEmitBlack_eq_ok h).2.byteAt_other hscr
  | emitLiteral => exact (eEmitLiteral_eq_ok h).2.byteAt_other hscr
  | rowWhite => exact (eRowWhite_eq_ok h).2.byteAt_other hcmp
  | rowAppend => exact eRowAppend_keeps hcmp s t h
  | finish => exact eFinish_keeps m s t h
  | success | failure => exact keeps_complete m s t h

/-! ### COMPRESS -/

section
variable {m : Store} (hcmp : m ≠ .cmp) (hscr : m ≠ .scr)
include hcmp hscr

theorem compressRow_keeps : Keeps m compressRow := by
  have hchunks : Keeps m fun s => compressChunks (chunks s.w) s := fun s => compressChunks_keeps hscr _ s
  have hemit := (eRowInit_keeps hscr).bind (hchunks.bind (encStep_keeps hcmp hscr))
  exact (eGrow_keeps hcmp).bind hemit.whileBusy

theorem compressRows_keeps (k : Nat) : Keeps m (compressRows k) := by
  induction k with
  | zero => exact keeps_ok fun _ _ => rfl
  | succ k ih => exact (compressRow_keeps hcmp hscr).bind ih.whileBusy

theorem compressBody_keeps : Keeps m compressBody := by
  have hrows : Keeps m fun s => compressRows s.h s := fun s => compressRows_keeps hcmp hscr _ s
  have hzero := (eDegenerate_keeps hcmp).bind (keeps_complete m)
  have hfinish := (eFinish_keeps m).bind (keeps_complete m)
  have himage := (eHeader_keeps hcmp).bind (hrows.bind hfinish.whileBusy)
  exact (eCheck_keeps m).bind (hzero.ite himage).whileBusy

end

/-! ### The commands -/

theorem exec_compress_byteAt_of_idle {m : Store} (hcmp : m ≠ .cmp) (hscr : m ≠ .scr) {s t : State}
    (hb : s.status.busy = false) (h : exec .compress s = .next t) (a : Nat) : t.byteAt m a = s.byteAt m a := by
  have hrun : compressBody (beginCommand 6 s) = .ok t := by
    rw [← toOutcome_eq_next, ← runCommand_of_idle hb]
    exact h
  exact (compressBody_keeps hcmp hscr _ t hrun a).trans (beginCommand_byteAt 6 s m a)

/-- `DECOMPRESS` on a buffer that a check rejects, that is parsed, and that is not parsed (R163, R214, R215). -/
theorem exec_decompress_byteAt_of_idle {m : Store} (hm : m ≠ .pix) {s t : State} (hb : s.status.busy = false)
    (h : exec .decompress s = .next t) (a : Nat) : t.byteAt m a = s.byteAt m a := by
  have same {u : State} (hu : exec .decompress s = .next u) : u = t := Host.Outcome.next.inj (hu.symm.trans h)
  cases hc : validateCause s with
  | some c =>
    obtain ⟨u, hu, hfail⟩ := decompress_of_cause hb hc
    obtain rfl := same hu
    calc u.byteAt m a = (failedWith 7 c s).byteAt m a := by rw [← hfail]; cases m <;> rfl
      _ = s.byteAt m a := by cases m <;> rfl
  | none =>
    have hvalid := validateCause_eq_none_iff.1 hc
    cases hp : parsePayload (headerWidth s).toNat (headerHeight s).toNat (bufferBits s) with
    | ok parsed =>
      obtain ⟨u, hu, -, hbytes, -⟩ := decompress_of_parse_ok hb hvalid hp
      obtain rfl := same hu
      rw [hbytes, if_neg fun hpix => hm hpix.1]
    | error k =>
      obtain ⟨u, hu, -, hkept⟩ := decompress_of_parse_error hb hvalid hp
      obtain rfl := same hu
      exact hkept m a fun hpix => hm hpix.1

/-- Settles O49: `COMPRESS` by its actions, `DECOMPRESS` by its answers; a command that comes while one runs changes nothing (R24). -/
theorem inputsAreReadOnly : Obligations.InputsAreReadOnly := by
  intro s t
  cases hb : s.status.busy with
  | true =>
    have hsame {i : Instr} (hi : i.fits .command = true) (h : exec i s = .next t) : t = s :=
      Host.Outcome.next.inj (h.symm.trans (exec_command_of_busy hb hi))
    exact ⟨fun h a => by rw [hsame rfl h], fun h a => by rw [hsame rfl h]⟩
  | false =>
    exact ⟨exec_compress_byteAt_of_idle (by decide) (by decide) hb, exec_decompress_byteAt_of_idle (by decide) hb⟩

end Sys2Proof.Machine
end

