-- ==== Sys2Proof/Proofs/LosslessStream.lean ====
section
/-! PROOFS. The stream of an image as a law of the format (R185, R217): with sizes that fit their fields it is well formed and stands for
the image. -/

namespace Sys2Proof.Machine

/-- A size below `2^31` is its own field, and is not negative as one (R14, R91). -/
theorem ofNat_field {n : Nat} (h : n < 2 ^ 31) : (BitVec.ofNat 32 n).toNat = n ∧ 0 ≤ (BitVec.ofNat 32 n).toInt := by
  have hn : (BitVec.ofNat 32 n).toNat = n := by
    rw [BitVec.toNat_ofNat]
    omega
  refine ⟨hn, ?_⟩
  rw [BitVec.toInt_eq_toNat_cond, hn]
  split <;> omega

/-- Settles O39: the fields are the sizes, and the presence bits and codes are those of the image's rows. -/
theorem streamOfAnImageIsLossless : Obligations.StreamOfAnImageIsLossless := by
  intro px w h hw hh hpx
  obtain ⟨hwidth, hwpos⟩ := ofNat_field hw
  obtain ⟨hheight, hhpos⟩ := ofNat_field hh
  have hfields : (imageStream px w h).width = BitVec.ofNat 32 w ∧ (imageStream px w h).height = BitVec.ofNat 32 h :=
    ⟨rfl, rfl⟩
  constructor
  · simp only [Stream.wf, hfields, hwidth, hheight, hwpos, hhpos, length_imageStream_pres, imageStream_rows_length,
      imageStream_rows_fit hpx, decide_true, Bool.and_self]
  · rw [streamPixels, hfields.1, hwidth, rowsPixels_imageStream hpx]

end Sys2Proof.Machine
end

