-- ==== Sys2Proof/Proofs/DecompressAnswers.lean ====
section
/-! PROOFS. The statements about `DECOMPRESS` as a whole (R109, R163, R214, R217): a check of `Validate()` that fails, or the parser's
answer for a valid buffer, is all there is to it. -/

namespace Sys2Proof.Machine

open Config (Store)

/-! ### The causes of the parse -/

/-- A parser that fails does so with one of the three causes of R207, R209 and R211. -/
def Parser.Truncates (p : Parser) : Prop := ∀ bits c, p bits = .error c → c.code ∈ [8, 9, 10]

theorem Parser.Truncates.seq {p q : Parser} (hp : p.Truncates) (hq : q.Truncates) : (p.seq q).Truncates := by
  intro bits c h
  cases h1 : p bits with
  | error c1 =>
    obtain rfl := Except.error.inj ((Parser.seq_of_error h1).symm.trans h)
    exact hp bits _ h1
  | ok r =>
    cases h2 : q r.2 with
    | error c2 =>
      obtain rfl := Except.error.inj ((Parser.seq_of_ok_error h1 h2).symm.trans h)
      exact hq r.2 _ h2
    | ok r' => cases (Parser.seq_of_ok_ok h1 h2).symm.trans h

theorem truncates_const (px : List Byte) : Parser.Truncates (fun bits => .ok (px, bits)) := fun _ _ h => nomatch h

theorem truncationCause_code (bits : List Bool) : (truncationCause bits).code ∈ [8, 9, 10] := by
  match bits with
  | [] | [_] | _ :: _ :: _ => simp [truncationCause, Cause.code]

theorem parseChunk_truncates (n : Nat) : (parseChunk n).Truncates := by
  intro bits c h
  unfold parseChunk at h
  split at h
  · cases h
  · obtain rfl := Except.error.inj h
    exact truncationCause_code bits

theorem parseChunks_truncates (w k chk : Nat) : (parseChunks w k chk).Truncates := by
  induction k generalizing chk with
  | zero => exact truncates_const []
  | succ k ih => exact (parseChunk_truncates _).seq (ih _)

theorem parseRow_truncates (w : Nat) (present : Bool) : (parseRow w present).Truncates := by
  cases present with
  | true => exact parseChunks_truncates w _ 0
  | false => exact truncates_const _

theorem parseRows_truncates (w : Nat) (pres : List Bool) : (parseRows w pres).Truncates := by
  induction pres with
  | nil => exact truncates_const []
  | cons p ps ih => exact (parseRow_truncates w p).seq ih

theorem parsePayload_truncates (w h : Nat) : (parsePayload w h).Truncates :=
  fun bits c => parseRows_truncates w (bits.take h) (bits.drop h) c

theorem validateCause_mem {s : State} {c : BitVec 4} (h : validateCause s = some c) : c ∈ [3, 4, 5, 6, 7, 11] := by
  unfold validateCause at h
  split_ifs at h <;> (obtain rfl := Option.some.inj h; decide)

/-! ### Completion -/

/-- The error a state of R250 shows. -/
theorem err_of_failed {s t : State} {e : BitVec 4}
    (h : { t.visible.registers with draws := s.draws } = (failedWith 7 e s).visible.registers) : t.err = e :=
  (congrArg State.err h :)

/-- Settles O43: the first check that fails, or the parser's answer. -/
theorem decompressAlwaysCompletes : Obligations.DecompressAlwaysCompletes := by
  intro s hb
  cases hv : validateCause s with
  | some c =>
    obtain ⟨t, ht, hfail⟩ := decompress_of_cause hb hv
    have hsentinel : { t.visible.registers with draws := s.draws } = (failedWith 7 c s).visible.registers :=
      (congrArg (fun r : State => { r.visible.registers with draws := s.draws }) hfail :)
    obtain rfl := err_of_failed hsentinel
    have hsub : ([3, 4, 5, 6, 7, 11] : List (BitVec 4)) ⊆ [3, 4, 5, 6, 7, 8, 9, 10, 11] := by decide
    exact ⟨t, ht, .inr ⟨hsub (validateCause_mem hv), hsentinel⟩⟩
  | none =>
    have hvalid := validateCause_eq_none_iff.1 hv
    cases hp : parsePayload (headerWidth s).toNat (headerHeight s).toNat (bufferBits s) with
    | ok r =>
      obtain ⟨t, ht, hok, -⟩ := decompress_of_parse_ok hb hvalid hp
      exact ⟨t, ht, .inl ⟨rfl, hok⟩⟩
    | error k =>
      obtain ⟨t, ht, hsentinel, -⟩ := decompress_of_parse_error hb hvalid hp
      have herr := err_of_failed hsentinel
      have hcause := parsePayload_truncates _ _ _ _ hp
      rw [← herr] at hsentinel hcause
      have hsub : ([8, 9, 10] : List (BitVec 4)) ⊆ [3, 4, 5, 6, 7, 8, 9, 10, 11] := by decide
      exact ⟨t, ht, .inr ⟨hsub hcause, hsentinel⟩⟩

/-! ### Validation -/

/-- R163, R202: `L`, `W` and `H` of a valid buffer are still there when the command has ended. -/
theorem decompress_latches {s t : State} (hb : s.status.busy = false) (h : ValidBuffer s)
    (ht : exec .decompress s = .next t) :
    t.l = s.argLen ∧ t.w = (headerWidth s).toNat ∧ t.h = (headerHeight s).toNat := by
  suffices hkeep : ∃ u : State, u.parseFixed = (parseStart s).parseFixed ∧ t.l = u.l ∧ t.w = u.w ∧ t.h = u.h by
    obtain ⟨u, hu, hl, hw, hh⟩ := hkeep
    exact ⟨hl.trans (congrArg State.l hu :), hw.trans (congrArg State.w hu :), hh.trans (congrArg State.h hu :)⟩
  have hrun := exec_decompress_of_valid hb h
  have hrows := h.rows_follow
  rw [ht] at hrun
  cases hp : parsePayload (headerWidth s).toNat (headerHeight s).toNat (bufferBits s) with
  | ok r =>
    rw [hp] at hrows
    obtain ⟨u, hu, hdec, -⟩ := hrows
    rw [hu, ok_bind, whileBusy_of_busy (h.parsing.congr hdec.fixed).busy, dSuccess_eq, toOutcome_ok] at hrun
    obtain rfl := Host.Outcome.next.inj hrun
    exact ⟨u, hdec.fixed, rfl, rfl, rfl⟩
  | error k =>
    rw [hp] at hrows
    obtain ⟨u, hu, hdiff⟩ := hrows
    rw [hu, ok_bind, whileBusy_of_idle rfl, toOutcome_ok] at hrun
    obtain rfl := Host.Outcome.next.inj hrun
    exact ⟨u, hdiff.fixed, rfl, rfl, rfl⟩

/-- Settles O42: `decompress_of_cause` for a check that fails; else the parser's answer, which keeps what was latched. -/
theorem decompressValidates : Obligations.DecompressValidates := by
  intro s hb
  refine ⟨fun c hc => decompress_of_cause hb hc, fun hv => ?_⟩
  have hvalid := validateCause_eq_none_iff.1 hv
  cases hp : parsePayload (headerWidth s).toNat (headerHeight s).toNat (bufferBits s) with
  | ok r =>
    obtain ⟨t, ht, hok, -⟩ := decompress_of_parse_ok hb hvalid hp
    have herr : t.err = 0 := (congrArg State.err hok :)
    exact ⟨t, ht, herr ▸ List.mem_cons_self, decompress_latches hb hvalid ht⟩
  | error k =>
    obtain ⟨t, ht, hsentinel, -⟩ := decompress_of_parse_error hb hvalid hp
    have hcause := parsePayload_truncates _ _ _ _ hp
    rw [← err_of_failed hsentinel] at hcause
    exact ⟨t, ht, List.mem_cons_of_mem _ hcause, decompress_latches hb hvalid ht⟩

/-! ### The range a command writes -/

/-- What a command that completes between commands has changed of the stores (R214, R215). -/
theorem exec_decompress_kept {s t : State} (hb : s.status.busy = false) (h : exec .decompress s = .next t) {m : Store} {a : Nat}
    (hout : ¬ (m = .pix ∧ a < (headerWidth s).toNat * (headerHeight s).toNat)) : t.byteAt m a = s.byteAt m a := by
  have same {u : State} (hu : exec .decompress s = .next u) : u = t := Host.Outcome.next.inj (hu.symm.trans h)
  cases hv : validateCause s with
  | some c =>
    obtain ⟨u, hu, hfail⟩ := decompress_of_cause hb hv
    obtain rfl := same hu
    calc u.byteAt m a = (failedWith 7 c s).byteAt m a := by rw [← hfail]; cases m <;> rfl
      _ = s.byteAt m a := by cases m <;> rfl
  | none =>
    have hvalid := validateCause_eq_none_iff.1 hv
    cases hp : parsePayload (headerWidth s).toNat (headerHeight s).toNat (bufferBits s) with
    | ok r =>
      have hheight : (headerHeight s).toNat ≤ (bufferBits s).length := by
        have hbitmap := hvalid.bitmap
        simp only [ceil8] at hbitmap
        rw [length_bufferBits]
        omega
      obtain ⟨u, hu, -, hbytes, -⟩ := decompress_of_parse_ok hb hvalid hp
      obtain rfl := same hu
      rw [hbytes, if_neg (by rwa [parsePayload_length hheight hp])]
    | error k =>
      obtain ⟨u, hu, -, hkept⟩ := decompress_of_parse_error hb hvalid hp
      obtain rfl := same hu
      exact hkept m a hout

/-- Settles O44: a command that comes while one runs changes nothing (R24). -/
theorem decompressChangesOnlyTheImage : Obligations.DecompressChangesOnlyTheImage := by
  intro s t h m a hout
  cases hb : s.status.busy with
  | true => rw [Host.Outcome.next.inj (h.symm.trans (exec_command_of_busy hb rfl))]
  | false => exact exec_decompress_kept hb h hout

/-! ### A stream in the buffer -/

/-- What a well-formed stream is made of (R114). -/
theorem stream_wf_iff {st : Stream} : st.wf = true ↔
    0 ≤ st.width.toInt ∧ 0 ≤ st.height.toInt ∧ st.pres.length = st.height.toNat ∧
      st.rows.length = (st.pres.filter (· = true)).length ∧ st.rows.all (rowFits st.width.toNat 0) = true := by
  simp only [Stream.wf, Bool.and_eq_true, decide_eq_true_eq, and_assoc]

/-- Settles O45: the buffer is valid, and its payload bits begin with those of the stream, which the parser gives back whatever
follows them. -/
theorem decompressReadsTheStream : Obligations.DecompressReadsTheStream := by
  intro s st hb hp hwf hheader hbits hlen hcap hpix
  obtain ⟨hw, hh, hpres, hrows, hfit⟩ := stream_wf_iff.1 hwf
  have hwidth : headerWidth s = st.width := headerWidth_of_cmpHolds hheader
  have hheight : headerHeight s = st.height := headerHeight_of_cmpHolds hheader
  have hpayload : st.payload.length = st.height.toNat + (encodeAll st.rows.flatten).length := by
    rw [Stream.payload, List.length_append, hpres]
  rw [length_assemble] at hlen
  simp only [ceil8] at hlen
  have hvalid : ValidBuffer s := by
    refine ⟨hp, hcap, by omega, hheader 0 _ rfl, by rwa [hwidth], by rwa [hheight], ?_, by rwa [hwidth, hheight]⟩
    rw [hheight, ceil8]
    omega
  have hprefix : st.payload <+: bufferBits s := List.prefix_iff_getElem?.2 fun k hk => by
    rw [getElem?_bufferBits (by omega), hbits k _ (List.getElem?_eq_getElem hk)]
  obtain ⟨rest, hrest⟩ := hprefix
  have hparse : parsePayload (headerWidth s).toNat (headerHeight s).toNat (bufferBits s) = .ok (streamPixels st, rest) := by
    rw [hwidth, hheight, ← hrest]
    exact parsePayload_stream hpres hrows hfit rest
  have hpxlen : (streamPixels st).length = st.width.toNat * st.height.toNat := by
    rw [← hwidth, ← hheight]
    refine parsePayload_length ?_ hparse
    rw [← hrest, hheight, List.length_append]
    omega
  obtain ⟨t, ht, hok, hbytes, hcur⟩ := decompress_of_parse_ok hb hvalid hparse
  rw [hwidth, hheight] at hok
  refine ⟨t, ht, hok, ?pixels, ?cursor⟩
  case pixels =>
    refine List.ext_getElem (by simp [storeList, hpxlen]) fun a ha ha' => ?_
    simp [storeList, hbytes, ha']
  case cursor =>
    have htotal := congrArg List.length hrest
    rw [List.length_append, length_bufferBits] at htotal
    omega

end Sys2Proof.Machine
end

