-- ==== Sys2Proof/Proofs/Encoding.lean ====
section
/-! PROOFS. The decoder and the encoder at every position (R91, R97 to R104, R111, R118): the decoder accepts exactly the encodings of
the codes that can stand there, whatever follows them. For the position of a chunk this is `decode_chunk_eq_ok_iff`. -/

namespace Sys2Proof

/-! ### The header -/

/-- The pattern of four bytes taken apart again (R92). -/
theorem toLE32_fromLE32 (x0 x1 x2 x3 : Byte) : toLE32 (fromLE32 x0 x1 x2 x3) = [x0, x1, x2, x3] := by
  have h0 := x0.isLt
  have h1 := x1.isLt
  have h2 := x2.isLt
  have h3 := x3.isLt
  simp only [toLE32, List.cons.injEq, and_true]
  refine ⟨?_, ?_, ?_, ?_⟩
  all_goals
    refine BitVec.eq_of_toNat_eq ?_
    simp only [fromLE32, BitVec.extractLsb'_toNat, BitVec.toNat_ofNat, Nat.shiftRight_eq_div_pow]
    omega

theorem decodeHeader_headerOf (w h : Word32) : decodeHeader (headerOf w h) = .ok (.header w h) :=
  congrArg Except.ok (congrArg₂ Instr.header (fromLE32_toLE32 w) (fromLE32_toLE32 h))

/-- Nine bytes are a header exactly if they are one's encoding (R91, R162). -/
theorem decodeHeader_eq_ok_iff {xs : List Byte} {i : Instr} :
    decodeHeader xs = .ok i ↔ ∃ w h, i = .header w h ∧ xs = headerOf w h := by
  constructor
  · intro hx
    unfold decodeHeader at hx
    split at hx
    next m w0 w1 w2 w3 h0 h1 h2 h3 =>
      split at hx
      next hm =>
        refine ⟨_, _, (Except.ok.inj hx).symm, ?_⟩
        rw [hm, headerOf, toLE32_fromLE32, toLE32_fromLE32]
        rfl
      next => cases hx
    next => cases hx
  · rintro ⟨w, h, rfl, rfl⟩
    exact decodeHeader_headerOf w h

theorem fits_header_iff {i : Instr} : i.fits .header = true ↔ ∃ w h, i = .header w h := by
  cases i <;> simp [Instr.fits]

theorem decode_header_eq_ok_iff {bits rest : List Bool} {i : Instr} :
    decode .header bits = .ok (i, rest) ↔ i.fits .header = true ∧ bits = encode i ++ rest := by
  constructor
  · intro h
    simp only [decode] at h
    split at h
    next => cases h
    next xs tail htake =>
      split at h
      next j hj =>
        obtain ⟨rfl, rfl⟩ := Prod.mk.inj (Except.ok.inj h)
        obtain ⟨w, h, rfl, rfl⟩ := decodeHeader_eq_ok_iff.1 hj
        exact ⟨rfl, (takeBytes_eq_some_iff.1 htake).2⟩
      next => cases h
  · rintro ⟨hi, rfl⟩
    obtain ⟨w, h, rfl⟩ := fits_header_iff.1 hi
    have htake : takeBytes Config.headerBytes (encode (.header w h) ++ rest) = some (headerOf w h, rest) :=
      takeBytes_eq_some_iff.2 ⟨rfl, rfl⟩
    simp only [decode, htake, decodeHeader_headerOf]

/-! ### The presence bit -/

theorem decode_presence_eq_ok_iff {bits rest : List Bool} {i : Instr} :
    decode .presence bits = .ok (i, rest) ↔ i.fits .presence = true ∧ bits = encode i ++ rest := by
  constructor
  · intro h
    match bits with
    | [] => cases h
    | x :: tail =>
      obtain ⟨rfl, rfl⟩ := Prod.mk.inj (Except.ok.inj h)
      cases x <;> exact ⟨rfl, rfl⟩
  · rintro ⟨hi, rfl⟩
    cases i
    case p0 | p1 => rfl
    all_goals simp [Instr.fits] at hi

/-! ### The command -/

/-- The codes of R110 are those of the commands, each of one command. -/
theorem decodeCommand_eq_ok_iff {c : BitVec 4} {i : Instr} :
    decodeCommand c = .ok i ↔ i.fits .command = true ∧ commandCode i = c := by
  constructor
  · intro h
    unfold decodeCommand at h
    split at h
    case h_8 => cases h
    all_goals
      next hc =>
        obtain rfl := Except.ok.inj h
        exact ⟨rfl, BitVec.eq_of_toNat_eq hc.symm⟩
  · rintro ⟨hi, rfl⟩
    cases i
    case rdbit | rdchunk | setbit | clrbit | wrchunk | compress | decompress => rfl
    all_goals simp [Instr.fits] at hi

theorem encode_of_fits_command {i : Instr} (h : i.fits .command = true) : encode i = commandBits (commandCode i) := by
  cases i
  case rdbit | rdchunk | setbit | clrbit | wrchunk | compress | decompress => rfl
  all_goals simp [Instr.fits] at h

theorem commandBits_ofNat_bitsToNat (x0 x1 x2 x3 : Bool) :
    commandBits (BitVec.ofNat 4 (bitsToNat [x0, x1, x2, x3])) = [x0, x1, x2, x3] := by
  simp only [commandBits, BitVec.getLsbD_ofNat, testBit_bitsToNat]
  rfl

theorem ofNat_bitsToNat_commandBits (c : BitVec 4) : BitVec.ofNat 4 (bitsToNat (commandBits c)) = c := by
  refine BitVec.eq_of_getLsbD_eq fun i hi => ?_
  rw [BitVec.getLsbD_ofNat, testBit_bitsToNat, decide_eq_true hi, Bool.true_and]
  interval_cases i <;> rfl

theorem decode_command_eq_ok_iff {bits rest : List Bool} {i : Instr} :
    decode .command bits = .ok (i, rest) ↔ i.fits .command = true ∧ bits = encode i ++ rest := by
  constructor
  · intro h
    simp only [decode] at h
    split at h
    next x0 x1 x2 x3 tail =>
      split at h
      next j hj =>
        obtain ⟨rfl, rfl⟩ := Prod.mk.inj (Except.ok.inj h)
        obtain ⟨hfit, hcode⟩ := decodeCommand_eq_ok_iff.1 hj
        refine ⟨hfit, ?_⟩
        rw [encode_of_fits_command hfit, hcode, commandBits_ofNat_bitsToNat]
        rfl
      next => cases h
    next => cases h
  · rintro ⟨hi, rfl⟩
    have hcode : decodeCommand (BitVec.ofNat 4 (bitsToNat (commandBits (commandCode i)))) = .ok i := by
      rw [ofNat_bitsToNat_commandBits]
      exact decodeCommand_eq_ok_iff.2 ⟨hi, rfl⟩
    rw [encode_of_fits_command hi]
    simp only [commandBits] at hcode
    simp only [decode, commandBits, List.cons_append, List.nil_append, hcode]

/-! ### The statements -/

/-- R118: at every position the decoder accepts a code that can stand there followed by anything, and nothing else. -/
theorem decode_eq_ok_iff {p : Position} {bits rest : List Bool} {i : Instr} :
    decode p bits = .ok (i, rest) ↔ i.fits p = true ∧ bits = encode i ++ rest := by
  cases p with
  | header => exact decode_header_eq_ok_iff
  | presence => exact decode_presence_eq_ok_iff
  | chunk n => exact decode_chunk_eq_ok_iff
  | command => exact decode_command_eq_ok_iff

/-- Settles O1, position by position in `decode_eq_ok_iff`. -/
theorem encodedInstructionDecodesToItself : Obligations.EncodedInstructionDecodesToItself :=
  fun _ _ _ h => decode_eq_ok_iff.2 ⟨h, rfl⟩

/-- Settles O2, the other direction of `decode_eq_ok_iff`. -/
theorem decodedInstructionEncodesBack : Obligations.DecodedInstructionEncodesBack :=
  fun _ _ _ _ h => decode_eq_ok_iff.1 h

/-- R112: the codes that are rejected are the ones that R110 leaves out. -/
theorem decodeCommand_reserved_iff {c : BitVec 4} :
    decodeCommand c = .error .reservedCommand ↔ c = 0 ∨ 8 ≤ c.toNat := by
  refine ⟨fun h => ?_, Machine.decodeCommand_reserved⟩
  by_contra hc
  have hzero : c.toNat ≠ 0 := fun h0 => hc (.inl (BitVec.eq_of_toNat_eq h0))
  obtain ⟨i, hi⟩ := Machine.decodeCommand_ofNat_ok (v := c.toNat) (by omega) (by omega)
  rw [BitVec.ofNat_toNat, BitVec.setWidth_eq, h] at hi
  cases hi

/-- Settles O3: the words are evaluated; the reserved codes are `decodeCommand_reserved_iff`. -/
theorem tableWordsDecodeToTheirRows : Obligations.TableWordsDecodeToTheirRows :=
  ⟨rfl, rfl, rfl, rfl, rfl, rfl, rfl, rfl, rfl, rfl, rfl, ⟨rfl, rfl, rfl, rfl, rfl, rfl, rfl⟩,
    fun _ => decodeCommand_reserved_iff⟩

end Sys2Proof
end

