-- ==== Sys2Proof/Proofs/HostActions.lean ====
section
/-! PROOFS. What the host's actions do while a command runs and while none does (R20, R45, R75, R115, R270, R278, U2). -/

namespace Sys2Proof.Machine

/-! ### While a command runs -/

theorem hostWriteMem_of_busy {s : State} (hb : s.status.busy = true) (m : HostMem) (a : Nat) (bytes : List Byte) :
    hostWriteMem m a bytes s = .error (.refuse .hostAccessWhileBusy) := if_pos hb

theorem hostReadMem_of_busy {s : State} (hb : s.status.busy = true) (m : HostMem) (a : Nat) :
    hostReadMem m a s = .error (.refuse .hostAccessWhileBusy) := if_pos hb

/-- R281, U2: the operand registers and DBUF. -/
theorem hostWriteReg_of_busy {s : State} {n : Nat} (hb : s.status.busy = true) (hn : 3 ≤ n ∧ n ≤ 9 ∨ 16 ≤ n) (v : Nat) :
    hostWriteReg n v s = .error (.refuse .hostAccessWhileBusy) := by
  rw [hostWriteReg, if_neg (by omega)]
  rcases hn with hn | hn
  · rw [if_pos hn, if_pos hb]
  · rw [if_neg (by omega), if_neg (by omega), if_pos hb]

theorem hostReadReg_of_busy {s : State} {n : Nat} (hb : s.status.busy = true) (hn : 16 ≤ n) :
    hostReadReg n s = .error (.refuse .hostAccessWhileBusy) := by
  rw [hostReadReg, if_neg (by omega), if_pos hb]

/-- Settles O7, action by action. -/
theorem hostAccessWhileBusyIsRefused : Obligations.HostAccessWhileBusyIsRefused := by
  intro s op rest hb hd hop
  have hb' : { s with host := rest }.status.busy = true := hb
  rcases hop with ⟨m, a, bs, rfl⟩ | ⟨m, a, rfl⟩ | ⟨n, v, hn, rfl⟩ | ⟨n, hn, rfl⟩
  · simp only [step, hd, hostWriteMem_of_busy hb', toOutcome]
  · simp only [step, hd, hostReadMem_of_busy hb', toOutcome]
  · simp only [step, hd, hostWriteReg_of_busy hb' hn, toOutcome]
  · simp only [step, hd, hostReadReg_of_busy hb' hn, toOutcome]

/-! ### Between commands -/

/-- Settles O8: the write is a run of bytes inside the memory, the read one byte of it. -/
theorem hostReachesMemoryBetweenCommands : Obligations.HostReachesMemoryBetweenCommands := by
  intro s m a rest hb
  have hhost (m' : Config.Store) (b : Nat) : { s with host := rest }.byteAt m' b = s.byteAt m' b := by cases m' <;> rfl
  refine ⟨fun bytes hfit hd => ?write, fun hlt hd => ?read⟩
  case write =>
    have hrun : hostWriteMem m a bytes { s with host := rest } =
        .ok (placeBytes { s with host := rest } (hostStore m) a bytes) :=
      (if_neg (by simp [hb])).trans (storeBytes_of_le hfit)
    have hstep : step s = .next (placeBytes { s with host := rest } (hostStore m) a bytes) := by
      simp only [step, hd, hrun, toOutcome_ok]
    refine ⟨_, hstep, placeBytes_registers _ _ _ _, fun k x hx => ?_, fun m' b hout => ?_⟩
    · exact byteAt_placeBytes_of_getElem? _ _ _ hx
    · rw [byteAt_placeBytes_other _ hout, hhost]
  case read =>
    have hload : load { s with host := rest } (hostStore m) a = .ok (s.byteAt (hostStore m) a) :=
      (load_of_lt hlt).trans (congrArg Except.ok (hhost _ _))
    simp only [step, hd, hostReadMem, hb, hload, ok_bind, toOutcome_ok, Bool.false_eq_true, if_false]

/-- Settles O9: with nothing from the host the step is the block's move, and the block moves only while a command runs. -/
theorem idleBlockChangesNothing : Obligations.IdleBlockChangesNothing := by
  intro s hb hd
  simp only [step, hd, blockMove, hb, Bool.false_eq_true, if_false]

/-- Settles O10: both states are `State.afterReset`, of other capacities and host actions. -/
theorem resetInputGivesTheResetValues : Obligations.ResetInputGivesTheResetValues := by
  intro s rest hd
  refine ⟨hostReset { s with host := rest }, by simp only [step, hd], rfl, rfl, fun u hu => ?_⟩
  have hvalues : ∃ caps host saw draws, u = State.afterReset caps host saw draws := by
    rcases hu with rfl | rfl
    · exact ⟨_, _, _, _, rfl⟩
    · exact ⟨_, _, _, _, rfl⟩
  obtain ⟨caps, host, saw, draws, rfl⟩ := hvalues
  exact ⟨rfl, rfl, rfl, rfl, rfl, rfl, rfl, rfl, rfl, rfl, rfl, rfl, rfl, rfl, rfl, rfl⟩

/-- Settles O11: the line is taken, and `issueCommand` runs what its code decodes to. -/
theorem stepRunsTheIssuedCommand : Obligations.StepRunsTheIssuedCommand := by
  intro s c i rest hb hd hi
  simp only [step, hd, hb, Bool.false_eq_true, if_false, issueCommand, hi]

end Sys2Proof.Machine
end

