-- ==== Sys2Proof/Proofs/ChunkSpans.lean ====
section
/-! PROOFS. Which bytes the chunk primitives touch (R66, R138), and at which one they stop when it is out of capacity (R44, R137, U1). -/

namespace Sys2Proof.Machine

open Config (Store)

/-! ### What a read depends on -/

theorem byteOf_add_eight (base b : Nat) : byteOf base (b + 8) = byteOf base b + 1 := by
  simp only [byteOf]
  omega

theorem load_congr {s s' : State} {m : Store} {a : Nat} (hc : s'.caps = s.caps) (h : s'.byteAt m a = s.byteAt m a) :
    load s' m a = load s m a := by
  rw [load, load, hc, h]

/-- One byte of `ChunkRead` reads the byte of its first bit, and the next one only if it is not aligned (R138). -/
theorem chunkByte_congr {s s' : State} {m : Store} {base b : Nat} (hc : s'.caps = s.caps)
    (h : ∀ a, byteOf base b ≤ a → a < byteOf base b + chunkSpan b 1 → s'.byteAt m a = s.byteAt m a) :
    chunkByte s' m base b = chunkByte s m base b := by
  simp only [chunkSpan, Nat.one_ne_zero, if_false] at h
  unfold chunkByte
  split
  case isTrue h8 => exact load_congr hc (h _ (le_refl _) (by rw [if_pos h8]; omega))
  case isFalse h8 =>
    rw [if_neg h8] at h
    rw [load_congr hc (h _ (le_refl _) (by omega)), load_congr hc (h _ (Nat.le_succ _) (by omega))]

theorem chunkRead_congr {s s' : State} {m : Store} {base b n : Nat} (hc : s'.caps = s.caps)
    (h : ∀ a, byteOf base b ≤ a → a < byteOf base b + chunkSpan b n → s'.byteAt m a = s.byteAt m a) :
    chunkRead s' m base b n = chunkRead s m base b n := by
  induction n generalizing b with
  | zero => rfl
  | succ n ih =>
    have hspan : chunkSpan b 1 ≤ chunkSpan b (n + 1) ∧ 1 + chunkSpan (b + 8) n ≤ chunkSpan b (n + 1) := by
      by_cases h8 : b % 8 = 0 <;> by_cases hn : n = 0 <;> simp [chunkSpan, h8, hn] <;> omega
    have hbyte : chunkByte s' m base b = chunkByte s m base b := chunkByte_congr hc fun a h1 h2 => h a h1 (by omega)
    have hrest : chunkRead s' m base (b + 8) n = chunkRead s m base (b + 8) n := ih fun a h1 h2 => by
      rw [byteOf_add_eight] at h1 h2
      exact h a (by omega) (by omega)
    rw [chunkRead, chunkRead, hbyte, hrest]

/-! ### What a write changes -/

/-- Bytes that hold none of the bits of a put are as before. -/
theorem PutsBits.byteAt_outside {s t : State} {m : Store} {p : Nat} {bits : List Bool} (h : PutsBits s t m p bits) {m' : Store}
    {a : Nat} (hout : ∀ i, i < 8 → ¬ (m' = m ∧ p ≤ 8 * a + i ∧ 8 * a + i < p + bits.length)) :
    t.byteAt m' a = s.byteAt m' a :=
  BitVec.eq_of_getLsbD_eq fun i hi => by rw [h.getLsbD m' a hi, if_neg (hout i hi)]

/-- Settles O22: the conditions of completion in bytes, what a read depends on, and the bytes that hold the written bits. -/
theorem chunkPrimitivesTouchTheirSpan : Obligations.ChunkPrimitivesTouchTheirSpan := by
  intro s m base b
  refine ⟨fun n => chunkRead_completes_iff.trans chunkSpan_le_iff.symm, fun src => ?completes,
    fun s' n hc h => chunkRead_congr hc h, fun src t h m' a hout => ?changes⟩
  case completes =>
    rw [chunkWrite_completes_iff, ← chunkSpan_le_iff, List.length_eq_zero_iff]
  case changes =>
    refine (chunkWrite_eq_ok h).2.byteAt_outside fun i hi hin => hout ⟨hin.1, ?_⟩
    have hbit := eight_mul_byteOf base b
    rw [length_bytesBits] at hin
    simp only [chunkSpan]
    split_ifs <;> omega

/-! ### Where they stop -/

/-- The stop at the first address from `a` up that is not below the capacity. -/
def capacityFault (s : State) (m : Store) (a : Nat) : Stop := .fault (.outOfCapacity m (max a (s.caps.cap m)))

theorem capacityFault_of_ge {s : State} {m : Store} {a : Nat} (h : s.caps.cap m ≤ a) :
    capacityFault s m a = .fault (.outOfCapacity m a) := by
  rw [capacityFault, max_eq_left h]

/-- A run of addresses that is not wholly below the capacity stops at the same one if it starts at the next address below it. -/
theorem capacityFault_succ {s : State} {m : Store} {a : Nat} (h : a < s.caps.cap m) :
    capacityFault s m (a + 1) = capacityFault s m a := by
  rw [capacityFault, capacityFault, max_eq_right h, max_eq_right (Nat.le_of_lt h)]

theorem capacityFault_congr {s t : State} (h : t.caps = s.caps) (m : Store) (a : Nat) :
    capacityFault t m a = capacityFault s m a := by
  rw [capacityFault, capacityFault, h]

theorem load_of_ge' {s : State} {m : Store} {a : Nat} (h : s.caps.cap m ≤ a) : load s m a = .error (capacityFault s m a) := by
  rw [load_of_ge h, capacityFault_of_ge h]

theorem chunkByte_fault {s : State} {m : Store} {base b : Nat} (h : ¬ byteOf base b + chunkSpan b 1 ≤ s.caps.cap m) :
    chunkByte s m base b = .error (capacityFault s m (byteOf base b)) := by
  simp only [chunkSpan, Nat.one_ne_zero, if_false] at h
  unfold chunkByte
  split
  case isTrue h8 =>
    rw [if_pos h8] at h
    exact load_of_ge' (by omega)
  case isFalse h8 =>
    rw [if_neg h8] at h
    rcases Nat.lt_or_ge (byteOf base b) (s.caps.cap m) with hlt | hge
    · rw [load_of_lt hlt, ok_bind, load_of_ge' (by omega), error_bind, capacityFault_succ hlt]
    · rw [load_of_ge' hge, error_bind]

theorem chunkWriteByte_fault {s : State} {m : Store} {base b : Nat} (x : Byte)
    (h : ¬ byteOf base b + chunkSpan b 1 ≤ s.caps.cap m) :
    chunkWriteByte s m base b x = .error (capacityFault s m (byteOf base b)) := by
  simp only [chunkSpan, Nat.one_ne_zero, if_false] at h
  unfold chunkWriteByte
  split
  case isTrue h8 =>
    rw [if_pos h8] at h
    rw [store_of_ge x (by omega), capacityFault_of_ge (by omega)]
  case isFalse h8 =>
    rw [if_neg h8] at h
    rcases Nat.lt_or_ge (byteOf base b) (s.caps.cap m) with hlt | hge
    · rw [load_of_lt hlt, ok_bind, store_of_lt _ hlt, ok_bind, load_of_ge' (by rw [setByte_caps]; omega), error_bind,
        capacityFault_congr (setByte_caps _ _ _ _), capacityFault_succ hlt]
    · rw [load_of_ge' hge, error_bind]

/-- The rest of a run of a chunk primitive whose first byte is in range. -/
theorem chunkSpan_succ_not_le {base b n cap : Nat} (h1 : byteOf base b + chunkSpan b 1 ≤ cap)
    (h : ¬ byteOf base b + chunkSpan b (n + 1) ≤ cap) :
    byteOf base b < cap ∧ n ≠ 0 ∧ ¬ byteOf base (b + 8) + chunkSpan (b + 8) n ≤ cap := by
  rw [byteOf_add_eight]
  simp only [chunkSpan, Nat.add_mod_right] at h h1 ⊢
  split_ifs at h h1 ⊢ <;> omega

/-- R137, U1: a read that is not wholly in range stops at the first byte that is not. -/
theorem chunkRead_fault {s : State} {m : Store} {base b n : Nat} (hn : n ≠ 0)
    (h : ¬ byteOf base b + chunkSpan b n ≤ s.caps.cap m) :
    chunkRead s m base b n = .error (capacityFault s m (byteOf base b)) := by
  induction n generalizing b with
  | zero => exact absurd rfl hn
  | succ n ih =>
    by_cases h1 : byteOf base b + chunkSpan b 1 ≤ s.caps.cap m
    · obtain ⟨hlt, hn', hrest⟩ := chunkSpan_succ_not_le h1 h
      obtain ⟨x, hx⟩ : ∃ x, chunkByte s m base b = .ok x :=
        chunkByte_completes_iff.2 ((chunkSpan_le_iff (n := 1)).1 (.inr h1) |>.resolve_left Nat.one_ne_zero)
      rw [chunkRead, hx, ok_bind, ih hn' hrest, error_bind, byteOf_add_eight, capacityFault_succ hlt]
    · rw [chunkRead, chunkByte_fault h1, error_bind]

/-- R137, U1: so does a write. -/
theorem chunkWrite_fault {s : State} {m : Store} {base b : Nat} {xs : List Byte} (hn : xs.length ≠ 0)
    (h : ¬ byteOf base b + chunkSpan b xs.length ≤ s.caps.cap m) :
    chunkWrite s m base b xs = .error (capacityFault s m (byteOf base b)) := by
  induction xs generalizing s b with
  | nil => exact absurd rfl hn
  | cons x xs ih =>
    by_cases h1 : byteOf base b + chunkSpan b 1 ≤ s.caps.cap m
    · obtain ⟨hlt, hn', hrest⟩ := chunkSpan_succ_not_le h1 h
      obtain ⟨s1, hs1⟩ : ∃ t, chunkWriteByte s m base b x = .ok t :=
        chunkWriteByte_completes_iff.2 ((chunkSpan_le_iff (n := 1)).1 (.inr h1) |>.resolve_left Nat.one_ne_zero)
      have hcaps : s1.caps = s.caps := caps_eq_of_registers (chunkWriteByte_eq_ok hs1).1
      rw [← hcaps] at hrest
      rw [chunkWrite, hs1, ok_bind, ih hn' hrest, byteOf_add_eight, capacityFault_congr hcaps, capacityFault_succ hlt]
    · rw [chunkWrite, chunkWriteByte_fault x h1, error_bind]

/-! ### The direct accessor commands -/

theorem runCommand_fault {c : BitVec 4} {body : State → Res State} {s : State} {r : Fault} (hb : s.status.busy = false)
    (h : body (beginCommand c s) = .error (.fault r)) : runCommand c body s = .fault r := by
  rw [runCommand_of_idle hb, h]
  rfl

theorem bitRead_of_ge {s : State} {m : Store} {base b : Nat} (h : s.caps.cap m ≤ byteOf base b) :
    bitRead s m base b = .error (.fault (.outOfCapacity m (byteOf base b))) := by
  rw [bitRead, load_of_ge h, error_bind]

theorem bitSet_of_ge {s : State} {m : Store} {base b : Nat} (h : s.caps.cap m ≤ byteOf base b) :
    bitSet s m base b = .error (.fault (.outOfCapacity m (byteOf base b))) := by
  rw [bitSet, load_of_ge h, error_bind]

theorem bitClear_of_ge {s : State} {m : Store} {base b : Nat} (h : s.caps.cap m ≤ byteOf base b) :
    bitClear s m base b = .error (.fault (.outOfCapacity m (byteOf base b))) := by
  rw [bitClear, load_of_ge h, error_bind]

/-- A command on one bit whose byte is not below the capacity (R139, R141, R142). -/
theorem bitCommand_fault {s : State} (hb : s.status.busy = false) (hr : ¬ argInRange s 1) {i : Instr}
    (hi : i ∈ [Instr.rdbit, .setbit, .clrbit]) : exec i s = .fault (.outOfCapacity (argStore s) (argByte s)) := by
  have hge (c : BitVec 4) : (beginCommand c s).caps.cap (argStore s) ≤ byteOf s.argBase s.argBit :=
    Nat.le_of_lt_succ (Nat.lt_of_not_le hr)
  simp only [List.mem_cons, List.not_mem_nil, or_false] at hi
  rcases hi with rfl | rfl | rfl
  all_goals refine runCommand_fault hb ?_
  · simp only [rdbitBody, beginCommand_argStore, beginCommand_argBase, beginCommand_argBit, bitRead_of_ge (hge 1), error_bind,
      argByte]
  · simp only [setbitBody, beginCommand_argStore, beginCommand_argBase, beginCommand_argBit, bitSet_of_ge (hge 3), error_bind,
      argByte]
  · simp only [clrbitBody, beginCommand_argStore, beginCommand_argBase, beginCommand_argBit, bitClear_of_ge (hge 4), error_bind,
      argByte]

/-- A command on a chunk of which a byte is not below the capacity (R140, R143). -/
theorem chunkCommand_fault {s : State} (hb : s.status.busy = false) (hn : s.argLen ≠ 0) (hlen : s.argLen ≤ s.caps.dbufCap)
    (hr : ¬ argInRange s (chunkSpan s.argBit s.argLen)) {i : Instr} (hi : i ∈ [Instr.rdchunk, .wrchunk]) :
    exec i s = .fault (.outOfCapacity (argStore s) (max (argByte s) (s.caps.cap (argStore s)))) := by
  simp only [List.mem_cons, List.not_mem_nil, or_false] at hi
  rcases hi with rfl | rfl
  · refine runCommand_fault hb ?_
    have hread := chunkRead_fault (s := beginCommand 2 s) (m := argStore s) (base := s.argBase) (b := s.argBit) hn hr
    rw [rdchunkBody, if_neg (Nat.not_lt.2 (show (beginCommand 2 s).argLen ≤ (beginCommand 2 s).caps.dbufCap from hlen))]
    simp only [beginCommand_argStore, beginCommand_argBase, beginCommand_argBit, beginCommand_argLen, hread, error_bind]
    rfl
  · refine runCommand_fault hb ?_
    have hsrc : (storeList (beginCommand 5 s) .dbuf s.argLen).length = s.argLen := by simp [storeList]
    have hwrite := chunkWrite_fault (s := beginCommand 5 s) (m := argStore s) (base := s.argBase) (b := s.argBit)
      (xs := storeList (beginCommand 5 s) .dbuf s.argLen) (by rwa [hsrc]) (by rw [hsrc]; exact hr)
    rw [wrchunkBody_of_le (s := beginCommand 5 s) hlen]
    simp only [beginCommand_argStore, beginCommand_argBase, beginCommand_argBit, beginCommand_argLen, hwrite, error_bind]
    rfl

/-- Settles O20: each command stops in its primitive, in the state its start makes. -/
theorem accessBeyondTheCapacityFaults : Obligations.AccessBeyondTheCapacityFaults :=
  fun _ hb => ⟨fun hr _ hi => bitCommand_fault hb hr hi, fun hn hlen hr _ hi => chunkCommand_fault hb hn hlen hr hi⟩

end Sys2Proof.Machine
end

