-- ==== Sys2Proof/Proofs/CodeEffects.lean ====
section
/-! PROOFS. The codes of the stream as the meanings of instructions (R163, R202, R204, R212, R225), and the steps of the block at which DEC
fetches one and runs it (R203, R204, R207 to R211). -/

namespace Sys2Proof.Machine

open Config (Store)

/-! ### The codes -/

/-- A code that is no command is run as DEC runs it. -/
theorem exec_streamCode {i : Instr} (hi : i.fits .command = false) (s : State) : exec i s = toOutcome (runCode i s) := by
  cases i
  case rdbit | rdchunk | setbit | clrbit | wrchunk | compress | decompress => simp [Instr.fits] at hi
  all_goals rfl

/-- Settles O25: the three failing branches of the header's meaning. -/
theorem headerIsRejected : Obligations.HeaderIsRejected := by
  intro s w h
  refine ⟨fun hneg => ?_, fun hw hh hlen => ?_, fun hw hh hlen hpix => ?_⟩
  · exact congrArg toOutcome (if_pos hneg)
  · exact congrArg toOutcome ((if_neg (by omega)).trans (if_pos hlen))
  · exact congrArg toOutcome ((if_neg (by omega)).trans ((if_neg (Nat.not_lt.2 hlen)).trans (if_pos hpix)))

/-- Settles O27: `P1` makes no access. -/
theorem p1StartsTheChunks : Obligations.P1StartsTheChunks := fun _ => rfl

/-- A literal with its bytes inside PIX (R212). -/
theorem literalCode_of_le {s : State} {px : List Byte} (h : chunkAddr s + px.length ≤ s.caps.pixCap) :
    literalCode px s = .ok (chunkDone (2 + 8 * px.length) (placeBytes s .pix (chunkAddr s) px)) := by
  rw [literalCode, storeBytes_of_le (m := .pix) h, ok_bind]

/-- Settles O29: each of the four codes is `literalCode` of its bytes. -/
theorem literalsPutTheirBytes : Obligations.LiteralsPutTheirBytes := by
  intro s x0 x1 x2 x3
  have hrun (px : List Byte) (h : chunkAddr s + px.length ≤ s.caps.pixCap) :
      ∃ t, toOutcome (literalCode px s) = .next t ∧ chunkEffect s t (2 + 8 * px.length) px :=
    ⟨_, congrArg toOutcome (literalCode_of_le h), chunkEffect_placeBytes s _ px⟩
  exact ⟨hrun [x0, x1, x2, x3], hrun [x0, x1, x2], hrun [x0, x1], hrun [x0]⟩

/-- R208, R210, R212: a chunk code writes its pixels and moves the cursor past its encoding. -/
theorem runCode_of_fits {n : Nat} {i : Instr} (hi : i.fits (.chunk n) = true) (s : State) :
    runCode i s = storeBytes s .pix (chunkAddr s) (codePixels s.n i) >>= fun t => .ok (chunkDone (encode i).length t) := by
  cases i
  case w | b | l4 | l3 | l2 | l1 => rfl
  all_goals simp [Instr.fits] at hi

theorem fits_command_of_fits_chunk {n : Nat} {i : Instr} (hi : i.fits (.chunk n) = true) : i.fits .command = false := by
  cases i
  case w | b | l4 | l3 | l2 | l1 => rfl
  all_goals simp [Instr.fits] at hi

/-- Settles O30: the end of a chunk code moves the cursor; neither presence code does. -/
theorem codesMoveTheCursorByTheirLength : Obligations.CodesMoveTheCursorByTheirLength := by
  intro s t i h
  refine ⟨fun n hi => ?chunk, fun hi => ?presence⟩
  case chunk =>
    rw [exec_streamCode (fits_command_of_fits_chunk hi), toOutcome_eq_next, runCode_of_fits hi] at h
    obtain ⟨u, hu, h⟩ := bind_eq_ok.1 h
    obtain rfl := Except.ok.inj h
    rw [chunkDone_cur, show u.cur = s.cur from (congrArg State.cur (storeBytes_frame hu).1 :)]
  case presence =>
    cases i
    case p1 =>
      obtain rfl := Host.Outcome.next.inj h
      rfl
    case p0 =>
      rw [exec_streamCode rfl, toOutcome_eq_next] at h
      obtain ⟨u, hu, h⟩ := bind_eq_ok.1 h
      obtain rfl := Except.ok.inj h
      rw [decRowAdvance_cur, show u.cur = s.cur from (congrArg State.cur (storeBytes_frame hu).1 :)]
    all_goals simp [Instr.fits] at hi

/-! ### The steps at which a code is fetched -/

section
variable {s : State} (hb : s.status.busy = true) (hd : s.host = [])
include hb hd

theorem step_of_blockStep : step s = blockStep s := by
  simp only [step, hd, blockMove, hb, if_true]

theorem step_of_readPrefix1 (h : s.dstate = .readPrefix1) : step s = runFetched (fetchChunk s) := by
  rw [step_of_blockStep hb hd, blockStep, h]

theorem step_of_readPresence (h : s.dstate = .readPresence) : step s = runFetched (fetchPresence s) := by
  rw [step_of_blockStep hb hd, blockStep, h]

theorem step_of_dValidate (h : s.dstate = .validate) : step s = runFetched (fetchHeader s) := by
  rw [step_of_blockStep hb hd, blockStep, h]

end

/-- Settles O14: checks 1 to 4 of R163 pass, and the header's fields are the ones that stand in CMP. -/
theorem stepRunsTheHeader : Obligations.StepRunsTheHeader := by
  intro s w h hb hd hv hp hlen hcap hheader
  have hmagic : s.byteAt .cmp 0 = 0xBA := hheader 0 _ rfl
  rw [step_of_dValidate hb hd hv, fetchHeader_eq, if_neg (by simp [hp]), if_neg (Nat.not_lt.2 hcap), if_neg (Nat.not_lt.2 hlen),
    if_neg (not_not.2 hmagic), headerWidth_of_cmpHolds (w := w) (h := h) hheader,
    headerHeight_of_cmpHolds (w := w) (h := h) hheader]
  rfl

/-- Settles O13: the presence bit is below `CMP_CAP` and decodes to its code. -/
theorem stepRunsThePresenceCode : Obligations.StepRunsThePresenceCode := by
  intro s hb hd hv hcap
  rw [step_of_readPresence hb hd hv, fetchPresence, bitRead_of_lt (m := .cmp) (base := payloadBase) hcap, ok_bind]
  cases h : sliceBit s .cmp 9 s.row <;> simp [payloadBase, Config.headerBytes, h, decodePresence, runFetched]

theorem length_encode_pos_of_fits {n : Nat} {i : Instr} (hi : i.fits (.chunk n) = true) : 0 < (encode i).length := by
  cases i
  case w | b | l4 | l3 | l2 | l1 => exact Nat.zero_lt_succ _
  all_goals simp [Instr.fits] at hi

theorem getElem?_payloadBits (s : State) (j : Nat) {k n : Nat} (hk : k < n) :
    (payloadBits s j n)[k]? = some (sliceBit s .cmp 9 (j + k)) := by
  simp [payloadBits, hk]

/-- The bits from the cursor on, as far as the buffer goes. -/
theorem unread_payloadBits {s : State} (h : s.cur ≤ 8 * (s.l - 9)) :
    Unread s (payloadBits s s.cur (8 * (s.l - 9) - s.cur)) where
  length := by
    rw [length_payloadBits]
    omega
  bit k x hx := by
    have hk := (List.getElem?_eq_some_iff.mp hx).1
    rw [length_payloadBits] at hk
    rw [getElem?_payloadBits s s.cur hk] at hx
    exact Option.some.inj hx

/-- Settles O12: the bits from the cursor on begin with the code, so the fetch gives it. -/
theorem stepRunsTheCodeAtTheCursor : Obligations.StepRunsTheCodeAtTheCursor := by
  intro s i hb hd hv hl hi hbits
  have hpos := length_encode_pos_of_fits hi
  have hend (k : Nat) (hk : k < (encode i).length) : s.cur + k < 8 * (s.l - 9) := by
    have hin := (hbits k _ (List.getElem?_eq_getElem hk)).1
    simp only [contained, Config.headerBytes] at hin
    omega
  have hunread := unread_payloadBits (s := s) (by have := hend 0 hpos; omega)
  have hprefix : encode i <+: payloadBits s s.cur (8 * (s.l - 9) - s.cur) := List.prefix_iff_getElem?.2 fun k hk => by
    have hlt : k < 8 * (s.l - 9) - s.cur := by have := hend k hk; omega
    rw [getElem?_payloadBits s s.cur hlt, (hbits k _ (List.getElem?_eq_getElem hk)).2]
  obtain ⟨rest, hrest⟩ := hprefix
  rw [← hrest] at hunread
  rw [step_of_readPrefix1 hb hd hv, fetchChunk_of_code hl hi hunread]
  rfl

/-! ### A code that is not contained -/

/-- A payload bit that the buffer contains can be read (R203). -/
theorem bitRead_of_contained {s : State} {p : Nat} (hl : s.l ≤ s.caps.cmpCap) (h : contained s.l p) :
    bitRead s .cmp payloadBase p = .ok (sliceBit s .cmp 9 p) :=
  bitRead_of_lt (m := .cmp) (Nat.lt_of_lt_of_le h hl)

/-- R207, R209, R211: the fetch fails with the cause of the first test that does. -/
theorem fetchChunk_of_cause {s : State} {c : BitVec 4} (hl : s.l ≤ s.caps.cmpCap) (h : chunkCause s = some c) :
    ∃ k : Cause, k.code = c ∧ fetchChunk s = .ok (.failed (decFail k s)) := by
  unfold chunkCause at h
  unfold fetchChunk
  by_cases h1 : contained s.l s.cur
  case neg =>
    rw [if_pos h1] at h
    exact ⟨.prefix1OutOfBounds, Option.some.inj h, if_pos h1⟩
  rw [if_neg (not_not.2 h1)] at h ⊢
  rw [bitRead_of_contained hl h1, ok_bind]
  by_cases hb1 : sliceBit s .cmp 9 s.cur = false
  case pos => simp [hb1] at h
  rw [if_neg hb1] at h ⊢
  by_cases h2 : contained s.l (s.cur + 1)
  case neg =>
    rw [if_pos h2] at h
    exact ⟨.prefix2OutOfBounds, Option.some.inj h, if_pos h2⟩
  rw [if_neg (not_not.2 h2)] at h ⊢
  rw [bitRead_of_contained hl h2, ok_bind]
  by_cases hb2 : sliceBit s .cmp 9 (s.cur + 1) = false
  case pos => simp [hb2] at h
  rw [if_neg hb2] at h ⊢
  by_cases h3 : contained s.l (s.cur + 2 + 8 * s.n - 1)
  case pos => cases (if_neg (not_not.2 h3)).symm.trans h
  rw [if_pos h3] at h
  exact ⟨.literalOutOfBounds, Option.some.inj h, if_pos h3⟩

/-- R215, R252: what a failure of the parse leaves. -/
theorem decFail_registers (k : Cause) (s : State) :
    { (decFail k s).registers with draws := s.draws } = (failedWith s.cmd k.code s).registers ∧
      ∀ m a, ¬ (m = .pix ∧ a < s.w * s.h) → (decFail k s).byteAt m a = s.byteAt m a := by
  refine ⟨rfl, fun m a hout => ?_⟩
  rw [decFail, raiseFail_byteAt, byteAt_forget, if_neg hout]

/-- Settles O31: the step is the failed fetch. -/
theorem uncontainedCodeEndsTheCommand : Obligations.UncontainedCodeEndsTheCommand := by
  intro s c hb hd hv hl hc
  obtain ⟨k, rfl, hfetch⟩ := fetchChunk_of_cause hl hc
  refine ⟨decFail k s, ?_, decFail_registers k s⟩
  rw [step_of_readPrefix1 hb hd hv, hfetch]
  rfl

end Sys2Proof.Machine
end

