-- ==== Sys2Proof/Proofs/StoreOperations.lean ====
section
/-! PROOFS. The writing operations as operations on one store: what each gives and where it stops depends on the capacities and on that
store alone, and it replaces that store alone. -/

namespace Sys2Proof.Machine

open Config (Store)

/-- The operation is a function of the capacities and of store `m`, which it replaces. -/
def OnStore (m : Store) (f : State → Res State) : Prop :=
  ∃ g : Config.Caps → Mem → Res Mem, ∀ s, f s = g s.caps (s.mem m) >>= fun x => .ok (s.setMem m x)

theorem setMem_setMem (s : State) (m : Store) (x y : Mem) : (s.setMem m x).setMem m y = s.setMem m y := by
  cases m <;> rfl

theorem setMem_self (s : State) (m : Store) : s.setMem m (s.mem m) = s := by
  cases m <;> rfl

theorem onStore_pure (m : Store) : OnStore m fun s => .ok s :=
  ⟨fun _ x => .ok x, fun s => by rw [ok_bind, setMem_self]⟩

theorem onStore_store (m : Store) (a : Nat) (v : Byte) : OnStore m fun s => store s m a v := by
  refine ⟨fun c x => if a < c.cap m then .ok { x with cells := cellsSet x.cells a v }
    else .error (.fault (.outOfCapacity m a)), fun s => ?_⟩
  simp only [store]
  split <;> rfl

theorem OnStore.bind {m : Store} {f g : State → Res State} (hf : OnStore m f) (hg : OnStore m g) :
    OnStore m fun s => f s >>= g := by
  obtain ⟨f', hf⟩ := hf
  obtain ⟨g', hg⟩ := hg
  refine ⟨fun c x => f' c x >>= g' c, fun s => ?_⟩
  simp only [hf, bind_assoc, ok_bind, hg, setMem_caps, setMem_mem_self, setMem_setMem]

/-- An operation that goes on by a byte of its store. -/
theorem OnStore.load {m : Store} {a : Nat} {f : Byte → State → Res State} (hf : ∀ x, OnStore m (f x)) :
    OnStore m fun s => load s m a >>= fun x => f x s := by
  choose f' hf using hf
  refine ⟨fun c x => (if a < c.cap m then .ok (x.byteAt m a) else .error (.fault (.outOfCapacity m a))) >>= fun y => f' y c x,
    fun s => ?_⟩
  simp only [Machine.load, hf]
  split <;> rfl

theorem OnStore.ite {m : Store} {p : Prop} [Decidable p] {f g : State → Res State} (hf : OnStore m f) (hg : OnStore m g) :
    OnStore m fun s => if p then f s else g s := by
  split
  · exact hf
  · exact hg

theorem onStore_storeBytes (m : Store) (a : Nat) (xs : List Byte) : OnStore m fun s => storeBytes s m a xs := by
  induction xs generalizing a with
  | nil => exact onStore_pure m
  | cons x xs ih => exact (onStore_store m a x).bind (ih (a + 1))

theorem onStore_bitSet (m : Store) (base b : Nat) : OnStore m fun s => bitSet s m base b :=
  OnStore.load fun _ => onStore_store m _ _

theorem onStore_bitClear (m : Store) (base b : Nat) : OnStore m fun s => bitClear s m base b :=
  OnStore.load fun _ => onStore_store m _ _

theorem onStore_chunkWriteByte (m : Store) (base b : Nat) (x : Byte) : OnStore m fun s => chunkWriteByte s m base b x :=
  (onStore_store m _ x).ite <| OnStore.load fun _ => (onStore_store m _ _).bind <| OnStore.load fun _ => onStore_store m _ _

theorem onStore_chunkWrite (m : Store) (base b : Nat) (xs : List Byte) : OnStore m fun s => chunkWrite s m base b xs := by
  induction xs generalizing b with
  | nil => exact onStore_pure m
  | cons x xs ih => exact (onStore_chunkWriteByte m base b x).bind (ih (b + 8))

/-- An update of the state that leaves the capacities and the store can be made before or after the operation. -/
theorem OnStore.update {m : Store} {f : State → Res State} (hf : OnStore m f) {u : State → State} {s : State}
    (hcaps : (u s).caps = s.caps) (hmem : (u s).mem m = s.mem m) (hset : ∀ x, (u s).setMem m x = u (s.setMem m x)) :
    f (u s) = f s >>= fun t => .ok (u t) := by
  obtain ⟨g, hg⟩ := hf
  simp only [hg, hcaps, hmem, hset, bind_assoc, ok_bind]

/-- From states that agree in the capacities and the store the operation makes the same store. -/
theorem OnStore.agree {m : Store} {f : State → Res State} (hf : OnStore m f) {s s' t : State} (hcaps : s'.caps = s.caps)
    (hmem : s'.mem m = s.mem m) (h : f s = .ok t) : ∃ x, t = s.setMem m x ∧ f s' = .ok (s'.setMem m x) := by
  obtain ⟨g, hg⟩ := hf
  rw [hg] at h
  obtain ⟨x, hx, ht⟩ := bind_eq_ok.1 h
  exact ⟨x, (Except.ok.inj ht).symm, by rw [hg, hcaps, hmem, hx, ok_bind]⟩

end Sys2Proof.Machine
end

