-- ==== Sys2Proof/Proofs/Transitions.lean ====
section
/-! PROOFS. The transitions of the two state machines (R183, R216): which states each leads to, and the run of the decoder's
transitions that a chunk code is. -/

namespace Sys2Proof.Machine

open Config (Store)

/-! ### The encoder -/

theorem estate_of_registers {s t : State} (h : t.registers = s.registers) : t.estate = s.estate := (congrArg State.estate h :)

theorem dstate_of_registers {s t : State} (h : t.registers = s.registers) : t.dstate = s.dstate := (congrArg State.dstate h :)

theorem eCheck_estate {s t : State} (h : eCheck s = .ok t) : t.estate ∈ encSuccessors .check := by
  unfold eCheck at h
  dsimp only at h
  split_ifs at h
  all_goals
    obtain rfl := Except.ok.inj h
    simp [encSuccessors, raiseFail]

theorem eDegenerate_estate {s t : State} (h : eDegenerate s = .ok t) : t.estate ∈ encSuccessors .degenerate := by
  obtain ⟨u, -, h⟩ := bind_eq_ok.1 h
  obtain rfl := Except.ok.inj h
  exact List.mem_cons_self

theorem eGrow_estate {s t : State} (h : eGrow s = .ok t) : t.estate ∈ encSuccessors .grow := by
  unfold eGrow at h
  split at h
  case isTrue =>
    obtain rfl := Except.ok.inj h
    exact List.mem_cons_self
  case isFalse =>
    obtain ⟨u, -, h⟩ := bind_eq_ok.1 h
    obtain rfl := Except.ok.inj h
    simp [encSuccessors]

theorem eClassify_estate {s t : State} (h : eClassify s = .ok t) : t.estate ∈ encSuccessors .classify := by
  rw [(eClassify_eq_ok h).estate]
  split_ifs <;> simp [encSuccessors]

/-- Where the three emissions go on (R190). -/
theorem chunkAdvance_estate_mem (s : State) : (chunkAdvance s).estate ∈ [EState.classify, .rowWhite, .rowAppend] := by
  rw [chunkAdvance_estate]
  split_ifs <;> simp

/-- Where the ends of a row go on (R189). -/
theorem encRowAdvance_estate_mem (s : State) : (encRowAdvance s).estate ∈ [EState.grow, .finish] := by
  rw [encRowAdvance_estate]
  split_ifs <;> simp

/-- R183, from whatever state of ENC. -/
theorem encStep_estate {s t : State} (h : encStep s = .ok t) : t.estate ∈ encSuccessors s.estate := by
  unfold encStep at h
  generalize s.estate = e at h
  cases e with
  | idle => cases h
  | check => exact eCheck_estate h
  | degenerate => exact eDegenerate_estate h
  | header =>
    rw [estate_of_registers (eHeader_eq_ok h).1]
    exact List.mem_cons_self
  | grow => exact eGrow_estate h
  | rowInit =>
    rw [estate_of_registers (eRowInit_eq_ok h).1]
    exact List.mem_cons_self
  | classify => exact eClassify_estate h
  | emitWhite =>
    rw [estate_of_registers (eEmitWhite_eq_ok h).1]
    exact chunkAdvance_estate_mem _
  | emitBlack =>
    rw [estate_of_registers (eEmitBlack_eq_ok h).1]
    exact chunkAdvance_estate_mem _
  | emitLiteral =>
    rw [estate_of_registers (eEmitLiteral_eq_ok h).1]
    exact chunkAdvance_estate_mem _
  | rowWhite =>
    rw [estate_of_registers (eRowWhite_eq_ok h).1]
    exact encRowAdvance_estate_mem _
  | rowAppend =>
    rw [estate_of_registers (eRowAppend_eq_ok h).1]
    exact encRowAdvance_estate_mem _
  | finish | success | failure =>
    obtain rfl := Except.ok.inj h
    exact List.mem_cons_self

/-! ### The decoder -/

theorem decRowAdvance_dstate_mem (s : State) : (decRowAdvance s).dstate ∈ [DState.readPresence, .success] := by
  rw [decRowAdvance_dstate]
  split_ifs <;> simp

/-- `Validate()` ends the command or leaves the decoder before the first row, or at its end if there is none. -/
theorem fetchRun_fetchHeader_dstate {s t : State} (h : fetchRun fetchHeader s = .ok t) :
    t.dstate ∈ decSuccessors .validate := by
  rw [fetchRun_fetchHeader_eq] at h
  split_ifs at h
  all_goals obtain rfl := Except.ok.inj h
  case neg =>
    simp only [validated]
    split_ifs <;> simp [decSuccessors]
  all_goals exact List.mem_cons_self

/-- A run of pixels and the end of a chunk code (R208, R210, R212). -/
theorem literalCode_dstate {px : List Byte} {s t : State} (h : literalCode px s = .ok t) : t.dstate = .readChunk := by
  obtain ⟨u, -, h⟩ := bind_eq_ok.1 h
  obtain rfl := Except.ok.inj h
  rfl

theorem dReadChunk_dstate {s t : State} (h : dReadChunk s = .ok t) : t.dstate ∈ decSuccessors .readChunk := by
  unfold dReadChunk at h
  split at h
  all_goals
    obtain rfl := Except.ok.inj h
    simp [decSuccessors]

/-- A state that reads a bit and goes on by its value. -/
theorem branch_dstate {r : Res Bool} {f : Bool → State} {t : State} {l : List DState}
    (h : (r >>= fun x => .ok (f x)) = .ok t) (hl : ∀ x, (f x).dstate ∈ l) : t.dstate ∈ l := by
  obtain ⟨x, -, h⟩ := bind_eq_ok.1 h
  obtain rfl := Except.ok.inj h
  exact hl x

/-- R216, from whatever state of DEC. -/
theorem decTransition_dstate {s t : State} (h : decTransition s = .ok t) : t.dstate ∈ decSuccessors s.dstate := by
  unfold decTransition at h
  generalize s.dstate = d at h
  cases d with
  | idle => cases h
  | validate => exact fetchRun_fetchHeader_dstate h
  | readPresence => exact branch_dstate h fun x => by cases x <;> simp [decSuccessors]
  | allWhiteDone =>
    obtain ⟨u, -, h⟩ := bind_eq_ok.1 h
    obtain rfl := Except.ok.inj h
    exact decRowAdvance_dstate_mem u
  | readChunk => exact dReadChunk_dstate h
  | readPrefix1 =>
    dsimp only at h
    split at h
    · obtain rfl := Except.ok.inj h
      exact List.mem_cons_self
    · exact branch_dstate h fun x => by cases x <;> simp [decSuccessors]
  | readPrefix2 =>
    dsimp only at h
    split at h
    · obtain rfl := Except.ok.inj h
      exact List.mem_cons_self
    · exact branch_dstate h fun x => by cases x <;> simp [decSuccessors]
  | white | black =>
    obtain ⟨u, -, h⟩ := bind_eq_ok.1 h
    obtain rfl := Except.ok.inj h
    exact List.mem_cons_self
  | literal =>
    dsimp only at h
    split at h
    all_goals
      obtain rfl := Except.ok.inj h
      simp [decSuccessors, decFail, raiseFail]
  | readBytes =>
    obtain ⟨out, -, h⟩ := bind_eq_ok.1 h
    rw [literalCode_dstate h]
    exact List.mem_cons_self
  | rowDone =>
    obtain rfl := Except.ok.inj h
    exact decRowAdvance_dstate_mem s
  | success | failure =>
    obtain rfl := Except.ok.inj h
    exact List.mem_cons_self

/-- Settles O56, state by state for each machine. -/
theorem transitionsAreTheSpecs : Obligations.TransitionsAreTheSpecs :=
  fun _ _ => ⟨encStep_estate, decTransition_dstate⟩

/-! ### A code as a run of transitions -/

/-- The same state with DEC in another of its states. -/
def State.atDState (s : State) (d : DState) : State := { s with dstate := d }

theorem atDState_byteAt (s : State) (d : DState) (m : Store) (a : Nat) : (s.atDState d).byteAt m a = s.byteAt m a := by
  cases m <;> rfl

/-- An operation on one store is the same in every state of DEC. -/
theorem OnStore.atDState {m : Store} {f : State → Res State} (hf : OnStore m f) (s : State) (d : DState) :
    f (s.atDState d) = f s >>= fun t => .ok (t.atDState d) :=
  hf.update (u := fun s => s.atDState d) rfl (by cases m <;> rfl) fun x => by cases m <;> rfl

/-- A chunk code, which ends at `ReadChunk`, does the same from every state of DEC. -/
theorem pixelsDone_atDState {f : State → Res State} (hf : OnStore .pix f) (bits : Nat) (s : State) (d : DState) :
    (f (s.atDState d) >>= fun t => .ok (chunkDone bits t)) = f s >>= fun t => .ok (chunkDone bits t) := by
  rw [hf.atDState]
  cases f s <;> rfl

theorem literalCode_atDState (px : List Byte) (s : State) (d : DState) :
    literalCode px (s.atDState d) = literalCode px s :=
  pixelsDone_atDState (onStore_storeBytes .pix (chunkAddr s) px) _ s d

theorem whiteCode_atDState (s : State) (d : DState) : whiteCode (s.atDState d) = whiteCode s :=
  pixelsDone_atDState (onStore_storeBytes .pix (chunkAddr s) (List.replicate s.n Config.white)) 1 s d

theorem blackCode_atDState (s : State) (d : DState) : blackCode (s.atDState d) = blackCode s :=
  pixelsDone_atDState (onStore_storeBytes .pix (chunkAddr s) (List.replicate s.n Config.black)) 2 s d

theorem chunkRead_atDState (s : State) (d : DState) (m : Store) (base b n : Nat) :
    chunkRead (s.atDState d) m base b n = chunkRead s m base b n :=
  chunkRead_congr rfl fun a _ _ => atDState_byteAt s d m a

theorem bitRead_atDState (s : State) (d : DState) (m : Store) (base b : Nat) :
    bitRead (s.atDState d) m base b = bitRead s m base b :=
  bitRead_congr rfl (sliceBit_congr (atDState_byteAt s d m) base b)

/-- The literal of a chunk's bytes is the code the decoder answers for them (R101, R104). -/
theorem give_literal {s : State} {out : List Byte} (hlen : out.length = s.n) (hn : (Position.chunk s.n).wf = true) :
    ∃ i, fetchChunk.give s (true :: true :: bytesBits out) = .ok (.code i s) ∧ runCode i s = literalCode out s := by
  obtain ⟨i, -, hfit, hbits, hpx⟩ := literalOf_of_length (xs := out) (by rwa [hlen])
  rw [hlen] at hfit hpx
  have hcount : (encode i).length = 2 + 8 * out.length := by
    rw [hbits, literalBits, List.length_cons, List.length_cons, length_bytesBits]
    omega
  refine ⟨i, fetchChunk_give (rest := []) (decode_chunk_eq_ok_iff.2 ⟨hfit, ?_⟩), ?_⟩
  · rw [hbits, List.append_nil]
    rfl
  · rw [runCode_of_fits hfit, hpx, hcount]
    rfl

theorem decTransitions_succ (k : Nat) (s : State) :
    decTransitions (k + 1) s = decTransition s >>= whileBusy (decTransitions k) := rfl

/-- A transition that ends a run of transitions: it stops, or leaves a command that has ended, or is the last of the run. -/
theorem decTransitions_one (s : State) : decTransitions 1 s = decTransition s := by
  rw [decTransitions_succ]
  cases h : decTransition s with
  | error e => rfl
  | ok t => cases hb : t.status.busy <;> simp [whileBusy, hb, decTransitions]

theorem decTransitions_of_ok {s t : State} (h : decTransition s = .ok t) (hb : t.status.busy = true) (k : Nat) :
    decTransitions (k + 1) s = decTransitions k t := by
  rw [decTransitions_succ, h, ok_bind, whileBusy_of_busy hb]

/-- What a fetch gave, run. -/
def runResult : Fetched → Res State
  | .code i s => runCode i s
  | .failed s => .ok s

theorem fetchRun_eq (fetch : State → Res Fetched) (s : State) : fetchRun fetch s = fetch s >>= runResult := rfl

theorem runResult_give {s : State} {bits : List Bool} {i : Instr} (h : decode (.chunk s.n) bits = .ok (i, [])) :
    fetchChunk.give s bits >>= runResult = runCode i s := by
  rw [fetchChunk_give h]
  rfl

/-- The fetch of a code from its second bit on, which is 1: the span of the literal and its bytes (R211, R212). -/
def fetchLiteral (s : State) : Res Fetched :=
  if ¬ contained s.l (s.cur + 2 + 8 * s.n - 1) then .ok (.failed (decFail .literalOutOfBounds s))
  else chunkRead s .cmp payloadBase (s.cur + 2) s.n >>= fun out => fetchChunk.give s (true :: true :: bytesBits out)

/-- The fetch of a code from its first bit on, which is 1 (R209). -/
def fetchSecond (s : State) : Res Fetched :=
  if ¬ contained s.l (s.cur + 1) then .ok (.failed (decFail .prefix2OutOfBounds s))
  else bitRead s .cmp payloadBase (s.cur + 1) >>= fun x => if x then fetchLiteral s else fetchChunk.give s [true, false]

/-- The fetch of a code, bit by bit (R207). -/
theorem fetchChunk_eq_fetchSecond (s : State) :
    fetchChunk s =
      if ¬ contained s.l s.cur then .ok (.failed (decFail .prefix1OutOfBounds s))
      else bitRead s .cmp payloadBase s.cur >>= fun x => if x then fetchSecond s else fetchChunk.give s [false] := by
  unfold fetchChunk
  split
  case isTrue => rfl
  case isFalse =>
    refine congrArg _ (funext fun x => ?_)
    cases x with
    | false => rfl
    | true =>
      simp only [Bool.true_eq_false, if_false, if_true, fetchSecond]
      split
      case isTrue => rfl
      case isFalse =>
        refine congrArg _ (funext fun y => ?_)
        cases y <;> rfl

/-- `Literal` and `ReadBytes`. -/
theorem decTransitions_literal {s : State} (hb : s.status.busy = true) (hn : (Position.chunk s.n).wf = true) :
    ∃ k, k ≤ 2 ∧ decTransitions k (s.atDState .literal) = fetchLiteral s >>= runResult := by
  unfold fetchLiteral
  split
  case isTrue h =>
    refine ⟨1, by decide, ?_⟩
    rw [decTransitions_one]
    exact if_pos h
  case isFalse h =>
    have hread : decTransition (s.atDState .readBytes) =
        chunkRead s .cmp payloadBase (s.cur + 2) s.n >>= fun out => literalCode out s := by
      simp only [← chunkRead_atDState s .readBytes, ← literalCode_atDState _ s .readBytes]
      rfl
    have hmove : decTransition (s.atDState .literal) = .ok (s.atDState .readBytes) := if_neg h
    refine ⟨2, le_refl 2, ?_⟩
    rw [decTransitions_of_ok hmove hb, decTransitions_one, hread]
    cases hout : chunkRead s .cmp payloadBase (s.cur + 2) s.n with
    | error e => rfl
    | ok out =>
      obtain ⟨i, hi, hrun⟩ := give_literal (chunkRead_eq_ok hout).1 hn
      rw [ok_bind, ok_bind, hi, ← hrun]
      rfl

/-- `ReadPrefix2` and what follows it. -/
theorem decTransitions_second {s : State} (hb : s.status.busy = true) (hn : (Position.chunk s.n).wf = true) :
    ∃ k, k ≤ 3 ∧ decTransitions k (s.atDState .readPrefix2) = fetchSecond s >>= runResult := by
  unfold fetchSecond
  split
  case isTrue h =>
    refine ⟨1, by decide, ?_⟩
    rw [decTransitions_one]
    exact if_pos h
  case isFalse h =>
    have hmove : decTransition (s.atDState .readPrefix2) =
        bitRead s .cmp payloadBase (s.cur + 1) >>= fun x => .ok (s.atDState (if x then .literal else .black)) := by
      rw [← bitRead_atDState s .readPrefix2]
      exact if_neg h
    cases hx : bitRead s .cmp payloadBase (s.cur + 1) with
    | error e =>
      refine ⟨1, by decide, ?_⟩
      rw [decTransitions_one, hmove, hx]
      rfl
    | ok x =>
      rw [hx, ok_bind] at hmove
      cases x with
      | false =>
        refine ⟨2, by decide, ?_⟩
        rw [decTransitions_of_ok hmove hb, decTransitions_one]
        exact (blackCode_atDState s .black).trans (runResult_give (i := .b) (decode_chunk_eq_ok_iff.2 ⟨hn, rfl⟩)).symm
      | true =>
        obtain ⟨k, hk, hliteral⟩ := decTransitions_literal hb hn
        exact ⟨k + 1, by omega, (decTransitions_of_ok hmove hb k).trans hliteral⟩

/-- Settles O55: the transitions from `ReadPrefix1` go through the bits that the fetch of the code reads, and end in the code's
meaning, which does not depend on the state of DEC it starts from. -/
theorem codeIsItsTransitions : Obligations.CodeIsItsTransitions := by
  intro s hb hd hn1 hn4
  have hn : (Position.chunk s.n).wf = true := decide_eq_true (p := 1 ≤ s.n ∧ s.n ≤ 4) ⟨hn1, hn4⟩
  have hmove : decTransition s =
      if ¬ contained s.l s.cur then .ok (decFail .prefix1OutOfBounds s)
      else bitRead s .cmp payloadBase s.cur >>= fun x => .ok (s.atDState (if x then .readPrefix2 else .white)) := by
    rw [decTransition, hd]
    rfl
  rw [fetchRun_eq, fetchChunk_eq_fetchSecond]
  split
  case isTrue h =>
    refine ⟨1, by decide, ?_⟩
    rw [decTransitions_one, hmove, if_pos h]
    rfl
  case isFalse h =>
    rw [if_neg h] at hmove
    cases hx : bitRead s .cmp payloadBase s.cur with
    | error e =>
      refine ⟨1, by decide, ?_⟩
      rw [decTransitions_one, hmove, hx]
      rfl
    | ok x =>
      rw [hx, ok_bind] at hmove
      cases x with
      | false =>
        refine ⟨2, by decide, ?_⟩
        rw [decTransitions_of_ok hmove hb, decTransitions_one]
        exact (whiteCode_atDState s .white).trans (runResult_give (i := .w) (decode_chunk_eq_ok_iff.2 ⟨hn, rfl⟩)).symm
      | true =>
        obtain ⟨k, hk, hsecond⟩ := decTransitions_second hb hn
        exact ⟨k + 1, by omega, (decTransitions_of_ok hmove hb k).trans hsecond⟩

end Sys2Proof.Machine
end

