-- ==== Sys2Proof/Proofs/BlockMoves.lean ====
section
/-! PROOFS. One step of the block while a command runs as one function, `unitMove` (R74; log 5, log 22), and what a move of each unit
leaves of the registers that are not its own: it goes on, or ends the command with its results or with a failure. -/

namespace Sys2Proof.Machine

open Config (Store)

/-! ### The move -/

/-- The move of DEC: the code it stands before, fetched and run whole, or one transition. -/
def decMove (s : State) : Res State :=
  match s.dstate with
  | .validate     => fetchRun fetchHeader s
  | .readPresence => fetchRun fetchPresence s
  | .readPrefix1  => fetchRun fetchChunk s
  | _             => decTransition s

/-- The move of the unit that runs, or with both idle of the Bit Accessor. -/
def unitMove (s : State) : Res State :=
  match s.dstate with
  | .idle =>
      match s.estate with
      | .idle => accessorStep s
      | _     => encMove s
  | _     => decMove s

theorem unitMove_dec {s : State} (h : s.dstate ≠ .idle) : unitMove s = decMove s := by
  unfold unitMove
  split
  · exact absurd ‹_› h
  · rfl

theorem unitMove_enc {s : State} (hd : s.dstate = .idle) (he : s.estate ≠ .idle) : unitMove s = encMove s := by
  rw [unitMove, hd]
  dsimp only
  split
  · exact absurd ‹_› he
  · rfl

theorem unitMove_accessor {s : State} (hd : s.dstate = .idle) (he : s.estate = .idle) : unitMove s = accessorStep s := by
  simp only [unitMove, hd, he]

/-- The unit whose move it is. -/
theorem unitMove_cases (s : State) :
    (s.dstate ≠ .idle ∧ unitMove s = decMove s) ∨
    (s.dstate = .idle ∧ s.estate ≠ .idle ∧ unitMove s = encMove s) ∨
    (s.dstate = .idle ∧ s.estate = .idle ∧ unitMove s = accessorStep s) := by
  by_cases hd : s.dstate = .idle
  · by_cases he : s.estate = .idle
    · exact .inr (.inr ⟨hd, he, unitMove_accessor hd he⟩)
    · exact .inr (.inl ⟨hd, he, unitMove_enc hd he⟩)
  · exact .inl ⟨hd, unitMove_dec hd⟩

/-- A fetch of a chunk code gives one that can stand at the chunk, in the state it was made in. -/
theorem fetchChunk_code {s t : State} {i : Instr} (h : fetchChunk s = .ok (.code i t)) : t = s ∧ i.fits (.chunk s.n) = true := by
  have hgive {bits : List Bool} (hg : fetchChunk.give s bits = .ok (.code i t)) : t = s ∧ i.fits (.chunk s.n) = true := by
    unfold fetchChunk.give at hg
    split at hg
    next j rest hdecode =>
      obtain ⟨rfl, rfl⟩ := Fetched.code.inj (Except.ok.inj hg)
      exact ⟨rfl, (decode_chunk_eq_ok_iff.1 hdecode).1⟩
    next => cases hg
  rw [fetchChunk_eq_fetchSecond] at h
  split at h
  case isTrue => cases Except.ok.inj h
  case isFalse =>
    obtain ⟨x, -, h⟩ := bind_eq_ok.1 h
    split at h
    case isFalse => exact hgive h
    case isTrue =>
      unfold fetchSecond at h
      split at h
      case isTrue => cases Except.ok.inj h
      case isFalse =>
        obtain ⟨y, -, h⟩ := bind_eq_ok.1 h
        split at h
        case isFalse => exact hgive h
        case isTrue =>
          unfold fetchLiteral at h
          split at h
          case isTrue => cases Except.ok.inj h
          case isFalse =>
            obtain ⟨out, -, h⟩ := bind_eq_ok.1 h
            exact hgive h

/-- What a fetch gives is run as `exec` runs it, since it is no command. -/
theorem runFetched_eq {r : Res Fetched} (h : ∀ i s, r = .ok (.code i s) → i.fits .command = false) :
    runFetched r = toOutcome (r >>= runResult) := by
  match r with
  | .error (.fault _) | .error (.refuse _) | .ok (.failed _) => rfl
  | .ok (.code i s) => exact exec_streamCode (h i s rfl) s

theorem runFetched_fetchPresence (s : State) : runFetched (fetchPresence s) = toOutcome (fetchRun fetchPresence s) := by
  refine runFetched_eq fun i t h => ?_
  obtain ⟨p, -, h⟩ := bind_eq_ok.1 h
  obtain ⟨rfl, -⟩ := Fetched.code.inj (Except.ok.inj h)
  cases p <;> rfl

theorem runFetched_fetchChunk (s : State) : runFetched (fetchChunk s) = toOutcome (fetchRun fetchChunk s) :=
  runFetched_eq fun _ _ h => fits_command_of_fits_chunk (fetchChunk_code h).2

theorem blockStep_eq (s : State) : blockStep s = toOutcome (unitMove s) := by
  cases hd : s.dstate with
  | idle => cases he : s.estate <;> simp only [blockStep, unitMove, hd, he]
  | validate => simp only [blockStep, unitMove, decMove, hd, runFetched_fetchHeader]
  | readPresence => simp only [blockStep, unitMove, decMove, hd, runFetched_fetchPresence]
  | readPrefix1 => simp only [blockStep, unitMove, decMove, hd, runFetched_fetchChunk]
  | _ => simp only [blockStep, unitMove, decMove, hd]

/-! ### What a move leaves -/

/-- All but ENC's registers and the byte stores (R30, R32 to R34). -/
def State.besideEnc (s : State) : State :=
  { s.registers with
    w := 0, h := 0, row := 0, chk := 0, n := 0, rc := 0, rowWhite := false, ext := 0, px := [], cur := 0, estate := .idle }

/-- All but DEC's registers and the byte stores (R30, R31, R34). -/
def State.besideDec (s : State) : State :=
  { s.registers with w := 0, h := 0, l := 0, row := 0, chk := 0, n := 0, cur := 0, dstate := .idle }

/-- A command's end with its results (R144, R172, R182, R214). -/
def endWith (n : Nat) (w h : Word32) (s : State) : State :=
  complete { s with
    resLen := n, resWidth := w, resHeight := h, status := { s.status with fail := false }, err := 0 }

/-- What a move of a unit does to the registers `v` that are not its own: nothing, or it ends the command with a cause of `C` (R250; a
failure may draw free bytes, R252), with results of `R`, or, from the last state of its machine, as a completion alone. -/
inductive Moved (v : State → State) (C : Cause → Prop) (R : Nat → Word32 → Word32 → Prop) (s t : State) : Prop
  | goesOn (h : v t = v s)
  | fails (c : Cause) (hc : C c) (h : { v t with draws := s.draws } = v (raiseFail c s)) (hd : s.draws ≤ t.draws)
  | succeeds (n : Nat) (w h : Word32) (hr : R n w h) (h : v t = v (endWith n w h s))
  | completes (he : s.estate = .success ∨ s.estate = .failure ∨ s.dstate = .failure) (h : v t = v (complete s))

/-- A move of ENC: its causes are those of R171 and R174, its results those of R172 and R182. -/
abbrev EncMoved : State → State → Prop :=
  Moved State.besideEnc (fun c => c.code ∈ [1, 2, 11]) fun n w h => 9 ≤ n ∧ w = 0 ∧ h = 0

/-- A move of DEC. -/
abbrev DecMoved : State → State → Prop := Moved State.besideDec (fun _ => True) fun _ _ _ => True

/-! ### The moves of ENC -/

theorem eCheck_moved {s t : State} (h : eCheck s = .ok t) : EncMoved s t := by
  unfold eCheck at h
  dsimp only at h
  split_ifs at h
  all_goals obtain rfl := Except.ok.inj h
  · exact .fails .sourceAbsent (by decide) rfl (le_refl _)
  · exact .fails .badDimension (by decide) rfl (le_refl _)
  · exact .goesOn rfl
  · exact .fails .capacity (by decide) rfl (le_refl _)
  · exact .goesOn rfl

theorem eGrow_moved {s t : State} (h : eGrow s = .ok t) : EncMoved s t := by
  unfold eGrow at h
  split at h
  case isTrue =>
    obtain rfl := Except.ok.inj h
    exact .fails .capacity (by decide) rfl (Nat.le_succ _)
  case isFalse =>
    obtain ⟨u, hu, h⟩ := bind_eq_ok.1 h
    obtain rfl := Except.ok.inj h
    exact .goesOn (congrArg State.besideEnc (storeBytes_frame hu).1 :)

/-- `E_DEGENERATE` writes the header and sets the result of a zero dimension (R172). -/
theorem eDegenerate_eq_ok {s t : State} (h : eDegenerate s = .ok t) :
    ∃ u, storeBytes s .cmp 0 (headerOf 0 0) = .ok u ∧
      t = { u with
        ext := 9, resLen := 9, resWidth := 0, resHeight := 0, status := { u.status with fail := false }, err := 0
        estate := .success } := by
  obtain ⟨u, hu, h⟩ := bind_eq_ok.1 h
  exact ⟨u, hu, (Except.ok.inj h).symm⟩

theorem eDegenerate_completed_moved {s t : State} (h : eDegenerate s = .ok t) : EncMoved s (complete t) := by
  obtain ⟨u, hu, rfl⟩ := eDegenerate_eq_ok h
  exact .succeeds 9 0 0 ⟨le_refl 9, rfl, rfl⟩ (congrArg (fun r => (endWith 9 0 0 r).besideEnc) (storeBytes_frame hu).1 :)

/-- A transition of ENC that does not go to `E_SUCCESS`. -/
theorem encStep_moved {s t : State} (h : encStep s = .ok t) (hne : t.estate ≠ .success) : EncMoved s t := by
  unfold encStep at h
  generalize he : s.estate = e at h
  cases e with
  | idle => cases h
  | check => exact eCheck_moved h
  | degenerate =>
    obtain ⟨u, -, rfl⟩ := eDegenerate_eq_ok h
    exact absurd rfl hne
  | header => exact .goesOn (congrArg State.besideEnc (eHeader_eq_ok h).1 :)
  | grow => exact eGrow_moved h
  | rowInit => exact .goesOn (congrArg State.besideEnc (eRowInit_eq_ok h).1 :)
  | classify => exact .goesOn (congrArg State.besideEnc (eClassify_eq_ok h).fixed :)
  | emitWhite => exact .goesOn (congrArg State.besideEnc (eEmitWhite_eq_ok h).1 :)
  | emitBlack => exact .goesOn (congrArg State.besideEnc (eEmitBlack_eq_ok h).1 :)
  | emitLiteral => exact .goesOn (congrArg State.besideEnc (eEmitLiteral_eq_ok h).1 :)
  | rowWhite => exact .goesOn (congrArg State.besideEnc (eRowWhite_eq_ok h).1 :)
  | rowAppend => exact .goesOn (congrArg State.besideEnc (eRowAppend_eq_ok h).1 :)
  | finish =>
    obtain rfl := Except.ok.inj h
    exact absurd rfl hne
  | success =>
    obtain rfl := Except.ok.inj h
    exact .completes (.inl he) rfl
  | failure =>
    obtain rfl := Except.ok.inj h
    exact .completes (.inr (.inl he)) rfl

/-- Only from `E_DEGENERATE` and `E_FINISH` does ENC go to `E_SUCCESS` (R183). -/
theorem estate_of_success {s t : State} (h : encStep s = .ok t) (ht : t.estate = .success) :
    s.estate = .degenerate ∨ s.estate = .finish := by
  have hmem := encStep_estate h
  rw [ht] at hmem
  generalize s.estate = e at hmem
  cases e
  case degenerate => exact .inl rfl
  case finish => exact .inr rfl
  all_goals simp [encSuccessors] at hmem

theorem encMove_moved {s t : State} (h : encMove s = .ok t) : EncMoved s t := by
  rcases encMove_cases h with ⟨h, hne⟩ | ⟨u, hu, hs, rfl⟩
  · exact encStep_moved h hne
  · rcases estate_of_success hu hs with he | he
    · exact eDegenerate_completed_moved (by simpa only [encStep, he] using hu)
    · obtain rfl := Except.ok.inj (show eFinish s = .ok u by simpa only [encStep, he] using hu)
      exact .succeeds (9 + ceil8 s.cur) 0 0 ⟨Nat.le_add_right _ _, rfl, rfl⟩ rfl

/-! ### The moves of DEC -/

theorem raiseFail_moved (c : Cause) {s u : State} (h : u.besideDec = s.besideDec) : DecMoved s (raiseFail c u) :=
  .fails c trivial (congrArg (fun r : State => { (raiseFail c r).besideDec with draws := s.draws }) h :)
    (congrArg State.draws h : u.besideDec.draws = s.besideDec.draws).ge

theorem fetchRun_fetchHeader_moved {s t : State} (h : fetchRun fetchHeader s = .ok t) : DecMoved s t := by
  rw [fetchRun_fetchHeader_eq] at h
  split_ifs at h
  all_goals obtain rfl := Except.ok.inj h
  case neg => exact .goesOn rfl
  all_goals exact raiseFail_moved _ rfl

theorem presence0Code_moved {s t : State} (h : presence0Code s = .ok t) : DecMoved s t := by
  obtain ⟨u, hu, h⟩ := bind_eq_ok.1 h
  obtain rfl := Except.ok.inj h
  exact .goesOn (congrArg State.besideDec (storeBytes_frame hu).1 :)

theorem fetchRun_fetchPresence_moved {s t : State} (h : fetchRun fetchPresence s = .ok t) : DecMoved s t := by
  obtain ⟨x, hx, h⟩ := bind_eq_ok.1 h
  obtain ⟨p, -, hx⟩ := bind_eq_ok.1 hx
  obtain rfl := Except.ok.inj hx
  cases p with
  | true =>
    obtain rfl := Except.ok.inj h
    exact .goesOn rfl
  | false => exact presence0Code_moved h

/-- A chunk code (R208, R210, R212). -/
theorem pixelsDone_moved {s t : State} {px : List Byte} {bits : Nat}
    (h : (storeBytes s .pix (chunkAddr s) px >>= fun u => .ok (chunkDone bits u)) = .ok t) : DecMoved s t := by
  obtain ⟨u, hu, h⟩ := bind_eq_ok.1 h
  obtain rfl := Except.ok.inj h
  exact .goesOn (congrArg State.besideDec (storeBytes_frame hu).1 :)

theorem decFail_moved (c : Cause) (s : State) : DecMoved s (decFail c s) := .fails c trivial rfl (Nat.le_succ _)

theorem fetchRun_fetchChunk_moved {s t : State} (h : fetchRun fetchChunk s = .ok t) : DecMoved s t := by
  obtain ⟨x, hx, h⟩ := bind_eq_ok.1 h
  rcases fetchChunk_cases hx with ⟨i, rfl⟩ | ⟨k, rfl⟩
  · have hi := (fetchChunk_code hx).2
    have hrun : runCode i s = .ok t := h
    rw [runCode_of_fits hi] at hrun
    exact pixelsDone_moved hrun
  · obtain rfl := Except.ok.inj h
    exact decFail_moved k s

/-- A transition that reads a bit and goes on by its value. -/
theorem branch_moved {r : Res Bool} {f : Bool → State} {s t : State} (h : (r >>= fun x => .ok (f x)) = .ok t)
    (hf : ∀ x, (f x).besideDec = s.besideDec) : DecMoved s t := by
  obtain ⟨x, -, h⟩ := bind_eq_ok.1 h
  obtain rfl := Except.ok.inj h
  exact .goesOn (hf x)

theorem decTransition_moved {s t : State} (h : decTransition s = .ok t) : DecMoved s t := by
  unfold decTransition at h
  generalize hd : s.dstate = d at h
  cases d with
  | idle => cases h
  | validate => exact fetchRun_fetchHeader_moved h
  | readPresence => exact branch_moved h fun x => by cases x <;> rfl
  | allWhiteDone => exact presence0Code_moved h
  | readChunk =>
    change dReadChunk s = .ok t at h
    unfold dReadChunk at h
    split at h
    all_goals
      obtain rfl := Except.ok.inj h
      exact .goesOn rfl
  | readPrefix1 | readPrefix2 =>
    dsimp only at h
    split at h
    · obtain rfl := Except.ok.inj h
      exact decFail_moved _ s
    · exact branch_moved h fun _ => rfl
  | white | black => exact pixelsDone_moved h
  | literal =>
    dsimp only at h
    split at h
    all_goals obtain rfl := Except.ok.inj h
    · exact decFail_moved _ s
    · exact .goesOn rfl
  | readBytes =>
    obtain ⟨out, -, h⟩ := bind_eq_ok.1 h
    exact pixelsDone_moved h
  | rowDone =>
    obtain rfl := Except.ok.inj h
    exact .goesOn rfl
  | success =>
    obtain rfl := Except.ok.inj h
    exact .succeeds _ _ _ trivial rfl
  | failure =>
    obtain rfl := Except.ok.inj h
    exact .completes (.inr (.inr hd)) rfl

theorem decMove_moved {s t : State} (h : decMove s = .ok t) : DecMoved s t := by
  unfold decMove at h
  split at h
  · exact fetchRun_fetchHeader_moved h
  · exact fetchRun_fetchPresence_moved h
  · exact fetchRun_fetchChunk_moved h
  · exact decTransition_moved h

/-! ### The move of the Bit Accessor -/

/-- A direct accessor command in its one move (R139 to R144): it completes after at most one write of a run of bits or bytes, or fails
with `BAD_ARGUMENT`. -/
theorem accessorStep_cases {s t : State} (h : accessorStep s = .ok t) :
    t = raiseFail .badArgument s ∨
    (∃ x, t = complete { s with resBit := x }) ∨
    (∃ xs u, storeBytes s .dbuf 0 xs = .ok u ∧ t = complete u) ∨
    ∃ (w : BitWrite) (u : State), w.run s (argStore s) s.argBase = .ok u ∧ t = complete u := by
  unfold accessorStep at h
  split at h
  next =>
    obtain ⟨x, -, h⟩ := bind_eq_ok.1 h
    exact .inr (.inl ⟨x, (Except.ok.inj h).symm⟩)
  next =>
    unfold rdchunkBody at h
    split at h
    · exact .inl (Except.ok.inj h).symm
    · obtain ⟨xs, -, h⟩ := bind_eq_ok.1 h
      obtain ⟨u, hu, h⟩ := bind_eq_ok.1 h
      exact .inr (.inr (.inl ⟨xs, u, hu, (Except.ok.inj h).symm⟩))
  next =>
    obtain ⟨u, hu, h⟩ := bind_eq_ok.1 h
    exact .inr (.inr (.inr ⟨.set s.argBit, u, hu, (Except.ok.inj h).symm⟩))
  next =>
    obtain ⟨u, hu, h⟩ := bind_eq_ok.1 h
    exact .inr (.inr (.inr ⟨.clear s.argBit, u, hu, (Except.ok.inj h).symm⟩))
  next =>
    unfold wrchunkBody at h
    split at h
    · exact .inl (Except.ok.inj h).symm
    · obtain ⟨src, -, h⟩ := bind_eq_ok.1 h
      obtain ⟨u, hu, h⟩ := bind_eq_ok.1 h
      exact .inr (.inr (.inr ⟨.chunk s.argBit src, u, hu, (Except.ok.inj h).symm⟩))
  next => cases h

theorem accessorStep_idle {s t : State} (h : accessorStep s = .ok t) : t.status.busy = false := by
  rcases accessorStep_cases h with rfl | ⟨x, rfl⟩ | ⟨xs, u, -, rfl⟩ | ⟨w, u, -, rfl⟩ <;> rfl

/-! ### The operands -/

/-- What no move writes (R27, R39): the operand registers, the capacities and the host's part. -/
def State.operands (s : State) : State :=
  { State.reset with
    argWidth := s.argWidth, argHeight := s.argHeight, argPresent := s.argPresent, argLen := s.argLen, argMem := s.argMem
    argBase := s.argBase, argBit := s.argBit, caps := s.caps, host := s.host, hostSaw := s.hostSaw }

theorem Moved.operands {v : State → State} {C : Cause → Prop} {R : Nat → Word32 → Word32 → Prop} {s t : State}
    (h : Moved v C R s t) (hv : ∀ u : State, (v u).operands = u.operands) : t.operands = s.operands := by
  rw [← hv t, ← hv s]
  cases h with
  | goesOn h => rw [h]
  | fails c _ h _ => exact (congrArg State.operands h :).trans ((hv _).trans (hv s).symm)
  | succeeds n w h _ h' => exact (congrArg State.operands h' :).trans ((hv _).trans (hv s).symm)
  | completes _ h => exact (congrArg State.operands h :).trans ((hv _).trans (hv s).symm)

theorem operands_of_registers {s t : State} (h : t.registers = s.registers) : t.operands = s.operands :=
  (congrArg State.operands h :)

theorem accessorStep_operands {s t : State} (h : accessorStep s = .ok t) : t.operands = s.operands := by
  rcases accessorStep_cases h with rfl | ⟨x, rfl⟩ | ⟨xs, u, hu, rfl⟩ | ⟨w, u, hu, rfl⟩
  · rfl
  · rfl
  · exact (operands_of_registers (storeBytes_frame hu).1 :)
  · exact (operands_of_registers (BitWrite.run_eq_ok hu).1 :)

theorem unitMove_operands {s t : State} (h : unitMove s = .ok t) : t.operands = s.operands := by
  rcases unitMove_cases s with ⟨-, hm⟩ | ⟨-, -, hm⟩ | ⟨-, -, hm⟩
  all_goals rw [hm] at h
  · exact (decMove_moved h).operands fun _ => rfl
  · exact (encMove_moved h).operands fun _ => rfl
  · exact accessorStep_operands h

end Sys2Proof.Machine
end

