-- ==== Sys2Proof/Proofs/RunsOfMoves.lean ====
section
/-! PROOFS. The runs of the block (R74; log 5): the listings of R184 and R217 are runs of moves, part by part, also where a move
stops. So a command's meaning is a run of moves, and of steps. -/

namespace Sys2Proof.Machine

/-! ### Moves in turn -/

/-- `k` moves, as long as the command runs. -/
def moves : Nat → State → Res State
  | 0,     s => .ok s
  | k + 1, s => if s.status.busy then unitMove s >>= moves k else .ok s

theorem moves_of_idle {s : State} (h : s.status.busy = false) (k : Nat) : moves k s = .ok s := by
  cases k <;> simp [moves, h]

theorem moves_succ {s : State} (h : s.status.busy = true) (k : Nat) : moves (k + 1) s = unitMove s >>= moves k := by
  simp [moves, h]

/-- A run of a machine is its first step, and the run after it unless it stops. -/
theorem run_of_next {M : Host.Core} {s t : M.State} (h : M.step s = .next t) (k : Nat) : M.run (k + 1) s = M.run k t := by
  rw [Host.Core.run, h]

theorem run_of_fault {M : Host.Core} {s : M.State} {f : M.Fault} (h : M.step s = .fault f) (k : Nat) :
    M.run (k + 1) s = .fault f := by
  rw [Host.Core.run, h]

theorem run_of_refused {M : Host.Core} {s : M.State} {r : M.Refusal} (h : M.step s = .refused r) (k : Nat) :
    M.run (k + 1) s = .refused r := by
  rw [Host.Core.run, h]

/-- With nothing from the host, steps are moves. -/
theorem run_eq_moves {s : State} (hd : s.host = []) (k : Nat) : Host.Core.run Sys2Proof.core k s = toOutcome (moves k s) := by
  induction k generalizing s with
  | zero => rfl
  | succ k ih =>
    have hstep : step s = blockMove s := by simp only [step, hd]
    cases hb : s.status.busy with
    | false =>
      have hnext : step s = .next s := by rw [hstep, blockMove, if_neg (by simp [hb])]
      rw [moves_of_idle hb]
      exact (run_of_next (M := core) hnext k).trans ((ih hd).trans (congrArg toOutcome (moves_of_idle hb k)))
    | true =>
      have hmove : step s = toOutcome (unitMove s) := by rw [hstep, blockMove, if_pos hb, blockStep_eq]
      rw [moves_succ hb]
      cases hm : unitMove s with
      | error e =>
        rw [hm] at hmove
        cases e with
        | fault f => exact run_of_fault (M := core) hmove k
        | refuse r => exact run_of_refused (M := core) hmove k
      | ok t =>
        rw [hm] at hmove
        have hhost : t.host = s.host := (congrArg State.host (unitMove_operands hm) :)
        exact (run_of_next (M := core) hmove k).trans (ih (hhost.trans hd))

/-! ### Parts of a listing -/

/-- From `s` some moves lead where `f` leads, and stop where it stops. -/
def Played (f : State → Res State) (s : State) : Prop := ∃ k, ∀ j, moves (k + j) s = f s >>= moves j

/-- From the states of `P` the part `f` of a listing is a run of moves, and leads to states of `Q`. -/
def Plays (P : State → Prop) (f : State → Res State) (Q : State → Prop) : Prop :=
  ∀ s, P s → Played f s ∧ ∀ t, f s = .ok t → Q t

theorem Plays.mono {P P' Q Q' : State → Prop} {f : State → Res State} (h : Plays P f Q) (hP : ∀ s, P' s → P s)
    (hQ : ∀ s, Q s → Q' s) : Plays P' f Q' :=
  fun s hs => ⟨(h s (hP s hs)).1, fun t ht => hQ t ((h s (hP s hs)).2 t ht)⟩

theorem plays_nothing {P : State → Prop} : Plays P (fun s => .ok s) P := by
  intro s hs
  refine ⟨⟨0, fun j => by rw [Nat.zero_add, ok_bind]⟩, fun t ht => ?_⟩
  obtain rfl := Except.ok.inj ht
  exact hs

/-- A part that is one move. -/
theorem plays_move {P Q : State → Prop} {f : State → Res State} (hf : ∀ s, P s → s.status.busy = true ∧ unitMove s = f s)
    (hQ : ∀ s t, P s → f s = .ok t → Q t) : Plays P f Q := by
  intro s hs
  obtain ⟨hb, hmove⟩ := hf s hs
  exact ⟨⟨1, fun j => by rw [Nat.add_comm, moves_succ hb, hmove]⟩, fun t => hQ s t hs⟩

theorem Plays.bind {P Q R : State → Prop} {f g : State → Res State} (hf : Plays P f Q) (hg : Plays Q g R) :
    Plays P (fun s => f s >>= g) R := by
  intro s hs
  obtain ⟨⟨k, hk⟩, hQ⟩ := hf s hs
  unfold Played
  dsimp only
  cases h : f s with
  | error e =>
    simp only [h, error_bind] at hk ⊢
    exact ⟨⟨k, hk⟩, fun t ht => nomatch ht⟩
  | ok u =>
    obtain ⟨⟨l, hl⟩, hR⟩ := hg u (hQ u h)
    simp only [h, ok_bind] at hk ⊢
    exact ⟨⟨k + l, fun j => by rw [Nat.add_assoc, hk, hl]⟩, hR⟩

/-- A part that is played only while the command runs. -/
theorem Plays.whileBusy {P Q : State → Prop} {f : State → Res State} (hf : Plays P f fun t => t.status.busy = true → Q t) :
    Plays (fun s => s.status.busy = true → P s) (whileBusy f) fun t => t.status.busy = true → Q t := by
  intro s hs
  cases hb : s.status.busy with
  | true =>
    have hplay := hf s (hs hb)
    unfold Played at hplay ⊢
    rwa [whileBusy_of_busy hb]
  | false =>
    refine ⟨⟨0, fun j => by rw [Nat.zero_add, whileBusy_of_idle hb, ok_bind]⟩, fun t ht => ?_⟩
    rw [whileBusy_of_idle hb] at ht
    obtain rfl := Except.ok.inj ht
    exact fun hbusy => absurd (hb.symm.trans hbusy) (by decide)

/-- A case of a listing. -/
theorem Plays.ite {P Q : State → Prop} {p : State → Prop} [DecidablePred p] {f g : State → Res State}
    (hf : Plays (fun s => P s ∧ p s) f Q) (hg : Plays (fun s => P s ∧ ¬ p s) g Q) :
    Plays P (fun s => if p s then f s else g s) Q := by
  intro s hs
  by_cases hp : p s
  · have hplay := hf s ⟨hs, hp⟩
    unfold Played at hplay ⊢
    simpa only [if_pos hp] using hplay
  · have hplay := hg s ⟨hs, hp⟩
    unfold Played at hplay ⊢
    simpa only [if_neg hp] using hplay

/-! ### COMPRESS -/

/-- A `COMPRESS` runs, and ENC is in state `e`. -/
structure EncAt (e : EState) (s : State) : Prop where
  busy   : s.status.busy = true
  dstate : s.dstate = .idle
  estate : s.estate = e

theorem EncAt.congr {e e' : EState} {s t u : State} (hs : EncAt e s) (h : t.registers = u.registers)
    (hstatus : u.status = s.status) (hdstate : u.dstate = s.dstate) (hestate : u.estate = e') : EncAt e' t where
  busy := by
    have hst : t.status = u.status := (congrArg State.status h :)
    rw [hst, hstatus]
    exact hs.busy
  dstate := ((dstate_of_registers h).trans hdstate).trans hs.dstate
  estate := (estate_of_registers h).trans hestate

/-- A transition that does not go to `E_SUCCESS` is a move. -/
theorem EncAt.unitMove {e : EState} {s : State} (h : EncAt e s) (hne : e ≠ .idle) (hd : e ≠ .degenerate) (hf : e ≠ .finish) :
    unitMove s = encStep s := by
  rw [unitMove_enc h.dstate (by rwa [h.estate]), encMove]
  cases hs : encStep s with
  | error err => rfl
  | ok t =>
    refine if_neg fun ht => ?_
    rcases estate_of_success hs ht with he | he
    · exact hd (h.estate.symm.trans he)
    · exact hf (h.estate.symm.trans he)

/-- `E_DEGENERATE` and `E_FINISH` and the completion are one move (log 22). -/
theorem EncAt.unitMove_completes {e : EState} {s : State} {f : State → Res State} (h : EncAt e s) (hne : e ≠ .idle)
    (hf : encStep s = f s) (hs : ∀ t, f s = .ok t → t.estate = .success) :
    Machine.unitMove s = f s >>= fun t => .ok (complete t) := by
  rw [unitMove_enc h.dstate (by rwa [h.estate]), encMove, hf]
  cases ht : f s with
  | error err => rfl
  | ok t =>
    have hestate := hs t ht
    rw [ok_bind, ok_bind, if_pos hestate, encStep, hestate]

/-- ENC stands before row `ROW` with `k` rows to go, of an image with pixels. -/
structure EncRows (k : Nat) (s : State) : Prop extends EncAt (if k = 0 then .finish else .grow) s where
  width : 0 < s.w
  rows  : s.row + k = s.h

/-- ENC is in the row, which is not the last `k`. -/
structure EncInRow (e : EState) (k : Nat) (s : State) : Prop extends EncAt e s where
  width : 0 < s.w
  rows  : s.row + (k + 1) = s.h

theorem EncInRow.congr {e e' : EState} {k : Nat} {s t u : State} (hs : EncInRow e k s) (h : t.registers = u.registers)
    (hstatus : u.status = s.status) (hdstate : u.dstate = s.dstate) (hestate : u.estate = e') (hw : u.w = s.w)
    (hr : u.row = s.row) (hh : u.h = s.h) : EncInRow e' k t where
  toEncAt := hs.toEncAt.congr h hstatus hdstate hestate
  width := by
    have htw : t.w = u.w := (congrArg State.w h :)
    rw [htw, hw]
    exact hs.width
  rows := by
    have htr : t.row = u.row := (congrArg State.row h :)
    have hth : t.h = u.h := (congrArg State.h h :)
    rw [htr, hr, hth, hh]
    exact hs.rows

theorem eGrow_plays (k : Nat) :
    Plays (EncRows (k + 1)) eGrow fun t => t.status.busy = true → EncInRow .rowInit k t := by
  refine plays_move (fun s hs => ⟨hs.busy, ?_⟩) fun s t hs h hb => ?_
  · have hestate : s.estate = .grow := hs.estate
    rw [EncAt.unitMove (e := .grow) hs.toEncAt (by decide) (by decide) (by decide), encStep, hestate]
  · rcases eGrow_cases h with hfail | ⟨hreg, -⟩
    · simp [hfail] at hb
    · have hrow : EncInRow .grow k s := ⟨hs.toEncAt, hs.width, hs.rows⟩
      exact hrow.congr hreg rfl rfl rfl rfl rfl rfl

/-- ENC is before a chunk of the row, with `l` chunks to go; after the last it has chosen how the row ends. -/
structure EncChunks (k l : Nat) (s : State) : Prop where
  inRow  : ∃ e, EncInRow e k s ∧ (0 < l → e = .classify) ∧ (l = 0 → e = .rowWhite ∨ e = .rowAppend)
  chunks : s.chk + l = chunks s.w

theorem eRowInit_plays (k : Nat) : Plays (EncInRow .rowInit k) eRowInit fun t => EncChunks k (chunks t.w) t := by
  refine plays_move (fun s hs => ⟨hs.busy, ?_⟩) fun s t hs h => ?_
  · rw [hs.toEncAt.unitMove (by decide) (by decide) (by decide), encStep, hs.estate]
  · obtain ⟨hreg, -⟩ := eRowInit_eq_ok h
    have ht := hs.congr hreg rfl rfl rfl rfl rfl rfl
    have hpos : 0 < Machine.chunks t.w := by
      have := ht.width
      simp only [Machine.chunks]
      omega
    have hchk : t.chk = 0 := (congrArg State.chk hreg :)
    exact ⟨⟨.classify, ht, fun _ => rfl, fun h0 => absurd h0 hpos.ne'⟩, by rw [hchk, Nat.zero_add]⟩

/-- The registers of a row in progress do not matter to where the row is. -/
theorem EncInRow.of_rowFixed {e e' : EState} {k : Nat} {s t : State} (hs : EncInRow e k s) (h : t.rowFixed = s.rowFixed)
    (he : t.estate = e') : EncInRow e' k t where
  busy := by
    have hst : t.status = s.status := (congrArg State.status h :)
    rw [hst]
    exact hs.busy
  dstate := by
    have hd : t.dstate = s.dstate := (congrArg State.dstate h :)
    rw [hd]
    exact hs.dstate
  estate := he
  width := by
    have hw : t.w = s.w := (congrArg State.w h :)
    rw [hw]
    exact hs.width
  rows := by
    have hr : t.row = s.row := (congrArg State.row h :)
    have hh : t.h = s.h := (congrArg State.h h :)
    rw [hr, hh]
    exact hs.rows

theorem compressChunk_plays (k l : Nat) : Plays (EncChunks k (l + 1)) compressChunk (EncChunks k l) := by
  intro s hs
  obtain ⟨e, he, hclassify, -⟩ := hs.inRow
  obtain rfl := hclassify (Nat.succ_pos l)
  have hfirst : Plays (fun u => u = s) eClassify fun u =>
      ∃ e, EncInRow e k u ∧ (e = .emitWhite ∨ e = .emitBlack ∨ e = .emitLiteral) := by
    refine plays_move ?_ ?_
    · rintro _ rfl
      refine ⟨he.busy, ?_⟩
      rw [he.toEncAt.unitMove (by decide) (by decide) (by decide), encStep, he.estate]
    · rintro _ t rfl h
      refine ⟨t.estate, he.of_rowFixed (eClassify_eq_ok h).fixed rfl, ?_⟩
      simpa [encSuccessors] using eClassify_estate h
  have hsecond : Plays (fun u => ∃ e, EncInRow e k u ∧ (e = .emitWhite ∨ e = .emitBlack ∨ e = .emitLiteral)) encStep
      fun _ => True := by
    refine plays_move ?_ fun _ _ _ _ => trivial
    rintro u ⟨e, hu, rfl | rfl | rfl⟩
    all_goals exact ⟨hu.busy, hu.toEncAt.unitMove (by decide) (by decide) (by decide)⟩
  refine ⟨((hfirst.bind hsecond) s rfl).1, fun t ht => ?_⟩
  have hem := compressChunk_eq_ok ht
  have hchk := hem.chk
  have hw : t.w = s.w := (congrArg State.w hem.fixed :)
  have hchunks := hs.chunks
  refine ⟨⟨t.estate, he.of_rowFixed hem.fixed rfl, fun hl => ?_, fun hl => ?_⟩, by rw [hchk, hw]; omega⟩
  · rw [hem.estate Nat.one_pos, if_pos (by rw [hchk, hw]; omega)]
  · rw [hem.estate Nat.one_pos, if_neg (by rw [hchk, hw]; omega)]
    split
    · exact .inl rfl
    · exact .inr rfl

theorem compressChunks_plays (k l : Nat) : Plays (EncChunks k l) (compressChunks l) (EncChunks k 0) := by
  induction l with
  | zero => exact plays_nothing
  | succ l ih => exact (compressChunk_plays k l).bind ih

/-- The row advance (R189). -/
theorem EncInRow.advance {e : EState} {k c : Nat} {s t : State} (hs : EncInRow e k s)
    (h : t.registers = (encRowAdvance { s with cur := c }).registers) : EncRows k t := by
  have hrows := hs.rows
  have hrow : t.row = s.row + 1 := (congrArg State.row h :)
  have hh : t.h = s.h := (congrArg State.h h :)
  have hw : t.w = s.w := (congrArg State.w h :)
  refine ⟨hs.toEncAt.congr h rfl rfl ?_, hw ▸ hs.width, by omega⟩
  show (if s.row + 1 < s.h then EState.grow else .finish) = _
  by_cases hk : k = 0
  · rw [if_neg (by omega), if_pos hk]
  · rw [if_pos (by omega), if_neg hk]

theorem rowEnd_plays (k : Nat) : Plays (EncChunks k 0) encStep (EncRows k) := by
  refine plays_move (fun s hs => ?_) fun s t hs h => ?_
  all_goals
    obtain ⟨e, he, -, hend⟩ := hs.inRow
  · refine ⟨he.busy, ?_⟩
    rcases hend rfl with rfl | rfl <;> exact he.toEncAt.unitMove (by decide) (by decide) (by decide)
  · rcases hend rfl with rfl | rfl
    · rw [encStep, he.estate] at h
      exact he.advance (eRowWhite_eq_ok h).1
    · rw [encStep, he.estate] at h
      exact he.advance (eRowAppend_eq_ok h).1

theorem compressRow_plays (k : Nat) : Plays (EncRows (k + 1)) compressRow fun t => t.status.busy = true → EncRows k t := by
  have hchunks : Plays (fun s => EncChunks k (chunks s.w) s) (fun s => compressChunks (chunks s.w) s) (EncChunks k 0) :=
    fun s hs => compressChunks_plays k (chunks s.w) s hs
  have hrow := (eRowInit_plays k).bind (hchunks.bind (rowEnd_plays k))
  have hend := hrow.mono (Q' := fun t => t.status.busy = true → EncRows k t) (fun _ h => h) fun _ h _ => h
  exact (eGrow_plays k).bind hend.whileBusy

theorem compressRows_plays (k : Nat) : Plays (EncRows k) (compressRows k) fun t => t.status.busy = true → EncRows 0 t := by
  induction k with
  | zero => exact plays_nothing.mono (fun _ h => h) fun _ h _ => h
  | succ k ih => exact (compressRow_plays k).bind ih.whileBusy

/-- What the entry checks leave of a command that goes on (R171): a zero dimension, or the size of an image with pixels. -/
theorem eCheck_plays : Plays (EncAt .check) eCheck fun t => t.status.busy = true →
    EncAt .degenerate t ∨ EncAt .header t ∧ 0 < t.w ∧ 0 < t.h := by
  refine plays_move (fun s hs => ⟨hs.busy, ?_⟩) fun s t hs h hb => ?_
  · rw [hs.unitMove (by decide) (by decide) (by decide), encStep, hs.estate]
  · unfold eCheck at h
    dsimp only at h
    split_ifs at h with _ _ hzero
    all_goals obtain rfl := Except.ok.inj h
    all_goals try cases hb
    · exact .inl ⟨hs.busy, hs.dstate, rfl⟩
    · refine .inr ⟨⟨hs.busy, hs.dstate, rfl⟩, ?_, ?_⟩
      · exact Nat.pos_of_ne_zero fun h0 => hzero (.inl (BitVec.eq_of_toNat_eq h0))
      · exact Nat.pos_of_ne_zero fun h0 => hzero (.inr (BitVec.eq_of_toNat_eq h0))

theorem eHeader_plays : Plays (fun s => EncAt .header s ∧ 0 < s.w ∧ 0 < s.h) eHeader fun t => EncRows t.h t := by
  refine plays_move ?_ ?_
  · rintro s ⟨hs, -⟩
    refine ⟨hs.busy, ?_⟩
    rw [hs.unitMove (by decide) (by decide) (by decide), encStep, hs.estate]
  · rintro s t ⟨hs, hw, hh⟩ h
    obtain ⟨hreg, -⟩ := eHeader_eq_ok h
    have hth : t.h = s.h := (congrArg State.h hreg :)
    have htrow : t.row = 0 := (congrArg State.row hreg :)
    have htw : t.w = s.w := (congrArg State.w hreg :)
    rw [hth]
    refine ⟨?_, by rwa [htw], by rw [htrow, hth, Nat.zero_add]⟩
    rw [if_neg hh.ne']
    exact hs.congr hreg rfl rfl rfl

theorem degenerateEnd_plays : Plays (EncAt .degenerate) (fun s => eDegenerate s >>= fun t => .ok (complete t))
    fun t => t.status.busy = true → False := by
  refine plays_move (fun s hs => ⟨hs.busy, ?_⟩) fun s t _ h hb => ?_
  · refine hs.unitMove_completes (by decide) (by rw [encStep, hs.estate]) fun t ht => ?_
    obtain ⟨u, -, rfl⟩ := eDegenerate_eq_ok ht
    rfl
  · obtain ⟨u, -, h⟩ := bind_eq_ok.1 h
    obtain rfl := Except.ok.inj h
    cases hb

theorem finishEnd_plays : Plays (EncRows 0) (fun s => eFinish s >>= fun t => .ok (complete t))
    fun t => t.status.busy = true → False := by
  refine plays_move (fun s hs => ⟨hs.busy, ?_⟩) fun s t _ h hb => ?_
  · have hestate : s.estate = .finish := hs.estate
    refine EncAt.unitMove_completes (e := .finish) hs.toEncAt (by decide) (by rw [encStep, hestate]) fun t ht => ?_
    obtain rfl := Except.ok.inj ht
    rfl
  · obtain rfl := Except.ok.inj h
    cases hb

/-- R184: the listing of `COMPRESS` is a run of moves to the command's end. -/
theorem compressBody_plays : Plays (EncAt .check) compressBody fun t => t.status.busy = true → False := by
  have hrows : Plays (fun s => EncRows s.h s) (fun s => compressRows s.h s) fun t => t.status.busy = true → EncRows 0 t :=
    fun s hs => compressRows_plays s.h s hs
  have himage := eHeader_plays.bind (hrows.bind finishEnd_plays.whileBusy)
  refine eCheck_plays.bind (Plays.whileBusy (Plays.ite ?zero ?image))
  case zero =>
    refine degenerateEnd_plays.mono ?_ fun _ h => h
    rintro s ⟨hs | ⟨hs, -⟩, he⟩
    · exact hs
    · exact absurd (hs.estate.symm.trans he) (by decide)
  case image =>
    refine himage.mono ?_ fun _ h => h
    rintro s ⟨hs | hs, he⟩
    · exact absurd hs.estate he
    · exact hs

/-! ### DECOMPRESS -/

/-- A `DECOMPRESS` runs, and DEC is in state `d`. -/
structure DecAt (d : DState) (s : State) : Prop where
  busy   : s.status.busy = true
  dstate : s.dstate = d

theorem DecAt.congr {d d' : DState} {s t u : State} (hs : DecAt d s) (h : t.registers = u.registers)
    (hstatus : u.status = s.status) (hdstate : u.dstate = d') : DecAt d' t where
  busy := by
    have hst : t.status = u.status := (congrArg State.status h :)
    rw [hst, hstatus]
    exact hs.busy
  dstate := (dstate_of_registers h).trans hdstate

theorem DecAt.unitMove {d : DState} {s : State} (h : DecAt d s) (hne : d ≠ .idle) : unitMove s = decMove s :=
  unitMove_dec (by rwa [h.dstate])

/-- DEC stands before row `ROW` with `k` rows to go. -/
structure DecRows (k : Nat) (s : State) : Prop extends DecAt (if k = 0 then .success else .readPresence) s where
  rows : s.row + k = s.h

/-- DEC is before a chunk of the row, or at its end, with `l` chunks to go, and the row is not the last `k`. -/
structure DecChunks (k l : Nat) (s : State) : Prop extends DecAt .readChunk s where
  rows   : s.row + (k + 1) = s.h
  chunks : s.chk + l = chunks s.w

theorem decRows_of_advance {d : DState} {k : Nat} {s t : State} (hs : DecAt d s) (hrows : s.row + (k + 1) = s.h)
    (h : t.registers = (decRowAdvance s).registers) : DecRows k t := by
  have hrow : t.row = s.row + 1 := (congrArg State.row h :)
  have hh : t.h = s.h := (congrArg State.h h :)
  refine ⟨hs.congr h rfl ?_, by omega⟩
  show (if s.row + 1 < s.h then DState.readPresence else .success) = _
  by_cases hk : k = 0
  · rw [if_neg (by omega), if_pos hk]
  · rw [if_pos (by omega), if_neg hk]

theorem fetchPresence_plays (k : Nat) : Plays (DecRows (k + 1)) (fetchRun fetchPresence) fun t =>
    DecRows k t ∧ t.dstate ≠ .readChunk ∨ DecChunks k (chunks t.w) t := by
  refine plays_move (fun s hs => ⟨hs.busy, ?_⟩) fun s t hs h => ?_
  all_goals have hat : DecAt .readPresence s := hs.toDecAt
  · rw [hat.unitMove (by decide), decMove, hat.dstate]
  · obtain ⟨x, hx, h⟩ := bind_eq_ok.1 h
    obtain ⟨p, -, hx⟩ := bind_eq_ok.1 hx
    obtain rfl := Except.ok.inj hx
    cases p with
    | true =>
      obtain rfl := Except.ok.inj h
      exact .inr ⟨⟨hs.busy, rfl⟩, hs.rows, Nat.zero_add _⟩
    | false =>
      obtain ⟨u, hu, h⟩ := bind_eq_ok.1 h
      obtain rfl := Except.ok.inj h
      have hrows := decRows_of_advance (t := decRowAdvance u) hat hs.rows
        (congrArg decRowAdvance (storeBytes_frame hu).1 :)
      refine .inl ⟨hrows, ?_⟩
      rw [hrows.dstate]
      split <;> decide

/-- A chunk: `ReadChunk`, and its code, which may end the command. -/
theorem decompressChunk_plays (k l : Nat) : Plays (DecChunks k (l + 1)) (fun s => dReadChunk s >>= fetchRun fetchChunk)
    fun t => t.status.busy = true → DecChunks k l t := by
  have hread : Plays (DecChunks k (l + 1)) dReadChunk fun t =>
      DecAt .readPrefix1 t ∧ t.row + (k + 1) = t.h ∧ t.chk + (l + 1) = chunks t.w := by
    refine plays_move (fun s hs => ⟨hs.busy, ?_⟩) fun s t hs h => ?_
    · rw [hs.toDecAt.unitMove (by decide), decMove, hs.dstate]
      dsimp only
      rw [decTransition, hs.dstate]
    · have hchunks := hs.chunks
      rw [dReadChunk_of_lt (by omega)] at h
      obtain rfl := Except.ok.inj h
      exact ⟨⟨hs.busy, rfl⟩, hs.rows, hchunks⟩
  refine hread.bind (plays_move ?_ ?_)
  · rintro s ⟨hs, -⟩
    refine ⟨hs.busy, ?_⟩
    rw [hs.unitMove (by decide), decMove, hs.dstate]
  · rintro s t ⟨hs, hrows, hchunks⟩ h hb
    obtain ⟨x, hx, h⟩ := bind_eq_ok.1 h
    rcases fetchChunk_cases hx with ⟨i, rfl⟩ | ⟨c, rfl⟩
    · have hrun : runCode i s = .ok t := h
      rw [runCode_of_fits (fetchChunk_code hx).2] at hrun
      obtain ⟨u, hu, hrun⟩ := bind_eq_ok.1 hrun
      obtain rfl := Except.ok.inj hrun
      have hreg := congrArg (chunkDone (encode i).length) (storeBytes_frame hu).1
      have hchk : u.chk = s.chk := (congrArg State.chk (storeBytes_frame hu).1 :)
      have hw : u.w = s.w := (congrArg State.w (storeBytes_frame hu).1 :)
      have hrow : u.row = s.row := (congrArg State.row (storeBytes_frame hu).1 :)
      have hh : u.h = s.h := (congrArg State.h (storeBytes_frame hu).1 :)
      refine ⟨hs.congr (u := chunkDone (encode i).length s) hreg rfl rfl, ?_, ?_⟩
      · rw [chunkDone_row, chunkDone_h, hrow, hh, hrows]
      · rw [chunkDone_chk, chunkDone_w, hchk, hw, ← hchunks]
        omega
    · obtain rfl := Except.ok.inj h
      cases hb

theorem decompressChunks_plays (k l : Nat) :
    Plays (DecChunks k l) (decompressChunks l) fun t => t.status.busy = true → DecChunks k 0 t := by
  induction l with
  | zero => exact plays_nothing.mono (fun _ h => h) fun _ h _ => h
  | succ l ih =>
    have hplay := (decompressChunk_plays k l).bind ih.whileBusy
    intro s hs
    have heq : decompressChunks (l + 1) s = (dReadChunk s >>= fetchRun fetchChunk) >>= whileBusy (decompressChunks l) := by
      rw [decompressChunks, bind_assoc]
    have h := hplay s hs
    unfold Played at h ⊢
    rwa [heq]

/-- `RowDone` after the last chunk (R206, R213). -/
theorem rowDone_plays (k : Nat) : Plays (DecChunks k 0) (fun s => dReadChunk s >>= fun t => .ok (decRowAdvance t))
    fun t => t.status.busy = true → DecRows k t := by
  have hread : Plays (DecChunks k 0) dReadChunk fun t => DecAt .rowDone t ∧ t.row + (k + 1) = t.h := by
    refine plays_move (fun s hs => ⟨hs.busy, ?_⟩) fun s t hs h => ?_
    · rw [hs.toDecAt.unitMove (by decide), decMove, hs.dstate]
      dsimp only
      rw [decTransition, hs.dstate]
    · rw [dReadChunk_of_eq hs.chunks] at h
      obtain rfl := Except.ok.inj h
      exact ⟨⟨hs.busy, rfl⟩, hs.rows⟩
  refine hread.bind (plays_move ?_ ?_)
  · rintro s ⟨hs, -⟩
    refine ⟨hs.busy, ?_⟩
    rw [hs.unitMove (by decide), decMove, hs.dstate]
    dsimp only
    rw [decTransition, hs.dstate]
  · rintro s t ⟨hs, hrows⟩ h _
    obtain rfl := Except.ok.inj h
    exact decRows_of_advance hs hrows rfl

theorem decompressRow_plays (k : Nat) :
    Plays (DecRows (k + 1)) decompressRow fun t => t.status.busy = true → DecRows k t := by
  have hchunks : Plays (fun s => DecChunks k (chunks s.w) s) (fun s => decompressChunks (chunks s.w) s)
      fun t => t.status.busy = true → DecChunks k 0 t := fun s hs => decompressChunks_plays k (chunks s.w) s hs
  have hrow := hchunks.bind (rowDone_plays k).whileBusy
  refine (fetchPresence_plays k).bind (Plays.ite ?encoded ?white)
  case encoded =>
    refine hrow.mono ?_ fun _ h => h
    rintro s ⟨⟨-, hne⟩ | hs, hd⟩
    · exact absurd hd hne
    · exact hs
  case white =>
    refine plays_nothing.mono (fun _ h => h) ?_
    rintro s ⟨⟨hs, -⟩ | hs, hd⟩ _
    · exact hs
    · exact absurd hs.dstate hd

theorem decompressRows_plays (k : Nat) :
    Plays (DecRows k) (decompressRows k) fun t => t.status.busy = true → DecRows 0 t := by
  induction k with
  | zero => exact plays_nothing.mono (fun _ h => h) fun _ h _ => h
  | succ k ih => exact (decompressRow_plays k).bind ih.whileBusy

theorem fetchHeader_plays : Plays (DecAt .validate) (fetchRun fetchHeader) fun t => t.status.busy = true → DecRows t.h t := by
  refine plays_move (fun s hs => ⟨hs.busy, ?_⟩) fun s t hs h hb => ?_
  · rw [hs.unitMove (by decide), decMove, hs.dstate]
  · rw [fetchRun_fetchHeader_eq] at h
    split_ifs at h
    all_goals obtain rfl := Except.ok.inj h
    all_goals try cases hb
    have hzero : headerHeight s = 0 ↔ (validated s).h = 0 := BitVec.toNat_eq (y := 0#32)
    refine ⟨⟨hb, ?_⟩, Nat.zero_add _⟩
    simp only [← hzero]
    rfl

theorem dSuccess_plays : Plays (DecRows 0) dSuccess fun t => t.status.busy = true → False := by
  refine plays_move (fun s hs => ⟨hs.busy, ?_⟩) fun s t _ h hb => ?_
  · have hat : DecAt .success s := hs.toDecAt
    rw [hat.unitMove (by decide), decMove, hat.dstate]
    dsimp only
    rw [decTransition, hat.dstate]
  · obtain rfl := Except.ok.inj h
    cases hb

/-- R217: the listing of `DECOMPRESS` is a run of moves to the command's end. -/
theorem decompressBody_plays : Plays (DecAt .validate) decompressBody fun t => t.status.busy = true → False := by
  have hrows : Plays (fun s => DecRows s.h s) (fun s => decompressRows s.h s) fun t => t.status.busy = true → DecRows 0 t :=
    fun s hs => decompressRows_plays s.h s hs
  exact fetchHeader_plays.bind (hrows.bind dSuccess_plays.whileBusy).whileBusy

/-! ### The commands -/

/-- What the command of a code does once it has started. -/
def commandBody : Instr → State → Res State
  | .rdbit      => rdbitBody
  | .rdchunk    => rdchunkBody
  | .setbit     => setbitBody
  | .clrbit     => clrbitBody
  | .wrchunk    => wrchunkBody
  | .compress   => compressBody
  | .decompress => decompressBody
  | _           => fun s => .ok s

theorem exec_command {i : Instr} {s : State} (hi : i.fits .command = true) (hb : s.status.busy = false) :
    exec i s = toOutcome (commandBody i (beginCommand (commandCode i) s)) := by
  cases i
  case rdbit | rdchunk | setbit | clrbit | wrchunk | compress | decompress => exact runCommand_of_idle hb
  all_goals simp [Instr.fits] at hi

/-- A direct accessor command is one move. -/
theorem accessor_played {i : Instr} {s : State} (hd : s.dstate = .idle) (he : s.estate = .idle) (hb : s.status.busy = true)
    (h : accessorStep s = commandBody i s) : Played (commandBody i) s :=
  ⟨1, fun j => by rw [Nat.add_comm, moves_succ hb, unitMove_accessor hd he, h]⟩

theorem commandBody_played {i : Instr} (hi : i.fits .command = true) (s : State) :
    Played (commandBody i) (beginCommand (commandCode i) s) := by
  cases i
  case rdbit | rdchunk | setbit | clrbit | wrchunk => exact accessor_played rfl rfl rfl rfl
  case compress => exact (compressBody_plays _ ⟨rfl, rfl, rfl⟩).1
  case decompress => exact (decompressBody_plays _ ⟨rfl, rfl⟩).1
  all_goals simp [Instr.fits] at hi

/-- A command's meaning is a run of moves from its start. -/
theorem exec_eq_moves {i : Instr} {s : State} (hi : i.fits .command = true) (hb : s.status.busy = false) :
    ∃ k, exec i s = toOutcome (moves k (beginCommand (commandCode i) s)) := by
  obtain ⟨k, hk⟩ := commandBody_played hi s
  refine ⟨k, ?_⟩
  have hend := hk 0
  rw [Nat.add_zero] at hend
  rw [exec_command hi hb, hend]
  cases commandBody i (beginCommand (commandCode i) s) <;> rfl

/-- Settles O54: the command's meaning is a run of moves, and with no host action each step is a move. -/
theorem stepsOfACommandAddUpToIt : Obligations.StepsOfACommandAddUpToIt := by
  intro s c i hb hd hc
  obtain ⟨hi, rfl⟩ := decodeCommand_eq_ok_iff.1 hc
  obtain ⟨k, hk⟩ := exec_eq_moves hi hb
  exact ⟨k, by rw [run_eq_moves (s := beginCommand (commandCode i) s) hd, hk]⟩

end Sys2Proof.Machine
end

