-- ==== Sys2Proof/Proofs/StateInvariant.lean ====
section
/-! PROOFS. The invariant of every state: what a move of the block does to the byte stores and to the registers that say where a
command stands, and what the host's actions leave. -/

namespace Sys2Proof.Machine

open Config (Store)

/-! ### The byte stores -/

/-- The byte stores are in canonical form and their draws have been made (log 2, log 7). -/
structure Tidy (s : State) : Prop where
  wf    : ∀ m, (s.mem m).wf
  draws : ∀ m, (s.mem m).draw < s.draws

section
variable {s t : State} (hs : Tidy s)
include hs

theorem Tidy.of_mem (hmem : t.mem = s.mem) (hdraws : s.draws ≤ t.draws) : Tidy t where
  wf m := hmem ▸ hs.wf m
  draws m := hmem ▸ lt_of_lt_of_le (hs.draws m) hdraws

theorem Tidy.frame (hreg : t.registers = s.registers)
    (h : ((∀ k, (s.mem k).wf) → ∀ k, (t.mem k).wf) ∧ ∀ k, (t.mem k).draw = (s.mem k).draw) : Tidy t where
  wf := h.1 hs.wf
  draws k := by
    have hdraws : t.draws = s.draws := (congrArg State.draws hreg :)
    rw [h.2, hdraws]
    exact hs.draws k

theorem Tidy.storeBytes {m : Store} {a : Nat} {xs : List Byte} (h : storeBytes s m a xs = .ok t) : Tidy t := by
  refine hs.frame (storeBytes_frame h).1 ?_
  obtain ⟨rfl, -⟩ := storeBytes_eq_ok h
  exact ⟨placeBytes_wf m a xs, placeBytes_draw s m a xs⟩

/-- A byte that was read and is put back changed (R133, R134). -/
theorem Tidy.byteUpdate {m : Store} {a : Nat} {f : Byte → Byte} (h : (load s m a >>= fun x => store s m a (f x)) = .ok t) :
    Tidy t := by
  obtain ⟨x, -, h⟩ := bind_eq_ok.1 h
  obtain ⟨-, rfl⟩ := store_eq_ok.1 h
  exact hs.frame (setByte_registers s m a _) ⟨setByte_wf m a _, setByte_draw s m a _⟩

theorem Tidy.bitSet {m : Store} {base b : Nat} (h : bitSet s m base b = .ok t) : Tidy t := hs.byteUpdate h

theorem Tidy.bitClear {m : Store} {base b : Nat} (h : bitClear s m base b = .ok t) : Tidy t := hs.byteUpdate h

theorem Tidy.chunkWrite {m : Store} {base b : Nat} {xs : List Byte} (h : chunkWrite s m base b xs = .ok t) : Tidy t :=
  hs.frame (chunkWrite_frame h).1 (chunkWrite_frame h).2

theorem Tidy.run {w : BitWrite} {m : Store} {base : Nat} (h : w.run s m base = .ok t) : Tidy t := by
  cases w with
  | set b => exact hs.bitSet h
  | clear b => exact hs.bitClear h
  | chunk b src => exact hs.chunkWrite h

theorem Tidy.forget (m : Store) (n : Nat) : Tidy (forget s m n) where
  wf := forget_wf m n hs.wf
  draws k := by
    have hdraw : ((Machine.forget s m n).mem k).draw = (s.mem k).draw := by cases k <;> cases m <;> rfl
    rw [hdraw]
    exact Nat.lt_succ_of_lt (hs.draws k)

end

/-! ### The moves and the byte stores -/

section
variable {s t : State} (hs : Tidy s)
include hs

theorem eCheck_tidy (h : eCheck s = .ok t) : Tidy t := by
  unfold eCheck at h
  dsimp only at h
  split_ifs at h
  all_goals
    obtain rfl := Except.ok.inj h
    exact hs.of_mem rfl (le_refl _)

theorem eGrow_tidy (h : eGrow s = .ok t) : Tidy t := by
  unfold eGrow at h
  split at h
  case isTrue =>
    obtain rfl := Except.ok.inj h
    exact (hs.forget .cmp s.ext).of_mem rfl (le_refl _)
  case isFalse =>
    obtain ⟨u, hu, h⟩ := bind_eq_ok.1 h
    obtain rfl := Except.ok.inj h
    exact (hs.storeBytes hu).of_mem rfl (le_refl _)

/-- An action that writes a run of bytes and then only registers. -/
theorem storeBytes_then_tidy {m : Store} {a : Nat} {xs : List Byte} {g : State → State}
    (h : (storeBytes s m a xs >>= fun u => .ok (g u)) = .ok t) (hmem : ∀ u, (g u).mem = u.mem)
    (hdraws : ∀ u, (g u).draws = u.draws) : Tidy t := by
  obtain ⟨u, hu, h⟩ := bind_eq_ok.1 h
  obtain rfl := Except.ok.inj h
  exact (hs.storeBytes hu).of_mem (hmem u) (hdraws u).ge

theorem eEmitBlack_tidy (h : eEmitBlack s = .ok t) : Tidy t := by
  obtain ⟨u1, h1, h⟩ := bind_eq_ok.1 h
  obtain ⟨u2, h2, h⟩ := bind_eq_ok.1 h
  obtain rfl := Except.ok.inj h
  exact ((hs.bitSet h1).bitClear h2).of_mem rfl (le_refl _)

theorem eEmitLiteral_tidy (h : eEmitLiteral s = .ok t) : Tidy t := by
  obtain ⟨u1, h1, h⟩ := bind_eq_ok.1 h
  obtain ⟨u2, h2, h⟩ := bind_eq_ok.1 h
  obtain ⟨u3, h3, h⟩ := bind_eq_ok.1 h
  obtain rfl := Except.ok.inj h
  exact (((hs.bitSet h1).bitSet h2).chunkWrite h3).of_mem rfl (le_refl _)

theorem eRowAppend_tidy (h : eRowAppend s = .ok t) : Tidy t := by
  obtain ⟨u1, h1, h⟩ := bind_eq_ok.1 h
  obtain ⟨src, -, h⟩ := bind_eq_ok.1 h
  obtain ⟨u2, h2, h⟩ := bind_eq_ok.1 h
  obtain rfl := Except.ok.inj h
  exact ((hs.bitSet h1).chunkWrite h2).of_mem rfl (le_refl _)

theorem encStep_tidy (h : encStep s = .ok t) : Tidy t := by
  unfold encStep at h
  generalize s.estate = e at h
  cases e with
  | idle => cases h
  | check => exact eCheck_tidy hs h
  | degenerate => exact storeBytes_then_tidy hs h (fun _ => rfl) fun _ => rfl
  | header => exact storeBytes_then_tidy hs h (fun _ => rfl) fun _ => rfl
  | grow => exact eGrow_tidy hs h
  | rowInit => exact storeBytes_then_tidy hs h (fun _ => rfl) fun _ => rfl
  | classify =>
    obtain ⟨px, -, h⟩ := bind_eq_ok.1 h
    obtain rfl := Except.ok.inj h
    exact hs.of_mem rfl (le_refl _)
  | emitWhite | rowWhite =>
    obtain ⟨u, hu, h⟩ := bind_eq_ok.1 h
    obtain rfl := Except.ok.inj h
    exact (hs.bitClear hu).of_mem rfl (le_refl _)
  | emitBlack => exact eEmitBlack_tidy hs h
  | emitLiteral => exact eEmitLiteral_tidy hs h
  | rowAppend => exact eRowAppend_tidy hs h
  | finish | success | failure =>
    obtain rfl := Except.ok.inj h
    exact hs.of_mem rfl (le_refl _)

theorem encMove_tidy (h : encMove s = .ok t) : Tidy t := by
  rcases encMove_cases h with ⟨h, -⟩ | ⟨u, hu, -, rfl⟩
  · exact encStep_tidy hs h
  · exact (encStep_tidy hs hu).of_mem rfl (le_refl _)

theorem fetchRun_fetchHeader_tidy (h : fetchRun fetchHeader s = .ok t) : Tidy t := by
  rw [fetchRun_fetchHeader_eq] at h
  split_ifs at h
  all_goals
    obtain rfl := Except.ok.inj h
    exact hs.of_mem rfl (le_refl _)

theorem fetchRun_fetchPresence_tidy (h : fetchRun fetchPresence s = .ok t) : Tidy t := by
  obtain ⟨x, hx, h⟩ := bind_eq_ok.1 h
  obtain ⟨p, -, hx⟩ := bind_eq_ok.1 hx
  obtain rfl := Except.ok.inj hx
  cases p with
  | true =>
    obtain rfl := Except.ok.inj h
    exact hs.of_mem rfl (le_refl _)
  | false => exact storeBytes_then_tidy hs h (fun _ => rfl) fun _ => rfl

theorem decFail_tidy (c : Cause) : Tidy (decFail c s) := (hs.forget .pix (s.w * s.h)).of_mem rfl (le_refl _)

theorem fetchRun_fetchChunk_tidy (h : fetchRun fetchChunk s = .ok t) : Tidy t := by
  obtain ⟨x, hx, h⟩ := bind_eq_ok.1 h
  rcases fetchChunk_cases hx with ⟨i, rfl⟩ | ⟨k, rfl⟩
  · have hrun : runCode i s = .ok t := h
    rw [runCode_of_fits (fetchChunk_code hx).2] at hrun
    exact storeBytes_then_tidy hs hrun (fun _ => rfl) fun _ => rfl
  · obtain rfl := Except.ok.inj h
    exact decFail_tidy hs k

/-- A transition that reads a bit and goes on by its value. -/
theorem branch_tidy {r : Res Bool} {f : Bool → State} (h : (r >>= fun x => .ok (f x)) = .ok t)
    (hmem : ∀ x, (f x).mem = s.mem) (hdraws : ∀ x, (f x).draws = s.draws) : Tidy t := by
  obtain ⟨x, -, h⟩ := bind_eq_ok.1 h
  obtain rfl := Except.ok.inj h
  exact hs.of_mem (hmem x) (hdraws x).ge

theorem decTransition_tidy (h : decTransition s = .ok t) : Tidy t := by
  unfold decTransition at h
  generalize s.dstate = d at h
  cases d with
  | idle => cases h
  | validate => exact fetchRun_fetchHeader_tidy hs h
  | readPresence => exact branch_tidy hs h (fun x => by cases x <;> rfl) fun x => by cases x <;> rfl
  | allWhiteDone | white | black => exact storeBytes_then_tidy hs h (fun _ => rfl) fun _ => rfl
  | readChunk =>
    change dReadChunk s = .ok t at h
    unfold dReadChunk at h
    split at h
    all_goals
      obtain rfl := Except.ok.inj h
      exact hs.of_mem rfl (le_refl _)
  | readPrefix1 | readPrefix2 =>
    dsimp only at h
    split at h
    · obtain rfl := Except.ok.inj h
      exact decFail_tidy hs _
    · exact branch_tidy hs h (fun _ => rfl) fun _ => rfl
  | literal =>
    dsimp only at h
    split at h
    all_goals obtain rfl := Except.ok.inj h
    · exact decFail_tidy hs _
    · exact hs.of_mem rfl (le_refl _)
  | readBytes =>
    obtain ⟨out, -, h⟩ := bind_eq_ok.1 h
    exact storeBytes_then_tidy hs h (fun _ => rfl) fun _ => rfl
  | rowDone | success | failure =>
    obtain rfl := Except.ok.inj h
    exact hs.of_mem rfl (le_refl _)

theorem decMove_tidy (h : decMove s = .ok t) : Tidy t := by
  unfold decMove at h
  split at h
  · exact fetchRun_fetchHeader_tidy hs h
  · exact fetchRun_fetchPresence_tidy hs h
  · exact fetchRun_fetchChunk_tidy hs h
  · exact decTransition_tidy hs h

theorem accessorStep_tidy (h : accessorStep s = .ok t) : Tidy t := by
  rcases accessorStep_cases h with rfl | ⟨x, rfl⟩ | ⟨xs, u, hu, rfl⟩ | ⟨w, u, hu, rfl⟩
  · exact hs.of_mem rfl (le_refl _)
  · exact hs.of_mem rfl (le_refl _)
  · exact (hs.storeBytes hu).of_mem rfl (le_refl _)
  · exact (hs.run hu).of_mem rfl (le_refl _)

theorem unitMove_tidy (h : unitMove s = .ok t) : Tidy t := by
  rcases unitMove_cases s with ⟨-, hm⟩ | ⟨-, -, hm⟩ | ⟨-, -, hm⟩
  all_goals rw [hm] at h
  · exact decMove_tidy hs h
  · exact encMove_tidy hs h
  · exact accessorStep_tidy hs h

end

/-! ### Where a move leaves the command -/

theorem encMove_advances : Leads Advanced encMove := by
  intro c s t hs h
  rcases encMove_cases h with ⟨h, -⟩ | ⟨u, hu, hsuccess, rfl⟩
  · exact encStep_advances c s t hs h
  · rcases encStep_advances c s u hs hu with hrun | hended
    · exact .inr hrun.complete
    · exact absurd (hended.estate.symm.trans hsuccess) (by decide)

/-- A transition that reads a bit and goes on by its value. -/
theorem branch_running {c : BitVec 4} {r : Res Bool} {f : Bool → State} {s t : State} (hs : Running c s)
    (h : (r >>= fun x => .ok (f x)) = .ok t) (hf : ∀ x, (f x).control = s.control) : Running c t := by
  obtain ⟨x, -, h⟩ := bind_eq_ok.1 h
  obtain rfl := Except.ok.inj h
  exact hs.congr (hf x)

theorem decFail_ends {c : BitVec 4} {s : State} (hs : Running c s) (k : Cause) : Ended c (decFail k s) :=
  (hs.forget .pix (s.w * s.h)).raiseFail k

/-- One transition of R216, from whatever state of DEC. -/
theorem decTransition_advances : Leads Advanced decTransition := by
  intro c s t hs h
  unfold decTransition at h
  generalize s.dstate = d at h
  cases d with
  | idle => cases h
  | validate => exact fetchRun_advances (fun _ _ _ => fetchHeader_advances) c s t hs h
  | readPresence => exact .inl (branch_running hs h fun x => by cases x <;> rfl)
  | allWhiteDone => exact .inl (presence0Code_running c s t hs h)
  | readChunk => exact .inl (dReadChunk_running c s t hs h)
  | readPrefix1 | readPrefix2 =>
    dsimp only at h
    split at h
    · obtain rfl := Except.ok.inj h
      exact .inr (decFail_ends hs _)
    · exact .inl (branch_running hs h fun _ => rfl)
  | white => exact runCode_advances .w c s t hs h
  | black => exact runCode_advances .b c s t hs h
  | literal =>
    dsimp only at h
    split at h
    all_goals obtain rfl := Except.ok.inj h
    · exact .inr (decFail_ends hs _)
    · exact .inl hs
  | readBytes =>
    obtain ⟨out, -, h⟩ := bind_eq_ok.1 h
    exact .inl (chunkCode_running (fun _ => out) _ c s t hs h)
  | rowDone =>
    obtain rfl := Except.ok.inj h
    exact .inl hs
  | success => exact .inr (dSuccess_ends c s t hs h)
  | failure =>
    obtain rfl := Except.ok.inj h
    exact .inr hs.complete

theorem decMove_advances : Leads Advanced decMove := by
  intro c s t hs h
  unfold decMove at h
  split at h
  · exact fetchRun_advances (fun _ _ _ => fetchHeader_advances) c s t hs h
  · exact .inl (fetchRun_fetchPresence_running c s t hs h)
  · exact fetchRun_advances (fun _ _ _ => fetchChunk_advances) c s t hs h
  · exact decTransition_advances c s t hs h

theorem accessorStep_ends : Leads Ended accessorStep := by
  intro c s t hs h
  unfold accessorStep at h
  split at h
  · exact rdbitBody_ends c s t hs h
  · exact rdchunkBody_ends c s t hs h
  · exact setbitBody_ends c s t hs h
  · exact clrbitBody_ends c s t hs h
  · exact wrchunkBody_ends c s t hs h
  · cases h

theorem unitMove_advances : Leads Advanced unitMove := by
  intro c s t hs h
  rcases unitMove_cases s with ⟨-, hm⟩ | ⟨-, -, hm⟩ | ⟨-, -, hm⟩
  all_goals rw [hm] at h
  · exact decMove_advances c s t hs h
  · exact encMove_advances c s t hs h
  · exact .inr (accessorStep_ends c s t hs h)

/-! ### The causes and the units -/

theorem code_le (c : Cause) : c.code.toNat ≤ 13 := by
  cases c <;> decide

theorem Moved.err_le {v : State → State} {C : Cause → Prop} {R : Nat → Word32 → Word32 → Prop} {s t : State}
    (h : Moved v C R s t) (hv : ∀ u : State, (v u).err = u.err) (hs : s.err.toNat ≤ 13) : t.err.toNat ≤ 13 := by
  rw [← hv t]
  cases h with
  | goesOn h =>
    rw [h, hv]
    exact hs
  | fails c _ h _ =>
    have herr : (v t).err = (v (raiseFail c s)).err := (congrArg State.err h :)
    rw [herr, hv]
    exact code_le c
  | succeeds n w h _ h' =>
    rw [h', hv]
    exact Nat.zero_le 13
  | completes _ h =>
    rw [h, hv]
    exact hs

theorem accessorStep_err_le {s t : State} (h : accessorStep s = .ok t) (hs : s.err.toNat ≤ 13) : t.err.toNat ≤ 13 := by
  rcases accessorStep_cases h with rfl | ⟨x, rfl⟩ | ⟨xs, u, hu, rfl⟩ | ⟨w, u, hu, rfl⟩
  · exact code_le .badArgument
  · exact hs
  · have herr : (complete u).err = s.err := (congrArg State.err (storeBytes_frame hu).1 :)
    rwa [herr]
  · have herr : (complete u).err = s.err := (congrArg State.err (BitWrite.run_eq_ok hu).1 :)
    rwa [herr]

theorem unitMove_err_le {s t : State} (h : unitMove s = .ok t) (hs : s.err.toNat ≤ 13) : t.err.toNat ≤ 13 := by
  rcases unitMove_cases s with ⟨-, hm⟩ | ⟨-, -, hm⟩ | ⟨-, -, hm⟩
  all_goals rw [hm] at h
  · exact (decMove_moved h).err_le (fun _ => rfl) hs
  · exact (encMove_moved h).err_le (fun _ => rfl) hs
  · exact accessorStep_err_le h hs

/-- A move of DEC leaves ENC as it is, unless it ends the command, which leaves both idle. -/
theorem DecMoved.estate {s t : State} (h : DecMoved s t) (hs : s.estate = .idle) : t.estate = .idle := by
  cases h with
  | goesOn h => exact (congrArg State.estate h : t.besideDec.estate = s.besideDec.estate).trans hs
  | fails c _ h _ => exact (congrArg State.estate h :)
  | succeeds n w h _ h' => exact (congrArg State.estate h' :)
  | completes _ h => exact (congrArg State.estate h :)

theorem EncMoved.dstate {s t : State} (h : EncMoved s t) (hs : s.dstate = .idle) : t.dstate = .idle := by
  cases h with
  | goesOn h => exact (congrArg State.dstate h : t.besideEnc.dstate = s.besideEnc.dstate).trans hs
  | fails c _ h _ => exact (congrArg State.dstate h :)
  | succeeds n w h _ h' => exact (congrArg State.dstate h' :)
  | completes _ h => exact (congrArg State.dstate h :)

/-- A move leaves one unit idle. -/
theorem unitMove_unit {s t : State} (h : unitMove s = .ok t) (hunit : s.dstate = .idle ∨ s.estate = .idle) :
    t.dstate = .idle ∨ t.estate = .idle := by
  rcases unitMove_cases s with ⟨hd, hm⟩ | ⟨hd, -, hm⟩ | ⟨hd, he, hm⟩
  all_goals rw [hm] at h
  · exact .inr ((decMove_moved h).estate (hunit.resolve_left hd))
  · exact .inl ((encMove_moved h).dstate hd)
  · rcases accessorStep_cases h with rfl | ⟨x, rfl⟩ | ⟨xs, u, -, rfl⟩ | ⟨w, u, -, rfl⟩ <;> exact .inl rfl

/-! ### The invariant -/

theorem StateInv.tidy {s : State} (h : StateInv s) : Tidy s where
  wf m := by
    cases m
    · exact h.pix_wf
    · exact h.cmp_wf
    · exact h.scr_wf
    · exact h.dbuf_wf
  draws := h.draws

/-- A busy state that meets the invariant has its command under way. -/
theorem StateInv.underWay {s : State} (h : StateInv s) (hb : s.status.busy = true) : Running s.cmd s := by
  obtain ⟨hdone, hfail⟩ := h.running hb
  have herr : s.err = 0 := by
    by_contra hne
    exact absurd (hfail.symm.trans (h.fail.2 hne)) (by decide)
  have hstatus : s.status = { busy := true, done := false, fail := false } := by
    cases hst : s.status
    rw [hst] at hb hdone hfail
    simp only at hb hdone hfail
    rw [hb, hdone, hfail]
  simp only [Running, State.control, hstatus, herr]

/-- A state whose command is under way or has ended meets the invariant if its stores, capacities, cause and units do. -/
theorem stateInv_of_advanced {c : BitVec 4} {s : State} (h : Advanced c s) (ht : Tidy s) (hcaps : s.caps.wf)
    (herr : s.err.toNat ≤ 13) (hunit : s.dstate = .idle ∨ s.estate = .idle) : StateInv s where
  pix_wf := ht.wf .pix
  cmp_wf := ht.wf .cmp
  scr_wf := ht.wf .scr
  dbuf_wf := ht.wf .dbuf
  draws := ht.draws
  caps := hcaps
  err := herr
  unit := hunit
  fail := by
    rcases h with hrun | hended
    · simp [hrun.status, hrun.err]
    · exact hended.fail
  failed hf := by
    rcases h with hrun | hended
    · simp [hrun.status] at hf
    · exact ⟨hended.done, hended.sentinel hf⟩
  running hb := by
    rcases h with hrun | hended
    · simp [hrun.status]
    · simp [hended.busy] at hb
  idle hb := by
    rcases h with hrun | hended
    · simp [hrun.busy] at hb
    · exact ⟨hended.dstate, hended.estate⟩

theorem unitMove_stateInv {s t : State} (hs : StateInv s) (hb : s.status.busy = true) (h : unitMove s = .ok t) :
    StateInv t := by
  have hcaps : t.caps = s.caps := (congrArg State.caps (unitMove_operands h) :)
  exact stateInv_of_advanced (unitMove_advances _ s t (hs.underWay hb) h) (unitMove_tidy hs.tidy h) (hcaps ▸ hs.caps)
    (unitMove_err_le h hs.err) (unitMove_unit h hs.unit)

/-- What every move keeps, a run of moves keeps. -/
theorem moves_keeps {P : State → Prop} (hP : ∀ s t, P s → s.status.busy = true → unitMove s = .ok t → P t) {k : Nat}
    {s t : State} (hs : P s) (h : moves k s = .ok t) : P t := by
  induction k generalizing s with
  | zero =>
    obtain rfl := Except.ok.inj h
    exact hs
  | succ k ih =>
    cases hb : s.status.busy with
    | false =>
      rw [moves_of_idle hb] at h
      obtain rfl := Except.ok.inj h
      exact hs
    | true =>
      rw [moves_succ hb] at h
      obtain ⟨u, hu, h⟩ := bind_eq_ok.1 h
      exact ih (hP s u hs hb hu) h

theorem exec_command_eq_moves {i : Instr} {s t : State} (hi : i.fits .command = true) (hb : s.status.busy = false)
    (h : exec i s = .next t) : ∃ k, moves k (beginCommand (commandCode i) s) = .ok t := by
  obtain ⟨k, hk⟩ := exec_eq_moves hi hb
  exact ⟨k, toOutcome_eq_next.1 (hk.symm.trans h)⟩

/-- R27, R39: no command writes an operand. -/
theorem exec_command_operands {i : Instr} {s t : State} (hi : i.fits .command = true) (hb : s.status.busy = false)
    (h : exec i s = .next t) : t.operands = s.operands := by
  obtain ⟨k, hk⟩ := exec_command_eq_moves hi hb h
  have hstart : (beginCommand (commandCode i) s).operands = s.operands := rfl
  exact moves_keeps (P := fun u => u.operands = s.operands) (fun u v hu _ hm => (unitMove_operands hm).trans hu) hstart hk

theorem beginCommand_unit (c : BitVec 4) (s : State) :
    (beginCommand c s).dstate = .idle ∨ (beginCommand c s).estate = .idle := by
  by_cases h : c = 6
  · left
    subst h
    rfl
  · exact .inr (if_neg h)

theorem beginCommand_stateInv {s : State} (hs : StateInv s) (c : BitVec 4) : StateInv (beginCommand c s) :=
  stateInv_of_advanced (.inl (running_beginCommand c s)) (hs.tidy.of_mem rfl (le_refl _)) hs.caps (Nat.zero_le 13)
    (beginCommand_unit c s)

theorem reservedCommand_stateInv {s : State} (hs : StateInv s) (c : BitVec 4) : StateInv (reservedCommand c s) :=
  stateInv_of_advanced (.inr ((running_beginCommand c s).raiseFail .badCommand)) (hs.tidy.of_mem rfl (le_refl _)) hs.caps
    (code_le .badCommand) (.inl rfl)

theorem exec_command_stateInv {i : Instr} {s t : State} (hs : StateInv s) (hi : i.fits .command = true)
    (hb : s.status.busy = false) (h : exec i s = .next t) : StateInv t := by
  obtain ⟨k, hk⟩ := exec_command_eq_moves hi hb h
  exact moves_keeps (fun _ _ => unitMove_stateInv) (beginCommand_stateInv hs _) hk

/-! ### The host's actions -/

/-- What the invariant of every state does not speak of: the host's side, and the registers that hold no more than a number. -/
def State.unspoken (s : State) : State :=
  { s with
    cmd := 0, argWidth := 0, argHeight := 0, argPresent := false, argLen := 0, argMem := false, argBase := 0, argBit := 0
    resBit := false, w := 0, h := 0, l := 0, row := 0, chk := 0, n := 0, rc := 0, rowWhite := false, ext := 0, px := []
    cur := 0, host := [], hostSaw := 0 }

theorem stateInv_unspoken {s : State} : StateInv s.unspoken ↔ StateInv s :=
  ⟨fun h => ⟨h.pix_wf, h.cmp_wf, h.scr_wf, h.dbuf_wf, fun m => h.draws m, h.caps, h.err, h.fail, h.failed, h.running, h.unit,
      h.idle⟩,
    fun h => ⟨h.pix_wf, h.cmp_wf, h.scr_wf, h.dbuf_wf, fun m => h.draws m, h.caps, h.err, h.fail, h.failed, h.running, h.unit,
      h.idle⟩⟩

theorem StateInv.congr {s t : State} (hs : StateInv s) (h : t.unspoken = s.unspoken) : StateInv t :=
  stateInv_unspoken.1 (h ▸ stateInv_unspoken.2 hs)

theorem setArg_unspoken (s : State) (n v : Nat) : (setArg s n v).unspoken = s.unspoken := by
  unfold setArg
  split <;> rfl

/-- A write of bytes changes no register. -/
theorem StateInv.of_registers {s t : State} (hs : StateInv s) (hreg : t.registers = s.registers) (ht : Tidy t) : StateInv t := by
  have hkept : StateInv t.registers ↔ StateInv s.registers := by rw [hreg]
  have hempty : StateInv s.registers :=
    ⟨List.Pairwise.nil, List.Pairwise.nil, List.Pairwise.nil, List.Pairwise.nil,
      fun m => by
        rw [mem_registers]
        exact Nat.zero_lt_of_lt (hs.draws m),
      hs.caps, hs.err, hs.fail, hs.failed, hs.running, hs.unit, hs.idle⟩
  obtain ⟨-, -, -, -, -, hcaps, herr, hfail, hfailed, hrunning, hunit, hidle⟩ := hkept.2 hempty
  exact ⟨ht.wf .pix, ht.wf .cmp, ht.wf .scr, ht.wf .dbuf, ht.draws, hcaps, herr, hfail, hfailed, hrunning, hunit, hidle⟩

theorem hostWriteReg_stateInv {s t : State} {n v : Nat} (hs : StateInv s) (h : hostWriteReg n v s = .ok t) : StateInv t := by
  unfold hostWriteReg at h
  split_ifs at h
  case neg =>
    split at h
    all_goals obtain rfl := Except.ok.inj h
    · exact beginCommand_stateInv hs _
    · exact reservedCommand_stateInv hs _
  all_goals obtain rfl := Except.ok.inj h
  · exact hs
  · exact hs.congr (setArg_unspoken s n v)
  · exact hs
  · exact hs.of_registers (setByte_registers s .dbuf _ _)
      (hs.tidy.frame (setByte_registers s .dbuf _ _) ⟨setByte_wf .dbuf _ _, setByte_draw s .dbuf _ _⟩)

theorem hostReadReg_cases {s t : State} {n : Nat} (h : hostReadReg n s = .ok t) : ∃ x, t = { s with hostSaw := x } := by
  unfold hostReadReg at h
  split_ifs at h
  all_goals exact ⟨_, (Except.ok.inj h).symm⟩

theorem hostWriteMem_cases {s t : State} {m : HostMem} {a : Nat} {bytes : List Byte} (h : hostWriteMem m a bytes s = .ok t) :
    s.status.busy = false ∧ storeBytes s (hostStore m) a bytes = .ok t := by
  unfold hostWriteMem at h
  split_ifs at h with hb
  exact ⟨by simpa using hb, h⟩

theorem hostReadMem_cases {s t : State} {m : HostMem} {a : Nat} (h : hostReadMem m a s = .ok t) :
    ∃ x, t = { s with hostSaw := x } := by
  unfold hostReadMem at h
  split_ifs at h
  obtain ⟨x, -, h⟩ := bind_eq_ok.1 h
  exact ⟨_, (Except.ok.inj h).symm⟩

/-- R45, R270: after reset no command has run, and every store is a new draw. -/
theorem stateInv_afterReset {caps : Config.Caps} (hcaps : caps.wf) (host : List HostOp) (hostSaw draws : Nat) :
    StateInv (State.afterReset caps host hostSaw draws) where
  pix_wf := List.Pairwise.nil
  cmp_wf := List.Pairwise.nil
  scr_wf := List.Pairwise.nil
  dbuf_wf := List.Pairwise.nil
  draws m := by cases m <;> exact Nat.lt_succ_self draws
  caps := hcaps
  err := Nat.zero_le 13
  fail := ⟨fun hf => Bool.noConfusion hf, fun hne => absurd rfl hne⟩
  failed hf := Bool.noConfusion hf
  running hb := Bool.noConfusion hb
  unit := .inl rfl
  idle _ := ⟨rfl, rfl⟩

/-- A step of the block alone: a move while a command runs. -/
theorem blockMove_cases {s t : State} (h : blockMove s = .next t) :
    s.status.busy = true ∧ unitMove s = .ok t ∨ s.status.busy = false ∧ t = s := by
  unfold blockMove at h
  split at h
  case isTrue hb =>
    rw [blockStep_eq, toOutcome_eq_next] at h
    exact .inl ⟨hb, h⟩
  case isFalse hb => exact .inr ⟨by simpa using hb, (Host.Outcome.next.inj h).symm⟩

theorem blockMove_stateInv {s t : State} (hs : StateInv s) (h : blockMove s = .next t) : StateInv t := by
  rcases blockMove_cases h with ⟨hb, hmove⟩ | ⟨-, rfl⟩
  · exact unitMove_stateInv hs hb hmove
  · exact hs

/-- A command line while none runs: the command, or the failure of a reserved code (R112, R115). -/
theorem issueCommand_cases {s t : State} {c : BitVec 4} (h : issueCommand c s = .next t) :
    (∃ i : Instr, i.fits .command = true ∧ commandCode i = c ∧ exec i s = .next t) ∨ t = reservedCommand c s := by
  unfold issueCommand at h
  split at h
  next i hi =>
    obtain ⟨hfit, hcode⟩ := decodeCommand_eq_ok_iff.1 hi
    exact .inl ⟨i, hfit, hcode, h⟩
  next => exact .inr (Host.Outcome.next.inj h).symm

/-- Settles O57: the block's move by what it does to the stores and to the command's standing; a command line is a run of moves; the
host's other actions one by one. -/
theorem stepKeepsTheStateInvariant : Obligations.StepKeepsTheStateInvariant := by
  intro s t hs h
  have hrest (rest : List HostOp) : StateInv { s with host := rest } := hs.congr rfl
  unfold step at h
  split at h
  next => exact blockMove_stateInv hs h
  next rest _ => exact blockMove_stateInv (hrest rest) h
  next c rest _ =>
    split at h
    case isTrue hb =>
      rw [blockStep_eq, toOutcome_eq_next] at h
      exact unitMove_stateInv hs hb h
    case isFalse hb =>
      rcases issueCommand_cases h with ⟨i, hi, -, hrun⟩ | rfl
      · exact exec_command_stateInv (hrest rest) hi (by simpa using hb) hrun
      · exact reservedCommand_stateInv (hrest rest) c
  next n v rest _ => exact hostWriteReg_stateInv (hrest rest) (toOutcome_eq_next.1 h)
  next n rest _ =>
    obtain ⟨x, rfl⟩ := hostReadReg_cases (toOutcome_eq_next.1 h)
    exact hs.congr rfl
  next m a bytes rest _ =>
    obtain ⟨-, hbytes⟩ := hostWriteMem_cases (toOutcome_eq_next.1 h)
    exact (hrest rest).of_registers (storeBytes_frame hbytes).1 ((hrest rest).tidy.storeBytes hbytes)
  next m a rest _ =>
    obtain ⟨x, rfl⟩ := hostReadMem_cases (toOutcome_eq_next.1 h)
    exact hs.congr rfl
  next rest _ =>
    obtain rfl := Host.Outcome.next.inj h
    exact stateInv_afterReset hs.caps rest s.hostSaw s.draws

end Sys2Proof.Machine
end

