-- ==== Sys2Proof/Proofs/EncoderRanges.lean ====
section
/-! PROOFS. The ranges of the encoder (R81, R171, R174, R186): from every state that meets its invariant a move of ENC completes, and
while the command goes on it keeps the invariant. -/

namespace Sys2Proof.Machine

open Config (Store)

/-! ### What the invariant speaks of -/

/-- The registers that the invariant of a running command speaks of. -/
def State.unit (s : State) : State :=
  { State.reset with
    status := s.status, cmd := s.cmd, w := s.w, h := s.h, l := s.l, row := s.row, chk := s.chk, n := s.n, dstate := s.dstate
    estate := s.estate, rc := s.rc, rowWhite := s.rowWhite, ext := s.ext, px := s.px, cur := s.cur, caps := s.caps }

theorem encRange_unit {s : State} : EncRange s.unit ↔ EncRange s :=
  ⟨fun ⟨hw, hh, hpix, hscr⟩ => ⟨hw, hh, hpix, hscr⟩, fun ⟨hw, hh, hpix, hscr⟩ => ⟨hw, hh, hpix, hscr⟩⟩

theorem encRow_unit {s : State} : EncRow s.unit ↔ EncRow s :=
  ⟨fun ⟨hrange, hrow, hcur, hgrown, hcap⟩ => ⟨encRange_unit.1 hrange, hrow, hcur, hgrown, hcap⟩,
    fun ⟨hrange, hrow, hcur, hgrown, hcap⟩ => ⟨encRange_unit.2 hrange, hrow, hcur, hgrown, hcap⟩⟩

theorem encChunk_unit {s : State} : EncChunk s.unit ↔ EncChunk s :=
  ⟨fun ⟨hrow, hchk, hrc⟩ => ⟨encRow_unit.1 hrow, hchk, hrc⟩, fun ⟨hrow, hchk, hrc⟩ => ⟨encRow_unit.2 hrow, hchk, hrc⟩⟩

theorem encRun_unit {s : State} : EncRun s.unit ↔ EncRun s := by
  have hestate : s.unit.estate = s.estate := rfl
  unfold EncRun
  rw [hestate]
  cases s.estate with
  | idle | check | degenerate | finish | success | failure => exact Iff.rfl
  | header => exact encRange_unit
  | grow => exact and_congr encRange_unit Iff.rfl
  | rowInit => exact encRow_unit
  | classify => exact encChunk_unit
  | emitWhite | emitBlack | emitLiteral => exact and_congr encChunk_unit Iff.rfl
  | rowWhite | rowAppend => exact and_congr encRow_unit Iff.rfl

theorem EncRun.congr {s t : State} (hs : EncRun s) (h : t.unit = s.unit) : EncRun t :=
  encRun_unit.1 (h ▸ encRun_unit.2 hs)

theorem EncRun.of_registers {s t : State} (hs : EncRun s) (h : t.registers = s.registers) : EncRun t :=
  hs.congr (congrArg State.unit h :)

theorem EncRow.of_unit {s t : State} (hs : EncRow s) (h : t.unit = s.unit) : EncRow t :=
  encRow_unit.1 (h ▸ encRow_unit.2 hs)

/-! ### Operations that complete -/

theorem completes_bind {α β : Type} {x : Res α} {f : α → Res β} (hx : ∃ a, x = .ok a)
    (hf : ∀ a, x = .ok a → ∃ b, f a = .ok b) : ∃ b, (x >>= f) = .ok b := by
  obtain ⟨a, ha⟩ := hx
  obtain ⟨b, hb⟩ := hf a ha
  exact ⟨b, by rw [ha, ok_bind, hb]⟩

section
variable {s : State} {m : Store} {base b : Nat} (h : 8 * base + b + 1 ≤ 8 * s.caps.cap m)
include h

theorem bitSet_completes : ∃ t, bitSet s m base b = .ok t := (byteUpdate_completes_iff _).2 h

theorem bitClear_completes : ∃ t, bitClear s m base b = .ok t := (byteUpdate_completes_iff _).2 h

end

theorem storeFill_completes {s : State} {m : Store} {a n : Nat} (v : Byte) (h : n = 0 ∨ a + n ≤ s.caps.cap m) :
    ∃ t, storeFill s m a n v = .ok t := ⟨_, storeFill_of_le v h⟩

/-! ### The bits of a row (R186) -/

theorem worstRowBits_le (w : Nat) : worstRowBits w ≤ 8 * scratchBytes w := by
  simp only [scratchBytes, ceil8]
  omega

theorem chunkBitsBound_succ {w k : Nat} (h : k < chunks w) :
    chunkBitsBound w k + 2 + 8 * chunkLen w k ≤ chunkBitsBound w (k + 1) := by
  simp only [chunks] at h
  simp only [chunkBitsBound, chunkLen]
  omega

theorem chunkBitsBound_le {w k : Nat} (h : k ≤ chunks w) : chunkBitsBound w k ≤ worstRowBits w := by
  simp only [chunkBitsBound, worstRowBits]
  omega

theorem chunkLen_pos {w k : Nat} (h : k < chunks w) : 0 < chunkLen w k := by
  simp only [chunks] at h
  simp only [chunkLen]
  omega

/-- A chunk's code, whichever, is inside the scratch. -/
theorem EncChunk.room {s : State} (hs : EncChunk s) : s.rc + 2 + 8 * chunkLen s.w s.chk ≤ 8 * s.caps.scrCap := by
  have hscr := hs.row.range.scratch
  have hrc := hs.rc
  have hnext := chunkBitsBound_succ hs.chk
  have hbound := chunkBitsBound_le (w := s.w) (k := s.chk + 1) hs.chk
  have hworst := worstRowBits_le s.w
  omega

/-! ### The moves complete -/

section
variable {s : State}

theorem eCheck_completes : ∃ t, eCheck s = .ok t := by
  unfold eCheck
  dsimp only
  split_ifs <;> exact ⟨_, rfl⟩

theorem headerBytes_fit {w h : Word32} (hcap : Config.headerBytes ≤ s.caps.cmpCap) :
    ∃ t, storeBytes s .cmp 0 (headerOf w h) = .ok t :=
  ⟨_, storeBytes_of_le (show 0 + (headerOf w h).length ≤ s.caps.cap .cmp from hcap)⟩

theorem eDegenerate_completes (hcap : Config.headerBytes ≤ s.caps.cmpCap) : ∃ t, eDegenerate s = .ok t :=
  completes_bind (headerBytes_fit hcap) fun _ _ => ⟨_, rfl⟩

theorem eHeader_completes (hcap : Config.headerBytes ≤ s.caps.cmpCap) : ∃ t, eHeader s = .ok t :=
  completes_bind (headerBytes_fit hcap) fun _ _ => ⟨_, rfl⟩

theorem eGrow_completes (hcap : s.ext ≤ s.caps.cmpCap) : ∃ t, eGrow s = .ok t := by
  unfold eGrow
  split
  case isTrue => exact ⟨_, rfl⟩
  case isFalse hroom =>
    have hfit : s.ext + (need s - s.ext) ≤ s.caps.cap .cmp := by
      simp only [Config.Caps.cap]
      omega
    exact completes_bind (storeFill_completes 0 (.inr hfit)) fun _ _ => ⟨_, rfl⟩

theorem eRowInit_completes (hs : EncRow s) : ∃ t, eRowInit s = .ok t := by
  have hfit : 0 + scratchBytes s.w ≤ s.caps.cap .scr := by
    rw [Nat.zero_add]
    exact hs.range.scratch
  exact completes_bind (storeFill_completes 0 (.inr hfit)) fun _ _ => ⟨_, rfl⟩

theorem eClassify_completes (hs : EncChunk s) : ∃ t, eClassify s = .ok t := by
  have hfit : chunkAddr s + chunkLen s.w s.chk ≤ s.caps.cap .pix :=
    (chunkAddr_add_le hs.row.row hs.chk).trans hs.row.range.pixels
  exact completes_bind ⟨_, loadBytes_of_le hfit⟩ fun _ _ => ⟨_, rfl⟩

theorem eEmitWhite_completes (hs : EncChunk s) : ∃ t, eEmitWhite s = .ok t := by
  have hroom := hs.room
  refine completes_bind (bitClear_completes ?_) fun _ _ => ⟨_, rfl⟩
  simp only [Config.Caps.cap]
  omega

theorem eEmitBlack_completes (hs : EncChunk s) : ∃ t, eEmitBlack s = .ok t := by
  have hroom := hs.room
  have hlen := chunkLen_pos hs.chk
  refine completes_bind (bitSet_completes ?_) fun u hu => completes_bind (bitClear_completes ?_) fun _ _ => ⟨_, rfl⟩
  · simp only [Config.Caps.cap]
    omega
  · rw [caps_eq_of_registers (bitSet_eq_ok hu).1]
    simp only [Config.Caps.cap]
    omega

theorem eEmitLiteral_completes (hs : EncChunk s) (hn : s.n = chunkLen s.w s.chk) (hpx : s.px.length = s.n) :
    ∃ t, eEmitLiteral s = .ok t := by
  have hroom := hs.room
  refine completes_bind (bitSet_completes ?_) fun u hu =>
    completes_bind (bitSet_completes ?_) fun v hv =>
      completes_bind (chunkWrite_completes_iff.2 (.inr ?_)) fun _ _ => ⟨_, rfl⟩
  · simp only [Config.Caps.cap]
    omega
  · rw [caps_eq_of_registers (bitSet_eq_ok hu).1]
    simp only [Config.Caps.cap]
    omega
  · rw [caps_eq_of_registers (bitSet_eq_ok hv).1, caps_eq_of_registers (bitSet_eq_ok hu).1]
    simp only [Config.Caps.cap]
    omega

/-- What has been claimed of CMP covers the payload so far and the row. -/
theorem EncRow.claimed (hs : EncRow s) : 72 + (s.cur + 8 * scratchBytes s.w) ≤ 8 * s.caps.cmpCap := by
  have hgrown := hs.grown
  have hcap := hs.cap
  simp only [need, ceil8] at hgrown
  omega

theorem presenceBit_fits (hs : EncRow s) : 8 * payloadBase + s.row + 1 ≤ 8 * s.caps.cap .cmp := by
  have hclaimed := hs.claimed
  have hrow := hs.row
  have hcur := hs.cur
  simp only [payloadBase, Config.headerBytes, Config.Caps.cap]
  omega

theorem eRowWhite_completes (hs : EncRow s) : ∃ t, eRowWhite s = .ok t :=
  completes_bind (bitClear_completes (presenceBit_fits hs)) fun _ _ => ⟨_, rfl⟩

theorem ceil8_rc_le (hrc : s.rc ≤ worstRowBits s.w) : ceil8 s.rc ≤ scratchBytes s.w := by
  simp only [scratchBytes, ceil8]
  omega

theorem eRowAppend_completes (hs : EncRow s) (hrc : s.rc ≤ worstRowBits s.w) : ∃ t, eRowAppend s = .ok t := by
  have hrow := ceil8_rc_le hrc
  have hscr := hs.range.scratch
  have hclaimed := hs.claimed
  refine completes_bind (bitSet_completes (presenceBit_fits hs)) fun u hu => ?_
  have hcaps := caps_eq_of_registers (bitSet_eq_ok hu).1
  have hread : 0 + ceil8 s.rc ≤ u.caps.cap .scr := by
    rw [hcaps, Nat.zero_add]
    exact hrow.trans hscr
  refine completes_bind ⟨_, loadBytes_of_le hread⟩ fun src hsrc =>
    completes_bind (chunkWrite_completes_iff.2 (.inr ?_)) fun _ _ => ⟨_, rfl⟩
  rw [loadBytes_eq_ok hsrc, List.length_map, List.length_range, hcaps]
  simp only [payloadBase, Config.headerBytes, Config.Caps.cap]
  omega

/-- R44, R81, R186: no access of a transition of ENC is out of range. -/
theorem encStep_completes (hcap : Config.headerBytes ≤ s.caps.cmpCap) (hne : s.estate ≠ .idle) (hs : EncRun s) :
    ∃ t, encStep s = .ok t := by
  unfold EncRun at hs
  unfold encStep
  generalize s.estate = e at hne hs
  cases e with
  | idle => exact absurd rfl hne
  | check => exact eCheck_completes
  | degenerate => exact eDegenerate_completes hcap
  | header => exact eHeader_completes hcap
  | grow =>
    obtain ⟨-, -, -, hext⟩ := hs
    exact eGrow_completes hext
  | rowInit => exact eRowInit_completes hs
  | classify => exact eClassify_completes hs
  | emitWhite => exact eEmitWhite_completes hs.1
  | emitBlack => exact eEmitBlack_completes hs.1
  | emitLiteral =>
    obtain ⟨hchunk, hn, hpx⟩ := hs
    exact eEmitLiteral_completes hchunk hn hpx
  | rowWhite => exact eRowWhite_completes hs.1
  | rowAppend =>
    obtain ⟨hrow, hrc⟩ := hs
    exact eRowAppend_completes hrow hrc
  | finish | success | failure => exact ⟨_, rfl⟩

end

theorem encMove_completes {s : State} (hcap : Config.headerBytes ≤ s.caps.cmpCap) (hne : s.estate ≠ .idle) (hs : EncRun s) :
    ∃ t, encMove s = .ok t := by
  refine completes_bind (encStep_completes hcap hne hs) fun u _ => ?_
  split
  case isTrue h => exact ⟨complete u, by rw [encStep, h]⟩
  case isFalse => exact ⟨u, rfl⟩

/-! ### The moves keep the invariant -/

section
variable {s t : State}

theorem eCheck_goesOn (h : eCheck s = .ok t) (hb : t.status.busy = true) : EncRun t := by
  unfold eCheck at h
  dsimp only at h
  split_ifs at h with _ _ hzero hroom
  all_goals obtain rfl := Except.ok.inj h
  all_goals try cases hb
  · exact trivial
  · obtain ⟨hpix, hscr⟩ := not_or.1 hroom
    obtain ⟨hw, hh⟩ := not_or.1 hzero
    exact ⟨Nat.pos_of_ne_zero fun h0 => hw (BitVec.eq_of_toNat_eq h0), Nat.pos_of_ne_zero fun h0 => hh (BitVec.eq_of_toNat_eq h0),
      Nat.not_lt.1 hpix, Nat.not_lt.1 hscr⟩

/-- A header that was written is inside CMP. -/
theorem headerBytes_le {w h : Word32} {m : Store} {a : Nat} (hw : storeBytes s m a (headerOf w h) = .ok t) :
    a + Config.headerBytes ≤ s.caps.cap m := by
  rcases (storeBytes_eq_ok hw).2 with hnil | hle
  · cases hnil
  · exact hle

theorem eHeader_run (hs : EncRange s) (h : eHeader s = .ok t) : EncRun t := by
  obtain ⟨u, hu, -⟩ := bind_eq_ok.1 h
  have hcap := headerBytes_le hu
  rw [Nat.zero_add] at hcap
  refine EncRun.of_registers (s := { s with ext := 9, cur := s.h, row := 0, estate := .grow }) ?_ (eHeader_eq_ok h).1
  obtain ⟨hw, hh, hpix, hscr⟩ := hs
  exact ⟨⟨hw, hh, hpix, hscr⟩, hh, le_refl s.h, hcap⟩

theorem eGrow_goesOn (hs : EncRange s) (hrow : s.row < s.h) (hcur : s.h ≤ s.cur) (hext : s.ext ≤ s.caps.cmpCap)
    (h : eGrow s = .ok t) (hb : t.status.busy = true) : EncRun t := by
  unfold eGrow at h
  split at h
  case isTrue =>
    obtain rfl := Except.ok.inj h
    cases hb
  case isFalse hroom =>
    obtain ⟨u, hu, h⟩ := bind_eq_ok.1 h
    obtain rfl := Except.ok.inj h
    refine EncRun.of_registers (s := { s with ext := max s.ext (need s), estate := .rowInit }) ?_
      (congrArg (fun r : State => { r with ext := max s.ext (need s), estate := .rowInit }) (storeBytes_frame hu).1)
    obtain ⟨hw, hh, hpix, hscr⟩ := hs
    exact ⟨⟨hw, hh, hpix, hscr⟩, hrow, hcur, le_max_right _ _, max_le hext (Nat.not_lt.1 hroom)⟩

/-- The same row with other registers of the row in progress. -/
theorem EncRow.inRow (hs : EncRow s) {chk n rc : Nat} {b : Bool} {px : List Byte} {e : EState} :
    EncRow { s with chk := chk, n := n, rc := rc, rowWhite := b, px := px, estate := e } := by
  obtain ⟨⟨hw, hh, hpix, hscr⟩, hrow, hcur, hgrown, hcap⟩ := hs
  exact ⟨⟨hw, hh, hpix, hscr⟩, hrow, hcur, hgrown, hcap⟩

theorem eRowInit_run (hs : EncRow s) (h : eRowInit s = .ok t) : EncRun t := by
  have hpos : 0 < chunks s.w := by
    have hw := hs.range.width
    simp only [chunks]
    omega
  exact EncRun.of_registers (s := { s with rc := 0, rowWhite := true, chk := 0, estate := .classify })
    ⟨hs.inRow, hpos, Nat.zero_le _⟩ (eRowInit_eq_ok h).1

theorem eClassify_run (hs : EncChunk s) (h : eClassify s = .ok t) : EncRun t := by
  obtain ⟨px, hpx, h⟩ := bind_eq_ok.1 h
  obtain rfl := Except.ok.inj h
  have hlen : px.length = chunkLen s.w s.chk := by rw [loadBytes_eq_ok hpx, List.length_map, List.length_range]
  obtain ⟨hrow, hchk, hrc⟩ := hs
  unfold EncRun
  dsimp only
  split_ifs
  · exact ⟨⟨hrow.inRow, hchk, hrc⟩, rfl⟩
  · exact ⟨⟨hrow.inRow, hchk, hrc⟩, rfl⟩
  · exact ⟨⟨hrow.inRow, hchk, hrc⟩, rfl, hlen⟩

/-- The chunk advance after a code that fits the chunk (R186, R190). -/
theorem encRun_chunkAdvance (hs : EncChunk s) {r : Nat} {b : Bool} (hr : r ≤ s.rc + 2 + 8 * chunkLen s.w s.chk)
    (h : t.registers = (chunkAdvance { s with rc := r, rowWhite := b }).registers) : EncRun t := by
  refine EncRun.of_registers ?_ h
  obtain ⟨hrow, hchk, hrc⟩ := hs
  have hnext := chunkBitsBound_succ hchk
  have hbound : r ≤ chunkBitsBound s.w (s.chk + 1) := by omega
  have hworst : r ≤ worstRowBits s.w := hbound.trans (chunkBitsBound_le hchk)
  simp only [chunkAdvance]
  by_cases hlast : s.chk + 1 < chunks s.w
  · rw [if_pos hlast]
    exact ⟨hrow.inRow, hlast, hbound⟩
  · rw [if_neg hlast]
    cases b with
    | false => exact ⟨hrow.inRow, hworst⟩
    | true => exact ⟨hrow.inRow, hworst⟩

/-- The row advance (R189). -/
theorem encRun_rowAdvance (hs : EncRow s) {c : Nat} (hc : s.cur ≤ c)
    (h : t.registers = (encRowAdvance { s with cur := c }).registers) : EncRun t := by
  refine EncRun.of_registers ?_ h
  obtain ⟨⟨hw, hh, hpix, hscr⟩, -, hcur, -, hcap⟩ := hs
  simp only [encRowAdvance]
  by_cases hlast : s.row + 1 < s.h
  · rw [if_pos hlast]
    exact ⟨⟨hw, hh, hpix, hscr⟩, hlast, hcur.trans hc, hcap⟩
  · rw [if_neg hlast]
    exact trivial

/-- A transition of ENC after which the command goes on keeps the invariant. -/
theorem encStep_goesOn (hs : EncRun s) (h : encStep s = .ok t) (hb : t.status.busy = true) : EncRun t := by
  unfold EncRun at hs
  unfold encStep at h
  generalize s.estate = e at hs h
  cases e with
  | idle => cases h
  | check => exact eCheck_goesOn h hb
  | degenerate =>
    obtain ⟨u, -, rfl⟩ := eDegenerate_eq_ok h
    exact trivial
  | header => exact eHeader_run hs h
  | grow =>
    obtain ⟨hrange, hrow, hcur, hext⟩ := hs
    exact eGrow_goesOn hrange hrow hcur hext h hb
  | rowInit => exact eRowInit_run hs h
  | classify => exact eClassify_run hs h
  | emitWhite => exact encRun_chunkAdvance hs.1 (by omega) (eEmitWhite_eq_ok h).1
  | emitBlack => exact encRun_chunkAdvance hs.1 (by omega) (eEmitBlack_eq_ok h).1
  | emitLiteral =>
    obtain ⟨hchunk, hn, -⟩ := hs
    exact encRun_chunkAdvance hchunk (by rw [hn]) (eEmitLiteral_eq_ok h).1
  | rowWhite => exact encRun_rowAdvance hs.1 (le_refl s.cur) (eRowWhite_eq_ok h).1
  | rowAppend => exact encRun_rowAdvance hs.1 (Nat.le_add_right s.cur s.rc) (eRowAppend_eq_ok h).1
  | finish =>
    obtain rfl := Except.ok.inj h
    exact trivial
  | success | failure =>
    obtain rfl := Except.ok.inj h
    exact trivial

/-- ENC is idle only when the command has ended. -/
theorem encStep_estate_ne_idle (h : encStep s = .ok t) (hb : t.status.busy = true) : t.estate ≠ .idle := by
  intro hidle
  have hmem := encStep_estate h
  rw [hidle] at hmem
  unfold encStep at h
  generalize s.estate = e at h hmem
  cases e
  case check =>
    simp only [eCheck] at h
    split_ifs at h
    all_goals obtain rfl := Except.ok.inj h
    all_goals first | cases hb | cases hidle
  case grow =>
    rcases eGrow_cases h with hfail | ⟨hreg, -⟩
    · simp [hfail] at hb
    · have hrowInit : t.estate = .rowInit := estate_of_registers hreg
      exact absurd (hidle.symm.trans hrowInit) (by decide)
  case success | failure =>
    obtain rfl := Except.ok.inj h
    cases hb
  all_goals simp [encSuccessors] at hmem

theorem encMove_goesOn (hs : EncRun s) (h : encMove s = .ok t) (hb : t.status.busy = true) :
    EncRun t ∧ t.estate ≠ .idle := by
  rcases encMove_cases h with ⟨h, -⟩ | ⟨u, -, -, rfl⟩
  · exact ⟨encStep_goesOn hs h hb, encStep_estate_ne_idle h hb⟩
  · cases hb

end

end Sys2Proof.Machine
end

