-- ==== Sys2Proof/Proofs/DecoderRanges.lean ====
section
/-! PROOFS. The ranges of the decoder (R201, R203 to R213, R221): from every state that meets its invariant a move of DEC completes, and
while the command goes on it keeps the invariant. -/

namespace Sys2Proof.Machine

open Config (Store)

/-! ### What the invariant speaks of -/

theorem decRange_unit {s : State} : DecRange s.unit ↔ DecRange s :=
  ⟨fun ⟨hlen, hbitmap, hpix, hrow⟩ => ⟨hlen, hbitmap, hpix, hrow⟩, fun ⟨hlen, hbitmap, hpix, hrow⟩ => ⟨hlen, hbitmap, hpix, hrow⟩⟩

theorem decChunk_unit {s : State} : DecChunk s.unit ↔ DecChunk s :=
  ⟨fun ⟨hrange, hchk, hn⟩ => ⟨decRange_unit.1 hrange, hchk, hn⟩, fun ⟨hrange, hchk, hn⟩ => ⟨decRange_unit.2 hrange, hchk, hn⟩⟩

theorem decRun_unit {s : State} : DecRun s.unit ↔ DecRun s := by
  have hdstate : s.unit.dstate = s.dstate := rfl
  unfold DecRun
  rw [hdstate]
  cases s.dstate with
  | idle | validate | success | failure => exact Iff.rfl
  | readPresence | allWhiteDone | rowDone => exact decRange_unit
  | readChunk => exact and_congr decRange_unit Iff.rfl
  | readPrefix1 | white | black => exact decChunk_unit
  | readPrefix2 | literal | readBytes => exact and_congr decChunk_unit Iff.rfl

theorem DecRun.congr {s t : State} (hs : DecRun s) (h : t.unit = s.unit) : DecRun t :=
  decRun_unit.1 (h ▸ decRun_unit.2 hs)

theorem DecRun.of_registers {s t : State} (hs : DecRun s) (h : t.registers = s.registers) : DecRun t :=
  hs.congr (congrArg State.unit h :)

/-! ### The moves complete -/

section
variable {s : State}

theorem fetchRun_fetchHeader_completes (s : State) : ∃ t, fetchRun fetchHeader s = .ok t := by
  rw [fetchRun_fetchHeader_eq]
  split_ifs <;> exact ⟨_, rfl⟩

/-- The presence bits are below `L` (R163). -/
theorem presence_completes (hs : DecRange s) : ∃ x, bitRead s .cmp payloadBase s.row = .ok x := by
  refine ⟨_, bitRead_of_contained hs.len ?_⟩
  have hbitmap := hs.bitmap
  have hrow := hs.row
  simp only [contained, Config.headerBytes]
  simp only [ceil8] at hbitmap
  omega

theorem presence0Code_completes (hs : DecRange s) : ∃ t, presence0Code s = .ok t :=
  ⟨_, presence0Code_of_le (.inr ((row_mul_add_le hs.row).trans hs.pixels))⟩

theorem fetchRun_fetchPresence_completes (hs : DecRange s) : ∃ t, fetchRun fetchPresence s = .ok t := by
  obtain ⟨x, hx⟩ := presence_completes hs
  obtain ⟨t, ht⟩ := presence0Code_completes hs
  rw [fetchRun_eq, fetchPresence, hx]
  cases x with
  | true => exact ⟨_, rfl⟩
  | false => exact ⟨t, ht⟩

/-- The pixels of a chunk are inside PIX. -/
theorem DecChunk.fits (hs : DecChunk s) {px : List Byte} (hlen : px.length = s.n) :
    chunkAddr s + px.length ≤ s.caps.cap .pix := by
  rw [hlen, hs.len]
  exact (chunkAddr_add_le hs.range.row hs.chk).trans hs.range.pixels

theorem pixels_complete (hs : DecChunk s) {px : List Byte} (hlen : px.length = s.n) (bits : Nat) :
    ∃ t, (storeBytes s .pix (chunkAddr s) px >>= fun u => .ok (chunkDone bits u)) = .ok t :=
  completes_bind ⟨_, storeBytes_of_le (hs.fits hlen)⟩ fun _ _ => ⟨_, rfl⟩

theorem DecChunk.wf (hs : DecChunk s) : (Position.chunk s.n).wf = true := by
  rw [hs.len]
  exact chunkLen_wf hs.chk

/-- The bytes of a literal are below `L` when its last bit is. -/
theorem literalBytes_complete (hs : DecChunk s) (h : contained s.l (s.cur + 2 + 8 * s.n - 1)) :
    ∃ out, chunkRead s .cmp payloadBase (s.cur + 2) s.n = .ok out := by
  have hlen := hs.range.len
  simp only [contained, Config.headerBytes] at h
  refine chunkRead_completes_iff.2 (.inr ?_)
  simp only [payloadBase, Config.headerBytes, Config.Caps.cap]
  omega

theorem fetchLiteral_completes (hs : DecChunk s) : ∃ x, fetchLiteral s = .ok x := by
  unfold fetchLiteral
  split
  case isTrue => exact ⟨_, rfl⟩
  case isFalse h =>
    refine completes_bind (literalBytes_complete hs (not_not.1 h)) fun out hout => ?_
    obtain ⟨i, hi, -⟩ := give_literal (chunkRead_eq_ok hout).1 hs.wf
    exact ⟨_, hi⟩

theorem fetchSecond_completes (hs : DecChunk s) : ∃ x, fetchSecond s = .ok x := by
  unfold fetchSecond
  split
  case isTrue => exact ⟨_, rfl⟩
  case isFalse h =>
    refine completes_bind ⟨_, bitRead_of_contained hs.range.len (not_not.1 h)⟩ fun x _ => ?_
    cases x with
    | true => exact fetchLiteral_completes hs
    | false => exact ⟨_, fetchChunk_give (i := .b) (rest := []) (decode_chunk_eq_ok_iff.2 ⟨hs.wf, rfl⟩)⟩

theorem fetchChunk_completes (hs : DecChunk s) : ∃ x, fetchChunk s = .ok x := by
  rw [fetchChunk_eq_fetchSecond]
  split
  case isTrue => exact ⟨_, rfl⟩
  case isFalse h =>
    refine completes_bind ⟨_, bitRead_of_contained hs.range.len (not_not.1 h)⟩ fun x _ => ?_
    cases x with
    | true => exact fetchSecond_completes hs
    | false => exact ⟨_, fetchChunk_give (i := .w) (rest := []) (decode_chunk_eq_ok_iff.2 ⟨hs.wf, rfl⟩)⟩

theorem fetchRun_fetchChunk_completes (hs : DecChunk s) : ∃ t, fetchRun fetchChunk s = .ok t := by
  refine completes_bind (fetchChunk_completes hs) fun x hx => ?_
  rcases fetchChunk_cases hx with ⟨i, rfl⟩ | ⟨k, rfl⟩
  · have hi := (fetchChunk_code hx).2
    show ∃ t, runCode i s = .ok t
    rw [runCode_of_fits hi]
    exact pixels_complete hs (length_codePixels hi) _
  · exact ⟨_, rfl⟩

/-- R44, R221: no access of a transition of DEC is out of range. -/
theorem decTransition_completes (hne : s.dstate ≠ .idle) (hs : DecRun s) : ∃ t, decTransition s = .ok t := by
  unfold DecRun at hs
  unfold decTransition
  generalize s.dstate = d at hne hs
  cases d with
  | idle => exact absurd rfl hne
  | validate => exact fetchRun_fetchHeader_completes s
  | readPresence => exact completes_bind (presence_completes hs) fun _ _ => ⟨_, rfl⟩
  | allWhiteDone => exact presence0Code_completes hs
  | readChunk =>
    show ∃ t, dReadChunk s = .ok t
    unfold dReadChunk
    split <;> exact ⟨_, rfl⟩
  | readPrefix1 =>
    dsimp only
    split
    case isTrue => exact ⟨_, rfl⟩
    case isFalse h =>
      exact completes_bind ⟨_, bitRead_of_contained hs.range.len (not_not.1 h)⟩ fun _ _ => ⟨_, rfl⟩
  | white | black => exact pixels_complete hs List.length_replicate _
  | readPrefix2 =>
    dsimp only
    split
    case isTrue => exact ⟨_, rfl⟩
    case isFalse h =>
      exact completes_bind ⟨_, bitRead_of_contained hs.1.range.len (not_not.1 h)⟩ fun _ _ => ⟨_, rfl⟩
  | literal =>
    dsimp only
    split <;> exact ⟨_, rfl⟩
  | readBytes =>
    obtain ⟨hchunk, hin⟩ := hs
    exact completes_bind (literalBytes_complete hchunk hin) fun out hout =>
      pixels_complete hchunk (chunkRead_eq_ok hout).1 _
  | rowDone | success | failure => exact ⟨_, rfl⟩

theorem decMove_completes (hne : s.dstate ≠ .idle) (hs : DecRun s) : ∃ t, decMove s = .ok t := by
  unfold decMove
  split
  next => exact fetchRun_fetchHeader_completes s
  next h =>
    refine fetchRun_fetchPresence_completes ?_
    simpa only [DecRun, h] using hs
  next h =>
    refine fetchRun_fetchChunk_completes ?_
    simpa only [DecRun, h] using hs
  next => exact decTransition_completes hne hs

end

/-! ### The moves keep the invariant -/

/-- DEC is inside a command and its invariant holds. -/
def DecGoes (t : State) : Prop := DecRun t ∧ t.dstate ≠ .idle

section
variable {s t : State}

theorem DecGoes.of_registers (hs : DecGoes s) (h : t.registers = s.registers) : DecGoes t :=
  ⟨hs.1.of_registers h, (dstate_of_registers h).trans_ne hs.2⟩

theorem fetchRun_fetchHeader_goesOn (h : fetchRun fetchHeader s = .ok t) (hb : t.status.busy = true) : DecGoes t := by
  rw [fetchRun_fetchHeader_eq] at h
  split_ifs at h with _ hcap _ _ _ hbitmap hpix
  all_goals obtain rfl := Except.ok.inj h
  all_goals try cases hb
  by_cases hzero : headerHeight s = 0
  · have hd : (validated s).dstate = .success := if_pos hzero
    exact ⟨by simp only [DecRun, hd], by rw [hd]; decide⟩
  · have hd : (validated s).dstate = .readPresence := if_neg hzero
    refine ⟨?_, by rw [hd]; decide⟩
    simp only [DecRun, hd]
    exact ⟨Nat.not_lt.1 hcap, Nat.not_lt.1 hbitmap, Nat.not_lt.1 hpix,
      Nat.pos_of_ne_zero fun h0 => hzero (BitVec.eq_of_toNat_eq h0)⟩

/-- The same row with other registers of the row in progress. -/
theorem DecRange.inRow (hs : DecRange s) {chk n cur : Nat} {d : DState} :
    DecRange { s with chk := chk, n := n, cur := cur, dstate := d } := by
  obtain ⟨hlen, hbitmap, hpix, hrow⟩ := hs
  exact ⟨hlen, hbitmap, hpix, hrow⟩

/-- The row advance (R213). -/
theorem decGoes_rowAdvance (hs : DecRange s) (h : t.registers = (decRowAdvance s).registers) : DecGoes t := by
  refine DecGoes.of_registers ?_ h
  obtain ⟨hlen, hbitmap, hpix, -⟩ := hs
  simp only [decRowAdvance]
  by_cases hlast : s.row + 1 < s.h
  · rw [if_pos hlast]
    exact ⟨⟨hlen, hbitmap, hpix, hlast⟩, fun h => nomatch h⟩
  · rw [if_neg hlast]
    exact ⟨trivial, fun h => nomatch h⟩

theorem presence0Code_goesOn (hs : DecRange s) (h : presence0Code s = .ok t) : DecGoes t := by
  obtain ⟨u, hu, h⟩ := bind_eq_ok.1 h
  obtain rfl := Except.ok.inj h
  exact decGoes_rowAdvance hs (congrArg decRowAdvance (storeBytes_frame hu).1 :)

theorem presence1_goesOn (hs : DecRange s) : DecGoes { s with chk := 0, dstate := .readChunk } :=
  ⟨⟨hs.inRow, Nat.zero_le _⟩, fun h => nomatch h⟩

theorem fetchRun_fetchPresence_goesOn (hs : DecRange s) (h : fetchRun fetchPresence s = .ok t) : DecGoes t := by
  obtain ⟨x, hx, h⟩ := bind_eq_ok.1 h
  obtain ⟨p, -, hx⟩ := bind_eq_ok.1 hx
  obtain rfl := Except.ok.inj hx
  cases p with
  | true =>
    obtain rfl := Except.ok.inj h
    exact presence1_goesOn hs
  | false => exact presence0Code_goesOn hs h

/-- A chunk code (R208, R210, R212). -/
theorem pixelsDone_goesOn (hs : DecChunk s) {px : List Byte} {bits : Nat}
    (h : (storeBytes s .pix (chunkAddr s) px >>= fun u => .ok (chunkDone bits u)) = .ok t) : DecGoes t := by
  obtain ⟨u, hu, h⟩ := bind_eq_ok.1 h
  obtain rfl := Except.ok.inj h
  refine DecGoes.of_registers (s := chunkDone bits s) ?_ (congrArg (chunkDone bits) (storeBytes_frame hu).1 :)
  exact ⟨⟨hs.range.inRow, hs.chk⟩, fun h => nomatch h⟩

theorem fetchRun_fetchChunk_goesOn (hs : DecChunk s) (h : fetchRun fetchChunk s = .ok t) (hb : t.status.busy = true) :
    DecGoes t := by
  obtain ⟨x, hx, h⟩ := bind_eq_ok.1 h
  rcases fetchChunk_cases hx with ⟨i, rfl⟩ | ⟨k, rfl⟩
  · have hrun : runCode i s = .ok t := h
    rw [runCode_of_fits (fetchChunk_code hx).2] at hrun
    exact pixelsDone_goesOn hs hrun
  · obtain rfl := Except.ok.inj h
    cases hb

/-- DEC at the same chunk, in another of its states. -/
theorem DecChunk.atDState (hs : DecChunk s) {d : DState} : DecChunk { s with dstate := d } := by
  obtain ⟨⟨hlen, hbitmap, hpix, hrow⟩, hchk, hn⟩ := hs
  exact ⟨⟨hlen, hbitmap, hpix, hrow⟩, hchk, hn⟩

theorem dReadChunk_goesOn (hs : DecRange s) (hchk : s.chk ≤ chunks s.w) (h : dReadChunk s = .ok t) : DecGoes t := by
  rcases Nat.lt_or_eq_of_le hchk with hlt | heq
  · rw [dReadChunk_of_lt hlt] at h
    obtain rfl := Except.ok.inj h
    exact ⟨⟨hs.inRow, hlt, rfl⟩, fun h => nomatch h⟩
  · rw [dReadChunk_of_eq heq] at h
    obtain rfl := Except.ok.inj h
    exact ⟨hs.inRow, fun h => nomatch h⟩

/-- A transition of DEC after which the command goes on keeps the invariant. -/
theorem decTransition_goesOn (hs : DecRun s) (h : decTransition s = .ok t) (hb : t.status.busy = true) : DecGoes t := by
  unfold DecRun at hs
  unfold decTransition at h
  generalize s.dstate = d at hs h
  cases d with
  | idle => cases h
  | validate => exact fetchRun_fetchHeader_goesOn h hb
  | readPresence =>
    obtain ⟨x, -, h⟩ := bind_eq_ok.1 h
    obtain rfl := Except.ok.inj h
    cases x with
    | true => exact presence1_goesOn hs
    | false => exact ⟨hs.inRow, fun h => nomatch h⟩
  | allWhiteDone => exact presence0Code_goesOn hs h
  | readChunk => exact dReadChunk_goesOn hs.1 hs.2 h
  | readPrefix1 =>
    dsimp only at h
    split at h
    case isTrue =>
      obtain rfl := Except.ok.inj h
      cases hb
    case isFalse hin =>
      obtain ⟨x, -, h⟩ := bind_eq_ok.1 h
      obtain rfl := Except.ok.inj h
      cases x with
      | true => exact ⟨⟨hs.atDState, not_not.1 hin⟩, fun h => nomatch h⟩
      | false => exact ⟨hs.atDState, fun h => nomatch h⟩
  | white | black => exact pixelsDone_goesOn hs h
  | readPrefix2 =>
    obtain ⟨hchunk, hcur⟩ := hs
    dsimp only at h
    split at h
    case isTrue =>
      obtain rfl := Except.ok.inj h
      cases hb
    case isFalse =>
      obtain ⟨x, -, h⟩ := bind_eq_ok.1 h
      obtain rfl := Except.ok.inj h
      cases x with
      | true => exact ⟨⟨hchunk.atDState, hcur⟩, fun h => nomatch h⟩
      | false => exact ⟨hchunk.atDState, fun h => nomatch h⟩
  | literal =>
    dsimp only at h
    split at h
    case isTrue =>
      obtain rfl := Except.ok.inj h
      cases hb
    case isFalse hin =>
      obtain rfl := Except.ok.inj h
      exact ⟨⟨hs.1.atDState, not_not.1 hin⟩, fun h => nomatch h⟩
  | readBytes =>
    obtain ⟨out, -, h⟩ := bind_eq_ok.1 h
    exact pixelsDone_goesOn hs.1 h
  | rowDone =>
    obtain rfl := Except.ok.inj h
    exact decGoes_rowAdvance hs rfl
  | success | failure =>
    obtain rfl := Except.ok.inj h
    cases hb

theorem decMove_goesOn (hs : DecRun s) (h : decMove s = .ok t) (hb : t.status.busy = true) : DecGoes t := by
  unfold decMove at h
  split at h
  next => exact fetchRun_fetchHeader_goesOn h hb
  next hd =>
    refine fetchRun_fetchPresence_goesOn ?_ h
    simpa only [DecRun, hd] using hs
  next hd =>
    refine fetchRun_fetchChunk_goesOn ?_ h hb
    simpa only [DecRun, hd] using hs
  next => exact decTransition_goesOn hs h hb

end

end Sys2Proof.Machine
end

