-- ==== Sys2Proof/Proofs/RunInvariant.lean ====
section
/-! PROOFS. The invariant of a running command: it holds at reset, every step keeps it, and under it a running codec never stops. -/

namespace Sys2Proof.Machine

theorem encRun_of_idle {s : State} (h : s.estate = .idle) : EncRun s := by
  simp only [EncRun, h]

theorem decRun_of_idle {s : State} (h : s.dstate = .idle) : DecRun s := by
  simp only [DecRun, h]

/-- With no command running the invariant says nothing. -/
theorem runInv_of_idle {s : State} (h : s.status.busy = false) : RunInv s := by
  have hno : ¬ s.status.busy = true := by simp [h]
  exact ⟨fun hb => absurd hb hno, fun hb => absurd hb hno, fun hb => absurd hb hno⟩

theorem RunInv.congr {s t : State} (hs : RunInv s) (h : t.unit = s.unit) : RunInv t := by
  have hstatus : t.status = s.status := (congrArg State.status h :)
  have hcmd : t.cmd = s.cmd := (congrArg State.cmd h :)
  have hd : t.dstate = s.dstate := (congrArg State.dstate h :)
  have he : t.estate = s.estate := (congrArg State.estate h :)
  refine ⟨fun hb => (hs.dec (hstatus ▸ hb)).congr h, fun hb => (hs.enc (hstatus ▸ hb)).congr h, fun hb hdi hei => ?_⟩
  rw [hcmd]
  exact hs.accessor (hstatus ▸ hb) (hd ▸ hdi) (he ▸ hei)

/-- Settles O58: right after reset no command runs. -/
theorem resetMeetsTheInvariants : Obligations.ResetMeetsTheInvariants :=
  ⟨stateInv_afterReset (by decide) [] 0 0, runInv_of_idle rfl⟩

theorem unitMove_runInv {s t : State} (hi : StateInv s) (hs : RunInv s) (hb : s.status.busy = true)
    (h : unitMove s = .ok t) : RunInv t := by
  cases ht : t.status.busy with
  | false => exact runInv_of_idle ht
  | true =>
    rcases unitMove_cases s with ⟨hd, hm⟩ | ⟨hd, -, hm⟩ | ⟨-, -, hm⟩
    all_goals rw [hm] at h
    · obtain ⟨hrun, hne⟩ := decMove_goesOn (hs.dec hb) h ht
      have he := (decMove_moved h).estate (hi.unit.resolve_left hd)
      exact ⟨fun _ => hrun, fun _ => encRun_of_idle he, fun _ hdi => absurd hdi hne⟩
    · obtain ⟨hrun, hne⟩ := encMove_goesOn (hs.enc hb) h ht
      have htd := (encMove_moved h).dstate hd
      exact ⟨fun _ => decRun_of_idle htd, fun _ => hrun, fun _ _ hei => absurd hei hne⟩
    · exact absurd ht (by rw [accessorStep_idle h]; decide)

theorem beginCommand_runInv {i : Instr} (hi : i.fits .command = true) (s : State) :
    RunInv (beginCommand (commandCode i) s) := by
  cases i
  case rdbit | rdchunk | setbit | clrbit | wrchunk =>
    exact ⟨fun _ => trivial, fun _ => trivial, fun _ _ _ =>
      ⟨Nat.le_of_ble_eq_true rfl, Nat.le_of_ble_eq_true rfl⟩⟩
  case compress => exact ⟨fun _ => trivial, fun _ => trivial, fun _ _ he => nomatch he⟩
  case decompress => exact ⟨fun _ => trivial, fun _ => trivial, fun _ hd => nomatch hd⟩
  all_goals simp [Instr.fits] at hi

theorem exec_command_runInv {i : Instr} {s t : State} (hi : i.fits .command = true) (hb : s.status.busy = false)
    (h : exec i s = .next t) : RunInv t :=
  runInv_of_idle (exec_command_ends hi hb h).busy

theorem blockMove_runInv {s t : State} (hi : StateInv s) (hs : RunInv s) (h : blockMove s = .next t) : RunInv t := by
  rcases blockMove_cases h with ⟨hb, hmove⟩ | ⟨-, rfl⟩
  · exact unitMove_runInv hi hs hb hmove
  · exact hs

theorem setArg_status (s : State) (n v : Nat) : (setArg s n v).status = s.status := by
  unfold setArg
  split <;> rfl

theorem hostWriteReg_runInv {s t : State} {n v : Nat} (hs : RunInv s) (h : hostWriteReg n v s = .ok t) : RunInv t := by
  unfold hostWriteReg at h
  split_ifs at h with _ _ _ hb _ hb
  case neg =>
    split at h
    next i hi =>
      obtain ⟨hfit, hcode⟩ := decodeCommand_eq_ok_iff.1 hi
      obtain rfl := Except.ok.inj h
      rw [← hcode]
      exact beginCommand_runInv hfit s
    next =>
      obtain rfl := Except.ok.inj h
      exact runInv_of_idle rfl
  all_goals obtain rfl := Except.ok.inj h
  · exact hs
  · exact runInv_of_idle (by rw [setArg_status]; simpa using hb)
  · exact hs
  · exact runInv_of_idle (by rw [setByte_status]; simpa using hb)

/-- Settles O59: a move by the ranges of its unit; a command line ends; of the host's actions only a write of `CMD` starts a command,
and the others happen while none runs or touch no register the invariant speaks of. -/
theorem stepKeepsTheRunInvariant : Obligations.StepKeepsTheRunInvariant := by
  intro s t hi hs h
  have hrest (rest : List HostOp) : StateInv { s with host := rest } := hi.congr rfl
  have hrun (rest : List HostOp) : RunInv { s with host := rest } := hs.congr rfl
  unfold step at h
  split at h
  next => exact blockMove_runInv hi hs h
  next rest _ => exact blockMove_runInv (hrest rest) (hrun rest) h
  next c rest _ =>
    split at h
    case isTrue hb =>
      rw [blockStep_eq, toOutcome_eq_next] at h
      exact unitMove_runInv hi hs hb h
    case isFalse hb =>
      rcases issueCommand_cases h with ⟨i, hfit, -, hexec⟩ | rfl
      · exact exec_command_runInv hfit (by simpa using hb) hexec
      · exact runInv_of_idle rfl
  next n v rest _ => exact hostWriteReg_runInv (hrun rest) (toOutcome_eq_next.1 h)
  next n rest _ =>
    obtain ⟨x, rfl⟩ := hostReadReg_cases (toOutcome_eq_next.1 h)
    exact hs.congr rfl
  next m a bytes rest _ =>
    obtain ⟨hb, hbytes⟩ := hostWriteMem_cases (toOutcome_eq_next.1 h)
    have hstatus : t.status = s.status := (congrArg State.status (storeBytes_frame hbytes).1 :)
    refine runInv_of_idle ?_
    rw [hstatus]
    exact hb
  next m a rest _ =>
    obtain ⟨x, rfl⟩ := hostReadMem_cases (toOutcome_eq_next.1 h)
    exact hs.congr rfl
  next rest _ =>
    obtain rfl := Host.Outcome.next.inj h
    exact runInv_of_idle rfl

/-- Settles O60: the move of the unit that runs completes. -/
theorem runningCodecNeverStops : Obligations.RunningCodecNeverStops := by
  intro s hi hs hb hunit hd
  have hstep : step s = toOutcome (unitMove s) := by rw [step_of_blockStep hb hd, blockStep_eq]
  rw [hstep]
  rcases unitMove_cases s with ⟨hd, hm⟩ | ⟨-, he, hm⟩ | ⟨hd, he, -⟩
  · obtain ⟨t, ht⟩ := decMove_completes hd (hs.dec hb)
    exact ⟨t, by rw [hm, ht, toOutcome_ok]⟩
  · obtain ⟨t, ht⟩ := encMove_completes hi.caps.1 he (hs.enc hb)
    exact ⟨t, by rw [hm, ht, toOutcome_ok]⟩
  · exact absurd hunit (by simp [hd, he])

end Sys2Proof.Machine
end

