-- ==== Sys2Proof/Proofs/EncoderEffects.lean ====
section
/-! PROOFS. What a move of ENC does to the registers that the ranges of a `COMPRESS` depend on (`W`, `H`, `ROW`, `EXT`, `CUR`), and which
bytes it leaves alone (R80, R81). -/

namespace Sys2Proof.Machine

open Config (Store)

/-- The states of ENC between `E_GROW` and the row advance (R183). -/
def inRowStates : List EState := [.rowInit, .classify, .emitWhite, .emitBlack, .emitLiteral, .rowWhite, .rowAppend]

/-- ENC is inside a row. -/
abbrev EState.inRow (e : EState) : Prop := e ∈ inRowStates

/-- One move of ENC, from a state that meets its invariant. -/
inductive EncEffect (s t : State) : Prop
  /-- An entry check fails (R171). -/
  | refused (hs : s.estate = .check) (hcause : compressCause s ≠ none) (hfail : t.status.fail = true) (ht : t.estate = .idle)
      (hbytes : ∀ m a, t.byteAt m a = s.byteAt m a)
  /-- A dimension is zero (R171). -/
  | entersZero (hs : s.estate = .check) (hzero : s.argWidth = 0 ∨ s.argHeight = 0) (h : t = { s with estate := .degenerate })
  /-- The image has pixels and its buffers (R171). -/
  | enters (hs : s.estate = .check)
      (h : t = { s with w := s.argWidth.toNat, h := s.argHeight.toNat, estate := .header })
  /-- The header of a zero dimension (R172). -/
  | zero (hs : s.estate = .degenerate) (hext : t.ext = 9) (ht : t.estate = .idle)
      (hbytes : ∀ m a, m ≠ .cmp ∨ 9 ≤ a → t.byteAt m a = s.byteAt m a)
  /-- The header (R173). -/
  | header (hs : s.estate = .header) (hcap : Config.headerBytes ≤ s.caps.cmpCap)
      (hreg : t.registers = { s with ext := 9, cur := s.h, row := 0, estate := .grow }.registers)
      (hbytes : ∀ m a, m ≠ .cmp ∨ 9 ≤ a → t.byteAt m a = s.byteAt m a)
  /-- `E_GROW` finds no room (R174). -/
  | full (hs : s.estate = .grow) (hneed : s.caps.cmpCap < need s) (hfail : t.status.fail = true) (ht : t.estate = .idle)
      (hext : t.ext = s.ext) (hw : t.w = s.w) (hbytes : ∀ m a, m ≠ .cmp ∨ s.ext ≤ a → t.byteAt m a = s.byteAt m a)
  /-- `E_GROW` claims the row's worst case (R174). -/
  | grows (hs : s.estate = .grow) (hneed : need s ≤ s.caps.cmpCap)
      (hreg : t.registers = { s with ext := max s.ext (need s), estate := .rowInit }.registers)
      (hbytes : ∀ m a, m ≠ .cmp ∨ max s.ext (need s) ≤ a → t.byteAt m a = s.byteAt m a)
  /-- Inside a row (R175 to R179). -/
  | inRow (hs : s.estate.inRow) (hrow : EncRow s) (hfixed : t.rowFixed = s.rowFixed) (ht : t.estate.inRow)
      (hbytes : ∀ m a, m ≠ .scr ∨ scratchBytes s.w ≤ a → t.byteAt m a = s.byteAt m a)
  /-- The end of a row (R180, R181). -/
  | rowEnds (c : Nat) (hs : s.estate.inRow) (hrow : EncRow s) (hc : s.cur ≤ c) (hbound : c ≤ s.cur + worstRowBits s.w)
      (hreg : t.registers = (encRowAdvance { s with cur := c }).registers)
      (hbytes : ∀ m a, m ≠ .cmp ∨ s.ext ≤ a → t.byteAt m a = s.byteAt m a)
  /-- `E_FINISH` and the completion (R182; log 22). -/
  | finishes (hs : s.estate = .finish)
      (h : t = complete { s with
        resLen := 9 + ceil8 s.cur, resWidth := 0, resHeight := 0, status := { s.status with fail := false }, err := 0
        estate := .success })

/-! ### The bytes that the actions leave -/

/-- A run of bytes leaves what is above it. -/
theorem storeBytes_outside {s t : State} {m : Store} {a n : Nat} {xs : List Byte} (h : storeBytes s m a xs = .ok t)
    (hn : a + xs.length ≤ n) {m' : Store} {b : Nat} (hb : m' ≠ m ∨ n ≤ b) : t.byteAt m' b = s.byteAt m' b := by
  obtain ⟨rfl, -⟩ := storeBytes_eq_ok h
  refine byteAt_placeBytes_other s ?_
  rintro ⟨rfl, -, hlt⟩
  rcases hb with hb | hb
  · exact hb rfl
  · omega

/-- A put of bits below byte `n` leaves the bytes from there up. -/
theorem PutsBits.byteAt_above {s t : State} {m : Store} {p n : Nat} {bits : List Bool} (h : PutsBits s t m p bits)
    (hn : p + bits.length ≤ 8 * n) {m' : Store} {b : Nat} (hb : m' ≠ m ∨ n ≤ b) : t.byteAt m' b = s.byteAt m' b := by
  refine h.byteAt_outside ?_
  rintro i hi ⟨rfl, -, hlt⟩
  rcases hb with hb | hb
  · exact hb rfl
  · omega

theorem inRow_of_advance {e : EState} (h : e ∈ [EState.classify, .rowWhite, .rowAppend]) : e.inRow :=
  (by decide : [EState.classify, .rowWhite, .rowAppend] ⊆ _) h

section
variable {s t : State}

theorem eHeader_outside (h : eHeader s = .ok t) {m : Store} {a : Nat} (ha : m ≠ .cmp ∨ 9 ≤ a) :
    t.byteAt m a = s.byteAt m a := by
  obtain ⟨u, hu, h⟩ := bind_eq_ok.1 h
  obtain rfl := Except.ok.inj h
  calc _ = u.byteAt m a := by cases m <;> rfl
    _ = s.byteAt m a := storeBytes_outside hu (show 0 + 9 ≤ 9 by decide) ha

theorem eDegenerate_outside (h : eDegenerate s = .ok t) {m : Store} {a : Nat} (ha : m ≠ .cmp ∨ 9 ≤ a) :
    t.byteAt m a = s.byteAt m a := by
  obtain ⟨u, hu, rfl⟩ := eDegenerate_eq_ok h
  calc _ = u.byteAt m a := by cases m <;> rfl
    _ = s.byteAt m a := storeBytes_outside hu (show 0 + 9 ≤ 9 by decide) ha

theorem eRowInit_outside (h : eRowInit s = .ok t) {m : Store} {a : Nat} (ha : m ≠ .scr ∨ scratchBytes s.w ≤ a) :
    t.byteAt m a = s.byteAt m a := by
  obtain ⟨u, hu, h⟩ := bind_eq_ok.1 h
  obtain rfl := Except.ok.inj h
  calc _ = u.byteAt m a := by cases m <;> rfl
    _ = s.byteAt m a := storeBytes_outside hu (by rw [List.length_replicate, Nat.zero_add]) ha

theorem eGrow_effect (hs : s.estate = .grow) (h : eGrow s = .ok t) : EncEffect s t := by
  unfold eGrow at h
  split at h
  case isTrue hneed =>
    obtain rfl := Except.ok.inj h
    refine .full hs hneed rfl rfl rfl rfl fun m a ha => ?_
    rw [raiseFail_byteAt, byteAt_forget, if_neg]
    rintro ⟨rfl, hlt⟩
    rcases ha with ha | ha
    · exact ha rfl
    · omega
  case isFalse hneed =>
    obtain ⟨u, hu, h⟩ := bind_eq_ok.1 h
    obtain rfl := Except.ok.inj h
    refine .grows hs (Nat.not_lt.1 hneed)
      (congrArg (fun r : State => { r with ext := max s.ext (need s), estate := .rowInit }) (storeBytes_frame hu).1) fun m a ha => ?_
    calc _ = u.byteAt m a := by cases m <;> rfl
      _ = s.byteAt m a := storeBytes_outside hu (by rw [List.length_replicate]; omega) ha

theorem eCheck_effect (hs : s.estate = .check) (h : eCheck s = .ok t) : EncEffect s t := by
  have hbytes (m : Store) := eCheck_keeps m s t h
  unfold eCheck at h
  dsimp only at h
  split_ifs at h with hsource hneg hzero hroom
  all_goals obtain rfl := Except.ok.inj h
  · exact .refused hs (by simp [compressCause, hsource]) rfl rfl hbytes
  · exact .refused hs (by simp [compressCause, hsource, hneg]) rfl rfl hbytes
  · exact .entersZero hs hzero rfl
  · exact .refused hs (by simp only [compressCause, if_neg hsource, if_neg hneg, if_neg hzero, if_pos hroom]; decide) rfl rfl hbytes
  · exact .enters hs rfl

theorem eHeader_effect (hs : s.estate = .header) (h : eHeader s = .ok t) : EncEffect s t := by
  obtain ⟨u, hu, -⟩ := bind_eq_ok.1 h
  have hcap := headerBytes_le hu
  rw [Nat.zero_add] at hcap
  exact .header hs hcap (eHeader_eq_ok h).1 fun m a => eHeader_outside h

/-- An emission puts its code's bits inside the row's scratch. -/
theorem emission_effect (hs : s.estate.inRow) (hc : EncChunk s) {r : Nat} {b : Bool} {bits : List Bool}
    (hlen : bits.length ≤ 2 + 8 * chunkLen s.w s.chk)
    (h : t.registers = (chunkAdvance { s with rc := r, rowWhite := b }).registers ∧ PutsBits s t .scr s.rc bits) :
    EncEffect s t := by
  obtain ⟨hreg, hput⟩ := h
  have hrc := hc.rc
  have hnext := chunkBitsBound_succ hc.chk
  have hbound := chunkBitsBound_le (w := s.w) (k := s.chk + 1) hc.chk
  have hworst := worstRowBits_le s.w
  refine .inRow hs hc.row (congrArg State.rowFixed hreg :) ?_ fun m a ha => hput.byteAt_above (by omega) ha
  rw [estate_of_registers hreg]
  exact inRow_of_advance (chunkAdvance_estate_mem _)

theorem eRowInit_effect (hs : s.estate = .rowInit) (hrow : EncRow s) (h : eRowInit s = .ok t) : EncEffect s t := by
  have hreg := (eRowInit_eq_ok h).1
  refine .inRow (by rw [hs]; decide) hrow (congrArg State.rowFixed hreg :) ?_ fun m a => eRowInit_outside h
  rw [estate_of_registers hreg]
  exact (by decide : EState.classify.inRow)

theorem eClassify_effect (hs : s.estate = .classify) (hrow : EncRow s) (h : eClassify s = .ok t) : EncEffect s t := by
  have hc := eClassify_eq_ok h
  refine .inRow (by rw [hs]; decide) hrow hc.fixed ?_ fun m a _ => hc.bytes m a
  exact (by decide : [EState.emitWhite, .emitBlack, .emitLiteral] ⊆ _) (eClassify_estate h)

/-- The presence bit and the row's bits are below what `E_GROW` has claimed. -/
theorem EncRow.below_ext (hs : EncRow s) :
    72 + s.row + 1 ≤ 8 * s.ext ∧ 72 + s.cur + 8 * scratchBytes s.w ≤ 8 * s.ext := by
  have hgrown := hs.grown
  have hrow := hs.row
  have hcur := hs.cur
  simp only [need, ceil8] at hgrown
  omega

theorem eRowWhite_effect (hs : s.estate = .rowWhite) (hrow : EncRow s) (h : eRowWhite s = .ok t) : EncEffect s t := by
  obtain ⟨hreg, hput⟩ := eRowWhite_eq_ok h
  exact .rowEnds s.cur (by rw [hs]; decide) hrow (le_refl _) (Nat.le_add_right _ _) hreg fun m a ha =>
    hput.byteAt_above hrow.below_ext.1 ha

theorem eRowAppend_effect (hs : s.estate = .rowAppend) (hrow : EncRow s) (hrc : s.rc ≤ worstRowBits s.w)
    (h : eRowAppend s = .ok t) : EncEffect s t := by
  obtain ⟨hreg, u, hpres, hput⟩ := eRowAppend_eq_ok h
  obtain ⟨hbit, hbits⟩ := hrow.below_ext
  have hceil := ceil8_rc_le hrc
  have hlen : 72 + s.cur + (bytesBits (storeList s .scr (ceil8 s.rc))).length ≤ 8 * s.ext := by
    rw [length_bytesBits, storeList, List.length_map, List.length_range]
    omega
  exact .rowEnds (s.cur + s.rc) (by rw [hs]; decide) hrow (Nat.le_add_right _ _) (Nat.add_le_add_left hrc _) hreg
    fun m a ha => (hput.byteAt_above hlen ha).trans (hpres.byteAt_above hbit ha)

/-- A transition of ENC that does not go to `E_SUCCESS`. -/
theorem encStep_effect (hs : EncRun s) (hsuccess : s.estate ≠ .success) (hfailure : s.estate ≠ .failure)
    (h : encStep s = .ok t) (ht : t.estate ≠ .success) : EncEffect s t := by
  unfold EncRun at hs
  unfold encStep at h
  generalize he : s.estate = e at hs h hsuccess hfailure
  cases e with
  | idle => cases h
  | check => exact eCheck_effect he h
  | degenerate =>
    obtain ⟨u, -, rfl⟩ := eDegenerate_eq_ok h
    exact absurd rfl ht
  | header => exact eHeader_effect he h
  | grow => exact eGrow_effect he h
  | rowInit => exact eRowInit_effect he hs h
  | classify => exact eClassify_effect he hs.row h
  | emitWhite => exact emission_effect (by rw [he]; decide) hs.1 (by simp only [List.length_singleton]; omega) (eEmitWhite_eq_ok h)
  | emitBlack => exact emission_effect (by rw [he]; decide) hs.1 (Nat.le_add_right 2 _) (eEmitBlack_eq_ok h)
  | emitLiteral =>
    obtain ⟨hchunk, hn, hpx⟩ := hs
    refine emission_effect (by rw [he]; decide) hchunk ?_ (eEmitLiteral_eq_ok h)
    simp only [literalBits, List.length_cons, length_bytesBits]
    omega
  | rowWhite => exact eRowWhite_effect he hs.1 h
  | rowAppend => exact eRowAppend_effect he hs.1 hs.2 h
  | finish =>
    obtain rfl := Except.ok.inj h
    exact absurd rfl ht
  | success => exact absurd rfl hsuccess
  | failure => exact absurd rfl hfailure

/-- R183: a move of ENC from a state it can stand in while the command runs. -/
theorem encMove_effect (hs : EncRun s) (hsuccess : s.estate ≠ .success) (hfailure : s.estate ≠ .failure)
    (h : encMove s = .ok t) : EncEffect s t := by
  rcases encMove_cases h with ⟨h, hne⟩ | ⟨u, hu, hsu, rfl⟩
  · exact encStep_effect hs hsuccess hfailure h hne
  · rcases estate_of_success hu hsu with he | he
    · have hzero : eDegenerate s = .ok u := by simpa only [encStep, he] using hu
      obtain ⟨v, -, rfl⟩ := eDegenerate_eq_ok hzero
      refine .zero he rfl rfl fun m a ha => ?_
      rw [complete_byteAt]
      exact eDegenerate_outside hzero ha
    · obtain rfl := Except.ok.inj (show eFinish s = .ok u by simpa only [encStep, he] using hu)
      exact .finishes he rfl

end

end Sys2Proof.Machine
end

