-- ==== Sys2Proof/Proofs/CompressRuns.lean ====
section
/-! PROOFS. `COMPRESS` as a run of moves of ENC from its start to its end (R170, R243, R288): it always completes, with what R172, R182 or
R250 say of the visible registers; the ranges it stays in (R80, R81), the room that makes it sure of success (R274), and the zeros
above its result (R187). -/

namespace Sys2Proof.Machine

open Config (Store)

/-! ### The run -/

/-- The `COMPRESS` that started in `s0` goes on in `s`. -/
structure Compressing (s0 s : State) : Prop where
  beside  : s.besideEnc = s0.besideEnc
  run     : EncRun s
  idle    : s.estate ≠ .idle
  success : s.estate ≠ .success
  failure : s.estate ≠ .failure

/-- The `COMPRESS` that started in `s0` has ended in `t` (R172, R182, R250). -/
def CompressEnded (s0 t : State) : Prop :=
  (∃ n, 9 ≤ n ∧ t.besideEnc = (endWith n 0 0 s0).besideEnc) ∨
  ∃ c : Cause, c.code ∈ [1, 2, 11] ∧ { t.besideEnc with draws := s0.draws } = (raiseFail c s0).besideEnc

/-- A state in which a `COMPRESS` has just started. -/
structure CompressStart (s0 : State) : Prop where
  busy   : s0.status.busy = true
  dstate : s0.dstate = .idle
  estate : s0.estate = .check

theorem CompressStart.compressing {s0 : State} (h : CompressStart s0) : Compressing s0 s0 where
  beside := rfl
  run := by simp only [EncRun, h.estate]
  idle := by rw [h.estate]; decide
  success := by rw [h.estate]; decide
  failure := by rw [h.estate]; decide

theorem failure_not_successor (e : EState) : EState.failure ∉ encSuccessors e := by
  cases e <;> decide

section
variable {s0 s t : State} (h0 : CompressStart s0) (hs : Compressing s0 s)
include h0 hs

theorem Compressing.busy : s.status.busy = true := by
  have hstatus : s.status = s0.status := (congrArg State.status hs.beside :)
  rw [hstatus]
  exact h0.busy

theorem Compressing.dstate : s.dstate = .idle := by
  have hd : s.dstate = s0.dstate := (congrArg State.dstate hs.beside :)
  exact hd.trans h0.dstate

theorem Compressing.unitMove : unitMove s = encMove s := unitMove_enc (hs.dstate h0) hs.idle

/-- A move goes on with the command or ends it. -/
theorem Compressing.move (h : encMove s = .ok t) : Compressing s0 t ∨ t.status.busy = false ∧ CompressEnded s0 t := by
  have hmoved := encMove_moved h
  cases hmoved with
  | goesOn hbeside =>
    have hbusy : t.status.busy = true := by
      have hstatus : t.status = s.status := (congrArg State.status hbeside :)
      rw [hstatus]
      exact hs.busy h0
    obtain ⟨hrun, hidle⟩ := encMove_goesOn hs.run h hbusy
    rcases encMove_cases h with ⟨h, hsuccess⟩ | ⟨u, -, -, rfl⟩
    · refine .inl ⟨hbeside.trans hs.beside, hrun, hidle, hsuccess, fun hf => ?_⟩
      exact failure_not_successor s.estate (hf ▸ encStep_estate h)
    · cases hbusy
  | fails c hc hbeside _ =>
    refine .inr ⟨(congrArg (·.status.busy) hbeside :), .inr ⟨c, hc, ?_⟩⟩
    have hfail : (raiseFail c s).besideEnc = (raiseFail c s0).besideEnc :=
      (congrArg (fun r => (raiseFail c r).besideEnc) hs.beside :)
    exact (congrArg (fun r : State => { r with draws := s0.draws }) (hbeside.trans hfail) :)
  | succeeds n w h' hr hbeside =>
    obtain ⟨hn, rfl, rfl⟩ := hr
    refine .inr ⟨(congrArg (·.status.busy) hbeside :), .inl ⟨n, hn, hbeside.trans ?_⟩⟩
    exact (congrArg (fun r => (endWith n 0 0 r).besideEnc) hs.beside :)
  | completes he _ =>
    rcases he with he | he | he
    · exact absurd he hs.success
    · exact absurd he hs.failure
    · exact absurd ((hs.dstate h0).symm.trans he) (by decide)

/-- A run of moves of a `COMPRESS` keeps what every move keeps, and goes on with the command or has ended it. -/
theorem Compressing.moves_keep {P : State → Prop} (hP : ∀ s t, Compressing s0 s → P s → EncEffect s t → P t) (hPs : P s)
    {k : Nat} (h : moves k s = .ok t) : P t ∧ (Compressing s0 t ∨ t.status.busy = false ∧ CompressEnded s0 t) := by
  induction k generalizing s with
  | zero =>
    obtain rfl := Except.ok.inj h
    exact ⟨hPs, .inl hs⟩
  | succ k ih =>
    rw [moves_succ (hs.busy h0), hs.unitMove h0] at h
    obtain ⟨u, hu, h⟩ := bind_eq_ok.1 h
    have hPu := hP s u hs hPs (encMove_effect hs.run hs.success hs.failure hu)
    rcases hs.move h0 hu with hgoes | hends
    · exact ih hgoes hPu h
    · rw [moves_of_idle hends.1] at h
      obtain rfl := Except.ok.inj h
      exact ⟨hPu, .inr hends⟩

theorem Compressing.moves_complete (hcap : Config.headerBytes ≤ s0.caps.cmpCap) (k : Nat) : ∃ t, moves k s = .ok t := by
  induction k generalizing s with
  | zero => exact ⟨s, rfl⟩
  | succ k ih =>
    have hcaps : s.caps = s0.caps := (congrArg State.caps hs.beside :)
    rw [moves_succ (hs.busy h0), hs.unitMove h0]
    refine completes_bind (encMove_completes (by rwa [hcaps]) hs.idle hs.run) fun u hu => ?_
    rcases hs.move h0 hu with hgoes | hends
    · exact ih hgoes
    · exact ⟨u, moves_of_idle hends.1 k⟩

end

theorem compressStart_beginCommand (s : State) : CompressStart (beginCommand 6 s) := ⟨rfl, rfl, rfl⟩

theorem exec_compress_completes {s : State} (hb : s.status.busy = false) (hcap : Config.headerBytes ≤ s.caps.cmpCap) :
    ∃ t, exec .compress s = .next t := by
  have h0 := compressStart_beginCommand s
  obtain ⟨k, hk⟩ := exec_eq_moves (i := .compress) rfl hb
  obtain ⟨t, ht⟩ := h0.compressing.moves_complete h0 hcap k
  exact ⟨t, hk.trans (congrArg toOutcome ht)⟩

/-- What every move of ENC keeps holds of the state that a `COMPRESS` answers. -/
theorem exec_compress_keeps {s t : State} (hb : s.status.busy = false) {P : State → Prop}
    (hP : ∀ u v, Compressing (beginCommand 6 s) u → P u → EncEffect u v → P v) (hPs : P (beginCommand 6 s))
    (h : exec .compress s = .next t) : P t ∧ CompressEnded (beginCommand 6 s) t := by
  have h0 := compressStart_beginCommand s
  obtain ⟨k, hk⟩ := exec_command_eq_moves (i := .compress) rfl hb h
  obtain ⟨hPt, hgoes | ⟨-, hended⟩⟩ := h0.compressing.moves_keep h0 hP hPs hk
  · exact absurd ((exec_command_ends (i := .compress) rfl hb h).busy.symm.trans (hgoes.busy h0)) (by decide)
  · exact ⟨hPt, hended⟩

/-- How a `COMPRESS` ends: its visible registers (R172, R182, R250). -/
theorem exec_compress_registers {s t : State} (hb : s.status.busy = false) (h : exec .compress s = .next t) :
    t.visible.registers = { succeeded 6 s with resLen := t.resLen, resWidth := 0, resHeight := 0 }.visible.registers ∧
        9 ≤ t.resLen ∨
      t.err ∈ [1, 2, 11] ∧ { t.visible.registers with draws := s.draws } = (failedWith 6 t.err s).visible.registers := by
  obtain ⟨-, ⟨n, hn, hbeside⟩ | ⟨c, hc, hbeside⟩⟩ := exec_compress_keeps hb (P := fun _ => True) (fun _ _ _ _ _ => trivial) trivial h
  · have hlen : t.resLen = n := (congrArg State.resLen hbeside :)
    rw [hlen]
    exact .inl ⟨(congrArg (fun r => r.visible.registers) hbeside :), hn⟩
  · have herr : t.err = c.code := (congrArg State.err hbeside :)
    rw [herr]
    exact .inr ⟨hc, (congrArg (fun r => r.visible.registers) hbeside :)⟩

/-- Settles O34: the run of moves completes, and its end is the success or the failure of one move of ENC. -/
theorem compressAlwaysCompletes : Obligations.CompressAlwaysCompletes := by
  intro s hb hcaps
  obtain ⟨t, ht⟩ := exec_compress_completes hb hcaps.1
  exact ⟨t, ht, exec_compress_registers hb ht, fun a =>
    ⟨exec_compress_byteAt_of_idle (by decide) (by decide) hb ht a, exec_compress_byteAt_of_idle (by decide) (by decide) hb ht a⟩⟩

/-! ### A zero dimension -/

theorem cmpHolds_of_storeBytes {s t : State} {xs : List Byte} (h : storeBytes s .cmp 0 xs = .ok t) : cmpHolds t xs := by
  intro a x hx
  obtain ⟨rfl, -⟩ := storeBytes_eq_ok h
  have hbyte := byteAt_placeBytes_of_getElem? s .cmp 0 hx
  rwa [Nat.zero_add] at hbyte

/-- A `COMPRESS` of a zero dimension after its entry checks. -/
def zeroStart (s : State) : State := { beginCommand 6 s with estate := .degenerate }

/-- Settles O33: `E_CHECK` goes to `E_DEGENERATE`, which writes the nine bytes of the header of two zeros (R161, R172). -/
theorem compressOfAZeroDimension : Obligations.CompressOfAZeroDimension := by
  intro s hb hcaps hp hw hh h0
  have hcheck : eCheck (beginCommand 6 s) = .ok (zeroStart s) := eCheck_of_zero (s := beginCommand 6 s) hp hw hh h0
  obtain ⟨v, hv⟩ := eDegenerate_completes (s := zeroStart s) hcaps.1
  obtain ⟨u, hu, hresult⟩ := eDegenerate_eq_ok hv
  refine ⟨complete v, ?run, ?registers, fun a x hx => ?header, fun m a hout => ?kept⟩
  case run =>
    calc exec .compress s = toOutcome (compressBody (beginCommand 6 s)) := runCommand_of_idle hb
      _ = .next (complete v) := by
        rw [compressBody, hcheck, ok_bind, whileBusy_of_busy rfl, if_pos (show (zeroStart s).estate = .degenerate from rfl), hv,
          ok_bind, toOutcome_ok]
  case registers =>
    rw [hresult]
    exact (congrArg (fun r => { (endWith 9 0 0 r).registers with ext := 9 }) (storeBytes_frame hu).1 :)
  case header =>
    have hbytes : headerOf 0 0 = [0xBA, 0, 0, 0, 0, 0, 0, 0, 0] := by decide
    rw [complete_byteAt, hresult]
    exact cmpHolds_of_storeBytes hu a x (hbytes ▸ hx)
  case kept =>
    have hout : m ≠ .cmp ∨ 9 ≤ a := by
      by_cases hm : m = .cmp
      · exact .inr (Nat.not_lt.1 fun hlt => hout ⟨hm, hlt⟩)
      · exact .inl hm
    rw [complete_byteAt, eDegenerate_outside hv hout]
    cases m <;> rfl

/-! ### The ranges of the run -/

/-- What the `COMPRESS` that started in `s0` has left alone in `s` (R80, R81). -/
structure WithinRanges (s0 s : State) : Prop where
  entry : s.estate ∈ [EState.check, .degenerate, .header] → ∀ m a, s.byteAt m a = s0.byteAt m a
  width : s.estate ∉ [EState.check, .degenerate, .idle] → s.w = s0.argWidth.toNat
  cmp   : ∀ a, s.ext ≤ a → s.byteAt .cmp a = s0.byteAt .cmp a
  scr   : ∀ a, scratchBytes s0.argWidth.toNat ≤ a → s.byteAt .scr a = s0.byteAt .scr a

/-- As long as no byte has been written. -/
theorem withinRanges_of_bytes {s0 s : State} (h : ∀ m a, s.byteAt m a = s0.byteAt m a)
    (hw : s.estate ∉ [EState.check, .degenerate, .idle] → s.w = s0.argWidth.toNat) : WithinRanges s0 s :=
  ⟨fun _ => h, hw, fun a _ => h .cmp a, fun a _ => h .scr a⟩

section
variable {s0 s t : State}

/-- A move inside the command that claims no less of CMP, and writes CMP below `EXT` and SCR inside the row's scratch. -/
theorem WithinRanges.move (hs : WithinRanges s0 s) (hse : s.estate ∉ [EState.check, .degenerate, .idle])
    (hte : t.estate ∉ [EState.check, .degenerate, .header]) (hw : t.w = s.w) (hext : s.ext ≤ t.ext)
    (hcmp : ∀ a, t.ext ≤ a → t.byteAt .cmp a = s.byteAt .cmp a)
    (hscr : ∀ a, scratchBytes s.w ≤ a → t.byteAt .scr a = s.byteAt .scr a) : WithinRanges s0 t where
  entry he := absurd he hte
  width _ := hw.trans (hs.width hse)
  cmp a ha := (hcmp a ha).trans (hs.cmp a (hext.trans ha))
  scr a ha := (hscr a (by rwa [hs.width hse])).trans (hs.scr a ha)

/-- A state inside a row is none of the others. -/
theorem EState.inRow.not_mem {e : EState} (h : e.inRow) {l : List EState} (hl : ∀ d ∈ inRowStates, d ∉ l) : e ∉ l := hl e h

theorem EState.inRow.ne {e d : EState} (h : e.inRow) (hd : ¬ d.inRow) : e ≠ d := fun he => hd (he ▸ h)

theorem withinRanges_of_effect (hc : Compressing s0 s) (hs : WithinRanges s0 s)
    (h : EncEffect s t) : WithinRanges s0 t := by
  have hwidth : s.argWidth = s0.argWidth := (congrArg State.argWidth hc.beside :)
  cases h with
  | refused he _ _ ht hbytes =>
    have hsame := hs.entry (by rw [he]; decide)
    exact withinRanges_of_bytes (fun m a => (hbytes m a).trans (hsame m a)) fun hn => absurd (by rw [ht]; decide) hn
  | entersZero he _ h =>
    have hsame := hs.entry (by rw [he]; decide)
    subst h
    exact withinRanges_of_bytes (fun m a => .trans (by cases m <;> rfl) (hsame m a)) fun hn =>
      absurd (show EState.degenerate ∈ [EState.check, .degenerate, .idle] by decide) hn
  | enters he h =>
    have hsame := hs.entry (by rw [he]; decide)
    subst h
    exact withinRanges_of_bytes (fun m a => .trans (by cases m <;> rfl) (hsame m a)) fun _ => congrArg BitVec.toNat hwidth
  | zero he hext ht hbytes =>
    have hsame := hs.entry (by rw [he]; decide)
    refine ⟨fun hn => absurd hn (by rw [ht]; decide), fun hn => absurd (by rw [ht]; decide) hn, fun a ha => ?_, fun a _ => ?_⟩
    · rw [hext] at ha
      exact (hbytes .cmp a (.inr ha)).trans (hsame .cmp a)
    · exact (hbytes .scr a (.inl (by decide))).trans (hsame .scr a)
  | header he _ hreg hbytes =>
    have hsame := hs.entry (by rw [he]; decide)
    have hext : t.ext = 9 := (congrArg State.ext hreg :)
    have hw : t.w = s.w := (congrArg State.w hreg :)
    have hte : t.estate = .grow := estate_of_registers hreg
    refine ⟨fun hn => absurd hn (by rw [hte]; decide), fun _ => hw.trans (hs.width (by rw [he]; decide)), fun a ha => ?_,
      fun a _ => ?_⟩
    · rw [hext] at ha
      exact (hbytes .cmp a (.inr ha)).trans (hsame .cmp a)
    · exact (hbytes .scr a (.inl (by decide))).trans (hsame .scr a)
  | full he _ _ ht hext hw hbytes =>
    exact hs.move (by rw [he]; decide) (by rw [ht]; decide) hw hext.ge (fun a ha => hbytes .cmp a (.inr (hext ▸ ha)))
      fun a _ => hbytes .scr a (.inl (by decide))
  | grows he _ hreg hbytes =>
    have hext : t.ext = max s.ext (need s) := (congrArg State.ext hreg :)
    have hte : t.estate = .rowInit := estate_of_registers hreg
    exact hs.move (by rw [he]; decide) (by rw [hte]; decide) (congrArg State.w hreg :) (hext ▸ le_max_left _ _)
      (fun a ha => hbytes .cmp a (.inr (hext ▸ ha))) fun a _ => hbytes .scr a (.inl (by decide))
  | inRow he _ hfixed ht hbytes =>
    have hext : t.ext = s.ext := (congrArg State.ext hfixed :)
    exact hs.move (he.not_mem (by decide)) (ht.not_mem (by decide)) (congrArg State.w hfixed :) hext.ge
      (fun a _ => hbytes .cmp a (.inl (by decide))) fun a ha => hbytes .scr a (.inr ha)
  | rowEnds c he _ _ _ hreg hbytes =>
    have hext : t.ext = s.ext := (congrArg State.ext hreg :)
    have hte : t.estate ∉ [EState.check, .degenerate, .header] := by
      rw [estate_of_registers hreg, encRowAdvance_estate]
      split <;> decide
    exact hs.move (he.not_mem (by decide)) hte (congrArg State.w hreg :) hext.ge
      (fun a ha => hbytes .cmp a (.inr (hext ▸ ha))) fun a _ => hbytes .scr a (.inl (by decide))
  | finishes he h =>
    subst h
    exact hs.move (by rw [he]; decide) (show EState.idle ∉ [EState.check, .degenerate, .header] by decide) rfl (le_refl _) (fun _ _ => rfl) fun _ _ => rfl

end

/-- Settles O40: every move of ENC stays within the ranges, and a `COMPRESS` that comes while a command runs changes nothing. -/
theorem compressStaysWithinItsRanges : Obligations.CompressStaysWithinItsRanges := by
  intro s t h
  cases hb : s.status.busy with
  | true =>
    obtain rfl := Host.Outcome.next.inj ((exec_command_of_busy (i := .compress) hb rfl).symm.trans h)
    exact ⟨fun _ _ => rfl, fun _ _ => rfl⟩
  | false =>
    have hstart : WithinRanges (beginCommand 6 s) (beginCommand 6 s) :=
      withinRanges_of_bytes (fun _ _ => rfl) fun hn => absurd (show EState.check ∈ [EState.check, .degenerate, .idle] by decide) hn
    obtain ⟨hranges, -⟩ := exec_compress_keeps hb (fun _ _ => withinRanges_of_effect) hstart h
    exact ⟨hranges.cmp, hranges.scr⟩

/-! ### What is claimed of CMP -/

/-- What the `COMPRESS` of an image with pixels that started in `s0` has claimed of CMP: the header and the row's worst case at most
(R174), and nothing beyond the payload's when it has ended (R182). -/
structure Claimed (s0 s : State) : Prop where
  state  : s.estate ≠ .degenerate
  width  : s.estate ∉ [EState.check, .idle] → s.w = s0.argWidth.toNat
  ext    : s.estate ∉ [EState.check, .header, .idle] → s.ext ≤ 9 + ceil8 s.cur + scratchBytes s0.argWidth.toNat
  cap    : s.estate ∉ [EState.check, .header, .idle] → s.ext ≤ s.caps.cmpCap
  result : s.estate = .idle → s.status.fail = true ∨
    s.ext ≤ s.resLen + scratchBytes s0.argWidth.toNat ∧ s.ext ≤ s.caps.cmpCap

section
variable {s0 s t : State}

theorem claimed_of_effect (hw0 : s0.argWidth ≠ 0) (hh0 : s0.argHeight ≠ 0) (hc : Compressing s0 s) (hs : Claimed s0 s)
    (h : EncEffect s t) : Claimed s0 t := by
  have hwidth : s.argWidth = s0.argWidth := (congrArg State.argWidth hc.beside :)
  have hheight : s.argHeight = s0.argHeight := (congrArg State.argHeight hc.beside :)
  cases h with
  | refused _ _ hfail ht _ =>
    exact ⟨by rw [ht]; decide, fun hn => absurd (by rw [ht]; decide) hn, fun hn => absurd (by rw [ht]; decide) hn,
      fun hn => absurd (by rw [ht]; decide) hn, fun _ => .inl hfail⟩
  | entersZero _ hzero _ =>
    rw [hwidth, hheight] at hzero
    exact absurd hzero (not_or.2 ⟨hw0, hh0⟩)
  | enters _ h =>
    subst h
    have hentry : EState.header ∈ [EState.check, .header, .idle] := by decide
    exact ⟨fun hn => (nomatch hn), fun _ => congrArg BitVec.toNat hwidth, fun hn => absurd hentry hn, fun hn => absurd hentry hn,
      fun hn => nomatch hn⟩
  | zero he => exact absurd he hs.state
  | header he hcap hreg _ =>
    have hte : t.estate = .grow := estate_of_registers hreg
    have hw : t.w = s.w := (congrArg State.w hreg :)
    have hext : t.ext = 9 := (congrArg State.ext hreg :)
    have hcaps := caps_eq_of_registers hreg
    refine ⟨by rw [hte]; decide, fun _ => hw.trans (hs.width (by rw [he]; decide)), fun _ => by omega, fun _ => ?_,
      fun hn => absurd (hte.symm.trans hn) (by decide)⟩
    rw [hext, hcaps]
    exact hcap
  | full _ _ hfail ht _ _ _ =>
    exact ⟨by rw [ht]; decide, fun hn => absurd (by rw [ht]; decide) hn, fun hn => absurd (by rw [ht]; decide) hn,
      fun hn => absurd (by rw [ht]; decide) hn, fun _ => .inl hfail⟩
  | grows he hneed hreg _ =>
    have hte : t.estate = .rowInit := estate_of_registers hreg
    have hw : t.w = s.w := (congrArg State.w hreg :)
    have hcur : t.cur = s.cur := (congrArg State.cur hreg :)
    have hext : t.ext = max s.ext (need s) := (congrArg State.ext hreg :)
    have hcaps := caps_eq_of_registers hreg
    have hin : s.estate ∉ [EState.check, .header, .idle] := by rw [he]; decide
    have hsw := hs.width (by rw [he]; decide)
    refine ⟨by rw [hte]; decide, fun _ => hw.trans hsw, fun _ => ?_, fun _ => ?_, fun hn => absurd (hte.symm.trans hn) (by decide)⟩
    · rw [hext, hcur, ← hsw]
      exact max_le (hsw ▸ hs.ext hin) (le_refl _)
    · rw [hext, hcaps]
      exact max_le (hs.cap hin) hneed
  | inRow he _ hfixed ht _ =>
    have hw : t.w = s.w := (congrArg State.w hfixed :)
    have hcur : t.cur = s.cur := (congrArg State.cur hfixed :)
    have hext : t.ext = s.ext := (congrArg State.ext hfixed :)
    have hcaps : t.caps = s.caps := (congrArg State.caps hfixed :)
    refine ⟨ht.ne (by decide), fun _ => hw.trans (hs.width (he.not_mem (by decide))), fun _ => ?_, fun _ => ?_,
      fun hn => absurd hn (ht.ne (by decide))⟩
    · rw [hext, hcur]
      exact hs.ext (he.not_mem (by decide))
    · rw [hext, hcaps]
      exact hs.cap (he.not_mem (by decide))
  | rowEnds c he _ hle _ hreg _ =>
    have hw : t.w = s.w := (congrArg State.w hreg :)
    have hcur : t.cur = c := (congrArg State.cur hreg :)
    have hext : t.ext = s.ext := (congrArg State.ext hreg :)
    have hcaps := caps_eq_of_registers hreg
    have hte : t.estate ∈ [EState.grow, .finish] := by
      rw [estate_of_registers hreg]
      exact encRowAdvance_estate_mem _
    have hin := hs.ext (he.not_mem (by decide))
    refine ⟨fun hn => ?_, fun _ => hw.trans (hs.width (he.not_mem (by decide))), fun _ => ?_, fun _ => ?_, fun hn => ?_⟩
    · rw [hn] at hte
      exact absurd hte (by decide)
    · rw [hext, hcur]
      simp only [ceil8] at hin ⊢
      omega
    · rw [hext, hcaps]
      exact hs.cap (he.not_mem (by decide))
    · rw [hn] at hte
      exact absurd hte (by decide)
  | finishes he h =>
    subst h
    have hidle : EState.idle ∈ [EState.check, .header, .idle] := by decide
    refine ⟨fun hn => (nomatch hn), fun hn => absurd (show EState.idle ∈ [EState.check, .idle] by decide) hn,
      fun hn => absurd hidle hn, fun hn => absurd hidle hn, fun _ => .inr ⟨?_, hs.cap (by rw [he]; decide)⟩⟩
    exact hs.ext (by rw [he]; decide)

end

/-- Settles O37: the state after the last row has the zeros, and what has been claimed is at most one row's worst case more than the
result. -/
theorem compressLeavesZerosAboveTheResult : Obligations.CompressLeavesZerosAboveTheResult := by
  intro s t hb hp hw hh hrun hf
  have hw0 : s.argWidth ≠ 0 := fun h0 => by simp [h0] at hw
  have hh0 : s.argHeight ≠ 0 := fun h0 => by simp [h0] at hh
  have hstart : Claimed (beginCommand 6 s) (beginCommand 6 s) := by
    have hcheck : EState.check ∈ [EState.check, .header, .idle] := by decide
    exact ⟨fun hn => (nomatch hn), fun hn => absurd (show EState.check ∈ [EState.check, .idle] by decide) hn,
      fun hn => absurd hcheck hn, fun hn => absurd hcheck hn, fun hn => nomatch hn⟩
  obtain ⟨hclaimed, -⟩ := exec_compress_keeps hb (fun _ _ => claimed_of_effect hw0 hh0) hstart hrun
  obtain ⟨u, hu, hlen, hext, hbytes⟩ := rowsStreamed_of_compress hb hp hw hh hrun hf
  have hroom := hu.room (toNat_pos_of_toInt_pos hh)
  have hcaps : t.caps = s.caps := (congrArg State.caps (exec_command_operands rfl hb hrun) :)
  rcases hclaimed.result (exec_command_ends (i := .compress) rfl hb hrun).estate with hfail | ⟨hbound, hcap⟩
  · exact absurd (hf.symm.trans hfail) (by decide)
  refine ⟨?_, hbound, hcaps ▸ hcap, fun a hle hlt => ?_, (compressStaysWithinItsRanges s t hrun).1⟩
  · rw [hlen, hext, ceil8]
    omega
  · rw [hlen, ceil8] at hle
    rw [hext] at hlt
    rw [hbytes]
    refine byteAt_eq_of_sliceBit fun i hi => ?_
    rw [hu.zeros _ (by omega) (by omega)]
    exact BitVec.getLsbD_zero.symm

/-! ### Room for every row -/

/-- The `COMPRESS` of an image with pixels that started in `s0` has not failed, and its cursor is below the worst case of the rows so
far (R186, R274). -/
structure Roomy (s0 s : State) : Prop where
  state : s.estate ≠ .degenerate
  ok    : s.status.fail = false
  size  : s.estate ∉ [EState.check, .idle] → s.w = s0.argWidth.toNat ∧ s.h = s0.argHeight.toNat
  cur   : s.estate ∉ [EState.check, .header, .idle] →
    s.cur ≤ s0.argHeight.toNat + s.row * worstRowBits s0.argWidth.toNat

section
variable {s0 s t : State}

/-- Before a row there is room for it. -/
theorem Roomy.room (hs : Roomy s0 s) (he : s.estate = .grow) (hrow : s.row < s.h)
    (hroom : 9 + ceil8 (s0.argHeight.toNat + s0.argHeight.toNat * worstRowBits s0.argWidth.toNat) +
      scratchBytes s0.argWidth.toNat ≤ s.caps.cmpCap) : need s ≤ s.caps.cmpCap := by
  have hcur := hs.cur (by rw [he]; decide)
  obtain ⟨hw, hh⟩ := hs.size (by rw [he]; decide)
  have hrows : s.row * worstRowBits s0.argWidth.toNat ≤ s0.argHeight.toNat * worstRowBits s0.argWidth.toNat :=
    Nat.mul_le_mul_right _ (by omega)
  rw [need, hw]
  simp only [ceil8] at hroom ⊢
  omega

theorem roomy_of_effect (hcause : compressCause s0 = none) (hw0 : s0.argWidth ≠ 0) (hh0 : s0.argHeight ≠ 0)
    (hroom : 9 + ceil8 (s0.argHeight.toNat + s0.argHeight.toNat * worstRowBits s0.argWidth.toNat) +
      scratchBytes s0.argWidth.toNat ≤ s0.caps.cmpCap)
    (hc : Compressing s0 s) (hs : Roomy s0 s) (h : EncEffect s t) : Roomy s0 t := by
  have hwidth : s.argWidth = s0.argWidth := (congrArg State.argWidth hc.beside :)
  have hheight : s.argHeight = s0.argHeight := (congrArg State.argHeight hc.beside :)
  have hcaps : s.caps = s0.caps := (congrArg State.caps hc.beside :)
  cases h with
  | refused _ hfails =>
    have hsame : compressCause s = compressCause s0 := (congrArg compressCause hc.beside :)
    exact absurd (hsame.trans hcause) hfails
  | entersZero _ hzero _ =>
    rw [hwidth, hheight] at hzero
    exact absurd hzero (not_or.2 ⟨hw0, hh0⟩)
  | enters _ h =>
    subst h
    exact ⟨fun hn => (nomatch hn), hs.ok, fun _ => ⟨congrArg BitVec.toNat hwidth, congrArg BitVec.toNat hheight⟩,
      fun hn => absurd (show EState.header ∈ [EState.check, .header, .idle] by decide) hn⟩
  | zero he => exact absurd he hs.state
  | header he _ hreg _ =>
    have hte : t.estate = .grow := estate_of_registers hreg
    have hstatus : t.status = s.status := (congrArg State.status hreg :)
    have hw : t.w = s.w := (congrArg State.w hreg :)
    have hh : t.h = s.h := (congrArg State.h hreg :)
    have hcur : t.cur = s.h := (congrArg State.cur hreg :)
    obtain ⟨hsw, hsh⟩ := hs.size (by rw [he]; decide)
    exact ⟨by rw [hte]; decide, by rw [hstatus, hs.ok], fun _ => ⟨hw.trans hsw, hh.trans hsh⟩, fun _ => by omega⟩
  | full he hneed =>
    have hgrow : EncRange s ∧ s.row < s.h ∧ s.h ≤ s.cur ∧ s.ext ≤ s.caps.cmpCap := by simpa only [EncRun, he] using hc.run
    obtain ⟨-, hrow, -, -⟩ := hgrow
    exact absurd (hs.room he hrow (hcaps ▸ hroom)) (Nat.not_le.2 hneed)
  | grows he _ hreg _ =>
    have hte : t.estate = .rowInit := estate_of_registers hreg
    have hstatus : t.status = s.status := (congrArg State.status hreg :)
    have hw : t.w = s.w := (congrArg State.w hreg :)
    have hh : t.h = s.h := (congrArg State.h hreg :)
    have hcur : t.cur = s.cur := (congrArg State.cur hreg :)
    have hrow : t.row = s.row := (congrArg State.row hreg :)
    obtain ⟨hsw, hsh⟩ := hs.size (by rw [he]; decide)
    refine ⟨by rw [hte]; decide, by rw [hstatus, hs.ok], fun _ => ⟨hw.trans hsw, hh.trans hsh⟩, fun _ => ?_⟩
    rw [hcur, hrow]
    exact hs.cur (by rw [he]; decide)
  | inRow he _ hfixed ht _ =>
    have hstatus : t.status = s.status := (congrArg State.status hfixed :)
    have hw : t.w = s.w := (congrArg State.w hfixed :)
    have hh : t.h = s.h := (congrArg State.h hfixed :)
    have hcur : t.cur = s.cur := (congrArg State.cur hfixed :)
    have hrow : t.row = s.row := (congrArg State.row hfixed :)
    obtain ⟨hsw, hsh⟩ := hs.size (he.not_mem (by decide))
    refine ⟨ht.ne (by decide), by rw [hstatus, hs.ok], fun _ => ⟨hw.trans hsw, hh.trans hsh⟩, fun _ => ?_⟩
    rw [hcur, hrow]
    exact hs.cur (he.not_mem (by decide))
  | rowEnds c he _ _ hbound hreg _ =>
    have hstatus : t.status = s.status := (congrArg State.status hreg :)
    have hw : t.w = s.w := (congrArg State.w hreg :)
    have hh : t.h = s.h := (congrArg State.h hreg :)
    have hcur : t.cur = c := (congrArg State.cur hreg :)
    have hrow : t.row = s.row + 1 := (congrArg State.row hreg :)
    have hte : t.estate ∈ [EState.grow, .finish] := by
      rw [estate_of_registers hreg]
      exact encRowAdvance_estate_mem _
    obtain ⟨hsw, hsh⟩ := hs.size (he.not_mem (by decide))
    have hold := hs.cur (he.not_mem (by decide))
    rw [hsw] at hbound
    refine ⟨fun hn => ?_, by rw [hstatus, hs.ok], fun _ => ⟨hw.trans hsw, hh.trans hsh⟩, fun _ => ?_⟩
    · rw [hn] at hte
      exact absurd hte (by decide)
    · rw [hcur, hrow, Nat.succ_mul]
      omega
  | finishes he h =>
    subst h
    exact ⟨fun hn => (nomatch hn), rfl, fun hn => absurd (show EState.idle ∈ [EState.check, .idle] by decide) hn,
      fun hn => absurd (show EState.idle ∈ [EState.check, .header, .idle] by decide) hn⟩

end

/-- Settles O36: with the bounds of R274 neither an entry check nor `E_GROW` fails, and the result is that of R185. -/
theorem compressSucceedsWithRoom : Obligations.CompressSucceedsWithRoom := by
  intro s hb hp hw hh hpix hscr hroom
  have hw0 : s.argWidth ≠ 0 := fun h0 => by simp [h0] at hw
  have hh0 : s.argHeight ≠ 0 := fun h0 => by simp [h0] at hh
  have hcause : compressCause s = none := by
    rw [compressCause, if_neg (by simp [hp]), if_neg (by omega), if_neg (not_or.2 ⟨hw0, hh0⟩), if_neg (by omega)]
  have hcap : Config.headerBytes ≤ s.caps.cmpCap := by
    simp only [Config.headerBytes]
    omega
  have hstart : Roomy (beginCommand 6 s) (beginCommand 6 s) :=
    ⟨fun hn => (nomatch hn), rfl, fun hn => absurd (show EState.check ∈ [EState.check, .idle] by decide) hn,
      fun hn => absurd (show EState.check ∈ [EState.check, .header, .idle] by decide) hn⟩
  obtain ⟨t, ht⟩ := exec_compress_completes hb hcap
  obtain ⟨hroomy, -⟩ := exec_compress_keeps hb (fun _ _ => roomy_of_effect (s0 := beginCommand 6 s) hcause hw0 hh0 hroom) hstart ht
  obtain ⟨hlen, hstream⟩ := compressedImageIsTheStream s t hb hp hw hh ht hroomy.ok
  refine ⟨t, ht, ?_, hstream⟩
  rcases exec_compress_registers hb ht with ⟨hreg, -⟩ | ⟨-, hfailed⟩
  · rwa [hlen] at hreg
  · have hfail : t.status.fail = true := (congrArg (·.status.fail) hfailed :)
    exact absurd (hroomy.ok.symm.trans hfail) (by decide)

end Sys2Proof.Machine
end

