-- ==== Sys2Proof/Proofs/OperandsAndResults.lean ====
section
/-! PROOFS. Who writes the host's registers (R27, R39): no instruction writes an operand, `RES_BIT` and DBUF are each one command's, and
the results are written by the move that ends the command. -/

namespace Sys2Proof.Machine

open Config (Store)

/-! ### The operands -/

/-- What a stream code leaves: the operands, `RES_BIT` and DBUF. -/
theorem runCode_leaves {i : Instr} {s t : State} (h : runCode i s = .ok t) :
    t.operands = s.operands ∧ t.resBit = s.resBit ∧ ∀ a, t.byteAt .dbuf a = s.byteAt .dbuf a := by
  have hpixels {a : Nat} {xs : List Byte} {g : State → State} (hg : (storeBytes s .pix a xs >>= fun u => .ok (g u)) = .ok t)
      (hop : ∀ u, (g u).operands = u.operands) (hbit : ∀ u, (g u).resBit = u.resBit)
      (hbytes : ∀ u b, (g u).byteAt .dbuf b = u.byteAt .dbuf b) :
      t.operands = s.operands ∧ t.resBit = s.resBit ∧ ∀ b, t.byteAt .dbuf b = s.byteAt .dbuf b := by
    obtain ⟨u, hu, hg⟩ := bind_eq_ok.1 hg
    obtain rfl := Except.ok.inj hg
    obtain ⟨hreg, hkept⟩ := storeBytes_frame hu
    have hsbit : u.resBit = s.resBit := (congrArg State.resBit hreg :)
    exact ⟨(hop u).trans (operands_of_registers hreg), (hbit u).trans hsbit, fun b =>
      (hbytes u b).trans (hkept .dbuf b (.inl (by decide)))⟩
  cases i
  case header w h' =>
    change headerCode w h' s = .ok t at h
    unfold headerCode at h
    split_ifs at h
    all_goals
      obtain rfl := Except.ok.inj h
      exact ⟨rfl, rfl, fun _ => rfl⟩
  case p1 =>
    obtain rfl := Except.ok.inj h
    exact ⟨rfl, rfl, fun _ => rfl⟩
  case p0 | w | b | l4 | l3 | l2 | l1 => exact hpixels h (fun _ => rfl) (fun _ => rfl) fun _ _ => rfl
  all_goals cases h

/-- What the three writing accessor commands leave (R141 to R143). -/
theorem bitWrite_leaves {s t : State} {w : BitWrite}
    (h : (w.run s (argStore s) s.argBase >>= fun u => .ok (complete u)) = .ok t) :
    t.resBit = s.resBit ∧ ∀ a, t.byteAt .dbuf a = s.byteAt .dbuf a := by
  obtain ⟨u, hu, h⟩ := bind_eq_ok.1 h
  obtain rfl := Except.ok.inj h
  obtain ⟨hreg, hput⟩ := BitWrite.run_eq_ok hu
  have hstore : Store.dbuf ≠ argStore s := by
    unfold argStore
    split <;> decide
  exact ⟨(congrArg State.resBit hreg :), fun a => (complete_byteAt u .dbuf a).trans (hput.byteAt_other hstore a)⟩

theorem wrchunkBody_leaves {s t : State} (h : wrchunkBody s = .ok t) :
    t.resBit = s.resBit ∧ ∀ a, t.byteAt .dbuf a = s.byteAt .dbuf a := by
  unfold wrchunkBody at h
  split at h
  · obtain rfl := Except.ok.inj h
    exact ⟨rfl, fun _ => rfl⟩
  · obtain ⟨src, -, h⟩ := bind_eq_ok.1 h
    exact bitWrite_leaves (w := .chunk s.argBit src) h

theorem rdchunkBody_resBit {s t : State} (h : rdchunkBody s = .ok t) : t.resBit = s.resBit := by
  unfold rdchunkBody at h
  split at h
  · obtain rfl := Except.ok.inj h
    rfl
  · obtain ⟨out, -, h⟩ := bind_eq_ok.1 h
    obtain ⟨u, hu, h⟩ := bind_eq_ok.1 h
    obtain rfl := Except.ok.inj h
    exact (congrArg State.resBit (storeBytes_frame hu).1 :)

theorem rdbitBody_byteAt {s t : State} (h : rdbitBody s = .ok t) (m : Store) (a : Nat) : t.byteAt m a = s.byteAt m a := by
  obtain ⟨x, -, h⟩ := bind_eq_ok.1 h
  obtain rfl := Except.ok.inj h
  cases m <;> rfl

/-- R27: only `RDBIT` writes `RES_BIT`. -/
theorem exec_command_resBit {i : Instr} {s t : State} (hi : i.fits .command = true) (hb : s.status.busy = false)
    (hne : i ≠ .rdbit) (h : exec i s = .next t) : t.resBit = s.resBit := by
  have hbody := h
  rw [exec_command hi hb, toOutcome_eq_next] at hbody
  cases i
  case rdbit => exact absurd rfl hne
  case rdchunk => exact (rdchunkBody_resBit hbody :)
  case setbit => exact (bitWrite_leaves (w := .set s.argBit) hbody).1
  case clrbit => exact (bitWrite_leaves (w := .clear s.argBit) hbody).1
  case wrchunk => exact (wrchunkBody_leaves hbody).1
  case compress =>
    rcases exec_compress_registers hb h with ⟨hreg, -⟩ | ⟨-, hreg⟩
    · exact (congrArg State.resBit hreg :)
    · exact (congrArg State.resBit hreg :)
  case decompress =>
    obtain ⟨u, hu, ⟨-, hreg⟩ | ⟨-, hreg⟩⟩ := decompressAlwaysCompletes s hb
    all_goals
      obtain rfl := Host.Outcome.next.inj (hu.symm.trans h)
      exact (congrArg State.resBit hreg :)
  all_goals simp [Instr.fits] at hi

/-- R28: only `RDCHUNK` writes DBUF. -/
theorem exec_command_dbuf {i : Instr} {s t : State} (hi : i.fits .command = true) (hb : s.status.busy = false)
    (hne : i ≠ .rdchunk) (h : exec i s = .next t) (a : Nat) : t.byteAt .dbuf a = s.byteAt .dbuf a := by
  have hbody := h
  rw [exec_command hi hb, toOutcome_eq_next] at hbody
  have hstart (c : BitVec 4) : (beginCommand c s).byteAt .dbuf a = s.byteAt .dbuf a := rfl
  cases i
  case rdchunk => exact absurd rfl hne
  case rdbit => exact (rdbitBody_byteAt hbody .dbuf a).trans (hstart _)
  case setbit => exact ((bitWrite_leaves (w := .set s.argBit) hbody).2 a).trans (hstart _)
  case clrbit => exact ((bitWrite_leaves (w := .clear s.argBit) hbody).2 a).trans (hstart _)
  case wrchunk => exact ((wrchunkBody_leaves hbody).2 a).trans (hstart _)
  case compress => exact exec_compress_byteAt_of_idle (by decide) (by decide) hb h a
  case decompress => exact exec_decompress_byteAt_of_idle (by decide) hb h a
  all_goals simp [Instr.fits] at hi

/-- What an instruction leaves, whichever it is: the operands, `RES_BIT` unless it is `RDBIT`, DBUF unless it is `RDCHUNK`. -/
theorem exec_leaves {i : Instr} {s t : State} (h : exec i s = .next t) :
    t.operands = s.operands ∧ (i ≠ .rdbit → t.resBit = s.resBit) ∧
      (i ≠ .rdchunk → ∀ a, t.byteAt .dbuf a = s.byteAt .dbuf a) := by
  cases hi : i.fits .command with
  | false =>
    rw [exec_streamCode hi, toOutcome_eq_next] at h
    obtain ⟨hop, hbit, hdbuf⟩ := runCode_leaves h
    exact ⟨hop, fun _ => hbit, fun _ => hdbuf⟩
  | true =>
    cases hb : s.status.busy with
    | true =>
      obtain rfl := Host.Outcome.next.inj ((exec_command_of_busy hb hi).symm.trans h)
      exact ⟨rfl, fun _ => rfl, fun _ _ => rfl⟩
    | false =>
      exact ⟨exec_command_operands hi hb h, fun hne => exec_command_resBit hi hb hne h, fun hne =>
        exec_command_dbuf hi hb hne h⟩

/-- Settles O50: a stream code writes PIX and DEC's registers; a command is a run of moves, none of which writes an operand. -/
theorem noInstructionWritesTheOperands : Obligations.NoInstructionWritesTheOperands := by
  intro i s t h
  obtain ⟨hop, hbit, hdbuf⟩ := exec_leaves h
  have kept {α : Type} (f : State → α) : f t.operands = f s.operands := congrArg f hop
  exact ⟨kept State.argWidth, kept State.argHeight, kept State.argPresent, kept State.argLen, kept State.argMem,
    kept State.argBase, kept State.argBit, hbit, hdbuf, kept State.caps, kept State.host, kept State.hostSaw⟩

/-! ### The results -/

/-- The result registers (R27). -/
def State.results (s : State) : Nat × Word32 × Word32 × Bool := (s.resLen, s.resWidth, s.resHeight, s.resBit)

/-- A move after which the command goes on leaves what it does not own. -/
theorem Moved.results {v : State → State} {C : Cause → Prop} {R : Nat → Word32 → Word32 → Prop} {s t : State}
    (h : Moved v C R s t) (hv : ∀ u : State, (v u).results = u.results ∧ (v u).status = u.status)
    (hb : t.status.busy = true) : t.results = s.results := by
  have hends {u : State} (hst : (v t).status = (v u).status) : u.status.busy = true := by
    rw [(hv t).2, (hv u).2] at hst
    rwa [← hst]
  rw [← (hv t).1, ← (hv s).1]
  cases h with
  | goesOn h => rw [h]
  | fails c _ h _ =>
    have hst : (v t).status = (v (raiseFail c s)).status := (congrArg State.status h :)
    exact absurd (hends hst) (by simp [raiseFail])
  | succeeds n w h _ h' =>
    exact absurd (hends (u := endWith n w h s) (by rw [h'])) (fun hn => Bool.noConfusion hn)
  | completes _ h => exact absurd (hends (u := complete s) (by rw [h])) (fun hn => Bool.noConfusion hn)

theorem unitMove_results {s t : State} (h : unitMove s = .ok t) (hb : t.status.busy = true) : t.results = s.results := by
  rcases unitMove_cases s with ⟨-, hm⟩ | ⟨-, -, hm⟩ | ⟨-, -, hm⟩
  all_goals rw [hm] at h
  · exact (decMove_moved h).results (fun _ => ⟨rfl, rfl⟩) hb
  · exact (encMove_moved h).results (fun _ => ⟨rfl, rfl⟩) hb
  · exact absurd (accessorStep_idle h) (by simp [hb])

theorem setArg_results (s : State) (n v : Nat) : (setArg s n v).results = s.results := by
  unfold setArg
  split <;> rfl

theorem blockMove_results {s t : State} (h : blockMove s = .next t) (hb : t.status.busy = true) : t.results = s.results := by
  rcases blockMove_cases h with ⟨-, hmove⟩ | ⟨-, rfl⟩
  · exact unitMove_results hmove hb
  · rfl

theorem hostWriteReg_results {s t : State} {n v : Nat} (h : hostWriteReg n v s = .ok t) (hb : t.status.busy = true) :
    t.results = s.results := by
  unfold hostWriteReg at h
  split_ifs at h
  case neg =>
    split at h
    all_goals obtain rfl := Except.ok.inj h
    · rfl
    · cases hb
  all_goals obtain rfl := Except.ok.inj h
  · rfl
  · exact setArg_results s n v
  · rfl
  · rfl

/-- Settles O53: the block's moves by what they do not own; a command line has ended; no host action writes a result but the reset
input, after which no command runs. -/
theorem resultsAreWrittenOnlyAtCompletion : Obligations.ResultsAreWrittenOnlyAtCompletion := by
  intro s t h hb
  suffices hresults : t.results = s.results by simpa only [State.results, Prod.mk.injEq] using hresults
  unfold step at h
  split at h
  next => exact blockMove_results h hb
  next => exact (blockMove_results h hb :)
  next =>
    split at h
    case isTrue =>
      rw [blockStep_eq, toOutcome_eq_next] at h
      exact unitMove_results h hb
    case isFalse hidle =>
      rcases issueCommand_cases h with ⟨i, hi, -, hexec⟩ | rfl
      · exact absurd (exec_command_ends hi (by simpa using hidle) hexec).busy (by simp [hb])
      · cases hb
  next => exact (hostWriteReg_results (toOutcome_eq_next.1 h) hb :)
  next =>
    obtain ⟨x, rfl⟩ := hostReadReg_cases (toOutcome_eq_next.1 h)
    rfl
  next =>
    obtain ⟨-, hbytes⟩ := hostWriteMem_cases (toOutcome_eq_next.1 h)
    exact (congrArg State.results (storeBytes_frame hbytes).1 :)
  next =>
    obtain ⟨x, rfl⟩ := hostReadMem_cases (toOutcome_eq_next.1 h)
    rfl
  next =>
    obtain rfl := Host.Outcome.next.inj h
    cases hb

end Sys2Proof.Machine
end

