-- ==== Sys2Proof/Proofs/VisibleState.lean ====
section
/-! PROOFS. Nothing but the visible registers and PIX, CMP and DBUF carries over from one command to the next (R38): two runs of a
command from states that agree in them, side by side. The working registers are written before they are read, and of SCR a row
reads only what its own scan has written (R175, R181). -/

namespace Sys2Proof.Machine

open Config (Store)

/-! ### Two runs side by side -/

/-- If `f` completes from two states of which `R` holds, `Q` holds of what it leads to. -/
def Same (R : State → State → Prop) (f : State → Res State) (Q : State → State → Prop) : Prop :=
  ∀ s s' t t', R s s' → f s = .ok t → f s' = .ok t' → Q t t'

/-- Two states that agree in what is visible, and of which `R` holds while the command runs. -/
def Goes (R : State → State → Prop) (t t' : State) : Prop := t'.visible = t.visible ∧ (t.status.busy = true → R t t')

theorem Same.bind {R Q P : State → State → Prop} {f g : State → Res State} (hf : Same R f Q) (hg : Same Q g P) :
    Same R (fun s => f s >>= g) P := by
  intro s s' t t' hR h h'
  obtain ⟨u, hu, h⟩ := bind_eq_ok.1 h
  obtain ⟨u', hu', h'⟩ := bind_eq_ok.1 h'
  exact hg u u' t t' (hf s s' u u' hR hu hu') h h'

theorem Same.whileBusy {R Q : State → State → Prop} {f : State → Res State} (hf : Same R f (Goes Q)) :
    Same (Goes R) (whileBusy f) (Goes Q) := by
  rintro s s' t t' ⟨hvis, hR⟩ h h'
  have hsame : s'.status.busy = s.status.busy := (congrArg (·.status.busy) hvis :)
  cases hb : s.status.busy with
  | true =>
    rw [whileBusy_of_busy hb] at h
    rw [whileBusy_of_busy (hsame.trans hb)] at h'
    exact hf s s' t t' (hR hb) h h'
  | false =>
    rw [whileBusy_of_idle hb] at h
    rw [whileBusy_of_idle (hsame.trans hb)] at h'
    obtain rfl := Except.ok.inj h
    obtain rfl := Except.ok.inj h'
    exact ⟨hvis, fun hbusy => absurd (hb.symm.trans hbusy) (by decide)⟩

/-- A case that both runs take alike. -/
theorem Same.ite {R Q : State → State → Prop} {p : State → Prop} [DecidablePred p] {f g : State → Res State}
    (hp : ∀ s s', R s s' → (p s' ↔ p s)) (hf : Same (fun s s' => R s s' ∧ p s) f Q)
    (hg : Same (fun s s' => R s s' ∧ ¬ p s) g Q) : Same R (fun s => if p s then f s else g s) Q := by
  intro s s' t t' hR h h'
  dsimp only at h h'
  by_cases hps : p s
  · rw [if_pos hps] at h
    rw [if_pos ((hp s s' hR).2 hps)] at h'
    exact hf s s' t t' ⟨hR, hps⟩ h h'
  · rw [if_neg hps] at h
    rw [if_neg fun hn => hps ((hp s s' hR).1 hn)] at h'
    exact hg s s' t t' ⟨hR, hps⟩ h h'

/-- The same operation on the same store. -/
theorem OnStore.same {m : Store} {f : State → Res State} (hf : OnStore m f) {s s' u u' : State} (hcaps : s'.caps = s.caps)
    (hmem : s'.mem m = s.mem m) (h : f s = .ok u) (h' : f s' = .ok u') : ∃ x, u = s.setMem m x ∧ u' = s'.setMem m x := by
  obtain ⟨x, hx, hx'⟩ := hf.agree hcaps hmem h
  exact ⟨x, hx, Except.ok.inj (h'.symm.trans hx')⟩

/-- The same operation on the same store, and what is made of the state then. -/
theorem written_same {α : Type} {m : Store} {f : State → Res State} (hf : OnStore m f) {s s' t t' : State} {g : State → State}
    {v : State → α} (hcaps : s'.caps = s.caps) (hmem : s'.mem m = s.mem m)
    (hg : ∀ x, v (g (s'.setMem m x)) = v (g (s.setMem m x))) (h : (f s >>= fun u => .ok (g u)) = .ok t)
    (h' : (f s' >>= fun u => .ok (g u)) = .ok t') : v t' = v t := by
  obtain ⟨u, hu, h⟩ := bind_eq_ok.1 h
  obtain ⟨u', hu', h'⟩ := bind_eq_ok.1 h'
  obtain rfl := Except.ok.inj h
  obtain rfl := Except.ok.inj h'
  obtain ⟨x, rfl, rfl⟩ := hf.same hcaps hmem hu hu'
  exact hg x

section
variable {s s' : State} {m : Store} (hcaps : s'.caps = s.caps) (hmem : s'.mem m = s.mem m)
include hmem

theorem byteAt_of_mem (a : Nat) : s'.byteAt m a = s.byteAt m a := by
  rw [State.byteAt, hmem, State.byteAt]

include hcaps

theorem bitRead_of_mem (base b : Nat) : bitRead s' m base b = bitRead s m base b :=
  bitRead_congr hcaps (sliceBit_congr (byteAt_of_mem hmem) base b)

theorem chunkRead_of_mem (base b n : Nat) : chunkRead s' m base b n = chunkRead s m base b n :=
  chunkRead_congr hcaps fun a _ _ => byteAt_of_mem hmem a

theorem loadBytes_of_mem (a n : Nat) : loadBytes s' m a n = loadBytes s m a n := by
  induction n generalizing a with
  | zero => rfl
  | succ n ih => simp only [loadBytes, ih, load, hcaps, byteAt_of_mem hmem]

end

theorem mem_of_visible {s s' : State} (h : s'.visible = s.visible) {m : Store} (hm : m ≠ .scr) : s'.mem m = s.mem m := by
  cases m with
  | pix => exact (congrArg State.pix h :)
  | cmp => exact (congrArg State.cmp h :)
  | dbuf => exact (congrArg State.dbuf h :)
  | scr => exact absurd rfl hm

theorem caps_of_visible {s s' : State} (h : s'.visible = s.visible) : s'.caps = s.caps := (congrArg State.caps h :)

/-! ### The accessor commands -/

/-- From states that agree in what is visible `f` answers alike. -/
def AnswersAlike (f : State → Res State) : Prop :=
  ∀ s s' t, s'.visible = s.visible → f s = .ok t → ∃ t', f s' = .ok t' ∧ t'.visible = t.visible

theorem argStore_of_visible {s s' : State} (h : s'.visible = s.visible) : argStore s' = argStore s :=
  (congrArg argStore h :)

theorem argStore_ne {m : Store} (s : State) (hpix : .pix ≠ m) (hcmp : .cmp ≠ m) : argStore s ≠ m := by
  unfold argStore
  split
  · exact hcmp
  · exact hpix

theorem rdbitBody_alike : AnswersAlike rdbitBody := by
  intro s s' t hv h
  obtain ⟨x, hx, h⟩ := bind_eq_ok.1 h
  obtain rfl := Except.ok.inj h
  have hread : bitRead s' (argStore s') s'.argBase s'.argBit = .ok x := by
    rw [argStore_of_visible hv, bitRead_of_mem (caps_of_visible hv) (mem_of_visible hv (argStore_ne s (by decide) (by decide))),
      ← hx]
    exact (congrArg (fun r : State => bitRead s (argStore s) r.argBase r.argBit) hv :)
  exact ⟨complete { s' with resBit := x }, by rw [rdbitBody, hread, ok_bind],
    (congrArg (fun r : State => (complete { r with resBit := x }).visible) hv :)⟩

/-- An operation on a store that is visible, and the completion. -/
theorem onStore_alike {m : Store} {f : State → Res State} (hf : OnStore m f) (hm : m ≠ .scr) {s s' t : State}
    (hv : s'.visible = s.visible) (h : (f s >>= fun u => .ok (complete u)) = .ok t) :
    ∃ t', (f s' >>= fun u => .ok (complete u)) = .ok t' ∧ t'.visible = t.visible := by
  obtain ⟨u, hu, h⟩ := bind_eq_ok.1 h
  obtain rfl := Except.ok.inj h
  obtain ⟨x, rfl, hx'⟩ := hf.agree (caps_of_visible hv) (mem_of_visible hv hm) hu
  refine ⟨complete (s'.setMem m x), by rw [hx', ok_bind], ?_⟩
  cases m with
  | scr => exact absurd rfl hm
  | pix => exact (congrArg (fun r : State => (complete (r.setMem .pix x)).visible) hv :)
  | cmp => exact (congrArg (fun r : State => (complete (r.setMem .cmp x)).visible) hv :)
  | dbuf => exact (congrArg (fun r : State => (complete (r.setMem .dbuf x)).visible) hv :)

theorem raiseFail_alike (c : Cause) {s s' : State} (hv : s'.visible = s.visible) :
    (raiseFail c s').visible = (raiseFail c s).visible := (congrArg (fun r => (raiseFail c r).visible) hv :)

section
variable {s s' : State} (hv : s'.visible = s.visible)
include hv

theorem argBase_of_visible : s'.argBase = s.argBase := (congrArg State.argBase hv :)

theorem argBit_of_visible : s'.argBit = s.argBit := (congrArg State.argBit hv :)

theorem argLen_of_visible : s'.argLen = s.argLen := (congrArg State.argLen hv :)

end

theorem setbitBody_alike : AnswersAlike setbitBody := by
  intro s s' t hv h
  rw [setbitBody, argStore_of_visible hv, argBase_of_visible hv, argBit_of_visible hv]
  exact onStore_alike (onStore_bitSet _ _ _) (argStore_ne s (by decide) (by decide)) hv h

theorem clrbitBody_alike : AnswersAlike clrbitBody := by
  intro s s' t hv h
  rw [clrbitBody, argStore_of_visible hv, argBase_of_visible hv, argBit_of_visible hv]
  exact onStore_alike (onStore_bitClear _ _ _) (argStore_ne s (by decide) (by decide)) hv h

theorem rdchunkBody_alike : AnswersAlike rdchunkBody := by
  intro s s' t hv h
  have hcaps := caps_of_visible hv
  have hlen := argLen_of_visible hv
  unfold rdchunkBody at h ⊢
  rw [hcaps, hlen]
  split at h
  case isTrue hlong =>
    obtain rfl := Except.ok.inj h
    rw [if_pos hlong]
    exact ⟨_, rfl, raiseFail_alike .badArgument hv⟩
  case isFalse hlong =>
    obtain ⟨out, hout, h⟩ := bind_eq_ok.1 h
    rw [if_neg hlong, argStore_of_visible hv, argBase_of_visible hv, argBit_of_visible hv,
      chunkRead_of_mem hcaps (mem_of_visible hv (argStore_ne s (by decide) (by decide))), hout, ok_bind]
    exact onStore_alike (onStore_storeBytes .dbuf 0 out) (by decide) hv h

theorem wrchunkBody_alike : AnswersAlike wrchunkBody := by
  intro s s' t hv h
  have hcaps := caps_of_visible hv
  have hlen := argLen_of_visible hv
  unfold wrchunkBody at h ⊢
  rw [hcaps, hlen]
  split at h
  case isTrue hlong =>
    obtain rfl := Except.ok.inj h
    rw [if_pos hlong]
    exact ⟨_, rfl, raiseFail_alike .badArgument hv⟩
  case isFalse hlong =>
    obtain ⟨src, hsrc, h⟩ := bind_eq_ok.1 h
    rw [if_neg hlong, loadBytes_of_mem hcaps (mem_of_visible hv (by decide)), hsrc, ok_bind, argStore_of_visible hv,
      argBase_of_visible hv, argBit_of_visible hv]
    exact onStore_alike (onStore_chunkWrite _ _ _ src) (argStore_ne s (by decide) (by decide)) hv h

/-! ### DECOMPRESS -/

/-- All that DEC reads or writes: not ENC's own registers and not SCR. -/
def State.decView (s : State) : State :=
  { s with estate := .idle, rc := 0, rowWhite := false, ext := 0, px := [], scr := { draw := 0, cells := [] } }

/-- What DEC reads before a chunk: `N` is still to be written (R206). -/
def State.decChunkView (s : State) : State := { s.decView with n := 0 }

/-- What DEC reads before a row: `CHK` is still to be written (R204). -/
def State.decRowView (s : State) : State := { s.decView with chk := 0, n := 0 }

theorem decRowAdvance_decRowView (s : State) : (decRowAdvance s).decRowView = decRowAdvance s.decRowView := rfl

theorem enterRow_decChunkView (s : State) : (enterRow s).decChunkView = enterRow s.decRowView := rfl

theorem endRow_decRowView (s : State) : (endRow s).decRowView = decRowAdvance s.decChunkView.decRowView := rfl

theorem setMem_pix_decRowView (s : State) (x : Mem) : (s.setMem .pix x).decRowView = s.decRowView.setMem .pix x := rfl

theorem memories_of_decView {s s' : State} (h : s'.decView = s.decView) :
    s'.caps = s.caps ∧ s'.mem .cmp = s.mem .cmp ∧ s'.mem .pix = s.mem .pix :=
  ⟨(congrArg State.caps h :), (congrArg State.cmp h :), (congrArg State.pix h :)⟩

/-- The registers that `Validate()` and the initialisation write (R163, R202). -/
def enterDecoder (l w h : Nat) (d : DState) (s : State) : State :=
  { s with l := l, w := w, h := h, cur := h, row := 0, dstate := d }

theorem validated_eq (s : State) :
    validated s = enterDecoder s.argLen (headerWidth s).toNat (headerHeight s).toNat
      (if headerHeight s = 0 then .success else .readPresence) s := rfl

theorem validated_visible (s : State) : (validated s).visible = s.visible := rfl

theorem enterDecoder_decRowView (l w h : Nat) (d : DState) (s : State) :
    (enterDecoder l w h d s).decRowView = (enterDecoder l w h d s.visible).decRowView := rfl

/-- `Validate()` and the initialisation read nothing that is not visible (R163, R202). -/
theorem fetchRun_fetchHeader_same :
    Same (fun s s' => s'.visible = s.visible) (fetchRun fetchHeader) (Goes fun s s' => s'.decRowView = s.decRowView) := by
  intro s s' t t' hv h h'
  have hbyte (a : Nat) : s'.byteAt .cmp a = s.byteAt .cmp a := byteAt_of_mem (mem_of_visible hv (by decide)) a
  have hwidth : headerWidth s' = headerWidth s := by simp only [headerWidth, hbyte]
  have hheight : headerHeight s' = headerHeight s := by simp only [headerHeight, hbyte]
  have hpresent : s'.argPresent = s.argPresent := (congrArg State.argPresent hv :)
  have hfails (c : Cause) :
      Goes (fun s s' => s'.decRowView = s.decRowView) (raiseFail c (latchLength s)) (raiseFail c (latchLength s')) :=
    ⟨(congrArg (fun r => (raiseFail c r).visible) hv :), fun hb => Bool.noConfusion hb⟩
  rw [fetchRun_fetchHeader_eq] at h h'
  rw [hpresent, caps_of_visible hv, argLen_of_visible hv, hbyte, hwidth, hheight] at h'
  split_ifs at h h'
  all_goals
    obtain rfl := Except.ok.inj h
    obtain rfl := Except.ok.inj h'
  case pos => exact ⟨raiseFail_alike .inputAbsent hv, fun hb => Bool.noConfusion hb⟩
  case neg =>
    refine ⟨?_, fun _ => ?_⟩
    · rw [validated_visible, validated_visible, hv]
    · change (validated s').decRowView = (validated s).decRowView
      rw [validated_eq, validated_eq, hwidth, hheight, argLen_of_visible hv, enterDecoder_decRowView, hv,
        ← enterDecoder_decRowView]
  all_goals exact hfails _

/-- What two fetches from states that DEC cannot tell apart give. -/
inductive FetchedSame (s s' : State) : Res Fetched → Res Fetched → Prop
  | code (i : Instr) : FetchedSame s s' (.ok (.code i s)) (.ok (.code i s'))
  | failed (c : Cause) : FetchedSame s s' (.ok (.failed (decFail c s))) (.ok (.failed (decFail c s')))
  | stops (e : Stop) (r : Res Fetched) : FetchedSame s s' (.error e) r

/-- A fetch that goes on by a value both runs read alike. -/
theorem read_same {s s' : State} {α : Type} {r : Res α} {f f' : α → Res Fetched} (h : ∀ x, FetchedSame s s' (f x) (f' x)) :
    FetchedSame s s' (r >>= f) (r >>= f') := by
  cases r with
  | error e => exact .stops e _
  | ok x => exact h x

section
variable {s s' : State} (hv : s'.decView = s.decView)
include hv

theorem give_same (bits : List Bool) : FetchedSame s s' (fetchChunk.give s bits) (fetchChunk.give s' bits) := by
  have hn : s'.n = s.n := (congrArg State.n hv :)
  unfold fetchChunk.give
  rw [hn]
  split
  · exact .code _
  · exact .stops _ _

theorem fetchLiteral_same : FetchedSame s s' (fetchLiteral s) (fetchLiteral s') := by
  have hn : s'.n = s.n := (congrArg State.n hv :)
  have hcur : s'.cur = s.cur := (congrArg State.cur hv :)
  have hl : s'.l = s.l := (congrArg State.l hv :)
  obtain ⟨hcaps, hcmp, -⟩ := memories_of_decView hv
  unfold fetchLiteral
  rw [hn, hcur, hl, chunkRead_of_mem hcaps hcmp]
  split
  · exact .failed _
  · exact read_same fun out => give_same hv _

theorem fetchSecond_same : FetchedSame s s' (fetchSecond s) (fetchSecond s') := by
  have hcur : s'.cur = s.cur := (congrArg State.cur hv :)
  have hl : s'.l = s.l := (congrArg State.l hv :)
  obtain ⟨hcaps, hcmp, -⟩ := memories_of_decView hv
  unfold fetchSecond
  rw [hcur, hl, bitRead_of_mem hcaps hcmp]
  split
  · exact .failed _
  · refine read_same fun x => ?_
    cases x with
    | true => exact fetchLiteral_same hv
    | false => exact give_same hv _

theorem fetchChunk_same : FetchedSame s s' (fetchChunk s) (fetchChunk s') := by
  have hcur : s'.cur = s.cur := (congrArg State.cur hv :)
  have hl : s'.l = s.l := (congrArg State.l hv :)
  obtain ⟨hcaps, hcmp, -⟩ := memories_of_decView hv
  rw [fetchChunk_eq_fetchSecond, fetchChunk_eq_fetchSecond, hcur, hl, bitRead_of_mem hcaps hcmp]
  split
  · exact .failed _
  · refine read_same fun x => ?_
    cases x with
    | true => exact fetchSecond_same hv
    | false => exact give_same hv _

end

/-- A chunk code: its pixels, or the end of the command. -/
theorem fetchRun_fetchChunk_same :
    Same (fun s s' => s'.decView = s.decView) (fetchRun fetchChunk) (Goes fun s s' => s'.decChunkView = s.decChunkView) := by
  intro s s' t t' hv h h'
  have hfetch := fetchChunk_same hv
  obtain ⟨x, hx, h⟩ := bind_eq_ok.1 h
  obtain ⟨x', hx', h'⟩ := bind_eq_ok.1 h'
  rw [hx, hx'] at hfetch
  cases hfetch with
  | code i =>
    have hi := (fetchChunk_code hx).2
    have hn : s'.n = s.n := (congrArg State.n hv :)
    have haddr : chunkAddr s' = chunkAddr s := (congrArg chunkAddr hv :)
    have hrun : runCode i s = .ok t := h
    have hrun' : runCode i s' = .ok t' := h'
    rw [runCode_of_fits hi] at hrun hrun'
    rw [hn, haddr] at hrun'
    obtain ⟨hcaps, -, hpix⟩ := memories_of_decView hv
    have hview : t'.decView = t.decView :=
      written_same (onStore_storeBytes .pix _ _) hcaps hpix
        (fun x => (congrArg (fun r => (chunkDone (encode i).length (r.setMem .pix x)).decView) hv :)) hrun hrun'
    exact ⟨(congrArg State.visible hview :), fun _ => congrArg (fun r : State => { r with n := 0 }) hview⟩
  | failed c =>
    obtain rfl := Except.ok.inj h
    obtain rfl := Except.ok.inj h'
    exact ⟨(congrArg (fun r => (decFail c r).visible) hv :), fun hb => Bool.noConfusion hb⟩

/-- The chunks that are left of a row. -/
theorem decompressChunks_same (k l : Nat) :
    Same (fun s s' => DecChunks k l s ∧ s'.decChunkView = s.decChunkView) (decompressChunks l)
      (Goes fun s s' => DecChunks k 0 s ∧ s'.decChunkView = s.decChunkView) := by
  induction l with
  | zero =>
    rintro s s' t t' ⟨hs, hv⟩ h h'
    obtain rfl := Except.ok.inj h
    obtain rfl := Except.ok.inj h'
    exact ⟨(congrArg State.visible hv :), fun _ => ⟨hs, hv⟩⟩
  | succ l ih =>
    have hchunk : Same (fun s s' => DecChunks k (l + 1) s ∧ s'.decChunkView = s.decChunkView)
        (fun s => dReadChunk s >>= fetchRun fetchChunk)
        (Goes fun s s' => DecChunks k l s ∧ s'.decChunkView = s.decChunkView) := by
      rintro s s' t t' ⟨hs, hv⟩ h h'
      have hnext := (decompressChunk_plays k l s hs).2 t h
      have hlt : s.chk < chunks s.w := by
        have hchunks := hs.chunks
        omega
      have hchk : s'.chk = s.chk := (congrArg State.chk hv :)
      have hw : s'.w = s.w := (congrArg State.w hv :)
      dsimp only at h h'
      rw [dReadChunk_of_lt hlt, ok_bind] at h
      rw [dReadChunk_of_lt (by rwa [hchk, hw]), ok_bind] at h'
      have henter : (enterChunk s').decView = (enterChunk s).decView := (congrArg (fun r => (enterChunk r).decView) hv :)
      obtain ⟨hvis, hview⟩ := fetchRun_fetchChunk_same _ _ t t' henter h h'
      exact ⟨hvis, fun hb => ⟨hnext hb, hview hb⟩⟩
    intro s s' t t' hR h h'
    have heq (r : State) :
        decompressChunks (l + 1) r = (dReadChunk r >>= fetchRun fetchChunk) >>= whileBusy (decompressChunks l) := by
      rw [decompressChunks, bind_assoc]
    rw [heq] at h h'
    exact (hchunk.bind ih.whileBusy) s s' t t' hR h h'

theorem presence0_dstate {s t : State} (h : runCode .p0 s = .ok t) : t.dstate ≠ .readChunk := by
  obtain ⟨u, -, h⟩ := bind_eq_ok.1 h
  obtain rfl := Except.ok.inj h
  rw [decRowAdvance_dstate]
  split <;> decide

/-- The presence code of a row. -/
theorem fetchRun_fetchPresence_same :
    Same (fun s s' => s'.decRowView = s.decRowView) (fetchRun fetchPresence) fun t t' =>
      t'.decRowView = t.decRowView ∧ (t.dstate = .readChunk → t'.decChunkView = t.decChunkView) := by
  intro s s' t t' hv h h'
  have hcaps : s'.caps = s.caps := (congrArg State.caps hv :)
  have hcmp : s'.mem .cmp = s.mem .cmp := (congrArg State.cmp hv :)
  have hpix : s'.mem .pix = s.mem .pix := (congrArg State.pix hv :)
  have hrow : s'.row = s.row := (congrArg State.row hv :)
  have hw : s'.w = s.w := (congrArg State.w hv :)
  have haddr : rowAddr s' = rowAddr s := (congrArg rowAddr hv :)
  obtain ⟨x, hx, h⟩ := bind_eq_ok.1 h
  obtain ⟨x', hx', h'⟩ := bind_eq_ok.1 h'
  obtain ⟨p, hp, hx⟩ := bind_eq_ok.1 hx
  obtain ⟨p', hp', hx'⟩ := bind_eq_ok.1 hx'
  rw [hrow, bitRead_of_mem hcaps hcmp] at hp'
  obtain rfl := Except.ok.inj (hp.symm.trans hp')
  obtain rfl := Except.ok.inj hx
  obtain rfl := Except.ok.inj hx'
  cases p with
  | true =>
    obtain rfl := Except.ok.inj h
    obtain rfl := Except.ok.inj h'
    have hview : (enterRow s').decChunkView = (enterRow s).decChunkView := by
      rw [enterRow_decChunkView, hv, ← enterRow_decChunkView]
    exact ⟨congrArg (fun r : State => { r with chk := 0 }) hview, fun _ => hview⟩
  | false =>
    have hstores (r : State) :
        runCode .p0 r = storeBytes r .pix (rowAddr r) (List.replicate r.w Config.white) >>= fun u => .ok (decRowAdvance u) := rfl
    have hrun : runCode .p0 s = .ok t := h
    have hrun' : runCode .p0 s' = .ok t' := h'
    have hd : t.dstate ≠ .readChunk := presence0_dstate hrun
    rw [hstores] at hrun hrun'
    rw [haddr, hw] at hrun'
    exact ⟨written_same (onStore_storeBytes .pix _ _) hcaps hpix (v := State.decRowView) (fun x => by
      rw [decRowAdvance_decRowView, setMem_pix_decRowView, hv, ← setMem_pix_decRowView, ← decRowAdvance_decRowView]) hrun hrun',
      fun hc => absurd hc hd⟩

/-- `RowDone` after the last chunk (R206, R213). -/
theorem rowDone_same (k : Nat) :
    Same (fun s s' => DecChunks k 0 s ∧ s'.decChunkView = s.decChunkView)
      (fun s => dReadChunk s >>= fun t => .ok (decRowAdvance t))
      (Goes fun s s' => DecRows k s ∧ s'.decRowView = s.decRowView) := by
  rintro s s' t t' ⟨hs, hv⟩ h h'
  have hnext := (rowDone_plays k s hs).2 t h
  have hchk : s'.chk = s.chk := (congrArg State.chk hv :)
  have hw : s'.w = s.w := (congrArg State.w hv :)
  dsimp only at h h'
  rw [dReadChunk_of_eq hs.chunks, ok_bind] at h
  rw [dReadChunk_of_eq (by rw [hchk, hw]; exact hs.chunks), ok_bind] at h'
  have hview : (endRow s').decRowView = (endRow s).decRowView := by rw [endRow_decRowView, hv, ← endRow_decRowView]
  have ht : endRow s = t := Except.ok.inj h
  have ht' : endRow s' = t' := Except.ok.inj h'
  rw [ht, ht'] at hview
  exact ⟨(congrArg State.visible hview :), fun hb => ⟨hnext hb, hview⟩⟩

theorem decompressRow_same (k : Nat) :
    Same (fun s s' => DecRows (k + 1) s ∧ s'.decRowView = s.decRowView) decompressRow
      (Goes fun s s' => DecRows k s ∧ s'.decRowView = s.decRowView) := by
  have hpresence : Same (fun s s' => DecRows (k + 1) s ∧ s'.decRowView = s.decRowView) (fetchRun fetchPresence) fun t t' =>
      (DecRows k t ∧ t.dstate ≠ .readChunk ∨ DecChunks k (chunks t.w) t) ∧ t'.decRowView = t.decRowView ∧
        (t.dstate = .readChunk → t'.decChunkView = t.decChunkView) := by
    rintro s s' t t' ⟨hs, hv⟩ h h'
    exact ⟨(fetchPresence_plays k s hs).2 t h, fetchRun_fetchPresence_same s s' t t' hv h h'⟩
  have hchunks : Same (fun s s' => DecChunks k (chunks s.w) s ∧ s'.decChunkView = s.decChunkView)
      (fun s => decompressChunks (chunks s.w) s) (Goes fun s s' => DecChunks k 0 s ∧ s'.decChunkView = s.decChunkView) := by
    rintro s s' t t' ⟨hs, hv⟩ h h'
    have hw : s'.w = s.w := (congrArg State.w hv :)
    dsimp only at h h'
    rw [hw] at h'
    exact decompressChunks_same k (chunks s.w) s s' t t' ⟨hs, hv⟩ h h'
  have hencoded := hchunks.bind (rowDone_same k).whileBusy
  refine hpresence.bind (Same.ite (fun s s' hR => ?_) ?_ ?_)
  · have hd : s'.dstate = s.dstate := (congrArg State.dstate hR.2.1 :)
    rw [hd]
  · rintro s s' t t' ⟨⟨hs, -, hv⟩, hd⟩ h h'
    rcases hs with ⟨-, hne⟩ | hs
    · exact absurd hd hne
    · exact hencoded s s' t t' ⟨hs, hv hd⟩ h h'
  · rintro s s' t t' ⟨⟨hs, hv, -⟩, hd⟩ h h'
    obtain rfl := Except.ok.inj h
    obtain rfl := Except.ok.inj h'
    rcases hs with ⟨hs, -⟩ | hs
    · exact ⟨(congrArg State.visible hv :), fun _ => ⟨hs, hv⟩⟩
    · exact absurd hs.dstate hd

theorem decompressRows_same (k : Nat) :
    Same (fun s s' => DecRows k s ∧ s'.decRowView = s.decRowView) (decompressRows k)
      (Goes fun s s' => DecRows 0 s ∧ s'.decRowView = s.decRowView) := by
  induction k with
  | zero =>
    rintro s s' t t' ⟨hs, hv⟩ h h'
    obtain rfl := Except.ok.inj h
    obtain rfl := Except.ok.inj h'
    exact ⟨(congrArg State.visible hv :), fun _ => ⟨hs, hv⟩⟩
  | succ k ih => exact (decompressRow_same k).bind ih.whileBusy

theorem decompressBody_same :
    Same (fun s s' => DecAt .validate s ∧ s'.visible = s.visible) decompressBody fun t t' => t'.visible = t.visible := by
  have hheader : Same (fun s s' => DecAt .validate s ∧ s'.visible = s.visible) (fetchRun fetchHeader)
      (Goes fun s s' => DecRows s.h s ∧ s'.decRowView = s.decRowView) := by
    rintro s s' t t' ⟨hs, hv⟩ h h'
    obtain ⟨hvis, hview⟩ := fetchRun_fetchHeader_same s s' t t' hv h h'
    exact ⟨hvis, fun hb => ⟨(fetchHeader_plays s hs).2 t h hb, hview hb⟩⟩
  have hrows : Same (fun s s' => DecRows s.h s ∧ s'.decRowView = s.decRowView) (fun s => decompressRows s.h s)
      (Goes fun s s' => DecRows 0 s ∧ s'.decRowView = s.decRowView) := by
    rintro s s' t t' ⟨hs, hv⟩ h h'
    have hh : s'.h = s.h := (congrArg State.h hv :)
    dsimp only at h h'
    rw [hh] at h'
    exact decompressRows_same s.h s s' t t' ⟨hs, hv⟩ h h'
  have hend : Same (fun s s' => DecRows 0 s ∧ s'.decRowView = s.decRowView) dSuccess (Goes fun _ _ => True) := by
    rintro s s' t t' ⟨-, hv⟩ h h'
    obtain rfl := Except.ok.inj h
    obtain rfl := Except.ok.inj h'
    exact ⟨(congrArg (fun r => (decSuccess r).visible) hv :), fun _ => trivial⟩
  have hbody := hheader.bind (hrows.bind hend.whileBusy).whileBusy
  intro s s' t t' hR h h'
  exact (hbody s s' t t' hR h h').1

/-- `DECOMPRESS` always completes (R288). -/
theorem decompressBody_alike (s s' t : State) (hv : s'.visible = s.visible)
    (h : decompressBody (beginCommand 7 s) = .ok t) (hb : s'.status.busy = false) :
    ∃ t', decompressBody (beginCommand 7 s') = .ok t' ∧ t'.visible = t.visible := by
  obtain ⟨t', ht', -⟩ := decompressAlwaysCompletes s' hb
  have hrun : decompressBody (beginCommand 7 s') = .ok t' := by
    rw [← toOutcome_eq_next, ← runCommand_of_idle hb]
    exact ht'
  have hstart : (beginCommand 7 s').visible = (beginCommand 7 s).visible :=
    (congrArg (fun r => (beginCommand 7 r).visible) hv :)
  exact ⟨t', hrun, decompressBody_same _ _ t t' ⟨⟨rfl, rfl⟩, hstart⟩ h hrun⟩

end Sys2Proof.Machine
end

