-- ==== Sys2Proof/Proofs/CompressAlike.lean ====
section
/-! PROOFS. `COMPRESS` from two states that agree in what is visible (R38), and with it the statement for every command. What a row
leaves in `RC` and in the part of SCR that it appends is known from its pixels alone: its codes and the zeros of R175. -/

namespace Sys2Proof.Machine

open Config (Store)

/-! ### What ENC reads -/

/-- What ENC reads between the entry checks and the header: besides the visible part the size it has latched (R171). -/
def State.sizeView (s : State) : State := { s.visible with w := s.w, h := s.h }

/-- What ENC reads between two rows: neither the row's own registers nor SCR. -/
def State.encView (s : State) : State :=
  { s with l := 0, chk := 0, n := 0, dstate := .idle, rc := 0, rowWhite := false, px := [], scr := { draw := 0, cells := [] } }

theorem encRowAdvance_encView (s : State) : (encRowAdvance s).encView = encRowAdvance s.encView := rfl

theorem setMem_cmp_encView (s : State) (x : Mem) : (s.setMem .cmp x).encView = s.encView.setMem .cmp x := rfl

section
variable {s s' : State} (hv : s'.encView = s.encView)
include hv

theorem visible_of_encView : s'.visible = s.visible := (congrArg State.visible hv :)

theorem estate_of_encView : s'.estate = s.estate := (congrArg State.estate hv :)

theorem row_of_encView : s'.row = s.row := (congrArg State.row hv :)

theorem cur_of_encView : s'.cur = s.cur := (congrArg State.cur hv :)

theorem w_of_encView : s'.w = s.w := (congrArg State.w hv :)

theorem currentRow_of_encView : currentRow s' = currentRow s :=
  currentRow_congr (w_of_encView hv) (row_of_encView hv) (byteAt_of_mem (mem_of_visible (visible_of_encView hv) (by decide)))

theorem encRowAdvance_of_encView (x : Mem) :
    (encRowAdvance (s'.setMem .cmp x)).encView = (encRowAdvance (s.setMem .cmp x)).encView := by
  rw [encRowAdvance_encView, setMem_cmp_encView, hv, ← setMem_cmp_encView, ← encRowAdvance_encView]

end

/-! ### The scan of a row -/

theorem OnStore.mem_other {m m' : Store} {f : State → Res State} (hf : OnStore m f) (hm : m' ≠ m) {s t : State}
    (h : f s = .ok t) : t.mem m' = s.mem m' := by
  obtain ⟨x, rfl, -⟩ := hf.agree rfl rfl h
  exact setMem_mem_other s m m' x hm

section
variable {s t : State} {m : Store} (hm : m ≠ .scr)
include hm

theorem eRowInit_mem (h : eRowInit s = .ok t) : t.mem m = s.mem m := by
  obtain ⟨u, hu, h⟩ := bind_eq_ok.1 h
  obtain rfl := Except.ok.inj h
  rw [← (onStore_storeBytes .scr 0 _).mem_other hm hu]
  cases m <;> rfl

theorem eEmitWhite_mem (h : eEmitWhite s = .ok t) : t.mem m = s.mem m := by
  obtain ⟨u, hu, h⟩ := bind_eq_ok.1 h
  obtain rfl := Except.ok.inj h
  rw [← (onStore_bitClear .scr 0 s.rc).mem_other hm hu]
  cases m <;> rfl

theorem eEmitBlack_mem (h : eEmitBlack s = .ok t) : t.mem m = s.mem m := by
  obtain ⟨u, hu, h⟩ := bind_eq_ok.1 h
  obtain ⟨v, hv, h⟩ := bind_eq_ok.1 h
  obtain rfl := Except.ok.inj h
  rw [← (onStore_bitSet .scr 0 s.rc).mem_other hm hu, ← (onStore_bitClear .scr 0 (s.rc + 1)).mem_other hm hv]
  cases m <;> rfl

theorem eEmitLiteral_mem (h : eEmitLiteral s = .ok t) : t.mem m = s.mem m := by
  obtain ⟨u, hu, h⟩ := bind_eq_ok.1 h
  obtain ⟨v, hv, h⟩ := bind_eq_ok.1 h
  obtain ⟨x, hx, h⟩ := bind_eq_ok.1 h
  obtain rfl := Except.ok.inj h
  rw [← (onStore_bitSet .scr 0 s.rc).mem_other hm hu, ← (onStore_bitSet .scr 0 (s.rc + 1)).mem_other hm hv,
    ← (onStore_chunkWrite .scr 0 (s.rc + 2) s.px).mem_other hm hx]
  cases m <;> rfl

theorem compressChunk_mem (h : compressChunk s = .ok t) : t.mem m = s.mem m := by
  obtain ⟨u, hu, h⟩ := bind_eq_ok.1 h
  have hread : u.mem m = s.mem m := by
    obtain ⟨px, -, hu⟩ := bind_eq_ok.1 hu
    obtain rfl := Except.ok.inj hu
    cases m <;> rfl
  have hestate : u.estate = .emitWhite ∨ u.estate = .emitBlack ∨ u.estate = .emitLiteral := by
    simpa [encSuccessors] using eClassify_estate hu
  rw [← hread]
  rcases hestate with he | he | he
  all_goals rw [encStep, he] at h
  · exact eEmitWhite_mem hm h
  · exact eEmitBlack_mem hm h
  · exact eEmitLiteral_mem hm h

theorem compressChunks_mem {k : Nat} (h : compressChunks k s = .ok t) : t.mem m = s.mem m := by
  induction k generalizing s with
  | zero =>
    obtain rfl := Except.ok.inj h
    rfl
  | succ k ih =>
    obtain ⟨u, hu, h⟩ := bind_eq_ok.1 h
    exact (ih h).trans (compressChunk_mem hm hu)

end

/-- The scratch of a scanned row: the row's codes, and zeros up to its end (R175). -/
theorem RowScanned.bit {s s1 t : State} (hs : RowScanned s t) (h1 : eRowInit s = .ok s1)
    (h : compressChunks (chunks s1.w) s1 = .ok t) {k : Nat} (hk : k < 8 * scratchBytes s.w) :
    sliceBit t .scr 0 k = (encodeAll (rowCodes (currentRow s))).getD k false := by
  have hrc := hs.rc
  rcases Nat.lt_or_ge k (encodeAll (rowCodes (currentRow s))).length with hin | hout
  · have hbit := hs.codes k _ (List.getElem?_eq_getElem hin)
    rw [Nat.zero_add] at hbit
    rw [hbit, List.getD_eq_getElem _ _ hin]
  · rw [List.getD_eq_default _ _ hout]
    exact scratch_zeros_of_scan h1 h (by omega) hk

/-- Two scanned rows that are alike to what follows. -/
structure ScannedAlike (t t' : State) : Prop where
  view  : t'.encView = t.encView
  rc    : t'.rc = t.rc
  bytes : ∀ a, a < ceil8 t.rc → t'.byteAt .scr a = t.byteAt .scr a

theorem encView_of_scanned {s s' t t' : State} (hv : s'.encView = s.encView) (hfixed : t.rowFixed = s.rowFixed)
    (hfixed' : t'.rowFixed = s'.rowFixed) (hestate : t'.estate = t.estate) (hmem : ∀ m, m ≠ .scr → t.mem m = s.mem m)
    (hmem' : ∀ m, m ≠ .scr → t'.mem m = s'.mem m) : t'.encView = t.encView := by
  have hvis := visible_of_encView hv
  have hregs (r : State) :
      r.encView.registers = { { r.rowFixed with l := 0, dstate := .idle } with estate := r.estate } := rfl
  have hfix : { s'.rowFixed with l := 0, dstate := .idle } = { s.rowFixed with l := 0, dstate := .idle } :=
    (congrArg State.rowFixed hv :)
  refine state_eq_of_registers ?_ fun m => ?_
  · rw [hregs, hregs, hfixed, hfixed', hestate]
    exact congrArg (fun r : State => { r with estate := t.estate }) hfix
  · have hread (hm : m ≠ .scr) : t'.mem m = t.mem m := by rw [hmem m hm, hmem' m hm, mem_of_visible hvis hm]
    cases m with
    | scr => rfl
    | pix => exact (hread (by decide) :)
    | cmp => exact (hread (by decide) :)
    | dbuf => exact (hread (by decide) :)

theorem rowScan_same {s s' s1 s1' t t' : State} (hw : 0 < s.w) (hv : s'.encView = s.encView) (h1 : eRowInit s = .ok s1)
    (h1' : eRowInit s' = .ok s1') (h : compressChunks (chunks s1.w) s1 = .ok t) (h' : compressChunks (chunks s1'.w) s1' = .ok t') :
    ScannedAlike t t' := by
  have hsame := w_of_encView hv
  have hrow := currentRow_of_encView hv
  have hscan := rowScanned_of_ok hw h1 h
  have hscan' := rowScanned_of_ok (hsame.symm ▸ hw) h1' h'
  have hrc : t'.rc = t.rc := by rw [hscan.rc, hscan'.rc, hrow]
  have hestate : t'.estate = t.estate := by rw [hscan.estate, hscan'.estate, hrow]
  refine ⟨?_, hrc, fun a ha => byteAt_eq_of_sliceBit fun i hi => ?_⟩
  · exact encView_of_scanned hv hscan.fixed hscan'.fixed hestate
      (fun m hm => (compressChunks_mem hm h).trans (eRowInit_mem hm h1))
      fun m hm => (compressChunks_mem hm h').trans (eRowInit_mem hm h1')
  · have hle := (length_encodeAll_rowCodes (currentRow s)).2
    rw [← hscan.rc, length_currentRow] at hle
    have htw : t.w = s.w := (congrArg State.w hscan.fixed :)
    have hceil : ceil8 t.rc ≤ scratchBytes s.w := htw ▸ ceil8_rc_le (s := t) (htw ▸ hle)
    rw [hscan'.bit h1' h' (by rw [hsame]; omega), hrow, ← hscan.bit h1 h (by omega), sliceBit_eight_mul_add _ _ _ hi]

/-! ### The end of a row -/

section
variable {s s' t t' : State} (ha : ScannedAlike s s')
include ha

theorem eRowWhite_same (h : eRowWhite s = .ok t) (h' : eRowWhite s' = .ok t') : t'.encView = t.encView := by
  have hvis := visible_of_encView ha.view
  rw [eRowWhite, row_of_encView ha.view] at h'
  exact written_same (onStore_bitClear .cmp payloadBase s.row) (caps_of_visible hvis) (mem_of_visible hvis (by decide))
    (encRowAdvance_of_encView ha.view) h h'

theorem eRowAppend_same (h : eRowAppend s = .ok t) (h' : eRowAppend s' = .ok t') : t'.encView = t.encView := by
  have hvis := visible_of_encView ha.view
  have hcaps := caps_of_visible hvis
  rw [eRowAppend, row_of_encView ha.view, cur_of_encView ha.view, ha.rc] at h'
  obtain ⟨u, hu, h⟩ := bind_eq_ok.1 h
  obtain ⟨u', hu', h'⟩ := bind_eq_ok.1 h'
  obtain ⟨x, rfl, rfl⟩ := (onStore_bitSet .cmp payloadBase s.row).same hcaps (mem_of_visible hvis (by decide)) hu hu'
  obtain ⟨src, hsrc, h⟩ := bind_eq_ok.1 h
  obtain ⟨src', hsrc', h'⟩ := bind_eq_ok.1 h'
  have hsame : src' = src := by
    rw [loadBytes_eq_ok hsrc, loadBytes_eq_ok hsrc']
    refine List.map_congr_left fun a hlt => ?_
    rw [Nat.zero_add]
    exact ha.bytes a (List.mem_range.1 hlt)
  rw [hsame] at h'
  refine written_same (onStore_chunkWrite .cmp payloadBase s.cur src) (s := s.setMem .cmp x) (s' := s'.setMem .cmp x)
    (g := fun r => encRowAdvance { r with cur := s.cur + s.rc }) hcaps rfl (fun y => ?_) h h'
  exact congrArg (fun r : State => { r with cur := s.cur + s.rc }) (encRowAdvance_of_encView ha.view y)

/-- R180, R181: the row ends as `ESTATE` chose. -/
theorem rowEnd_same {k : Nat} (hs : EncChunks k 0 s) (h : encStep s = .ok t) (h' : encStep s' = .ok t') :
    t'.encView = t.encView := by
  obtain ⟨e, he, -, hend⟩ := hs.inRow
  have hestate := (estate_of_encView ha.view).trans he.estate
  rcases hend rfl with rfl | rfl
  all_goals
    rw [encStep, he.estate] at h
    rw [encStep, hestate] at h'
  · exact eRowWhite_same ha h h'
  · exact eRowAppend_same ha h h'

end

/-! ### The rows -/

theorem eGrow_same (k : Nat) :
    Same (fun s s' => EncRows (k + 1) s ∧ s'.encView = s.encView) eGrow
      (Goes fun s s' => EncInRow .rowInit k s ∧ s'.encView = s.encView) := by
  rintro s s' t t' ⟨hs, hv⟩ h h'
  have hnext := (eGrow_plays k s hs).2 t h
  have hvis := visible_of_encView hv
  have hcaps := caps_of_visible hvis
  have hneed : need s' = need s := (congrArg need hv :)
  have hext : s'.ext = s.ext := (congrArg State.ext hv :)
  unfold eGrow at h h'
  rw [hcaps, hneed, hext] at h'
  split at h
  case isTrue hfull =>
    rw [if_pos hfull] at h'
    obtain rfl := Except.ok.inj h
    obtain rfl := Except.ok.inj h'
    exact ⟨(congrArg (fun r => (raiseFail .capacity (forget r .cmp s.ext)).visible) hv :), fun hb => Bool.noConfusion hb⟩
  case isFalse hroom =>
    rw [if_neg hroom] at h'
    have hview : t'.encView = t.encView :=
      written_same (onStore_storeBytes .cmp s.ext _) (g := fun r => { r with ext := max s.ext (need s), estate := .rowInit }) hcaps
        (mem_of_visible hvis (by decide))
        (fun x => (congrArg (fun r : State => { r.setMem .cmp x with ext := max s.ext (need s), estate := .rowInit }) hv :)) h h'
    exact ⟨visible_of_encView hview, fun hb => ⟨hnext hb, hview⟩⟩

theorem compressRow_same (k : Nat) :
    Same (fun s s' => EncRows (k + 1) s ∧ s'.encView = s.encView) compressRow
      (Goes fun s s' => EncRows k s ∧ s'.encView = s.encView) := by
  have hrow : Same (fun s s' => EncInRow .rowInit k s ∧ s'.encView = s.encView)
      (fun s => eRowInit s >>= fun s1 => compressChunks (chunks s1.w) s1 >>= encStep)
      (Goes fun s s' => EncRows k s ∧ s'.encView = s.encView) := by
    rintro s s' t t' ⟨hs, hv⟩ h h'
    obtain ⟨s1, h1, h⟩ := bind_eq_ok.1 h
    obtain ⟨s1', h1', h'⟩ := bind_eq_ok.1 h'
    obtain ⟨s2, h2, h⟩ := bind_eq_ok.1 h
    obtain ⟨s2', h2', h'⟩ := bind_eq_ok.1 h'
    have hscanned := rowScan_same hs.width hv h1 h1' h2 h2'
    have hchunks := (compressChunks_plays k _ s1 ((eRowInit_plays k s hs).2 s1 h1)).2 s2 h2
    have hview := rowEnd_same hscanned hchunks h h'
    exact ⟨visible_of_encView hview, fun _ => ⟨(rowEnd_plays k s2 hchunks).2 t h, hview⟩⟩
  exact (eGrow_same k).bind hrow.whileBusy

theorem compressRows_same (k : Nat) :
    Same (fun s s' => EncRows k s ∧ s'.encView = s.encView) (compressRows k)
      (Goes fun s s' => EncRows 0 s ∧ s'.encView = s.encView) := by
  induction k with
  | zero =>
    rintro s s' t t' ⟨hs, hv⟩ h h'
    obtain rfl := Except.ok.inj h
    obtain rfl := Except.ok.inj h'
    exact ⟨visible_of_encView hv, fun _ => ⟨hs, hv⟩⟩
  | succ k ih => exact (compressRow_same k).bind ih.whileBusy

/-! ### The command -/

/-- The size that the entry checks latch (R171). -/
def latchSize (s : State) : State := { s with w := s.argWidth.toNat, h := s.argHeight.toNat }

/-- Where `E_CHECK` goes on with an image, and with a zero dimension (R171). -/
def enterImage (s : State) : State := { latchSize s with estate := .header }

def enterDegenerate (s : State) : State := { s with estate := .degenerate }

/-- The registers that `E_DEGENERATE` and `E_HEADER` write (R172, R173). -/
def degenerateDone (s : State) : State :=
  { s with
    ext := 9, resLen := 9, resWidth := 0, resHeight := 0, status := { s.status with fail := false }, err := 0, estate := .success }

def headerDone (s : State) : State := { s with ext := 9, cur := s.h, row := 0, estate := .grow }

theorem eCheck_eq (s : State) :
    eCheck s =
      if s.argPresent = false then .ok (raiseFail .sourceAbsent s)
      else if s.argWidth.toInt < 0 ∨ s.argHeight.toInt < 0 then .ok (raiseFail .badDimension s)
      else if s.argWidth = 0 ∨ s.argHeight = 0 then .ok (enterDegenerate s)
      else if s.caps.pixCap < s.argWidth.toNat * s.argHeight.toNat ∨ s.caps.scrCap < scratchBytes s.argWidth.toNat then
        .ok (raiseFail .capacity (latchSize s))
      else .ok (enterImage s) := rfl

theorem eDegenerate_eq (s : State) : eDegenerate s = headerWriteDegenerate s >>= fun u => .ok (degenerateDone u) := rfl

theorem eHeader_eq (s : State) : eHeader s = headerWrite s s.w s.h >>= fun u => .ok (headerDone u) := rfl

/-- Two states in which the entry checks have passed (R171). -/
structure CheckedAlike (s s' : State) : Prop where
  visible : s'.visible = s.visible
  estate  : s'.estate = s.estate
  image   : s.estate ≠ .degenerate → EncAt .header s ∧ 0 < s.w ∧ 0 < s.h
  size    : s.estate ≠ .degenerate → s'.sizeView = s.sizeView

theorem eCheck_same : Same (fun s s' => EncAt .check s ∧ s'.visible = s.visible) eCheck (Goes CheckedAlike) := by
  rintro s s' t t' ⟨hs, hv⟩ h h'
  have hnext := (eCheck_plays s hs).2 t h
  have hpresent : s'.argPresent = s.argPresent := (congrArg State.argPresent hv :)
  have hwidth : s'.argWidth = s.argWidth := (congrArg State.argWidth hv :)
  have hheight : s'.argHeight = s.argHeight := (congrArg State.argHeight hv :)
  have himage : t.status.busy = true → t.estate ≠ .degenerate → EncAt .header t ∧ 0 < t.w ∧ 0 < t.h :=
    fun hb hne => (hnext hb).resolve_left fun hd => hne hd.estate
  rw [eCheck_eq] at h h'
  rw [hpresent, hwidth, hheight, caps_of_visible hv] at h'
  split_ifs at h h'
  all_goals
    obtain rfl := Except.ok.inj h
    obtain rfl := Except.ok.inj h'
  · exact ⟨raiseFail_alike .sourceAbsent hv, fun hb => Bool.noConfusion hb⟩
  · exact ⟨raiseFail_alike .badDimension hv, fun hb => Bool.noConfusion hb⟩
  · exact ⟨hv, fun hb => ⟨hv, rfl, himage hb, fun hne => absurd rfl hne⟩⟩
  · exact ⟨(congrArg (fun r => (raiseFail .capacity (latchSize r)).visible) hv :), fun hb => Bool.noConfusion hb⟩
  · exact ⟨hv, fun hb => ⟨hv, rfl, himage hb, fun _ => (congrArg (fun r => (enterImage r).sizeView) hv :)⟩⟩

theorem degenerateEnd_same :
    Same (fun s s' => s'.visible = s.visible) (fun s => eDegenerate s >>= fun t => .ok (complete t)) (Goes fun _ _ => True) := by
  intro s s' t t' hv h h'
  obtain ⟨u, hu, h⟩ := bind_eq_ok.1 h
  obtain ⟨u', hu', h'⟩ := bind_eq_ok.1 h'
  obtain rfl := Except.ok.inj h
  obtain rfl := Except.ok.inj h'
  rw [eDegenerate_eq] at hu hu'
  have hview : u'.visible = u.visible :=
    written_same (onStore_storeBytes .cmp 0 _) (caps_of_visible hv) (mem_of_visible hv (by decide))
      (g := degenerateDone) (fun x => (congrArg (fun r : State => (degenerateDone (r.setMem .cmp x)).visible) hv :)) hu hu'
  exact ⟨(congrArg (fun r => (complete r).visible) hview :), fun _ => trivial⟩

theorem eHeader_same :
    Same (fun s s' => (EncAt .header s ∧ 0 < s.w ∧ 0 < s.h) ∧ s'.sizeView = s.sizeView) eHeader fun t t' =>
      EncRows t.h t ∧ t'.encView = t.encView := by
  rintro s s' t t' ⟨hs, hv⟩ h h'
  have hw : s'.w = s.w := (congrArg State.w hv :)
  have hh : s'.h = s.h := (congrArg State.h hv :)
  have hvis : s'.visible = s.visible := (congrArg State.visible hv :)
  refine ⟨(eHeader_plays s hs).2 t h, ?_⟩
  rw [eHeader_eq] at h h'
  rw [hw, hh] at h'
  exact written_same (onStore_storeBytes .cmp 0 _) (caps_of_visible hvis) (mem_of_visible hvis (by decide))
    (fun x => (congrArg (fun r : State => (headerDone (r.setMem .cmp x)).encView) hv :)) h h'

theorem compressBody_same :
    Same (fun s s' => EncAt .check s ∧ s'.visible = s.visible) compressBody fun t t' => t'.visible = t.visible := by
  have hrows : Same (fun s s' => EncRows s.h s ∧ s'.encView = s.encView) (fun s => compressRows s.h s)
      (Goes fun s s' => EncRows 0 s ∧ s'.encView = s.encView) := by
    rintro s s' t t' ⟨hs, hv⟩ h h'
    have hh : s'.h = s.h := (congrArg State.h hv :)
    dsimp only at h h'
    rw [hh] at h'
    exact compressRows_same s.h s s' t t' ⟨hs, hv⟩ h h'
  have hfinish : Same (fun s s' => EncRows 0 s ∧ s'.encView = s.encView) (fun s => eFinish s >>= fun t => .ok (complete t))
      (Goes fun _ _ => True) := by
    rintro s s' t t' ⟨-, hv⟩ h h'
    obtain rfl := Except.ok.inj h
    obtain rfl := Except.ok.inj h'
    exact ⟨(congrArg (fun r => (endWith (9 + ceil8 r.cur) 0 0 r).visible) hv :), fun _ => trivial⟩
  have himage := eHeader_same.bind (hrows.bind hfinish.whileBusy)
  have hchecked : Same CheckedAlike (fun s => if s.estate = .degenerate then eDegenerate s >>= fun t => .ok (complete t)
      else eHeader s >>= fun t => compressRows t.h t >>= whileBusy fun u => eFinish u >>= fun v => .ok (complete v))
      (Goes fun _ _ => True) := by
    refine Same.ite (fun s s' hR => by rw [hR.estate]) ?_ ?_
    · rintro s s' t t' ⟨hR, -⟩
      exact degenerateEnd_same s s' t t' hR.visible
    · rintro s s' t t' ⟨hR, hne⟩
      exact himage s s' t t' ⟨hR.image hne, hR.size hne⟩
  intro s s' t t' hR h h'
  exact ((eCheck_same.bind hchecked.whileBusy) s s' t t' hR h h').1

/-! ### The statement -/

theorem eCheck_of_none {s : State} (h : compressCause s = none) :
    eCheck s = .ok (enterDegenerate s) ∨ eCheck s = .ok (enterImage s) := by
  rw [compressCause] at h
  rw [eCheck_eq]
  split_ifs at h ⊢
  · exact .inl rfl
  · exact .inr rfl

/-- A `COMPRESS` that has passed its entry checks and answers has written a header (R172, R173). -/
theorem headerBytes_le_of_compressBody {s t : State} (hb : s.status.busy = true) (hcause : compressCause s = none)
    (h : compressBody s = .ok t) : Config.headerBytes ≤ s.caps.cmpCap := by
  obtain ⟨u, hu, h⟩ := bind_eq_ok.1 h
  have hwritten {w h : Word32} {r v : State} (hv : storeBytes r .cmp 0 (headerOf w h) = .ok v) :
      Config.headerBytes ≤ r.caps.cmpCap := by
    have hle := headerBytes_le hv
    rwa [Nat.zero_add] at hle
  rcases eCheck_of_none hcause with hcheck | hcheck
  all_goals
    obtain rfl := Except.ok.inj (hcheck.symm.trans hu)
  · rw [whileBusy_of_busy (show (enterDegenerate s).status.busy = true from hb),
      if_pos (show (enterDegenerate s).estate = .degenerate from rfl)] at h
    obtain ⟨_, hzero, -⟩ := bind_eq_ok.1 h
    obtain ⟨_, hheader, -⟩ := bind_eq_ok.1 hzero
    exact hwritten (w := 0) (h := 0) (r := enterDegenerate s) hheader
  · rw [whileBusy_of_busy (show (enterImage s).status.busy = true from hb),
      if_neg (show (enterImage s).estate ≠ .degenerate from (by decide : EState.header ≠ .degenerate))] at h
    obtain ⟨_, hsize, -⟩ := bind_eq_ok.1 h
    obtain ⟨_, hheader, -⟩ := bind_eq_ok.1 hsize
    exact hwritten (w := .ofNat 32 (enterImage s).w) (h := .ofNat 32 (enterImage s).h) (r := enterImage s) hheader

theorem compressBody_alike (s s' t : State) (hv : s'.visible = s.visible) (h : compressBody (beginCommand 6 s) = .ok t)
    (hb : s'.status.busy = false) : ∃ t', compressBody (beginCommand 6 s') = .ok t' ∧ t'.visible = t.visible := by
  have hcause : compressCause s' = compressCause s := (congrArg compressCause hv :)
  have hanswer : ∃ t', exec .compress s' = .next t' := by
    cases hc : compressCause s with
    | some c =>
      obtain ⟨t', ht', -⟩ := exec_compress_of_some hb (hcause.trans hc)
      exact ⟨t', ht'⟩
    | none =>
      have hcap : Config.headerBytes ≤ s.caps.cmpCap := headerBytes_le_of_compressBody (s := beginCommand 6 s) rfl hc h
      exact exec_compress_completes hb (caps_of_visible hv ▸ hcap)
  obtain ⟨t', ht'⟩ := hanswer
  have hrun : compressBody (beginCommand 6 s') = .ok t' := by
    rw [← toOutcome_eq_next, ← runCommand_of_idle hb]
    exact ht'
  have hstart : (beginCommand 6 s').visible = (beginCommand 6 s).visible :=
    (congrArg (fun r => (beginCommand 6 r).visible) hv :)
  exact ⟨t', hrun, compressBody_same _ _ t t' ⟨⟨rfl, rfl, rfl⟩, hstart⟩ h hrun⟩

/-- A command's answer is its body's. -/
theorem runCommand_alike {c : BitVec 4} {body : State → Res State} {s s' t : State} (hb : s.status.busy = false)
    (hb' : s'.status.busy = false)
    (hbody : body (beginCommand c s) = .ok t → ∃ t', body (beginCommand c s') = .ok t' ∧ t'.visible = t.visible)
    (h : runCommand c body s = .next t) : ∃ t', runCommand c body s' = .next t' ∧ t'.visible = t.visible := by
  rw [runCommand_of_idle hb, toOutcome_eq_next] at h
  obtain ⟨t', ht', hvis⟩ := hbody h
  exact ⟨t', by rw [runCommand_of_idle hb', toOutcome_eq_next, ht'], hvis⟩

/-- The accessor commands begin alike (R24). -/
theorem accessor_alike {c : BitVec 4} {body : State → Res State} (hbody : AnswersAlike body) {s s' t : State}
    (hv : s'.visible = s.visible) (hb : s.status.busy = false) (hb' : s'.status.busy = false)
    (h : runCommand c body s = .next t) : ∃ t', runCommand c body s' = .next t' ∧ t'.visible = t.visible :=
  runCommand_alike hb hb' (hbody _ _ t (congrArg (fun r => (beginCommand c r).visible) hv :)) h

/-- Settles O52: the accessor commands read and write visible stores alone, and the two codec loops are run side by side. -/
theorem commandsDependOnVisibleState : Obligations.CommandsDependOnVisibleState := by
  intro i s s' t hi hb hv h
  have hb' : s'.status.busy = false := (congrArg (·.status.busy) hv :).trans hb
  cases i with
  | rdbit => exact accessor_alike rdbitBody_alike hv hb hb' h
  | rdchunk => exact accessor_alike rdchunkBody_alike hv hb hb' h
  | setbit => exact accessor_alike setbitBody_alike hv hb hb' h
  | clrbit => exact accessor_alike clrbitBody_alike hv hb hb' h
  | wrchunk => exact accessor_alike wrchunkBody_alike hv hb hb' h
  | compress => exact runCommand_alike hb hb' (fun h => compressBody_alike s s' t hv h hb') h
  | decompress => exact runCommand_alike hb hb' (fun h => decompressBody_alike s s' t hv h hb') h
  | _ => simp [Instr.fits] at hi

end Sys2Proof.Machine
end
